-- ==== Sys2Proof/Word.lean ====
section
/-!
DEFINITION. The word types of the Emvin GX8 model. Register contents and stored bytes are bit vectors; identifiers, addresses while
they index a memory, counts and sizes are natural numbers.
-/
namespace Sys2Proof

/-- One byte of a memory (R6: little-endian order of bytes). -/
abbrev Byte := BitVec 8

/-- A 64-bit register word (R407) or scalar register (Table 5.1). -/
abbrev Word := BitVec 64

/-- The bits of an FP32 value (Table 2.1, code 0x8). -/
abbrev F32 := BitVec 32

/-- A master identity, 6 bits (Table 13.2). -/
abbrev Mid := BitVec 6

/-- A compensated pair (S, c) (Table 2.2). -/
structure Pair where
  s : F32
  c : F32
  deriving DecidableEq, Repr

/-- The pair (+0, +0). -/
def Pair.zero : Pair := ⟨0#32, 0#32⟩

end Sys2Proof
end

