-- ==== Sys2Proof/Syntax.lean ====
section
/-!
DEFINITION. The commands of the block: one constructor of `Instr` per row of spec/opcode_table.json, with the operands the row's text
names. A quantity that the surroundings decide (a measured count of waves or bytes, a fabric answer, a checker's finding, a master
identity) is an operand. Identifiers of units are natural numbers; `Sys2Proof.WellFormed` says which exist.
-/
namespace Sys2Proof

/-- The islands' and units' measurements that enter a reply and the accounts (Table 11.5, Table 12.3). -/
structure Meas where
  waves : Nat        -- the reply's WAVES: the largest over the job's cores
  coreWaves : Nat    -- A_CWAVES: the sum over the job's cores
  coreNs : Nat       -- A_CNS
  unitNs : Nat       -- A_XNS: nanoseconds of the unit that ran a command that is no core command
  keeperNs : Nat     -- nanoseconds of the Keeper from such a command's start to its reply (R303)
  rbytes : Nat       -- bytes read from memory
  wbytes : Nat       -- bytes written to memory
  deriving DecidableEq, Repr

/-- The response codes of a fabric transfer (R424). -/
inductive FabricCode where
  | ok | xlate | uncorr
  deriving DecidableEq, Repr

/-- A control access of the Keeper, by the work that waits on it (R143, Table 6.1a): the next packet of a queue's ring; the tables of that packet's
command; a queue's context; the next reply of a queue; a table, word, list or area of the queue's command; a job's save area, written or read. -/
inductive CtlAccess where
  | ring (q : Nat) | tables (q : Nat) | context (q : Nat) | reply (q : Nat) | command (q : Nat) | save (j : Nat) | restore (j : Nat)
  deriving DecidableEq, Repr

/-- What the fabric answers: a stream's transfer by its number, or a control access. -/
inductive Answered where
  | transfer (id : Nat) | control (a : CtlAccess)
  deriving DecidableEq, Repr

/-- A link of the reduction port (R253, Table 10.1). -/
inductive RedLink where
  | up | cl | cr
  deriving DecidableEq, Repr

/-- What a first segment carries besides data: the digest of R258, and its shape record with the parts for the source extents and
for the destination's FMT, T, SCLSLOT and TID. -/
structure SegHead where
  digest : List Nat
  dims : Option (Nat × Nat)
  dst : Option (Nat × Nat × Bool × Nat)
  deriving DecidableEq, Repr

/-- One segment on a reduction link (R254): the sequence number of its collective, the offset of its first wire element, the bytes of a wire
element, the elements (each the bits of one wire element), whether it is the collective's last segment, and in the first one the heads of every position of
the subtree it comes from. -/
structure Segment where
  cseq : Nat
  offset : Nat
  bytes : Nat
  elems : List Nat
  last : Bool
  heads : List SegHead
  deriving DecidableEq, Repr

/-- What a check found on a physical core (R335, R337; KIND 1-3 of Table 14.5). -/
inductive CheckKind where
  | residue | adderParity | controlParity
  deriving DecidableEq, Repr

/-- A link that carries frames (R340): mesh link of a physical core and direction N, E, S, W (0-3); couple link of a core and side
(0 west, 1 east); fabric port 0-7; reduction link 0-2. -/
inductive FrameLink where
  | mesh (p d : Nat) | couple (p side : Nat) | fabric (k : Nat) | reduction (l : Nat)
  deriving DecidableEq, Repr

/-- A storage array with check bits (R338): scratchpad or accumulator store of a physical core, or the central store. -/
inductive Storage where
  | scratch (p : Nat) | acc (p : Nat) | central
  deriving DecidableEq, Repr

/-- Whom a share of an interval's energy is charged to (R315, R316): the command at a place of the list of commands without a reply, in the
order read; for ballast, the client of the last command (R79); the save or the restore of a job. -/
inductive EnergyTo where
  | command (k : Nat) | client (c : Nat) | save (j : Nat) | restore (j : Nat)
  deriving DecidableEq, Repr

/-- What waits, for WAIT_WATCHDOG: a logical core, or a queue's command (R125, R293, R368, R396, R258). -/
inductive Waiter where
  | core (l : Nat) | queue (q : Nat)
  deriving DecidableEq, Repr

/-- What the boot self-test found (R405, R406). -/
structure BootResult where
  failedCores : List Nat     -- physical cores that failed
  storageBad : List Nat      -- of those and of the retired ones, whose storage fails the self-check of R403
  failedPorts : List Nat     -- fabric ports that failed test or training
  failedRLinks : List Nat    -- reduction links 0-2 that failed
  failedUnit : Nat           -- 0 none, 1 half 0, 2 half 1, 3 Tender, 4 Lens, 5 combine unit (ERRU of Table 16.10)
  timeUs : Nat               -- BTIME
  deriving DecidableEq, Repr

/-- The 146 steps of the engine, one constructor per row of the table. `q` is a queue ID, `l` a logical core, `p` a physical core, `j` a
job, `mid` the master identity of a register access, `v` the value written, `us` a time in microseconds. -/
inductive Instr where
  -- products
  | gpair (q : Nat) | dxp (q : Nat) | dwp (q : Nat) | matmul (q : Nat)
  -- layer backward
  | nbwd (q : Nat) | sbwd (q : Nat) | abwd (q : Nat) | epi (q : Nat)
  -- sparse and routed
  | embg (q : Nat) | embgPhase (q : Nat) | merge (q : Nat) | xgrad (q : Nat) | prune (q : Nat)
  -- Lens and movement
  | lens (q : Nat) | lensUnit (err : Bool) | aliasFoldPass (q : Nat) | copy (q : Nat) | fill (q : Nat)
  -- collectives
  | reduce (q : Nat) | gnorm (q : Nat) | amax (q : Nat)
  | reductionSegment (link : RedLink) (seg : Segment) (err : Bool) | collectiveAbort (link : RedLink) (cseq : Nat)
  -- Keeper commands
  | barrier (q : Nat) | fence (q : Nat) | loop (q : Nat) | waitq (q : Nat) | waitqPoll (q : Nat) | runp (q : Nat) | chain (q : Nat)
  | save (q : Nat) | restore (q : Nat) | daymark (q : Nat) | daymarkCapture (q : Nat) | parity (q : Nat) | cfg (q : Nat) | nop (q : Nat)
  -- life of a packet, jobs
  | packetRead (q : Nat) | admission (j : Nat) | commandCompletion (q : Nat) (m : Meas) | contextRestore (j saveNs restoreNs : Nat)
  | stagedConfigApply
  -- doorbells and queue control
  | qbellPackets (mid : Mid) (v : Word) | qbellReplies (mid : Mid) (v : Word) | queueEnable (mid : Mid) (v : Word)
  | queueDisable (mid : Mid) (v : Word) | queueCancel (mid : Mid) (v : Word) | queueEvict (mid : Mid) (v : Word)
  | queueBringIn (mid : Mid) (v : Word)
  -- arrays
  | sliceInject (l arr : Nat) (col : Bool) (feeder : Nat) | cubeWave (l arr r c : Nat) | drainRow (l : Nat) | preloadRow (l : Nat)
  -- Tender
  | tenderBlockIssue (q stream : Nat) | fabricResponse (x : Answered) (code : FabricCode) | pfResume (mid : Mid) | pfAbort (mid : Mid)
  | streamWatchdog (q stream us : Nat) | waitWatchdog (w : Waiter) (us : Nat)
  -- core instructions
  | nopInstruction (l : Nat) | salu (l : Nat) | sli (l : Nat) | sld (l : Nat) | sst (l : Nat) | ags (l : Nat) | aga (l : Nat)
  | br (l : Nat) | loopInstruction (l : Nat) | halt (l : Nat) | programEnd (l : Nat) | tld (l : Nat) | tst (l : Nat) | wb (l : Nat)
  | pld (l : Nat) | pdr (l : Nat) | pew (l : Nat) | vop (l : Nat) | vred (l : Nat) | vsf (l : Nat) | send (l : Nat) | recv (l : Nat)
  | messageTransfer (l idx : Nat) | mwait (l : Nat) | claim (l : Nat) | bar (l : Nat) | barrierRelease (l scope id : Nat) | sig (l : Nat)
  | swait (l : Nat) | mark (l : Nat) | markComplete (l : Nat) | chfree (l : Nat) | chput (l : Nat) | chget (l : Nat) | chrel (l : Nat)
  -- checks, storage, links
  | checkEvent (p : Nat) (kind : CheckKind) (unit : Nat) (loc : Word) (life : Nat) (storageOk : Bool) | replayStart (l : Nat)
  | eccWriteback (st : Storage) (addr : Nat) | scrub (st : Storage) | linkFrameReceive (link : FrameLink) (seqno : Nat) (crcOk : Bool)
  | frameResendTimeout (link : FrameLink) | fltPop (mid : Mid) | retSeedWrite (mid : Mid) (hi : Bool) (v : Word)
  | fiArm (mid : Mid) (v : Word) | injection
  -- windows
  | rbRead (mid : Mid) | illRecRead (mid : Mid) | acctSelect (mid : Mid) (v : Word) | amaxLoad (mid : Mid) | amaxStore (mid : Mid)
  -- mailboxes
  | mbDataWrite (mid : Mid) (ch w : Nat) (v : Word) | mbBell (mid : Mid) (ch : Nat) | mbBeacon (mid : Mid) (ch : Nat)
  | mbEmpty (mid : Mid) (ch : Nat) | mbFogTimeout (ch : Nat) | mbCtlWrite (mid : Mid) (ch : Nat) (v : Word)
  | mbBind (mid : Mid) (ch : Nat) (v : Word) | mbLock (mid : Mid)
  -- firmware and Keeper
  | fwLoad (mid : Mid) | fwAbort (mid : Mid) | firmwareVerify (readOk : Bool) | arcAdvance (mid : Mid) | arcAdvanceEnd (fuseFailedAfter : Option Nat)
  | keeperWatchdogExpiry
  -- power, clocks, reset
  | powerTargetWrite (mid : Mid) (d : Nat) (target : BitVec 2) | vreqWrite (mid : Mid) (d : Nat) (v : BitVec 6)
  | heldTargetApply (d : Nat) | powerTransitionDone (d : Nat) (failedCores storageBad failedLinks : List Nat)
  | regulatorAck (d : Nat) (code : BitVec 6)
  | currentSample (d : Nat) (tenMa : BitVec 16) | energyInterval (dom mv : Nat) (shares : List (EnergyTo × Nat))
  | undervoltageHold (dom : Nat) | undervoltageRelease (dom : Nat) | thermalHold (dom tempC : Nat) | thermalRelease (dom tempC : Nat)
  | clockStop (dom : Nat) | clockResume (dom : Nat) | coldResetLine (cycles : Nat) | warmResetLine (cycles : Nat)
  | rstCold (mid : Mid) | rstWarm (mid : Mid) | fabricExtentReport (bytes : Nat) | bootSelfTestDone (res : BootResult)
  | registerWrite (mid : Mid) (aligned : Bool) (off : BitVec 24) (v : Word) | keeperDomainPowerUp | keeperHeartbeat
  | tapTckEdge (rising tms tdi : Bool)
  deriving DecidableEq, Repr

end Sys2Proof
end

