-- ==== Sys2Proof/Decode.lean ====
section
/-!
DEFINITION. The block has no instruction words of its own: no row of spec/opcode_table.json gives its step bits (every row's "fields" is
empty), so no word spells a command. The 64-bit core-program words, the packets and the tables that commands read from memory are decoded
inside the meanings, in Machine/Packets.lean, Machine/Operands.lean and Machine/Cores.lean.
-/
namespace Sys2Proof

/-- The command that a word spells by the table's bits: none, since the table gives no row bits. -/
def decodeTableWord (_nbits _w : Nat) : Option Instr := none

end Sys2Proof
end

