-- ==== Sys2Proof/Machine/Bits.lean ====
section
/-!
DEFINITION. Bit fields, sign extension, little-endian bytes (R6) and small list operations that every chapter uses.
-/
namespace Sys2Proof.Machine

/-- Bits [lo + n - 1 : lo] of `w` as a number (R6). -/
def bf (w lo n : Nat) : Nat := (w >>> lo) % 2 ^ n

/-- Bit `i` of `w`. -/
def bit (w i : Nat) : Bool := (w >>> i) % 2 == 1

/-- The two's complement value of the `n` low bits of `w`. -/
def sext (n w : Nat) : Int := if bit w (n - 1) then (w % 2 ^ n : Nat) - (2 ^ n : Nat) else (w % 2 ^ n : Nat)

/-- The `n` low bits of an integer in two's complement. -/
def twos (n : Nat) (x : Int) : Nat := (x % (2 ^ n : Nat)).toNat

/-- 1 or 0. -/
def b2n (b : Bool) : Nat := if b then 1 else 0

/-- The `n` low bytes of `v`, least significant first. -/
def leBytes : Nat → Nat → List Byte
  | 0, _ => []
  | n + 1, v => BitVec.ofNat 8 v :: leBytes n (v / 256)

/-- The number that bytes spell, least significant first. -/
def ofLe : List Byte → Nat
  | [] => 0
  | b :: bs => b.toNat + 256 * ofLe bs

/-- The number that bytes spell, most significant first. -/
def ofBe (bs : List Byte) : Nat := bs.foldl (fun a b => a * 256 + b.toNat) 0

/-- Quotient rounded up. -/
def cdiv (a b : Nat) : Nat := (a + b - 1) / b

/-- `v` lowered to `hi`. -/
def satTo (hi v : Nat) : Nat := if v ≤ hi then v else hi

/-- A 48-bit counter advanced by `n` (log 19: wraps). -/
def ctr48 (c n : Nat) : Nat := (c + n) % 2 ^ 48

/-- Entry `i` of a list of counters advanced by `n`. -/
def bump (l : List Nat) (i n : Nat) : List Nat := l.modify i (ctr48 · n)

/-- Greatest common divisor is the library's; least of a list of options. -/
def minOpt (a b : Option Nat) : Option Nat :=
  match a, b with
  | none, y => y
  | x, none => x
  | some x, some y => some (if x ≤ y then x else y)

/-- Value of a key in an association list. -/
def lookupD {α : Type} (d : α) : List (Nat × α) → Nat → α
  | [], _ => d
  | (k, v) :: r, i => if k == i then v else lookupD d r i

/-- An association list, rising keys, with `i` set to `v`; an entry equal to the default is not listed. -/
def assocSet {α : Type} [DecidableEq α] (d : α) : List (Nat × α) → Nat → α → List (Nat × α)
  | [], i, v => if v = d then [] else [(i, v)]
  | (k, x) :: r, i, v =>
    if i < k then (if v = d then (k, x) :: r else (i, v) :: (k, x) :: r)
    else if i = k then (if v = d then r else (k, v) :: r)
    else (k, x) :: assocSet d r i v

/-- The first element that satisfies `p`, changed by `f`. -/
def modifyFirst {α : Type} (p : α → Bool) (f : α → α) : List α → List α
  | [] => []
  | x :: r => if p x then f x :: r else x :: modifyFirst p f r

/-- Numbers `a`, `a + 1`, … , `a + n - 1`. -/
def rangeFrom (a n : Nat) : List Nat := List.range' a n

/-- The set bits of `m` below `n`, rising. -/
def bitsOf (m n : Nat) : List Nat := (List.range n).filter (bit m)

/-- Stable insertion by a key, for orders such as "descending PRIO, then ascending QID". -/
def insertBy {α : Type} (le : α → α → Bool) (x : α) : List α → List α
  | [] => [x]
  | y :: r => if le x y then x :: y :: r else y :: insertBy le x r

/-- Insertion sort, stable. -/
def sortBy {α : Type} (le : α → α → Bool) : List α → List α
  | [] => []
  | x :: r => insertBy le x (sortBy le r)

end Sys2Proof.Machine
end

