-- ==== Sys2Proof/Machine/Crc.lean ====
section
/-!
DEFINITION. The check sums of the engine: CRC-32C of packets (R267) and CRC-64 of Daymark areas, save areas and parity stamps (Table 15.3).
-/
namespace Sys2Proof.Machine

/-- One bit of a reflected CRC-32C: polynomial 0x1EDC_6F41, reflected 0x82F6_3B78. -/
def crc32Bit (c : Nat) : Nat := if c % 2 = 1 then (c / 2) ^^^ 0x82F63B78 else c / 2

/-- `n` bits. -/
def crc32Bits : Nat → Nat → Nat
  | 0, c => c
  | n + 1, c => crc32Bits n (crc32Bit c)

/-- CRC-32C (R267): initial value and final XOR 0xFFFF_FFFF. -/
def crc32c (bs : List Byte) : Nat := bs.foldl (fun c b => crc32Bits 8 (c ^^^ b.toNat)) 0xFFFFFFFF ^^^ 0xFFFFFFFF

/-- One bit of CRC-64, most significant first, polynomial 0x42F0_E1EB_A9EA_3693. -/
def crc64Bit (c : Nat) : Nat := if bit c 63 then (2 * c) % 2 ^ 64 ^^^ 0x42F0E1EBA9EA3693 else 2 * c

/-- `n` bits. -/
def crc64Bits : Nat → Nat → Nat
  | 0, c => c
  | n + 1, c => crc64Bits n (crc64Bit c)

/-- CRC-64 continued from `c`: initial value 0, no reflection, no final XOR. -/
def crc64From (c : Nat) (bs : List Byte) : Nat := bs.foldl (fun c b => crc64Bits 8 (c ^^^ b.toNat * 2 ^ 56)) c

/-- CRC-64 of bytes. -/
def crc64 (bs : List Byte) : Nat := crc64From 0 bs

end Sys2Proof.Machine
end

