-- ==== Sys2Proof/Config.lean ====
section
/-!
DEFINITION. Constants of stepping B0, and the free values: what the manual leaves open. A free value is an opaque constant applied to a
counter of State (and to what it depends on); it has no body, so nothing in Lean can tell which value it is.
-/
namespace Sys2Proof.Config

/-- Physical cores and logical IDs (Table 17.3). -/
def physCores : Nat := 68
def logCores : Nat := 64

/-- Bytes of the central store (Table 17.3, CS_MIB). -/
def centralBytes : Nat := 268435456

/-- Bytes of a core's scratchpad, accumulator store, cell planes and program memory (Table 14.9). -/
def scratchBytes : Nat := 1572864
def accBytes : Nat := 2097152
def planeBytes : Nat := 65536
def progBytes : Nat := 65536

/-- Queue contexts of the table (Table 17.3, QLOG2). -/
def queueCount : Nat := 4194304

/-- Entries of the in-flight tile table (R287), resident slots (R280). -/
def ittEntries : Nat := 4096
def residentSlots : Nat := 512

/-- FREE VALUE (log 6): byte at an address of a spill or dX partial region that a command has used. -/
opaque freeByte : Nat → Nat → Byte

/-- FREE VALUE (log 94): word i of a Keeper expansion, by what it depends on (R141). -/
opaque expansionWord : List Nat → Nat → Word

/-- FREE VALUE (log 94): how many instructions the Keeper expansion has. -/
opaque expansionLen : List Nat → Nat

/-- FREE VALUE (log 6): whether write number n of a command stopped midway had begun its transfer (R168, R283, R357, R402). -/
opaque begun : Nat → Nat → Bool

/-- FREE VALUE (log 17): an FP32 result of a special function that the model's error bounds do not decide. -/
opaque undecided : Nat → F32 → F32

/-- FREE VALUE (log 16): the TAP instruction that a shifted-in code selects: 0 BYPASS, 1 SAMPLE, 2 the IEEE 1687 network (R433). -/
opaque tapCode : List Bool → Nat

/-- FREE VALUE (log 16): the bit of a data register other than BYPASS that a shift delivers. -/
opaque tapData : Nat → Bool

/-- FREE VALUE (log 18): a word of read-back space whose layout the manual does not give, by space and offset. -/
opaque rawWord : Nat → Nat → Nat → Word

/-- FREE VALUE (log 6): what the engine measures and the model does not follow (a time, a rate, a wear figure, a share), or a choice that the manual
leaves open: counter, and which of them. -/
opaque sampled : Nat → Nat → Word

/-- FREE VALUE (log 27): bytes by which the reserves of a command exceed the least that they can be, by what its expansion depends on (R56, R141). -/
opaque reserveExtra : List Nat → Nat

/-- FREE VALUE (log 31): where in its partition the engine places an allocation whose place the manual does not give, in lines of 128 B. -/
opaque place : Nat → Nat

/-- FREE VALUE (log 20): whether the Tender skips the blocks of an operand region that a zero map marks (R246): what the command's expansion depends
on (R56, R141), region. -/
opaque zskip : List Nat → Nat → Bool

/-- FREE VALUE (log 22): encoding of a value element of `PRUNE` that no kept position fills (R190): the command's parameters and the group's
encodings (R56), row, column. -/
opaque pruneFill : List Nat → Nat → Nat → Nat

/-- FREE VALUE (log 21): which of the hash units with work left acts next in an accumulate phase (R233): counter, turn. -/
opaque hashTurn : Nat → Nat → Nat

end Sys2Proof.Config
end

