-- ==== Sys2Proof/Machine/State.lean ====
section
/-!
DEFINITION. The state of one GX8 engine as plain data, in components that follow the chapters of the manual, the faults and refusals of
the model, and the state after cold reset. Every field of `State` is one component; a meaning answers with an update of the components it
touches, so what it leaves alone can be read off.
-/
namespace Sys2Proof.Machine

/-! ## Memories -/

/-- A memory: address and byte pairs, addresses strictly rising, no byte 0 listed. An unlisted address reads 0: the zeroed storages of
Table 16.8, and for the die's memory a DESIGN CHOICE (log 1). -/
structure Memory where
  cells : List Host.Cell
  deriving DecidableEq, Repr

/-- The memory that lists nothing. -/
def Memory.empty : Memory := ⟨[]⟩

/-! ## Structures that packets name -/

/-- A tensor descriptor (Table 7.1); signed fields are integers. -/
structure Desc where
  base : Nat
  fmt : Nat
  sclslot : Bool
  bsc : Bool
  ralias : Bool
  loc : Bool
  t : Int
  rows : Nat
  cols : Nat
  rstride : Int
  kdir : Bool
  rsv : Nat
  tid : Nat
  s1 : Int
  s2 : Int
  scBase : Nat
  scStride : Int
  fill : Nat
  row0 : Nat
  col0 : Nat
  grows : Nat
  gcols : Nat
  deriving DecidableEq, Repr

/-- A loop descriptor (Table 4.3). -/
structure LoopDesc where
  shape : Nat
  walk : Nat
  order : Nat
  drainCol : Bool
  kpiece : Nat
  groupM : Nat
  groupN : Nat
  spillCs : Nat
  gpBt : Nat
  gpBf : Nat
  gpFw : Nat
  nb1 : Nat
  nb2 : Nat
  deriving DecidableEq, Repr

/-- A stream binding (Table 6.3). -/
structure Binding where
  list : Nat
  slotLines : Nat
  cons : Nat
  zmap : Nat
  early : Bool
  deriving DecidableEq, Repr

/-- How far a command has come: read and legal under check 1, refused by a check, admitted, started, ended without its reply. -/
inductive Stage where
  | read | refused | admitted | started | ended
  deriving DecidableEq, Repr

/-- A completion condition or a refusal: the status code with its FIRST and COUNT (Table 11.6). -/
structure Cond where
  code : Nat
  first : Nat
  count : Nat
  deriving DecidableEq, Repr

/-- The arithmetic exception figures of one command (R54): the rank of the output, and its lowest infinity and NaN indices. -/
structure ExcRec where
  outn : Nat
  inf : Option Nat
  nan : Option Nat
  deriving DecidableEq, Repr

/-- A run of an index list (R226): head position, length and index value. -/
structure Run where
  head : Nat
  len : Nat
  row : Nat
  deriving DecidableEq, Repr

/-- One store of a command: bytes from an address up, or one nibble of a byte (R24; the byte masks of R424). -/
inductive Store where
  | bytes (addr : Nat) (bs : List Byte)
  | nibble (addr : Nat) (high : Bool) (v : Nat)
  deriving DecidableEq, Repr

/-- An element that leaves step 2 of Table 2.4: item (b1 * NB2 + b2), row and column in its output descriptor, and its pair. -/
structure Res where
  i : Nat
  r : Nat
  c : Nat
  pair : Pair
  deriving DecidableEq, Repr

/-- A packet taken from a ring and not yet replied (R277), with what its checks and its run have found. -/
structure Cmd where
  qid : Nat
  job : Nat
  seq : BitVec 32
  ring : Nat                    -- ring index of the packet
  op : Nat
  irq : Bool
  gend : Bool
  early : Bool
  client : Nat
  step : Nat
  dtab : Nat
  wdecl : Nat
  params : List Word            -- P0 to P10
  descs : List Desc
  loopd : Option LoopDesc
  binds : List Binding
  stage : Stage
  refusal : Option Cond
  conds : List Cond             -- completion conditions met so far
  infF : Bool
  nanF : Bool
  exc : Option ExcRec
  amaxOut : List (Nat × F32)    -- amax per output tensor ID (R49)
  colsMem : Bool                -- column pairs lie in the memory spill region (R203)
  normLeaves : List Pair        -- per-core pairs by job rank (R44), then the fold pass's pair (R174)
  result : Option (F32 × F32)   -- norm and clip coefficient of a GNORM
  trip : Nat                    -- trip count of a LOOP
  spillCs : Nat                 -- evictions to the central store (R36, R99)
  spillMem : Nat                -- evictions to memory, of dX partials too (R99, R105)
  weak : Bool
  loopb : Bool
  skip : Bool
  iter : Nat                    -- iteration of a body run
  lastBody : Bool               -- last body packet of the last iteration, or no body packet
  chain : Nat                   -- 0 outside a CHAIN, 1 producer, 2 consumer
  ring2 : Nat                   -- RING of the CHAIN, 0 outside
  cseqAdd : Nat                 -- added to the CSEQ of a collective in iteration i of a LOOP (R294)
  wt : Bool                     -- write-through of the CHAIN
  units : Nat                   -- units or phases done (LENS, PRUNE, EMBG)
  folded : Nat                  -- units done of the fold pass in progress, or of the parity folding (R174, R186)
  foldUnits : Nat               -- units that the parity folding of a PARITY takes on this engine
  retries : Nat                 -- consecutive failures of the current unit (R356)
  runs : List (List Run)        -- EMBG buckets by owner rank (R227)
  staged : List (Nat × List Res) -- pairs staged for a fold pass, by descriptor position (R174)
  held : List Nat               -- queues a DAYMARK holds (R364)
  seed : Word                   -- generator seed of its client at admission (Table 11.4)
  margins : List (Nat × BitVec 3) -- amax margins that a CFG after its admission changed, as they were before, by tensor ID (Table 11.4)
  scales : List (Nat × Int)     -- exponents that it took from amax slots, by tensor ID (R52, R418)
  tags : List Nat               -- feed tags of dies and stacks at the admission of a PARITY (Table 15.4)
  leaves : List Nat             -- leaf list of a GNORM as check 1 read it (R262)
  rd : Nat                      -- bytes read and written for it that the manual fixes (Table 11.5)
  wr : Nat
  energy : Rat                  -- energy shares so far, in units of 10 pJ (R316, R432)
  owedR : Nat                   -- bytes and nanoseconds of the restore before its start (R315)
  owedNs : Nat
  owedE : Rat                   -- energy of that restore, apart from the reply's (R316)
  adv : Bool                    -- its reading advanced NEXTSEQ (R269)
  mute : Bool                   -- its reply is not written, since the access was aborted (R143)
  deriving DecidableEq, Repr

/-! ## Queues -/

/-- The state of a queue (Table 11.9). -/
inductive QState where
  | off | on | draining | pendingOn
  deriving DecidableEq, Repr

/-- A queue context (Table 11.8a). `rsv` holds every reserved bit, so that a non-zero one is seen (R279). -/
structure QCtx where
  rbase : Nat
  rlog2 : Nat
  pkfmt : Nat
  pbase : Nat
  plog2 : Nat
  head : Nat
  tail : Nat
  pwr : Nat
  prd : Nat
  nextSeq : BitVec 32
  doneSeq : BitVec 32
  state : QState
  prio : Nat
  maxOutM1 : Nat
  det : Bool
  halterr : Bool
  job : Nat
  irqv : Nat
  span : Nat
  credit : Nat
  wdog : Nat
  illCnt : Nat
  illRec0 : Word
  illRec1 : Word
  exc : BitVec 128
  loopBody : Nat
  loopBodyM1 : Nat
  loopT : Nat
  loopIter : Nat
  loopActive : Bool
  overrun : Nat
  norm : List Pair              -- accumulators 1 to 15
  rsv : Nat
  deriving DecidableEq, Repr

/-- Counters of a resident queue, each list in the order of its table (6.8, 7.5, 8.8, 9.7, 10.7, 15.8). -/
structure QCounters where
  tnd : List Nat
  lns : List Nat
  lbw : List Nat
  hsh : List Nat
  red : List Nat
  par : List Nat
  deriving DecidableEq, Repr

/-- A staged change of a queue's own items, to act at its next command boundary (R439): the item and its value. -/
abbrev QItem := Nat × Nat

/-- A resident queue. -/
structure QRes where
  slot : Nat
  qid : Nat
  ctx : QCtx
  loopPos : Nat                 -- position inside the body of an active LOOP
  groupOpen : Bool              -- a command group is open (R304)
  chainLeft : Nat               -- packets of an open CHAIN still to be read
  chainRing : Nat
  chainWt : Bool
  judged : List (Nat × Cond)    -- refusals of check 1 found for the body packets of an active LOOP, by position (R295)
  loopColl : Nat                -- collectives in that body (R294)
  loopStep : Bool               -- LSTEP of that LOOP
  chained : List Store          -- output of a CHAIN producer that its consumer reads (R107)
  chainMade : Bool              -- a producer with no program has made its output
  producer : Option Cmd         -- the producer of the CHAIN, from its start or end until its consumer ends
  chainBad : Bool               -- the producer ended with a status from OOB upward (R109)
  conds : List Cond             -- conditions of the most recent command (R278)
  age : Nat                     -- stamp of its last admission (R280)
  items : List QItem
  expand : List Nat             -- parameters and core count of the most recent command with a Keeper expansion (R141)
  cnt : QCounters
  deriving DecidableEq, Repr

/-- An entry of the in-flight tile table (R287, Table 17.12 space 0x14): kind 1 read, 2 write, 3 accumulate. -/
structure IttEntry where
  lo : Nat
  hi : Nat
  kind : Nat
  qid : Nat
  seq : BitVec 32
  slot : Nat
  run : Nat                     -- ring index and iteration of the command that holds it
  deriving DecidableEq, Repr

/-- Queue doorbell side: context base, residents, pending bitmap, commands, tile table. -/
structure Queues where
  base : Nat
  baseValid : Bool
  baseLock : Bool
  res : List QRes
  pend : List Nat               -- set bits of the pending bitmap
  cmds : List Cmd               -- in the order read
  itt : List IttEntry
  stamp : Nat                   -- admissions so far, for R280 and the round robin of R285
  dmseq : Nat                   -- Daymarks written since cold reset (Table 15.3)
  groups : List Nat             -- queues that are not resident and have an open command group (R304)
  short : List Nat              -- pending queues whose credit did not fit: they wait for an eviction of their job (R302)
  kept : List QRes              -- queues of a restored job that wait for a slot, as its save kept them (R310)
  waitItems : List (Nat × QItem) -- items that wait for the next command boundary of a queue that is not resident (R439)
  deriving DecidableEq, Repr

/-! ## Jobs and configuration -/

/-- A work counter (R129): claim bitmap as the list of set bits, rising. -/
structure WorkCtr where
  value : Nat
  limit : Nat
  epoch : Nat
  bits : List Nat
  deriving DecidableEq, Repr

/-- The image of a switched-out job (R308): where it lies and the queues evicted by the save. -/
structure SavedImage where
  addr : Nat
  size : Nat
  crc : Nat                     -- CRC-64 of the area as saved
  qs : List QRes
  clock : Nat
  debt : Nat
  deriving DecidableEq, Repr

/-- A job (R297) with its slice state (R303-R311). -/
structure Job where
  mask : Nat
  pbase : Nat                   -- MiB
  psize : Nat                   -- MiB
  slice : Nat
  sliceNext : Option Nat        -- item 0x0032, waiting for the next slice start
  glim : Nat
  saveBase : Nat
  saveSize : Nat
  enable : Bool
  active : Bool
  clock : Nat
  debt : Nat
  expiredBy : Option (Nat × Nat) -- queue and client whose reply expired the slice
  image : Option SavedImage
  saving : Bool                 -- this job's save has completed and the switch is waiting for CONTEXT_RESTORE
  incoming : Option Nat         -- job chosen to follow this one
  lastClient : Nat              -- client of its last command that replied; 65,537 before the first one
  oweBytes : Nat                -- bytes and nanoseconds of a restore, charged to the first command started after it (R315)
  oweNs : Nat
  ctrs : List WorkCtr
  pools : List Nat              -- open spill pools (R236)
  counted : Nat × Nat           -- what the switch in progress has added to SH_SWITCH and SH_FORCED
  saveClient : Nat              -- client that the save in progress is charged to (R315)
  oweEnergy : Rat               -- energy of a restore, charged with `oweBytes`, in units of 10 pJ
  deriving DecidableEq, Repr

/-- A staged configuration item (R300): item code, INDEX, VALUE. -/
structure StagedItem where
  item : Nat
  index : Nat
  value : Nat
  deriving DecidableEq, Repr

/-- Engine-wide configuration: jobs, staged items, HSIZE, tree positions, seeds, feed tags, sharing counters. -/
structure Conf where
  jobs : List Job
  staged : List StagedItem
  drain : Bool
  hsize : Nat
  npos : Nat
  posDie : List Nat             -- die of position 0 to 7
  seeds : List (Nat × Word)     -- by client, rising; a client not listed has seed 0
  dieTags : List Nat
  stackTags : List Nat          -- bit 4: shares its die's group
  share : List Nat              -- Table 12.4
  weakRec : List Nat            -- last weak placement: entry, data position, opcode, SEQ, QID
  enabledOrder : List Nat       -- enabled jobs, in the order in which they became so (R301)
  deriving DecidableEq, Repr

/-! ## Cores -/

/-- An exact operand value: a signed dyadic m * 2^e (a zero keeps its sign), an infinity or NaN (R25, R26). -/
inductive Num where
  | fin (neg : Bool) (m : Nat) (e : Int)
  | inf (neg : Bool)
  | nan
  deriving DecidableEq, Repr

/-- A row or column slice in a feeder or link (R59): 4 lanes of K positions and values; ballast slices carry no lanes (R79). -/
structure Slice where
  plane : Nat
  tile : Nat                    -- issue number of the WB that started its tile
  ord : Nat                     -- issue number of its WB
  kpos : Nat                    -- position of the wave in its K range (R118)
  chunkAt : Nat                 -- chunk length in waves (R83: 8,192 when compressed)
  ballast : Bool
  bcast : Nat                   -- arrays that the same broadcast transfer serves (R62, R67), one bit each; 0 for a private port
  slot : Option Nat             -- slot count of the start ramp that this slice resumes (R80)
  zero : Bool                   -- its array wave is a zero wave but for the cells of the plane (R244)
  lanes : List (List (Nat × Num))
  deriving DecidableEq, Repr

/-- A slice held in an input link, and whether it has already gone on to the next cube (R61). -/
structure LinkSlot where
  slice : Slice
  fwd : Bool
  deriving DecidableEq, Repr

/-- The activity ramp of one feeder (R77-R80): idle, in slot s of the start ramp, open, in slot s of the stop ramp, or waiting to go on
as a start ramp from slot s. -/
inductive Ramp where
  | idle | start (s : Nat) | opened | stop (s : Nat)
  deriving DecidableEq, Repr

/-- A feeder: its queue of at most 8 slices (R65), the slices still in the scratchpad, and its ramp. -/
structure Feeder where
  queue : List Slice
  backlog : List Slice
  ramp : Ramp
  deriving DecidableEq, Repr

/-- The states of an accumulator plane (R70). -/
inductive PlaneState where
  | empty | loading | ready | filling | draining
  deriving DecidableEq, Repr

/-- Result of the closed chunks of a cell (R35, R136): the cell's index in its plane, the position of the last close, the fold, and whether a
wave has been applied since. -/
structure ChunkRes where
  cell : Nat
  pos : Nat
  pair : Pair
  live : Bool
  deriving DecidableEq, Repr

/-- One array: plane states, the tile that each band of four cell rows of a plane holds, feeders, input links of the 64 cubes (index
8r + c), waves of each tile applied by cube (7, 7), results of closed chunks per plane, and the counters of Table 3.4. -/
structure ArrayState where
  planes : List PlaneState
  bands : List (List (Option Nat))
  rowF : List Feeder
  colF : List Feeder
  rowL : List (List LinkSlot)
  colL : List (List LinkSlot)
  applied : List (Nat × Nat)    -- tile, waves applied
  chunks : List (List ChunkRes)
  cnt : List Nat
  deriving DecidableEq, Repr

/-- What a drained row goes through (Table 5.3, PDR). -/
structure DrainJob where
  plane : Nat
  tile : Nat                    -- the tile drained, and the waves it must have got
  need : Nat
  ord : Nat                     -- issue number
  pc : BitVec 13                -- instruction address, for R177
  col : Bool
  park : Bool
  slot : Nat
  shape : Nat
  addrs : List Int              -- partition offset of each array row in drain order
  fmt : Nat
  sr : Bool
  ng : Nat
  amx : Bool
  tid : Nat
  epi : Nat
  eaddrs : List (Nat × Int)     -- epilogue rows: space and address
  index0 : Nat
  rowLen : Nat
  t : Int
  seed : Word
  step : Nat
  next : Nat                    -- next row
  held : List (Nat × Pair)      -- rows of a park so far, by byte offset in the slot
  heldCk : List (Nat × ChunkRes) -- chunk results of those rows, by array and position in the slot
  seen : List (Nat × F32)       -- written values so far, by element index (R44)
  deriving DecidableEq, Repr

/-- A preload of a plane (PLD): source 0 clear, 1 accumulator slot, 2 central store. -/
structure PreJob where
  plane : Nat
  ord : Nat
  col : Bool
  src : Nat
  slot : Nat
  addrs : List Int
  fmt : Nat
  t : Int
  next : Nat
  deriving DecidableEq, Repr

/-- The states of a physical core (Table 14.2). -/
inductive PState where
  | active | spare | host | store | retired
  deriving DecidableEq, Repr

/-- A physical core: its retire table entry (Table 14.6) and its storage. Cell planes: pair of row i, column j of plane p of array a lies
at ((2a + p) * 1024 + 32i + j) * 8 of `planes` (DESIGN CHOICE, log 15). -/
structure PCore where
  pstate : PState
  seeded : Bool
  lidA : Option Nat
  lidB : Option Nat
  partner : Option Nat
  stamp0 : Option Nat
  stamp1 : Option Nat
  life : Nat
  scratch : Memory
  acc : Memory
  planes : Memory
  pmem : Memory
  arrays : List ArrayState
  ceScratch : Nat
  ceAcc : Nat
  parked : List (Nat × Nat × List ChunkRes) -- chunk results of parked tiles: slot, array, results by position in the slot (log 87)
  share : List Nat              -- the core's share of the counters of Tables 8.8 (7) and 9.7 (9)
  deriving DecidableEq, Repr

/-- An address generator (Table 5.4) with its positions. -/
structure AddrGen where
  base : BitVec 48
  space : BitVec 3
  st0 : BitVec 32
  ex0 : BitVec 16
  st1 : BitVec 32
  ex1 : BitVec 16
  st2 : BitVec 32
  ex2 : BitVec 16
  i0 : Nat
  i1 : Nat
  i2 : Nat
  deriving DecidableEq, Repr

/-- A loop counter (Table 5.1) with the start of its body. -/
structure LoopCtr where
  left : BitVec 32
  fin : BitVec 13
  start : BitVec 13
  active : Bool
  deriving DecidableEq, Repr

/-- What a core does (Table 17.7 ACT, without its derived values). -/
inductive Activity where
  | idle | running | halted | replaying | fenced
  deriving DecidableEq, Repr

/-- A posted SEND (R121): mode, destination, tag, the lines' bytes, lines, and the cores still to receive. -/
structure Msg where
  ord : Nat
  mode : Nat
  tag : Nat
  lines : Nat
  addr : Int
  dests : List Nat
  deriving DecidableEq, Repr

/-- A posted RECV. -/
structure RecvPost where
  ord : Nat
  src : Nat
  tag : Nat
  lines : Nat
  addr : Int
  deriving DecidableEq, Repr

/-- A `TLD` from a stream that waits for its block or for its lines (R117): issue number, stream, lines asked for, destination lines. -/
structure TldJob where
  ord : Nat
  stream : Nat
  lines : Nat
  dst : List (Int × Nat)
  data : Memory                 -- what the reads of one from memory have brought
  deriving DecidableEq, Repr

/-- An entry of the replay log (R137); a `SEND`, a `RECV`, a take and a park are named by their issue number, since they complete later. -/
inductive LogEntry where
  | recv (ord src tag lines : Nat) (data : List Byte)
  | swait
  | result (v : Word)
  | take (ord stream block : Nat)
  | send (ord : Nat)
  | sig | chput | chrel | bar
  | park (ord slot : Nat)
  deriving DecidableEq, Repr

/-- The registers of Table 5.1 that a mark record holds (R135). -/
structure CoreRegs where
  sregs : List Word             -- S0 to S31
  ags : List AddrGen
  lcs : List LoopCtr
  stack : List Nat              -- loop stack, innermost first
  pc : BitVec 13
  flags : List (BitVec 32)
  norms : List Pair             -- groups 1 to 15
  amax : List (Nat × F32)       -- amax accumulators by tensor ID
  infIdx : Option Nat
  nanIdx : Option Nat
  fin : Bool                    -- the program counter stands at the image length (R114)
  deriving DecidableEq, Repr

/-- The mark record's note of a plane at a chunk boundary (R136): plane, shape, row and column formats, compressed, block scales. -/
abbrev PlaneNote := Nat × Nat × Nat × Nat × Bool × Bool

/-- A mark record (R135, R136), issued or completed: its issue number; how many entries the log had; the registers of Table 5.1 with the address
after the `MARK`; the planes that stand at a chunk boundary (plane, tile, shape, waves); the tile in progress and its plane; the ring slots
taken; whether the log had overflowed before; and, completed, the chunk results of those planes by array. -/
structure MarkRec where
  ord : Nat
  logLen : Nat
  regs : CoreRegs
  planes : List (Nat × Nat × Nat × Nat)
  note : Option PlaneNote
  cur : Nat
  taken : List Nat
  ovr : Bool
  chunks : List (Nat × Nat × List ChunkRes)
  deriving DecidableEq, Repr

/-- An instruction that has issued and waits in its unit for its interlocks (R117): its issue number and word, the registers and the tile in progress as
it found them, the ring slots taken before it, and the ranges (space, first byte, byte after the last) that it will read and write. -/
structure HeldInstr where
  ord : Nat
  word : Nat
  regs : CoreRegs
  cur : Nat
  tile : Option PlaneNote
  tileIds : List Nat
  tileWaves : List Nat
  taken : List Nat
  reads : List (Nat × Int × Int)
  writes : List (Nat × Int × Int)
  deriving DecidableEq, Repr

/-- One program of a logical core. A core runs one, or in a CHAIN of two `RUNP` the producer's and the consumer's (R107). -/
structure LCore where
  regs : CoreRegs
  run : Activity
  len : Nat                     -- image length
  half : Nat                    -- program memory in use: 0 none, 1 lower half, 2 upper half, 3 both (R113)
  issue : Nat                   -- instructions issued, to order what is queued
  qid : Nat                     -- queue of the running command
  seq : BitVec 32
  wait : Nat                    -- wait kind of Table 17.11
  sends : List Msg
  recvs : List RecvPost
  curPlane : Nat                -- plane of the tile in progress
  tile : Option PlaneNote       -- tile in progress on that plane
  tileIds : List Nat            -- latest tile of each plane (0: none)
  tileWaves : List Nat          -- waves issued to it
  tileShapes : List Nat         -- its shape
  preSet : List Bool            -- the plane has a preloaded start and is neither filled nor drained since (R136)
  atChunk : List Bool           -- the last WB issued on the plane ended at a chunk close (R136)
  drains : List DrainJob
  preloads : List PreJob
  tlds : List TldJob
  held : List HeldInstr         -- issued, still waiting in their units, oldest first
  barAt : Option (Nat × Nat)    -- SCOPE and ID of the BAR it waits in
  barPc : BitVec 13             -- address of that BAR
  barHeld : Option (Nat × Nat)  -- an arrival that stands in the barrier network while the core replays (R350)
  taken : List Nat              -- ring slots taken and not yet published or freed
  markPend : Option MarkRec     -- a MARK issued and not complete
  mark : MarkRec                -- last completed mark record
  log : List LogEntry           -- since the last completed mark
  prevLog : List LogEntry       -- entries still to be consumed in a replay
  logBytes : Nat
  logAt : Nat                   -- offset of its replay log in the partition
  markAt : Nat                  -- offset of its mark record there
  overflowed : Bool
  stretch : Nat                 -- waves of array work since the last mark
  markGap : Nat
  illCnt : Nat
  illWord : Word
  illAddr : Option (BitVec 13)
  waitAddr : BitVec 13
  waitRec : Nat                 -- kind of the last wait reported (R125)
  waitUs : Nat
  claimed : Option (Nat × Nat)  -- lowest index that returned CLAIMED, and how many
  oob : Option (Nat × Nat)      -- first offending address, count
  claimOob : Option (Nat × Nat)
  deriving DecidableEq, Repr

/-- A CHAIN ring of one core: offsets of free slots and of published slots, in ring order (R133); the tiles of a producer without a program
that have not entered the ring yet, and how many tiles have gone to a consumer without one. -/
structure ChainRing where
  free : List Nat
  full : List Nat
  backlog : List Nat
  passed : Nat
  deriving DecidableEq, Repr

/-! ## Tender, Lens, hash accumulator, reduction port -/

/-- A block in a slot of an operand stream (R145, R152). -/
structure SBlock where
  num : Nat
  lines : Nat
  data : Memory
  todo : List (Nat × Nat × Nat) -- reads not yet issued: offset in the block, address, length
  got : Nat                     -- bytes read so far
  takers : List Nat             -- cores that have taken it
  marked : List Nat             -- cores that have completed a mark after the take
  borrowed : Bool
  deriving DecidableEq, Repr

/-- An operand stream of a RUNP (R142-R152): the next list entry and its ordinal, the blocks in slots, how far each consumer has come, and
the bytes of the list and of the zero map that the last transfers of either brought, and the consumers that have completed a mark since their
last take. -/
structure OStream where
  qid : Nat
  seq : BitVec 32
  num : Nat
  bind : Binding
  entry : Nat                   -- address of the next list entry
  entryIdx : Nat
  nextBlock : Nat
  blocks : List SBlock
  takes : List (Nat × Nat)      -- per consumer core: next block to take
  ended : Bool
  listAt : Nat
  listBuf : List Byte
  zAt : Nat
  zBuf : List Byte
  since : List Nat
  dead : Bool                   -- released; its slots are held until its reads are complete (R168)
  deriving DecidableEq, Repr

/-- A transfer in flight (R155), on its fabric port. Of the bytes that a read brings it wants `want`, from byte `skip` on; the data of a dropped one
are discarded (R168). -/
structure Xfer where
  id : Nat
  qid : Nat
  seq : BitVec 32
  stream : Nat
  skind : Nat
  core : Nat
  block : Nat
  off : Nat                     -- offset in its block; of a write, in what its TST stores
  addr : Nat
  len : Nat
  write : Bool
  data : List Byte
  num : Nat                     -- entry index of a list read; of a write the number of its TST
  port : Nat
  skip : Nat
  want : Nat
  drop : Bool
  deriving DecidableEq, Repr

/-- A page-fault record (Tables 6.6, 6.7), with the transfer to reissue. -/
structure PfRec where
  xfer : Xfer
  qslot : Nat
  ctl : Option CtlAccess        -- the control access that halted, if it is none of a stream (R143)
  deriving DecidableEq, Repr

/-- The Tender. -/
structure Tender where
  streams : List OStream
  xfers : List Xfer
  nextId : Nat
  recs : List PfRec             -- at most 64
  waiting : List PfRec          -- halted, waiting for a free record (R166)
  outq : List Xfer              -- writes of programs that the transfer limit holds back (R156)
  redo : List Xfer              -- resumed transfers that the transfer limit holds back: they go out first (R167)
  last : Nat                    -- QID of the queue that issued last (R157)
  borrowers : List (Nat × BitVec 32 × Nat) -- streams that wait for a slot, in the order in which they asked (R163)
  waitRec : List Nat            -- wait record (Table 17.12): queue slot, stream, SKIND, core, wait kind, slots held, microseconds
  deriving DecidableEq, Repr

/-- A valid way of the hash accumulator (R221): set, tag (global row, segment) and its 64 pairs. -/
structure HWay where
  set : Nat
  row : Nat
  seg : Nat
  pairs : List Pair
  deriving DecidableEq, Repr

/-- The hash accumulator: the command that holds it and the valid ways. -/
structure HashAcc where
  holder : Option (Nat × BitVec 32)
  ways : List HWay
  deriving DecidableEq, Repr

/-- A collective in progress on this engine (R254-R259): whether this engine knows how many elements it has; the heads of the own position and
of the subtrees below; own leaf and what the children have sent, in wire elements; which children have sent their last; the elements combined so
far and whether the last has gone; failures in a row of the current segment. -/
structure Coll where
  cseq : Nat
  qid : Nat
  seq : BitVec 32
  op : Nat                      -- opcode
  shaped : Bool
  head : SegHead
  headsL : List SegHead
  headsR : List SegHead
  own : List Nat
  fromL : List Nat
  fromR : List Nat
  lDone : Bool
  rDone : Bool
  sentUp : Nat
  upDone : Bool
  retries : Nat
  wire : Nat                    -- bytes of a wire element on the way up
  applied : Nat                 -- result elements that have come here
  saved : List (Nat × Nat × Pair) -- accumulators that a GNORM has reset, by queue and group, as they were (R258, R262)
  deriving DecidableEq, Repr

/-- The reduction port. -/
structure Red where
  lastCseq : Nat
  colls : List Coll             -- at most one, since a collective starts when its predecessor has completed
  doneAhead : List Nat          -- CSEQs counted as completed once their predecessor is (R257)
  aborted : List Nat            -- aborts received before admission
  sent : List (RedLink × Segment)
  sentAborts : List (RedLink × Nat)
  early : List (RedLink × Segment) -- segments of a collective not yet started here
  heldAborts : List (RedLink × Nat) -- aborts that wait for the clock or the power of the reduction port
  deriving DecidableEq, Repr

/-! ## Amax, accounts -/

/-- An amax slot (Table 17.10). -/
structure AmaxSlot where
  entries : List F32            -- ENTRY0 to ENTRY15
  evalid : BitVec 16
  headStep : BitVec 48
  headPtr : BitVec 4
  m : BitVec 3
  written : Bool
  scale : BitVec 8
  derivStep : BitVec 48
  deriving DecidableEq, Repr

/-- The amax slots (rising tensor IDs; an unlisted slot is at reset) and their window. -/
structure Amax where
  slots : List (Nat × AmaxSlot)
  sel : BitVec 16
  data : List Word
  busy : Bool
  deriving DecidableEq, Repr

/-- An account (Table 12.3). -/
structure Account where
  cwaves : Nat
  cns : Nat
  xns : Nat
  rbytes : Nat
  wbytes : Nat
  energy : Nat
  overrun : Nat
  cmds : Nat
  deriving DecidableEq, Repr

/-- Accounts by client, rising (65,536 is the idle account; an unlisted account is zero), the window, totals, current samples. -/
structure Accts where
  list : List (Nat × Account)
  sel : Nat
  data : List Word
  total : Nat
  samples : List (Nat × Nat)    -- last current sample per switched domain
  idleRest : Nat                -- energy of the idle account below 1 nJ, in units of 10 pJ (log 56)
  deriving DecidableEq, Repr

/-! ## Interrupts, firmware, mailboxes -/

/-- Interrupt registers (Table 17.5). -/
structure Irq where
  stat : BitVec 8
  en : BitVec 8
  pend : BitVec 256
  deriving DecidableEq, Repr

/-- The engine-wide illegal-sequence count and record (Table 17.6) and the read port's last word. -/
structure Ill where
  cnt : Nat
  rec0 : Word
  detail : Word
  rec1 : Word                   -- the latch of R414
  deriving DecidableEq, Repr

/-- Firmware states (Table 13.16). -/
inductive FwState where
  | rom | wait | load | verify | run | fail | hung
  deriving DecidableEq, Repr

/-- Firmware registers and the Keeper. -/
structure Fw where
  addr : Nat
  state : FwState
  reason : Nat
  tries : Nat
  arcBusy : Bool
  arcErr : Bool
  ver : Nat
  svn : Nat
  image : Memory                -- header bytes as copied
  sram : Memory
  kprCe : Nat
  beats : Nat                   -- milliseconds counted since the last heartbeat
  deriving DecidableEq, Repr

/-- A mailbox channel (Tables 13.4-13.8). -/
structure Chan where
  data : List Word
  full : Bool
  coll : Bool
  fog : Bool
  emptied : Bool
  lastBcn : Bool
  wakePend : Bool
  rings : BitVec 16
  colls : Nat
  rie : Bool
  cie : Bool
  eie : Bool
  fie : Bool
  snd : Mid
  rcv : Mid
  wdom : Nat
  tmo : Nat
  valid : Bool
  timer : Bool                  -- the Fog timer runs
  deriving DecidableEq, Repr

/-- The mailboxes. -/
structure Mail where
  chans : List Chan
  lock : Bool
  deriving DecidableEq, Repr

/-! ## Faults, links, injection, read-back, power, boot, TAP -/

/-- A fault record (Table 14.5). -/
structure FltRec where
  kind : Nat
  inj : Bool
  action : Nat
  pcore : Nat                   -- 0x7F none
  lcore : Option Nat
  unit : Nat
  evcnt : Nat
  loc : Word
  stamp : Nat
  deriving DecidableEq, Repr

/-- A link with frames (R340). -/
structure LinkSt where
  id : FrameLink
  retry : Nat
  failed : Bool
  expect : Nat                  -- sequence number the receiver accepts next
  attempts : Nat                -- consecutive failed attempts of one frame
  deriving DecidableEq, Repr

/-- Faults, storage errors, links, injection. -/
structure Flt where
  recs : List FltRec
  ovf : Nat
  lost : Bool
  ports : BitVec 8
  rlinks : BitVec 3
  seed0 : Word
  seed1 : BitVec 4
  links : List LinkSt           -- links that differ from a fresh one
  single : List (Storage × Nat) -- words holding a correctable error
  double : List (Storage × Nat) -- words holding an uncorrectable error
  wback : List (Storage × Nat)  -- corrected words awaiting their write-back
  flips : List (Storage × Nat × Bool) -- ECC injections waiting for the word's next write; true: double
  ceCentral : Nat
  fiCtl : Word
  fiTgt : Word
  fiAddr : Word
  fiDone : Nat
  fiSince : Nat                 -- frames on the target link since the last injection
  replays : List (Nat × Nat)    -- logical cores waiting for REPLAY_START, with the physical core to copy from (68: none)
  deriving DecidableEq, Repr

/-- The read-back window and the control port's read data. -/
structure Rb where
  addr : Word
  stat : BitVec 5
  rdata : Word
  deriving DecidableEq, Repr

/-- States of a switched power domain (R393). -/
inductive PwrState where
  | off | retain | on | down | up | pendingOn
  deriving DecidableEq, Repr

/-- A switched domain (Table 16.6), the goal of its power-down, whether a power-up waits its turn, and its latest rail request. -/
structure PwrDom where
  target : Nat
  state : PwrState
  held : Bool
  vgood : Bool
  vreq : Nat
  vack : Nat
  uvcnt : Nat
  thcnt : Nat
  goal : Nat                    -- 0 OFF, 1 RETAIN while powering down
  fromOff : Bool                -- the power-up in progress began in OFF
  wantUp : Bool
  req : Option (Nat × Nat)      -- latest request: rail code, state
  deriving DecidableEq, Repr

/-- Power, clocks and holds. -/
structure Power where
  doms : List PwrDom
  uv : List Nat                 -- timing domains held for undervoltage
  th : List Nat                 -- timing domains held for temperature
  stopped : List Nat            -- boundary clocks stopped
  deriving DecidableEq, Repr

/-- GX_BOOT_STAT (Table 16.10). -/
structure Boot where
  phase : Nat
  erru : Nat
  btfail : Nat
  btime : Nat
  cold : Bool
  booting : Bool                -- domains are being powered up by boot (R404)
  deriving DecidableEq, Repr

/-- The IEEE 1149.1 controller states. -/
inductive TapState where
  | reset | idle | drSelect | drCapture | drShift | drExit1 | drPause | drExit2 | drUpdate
  | irSelect | irCapture | irShift | irExit1 | irPause | irExit2 | irUpdate
  deriving DecidableEq, Repr

/-- The instructions of the TAP (R433). -/
inductive TapInstr where
  | bypass | sample | network
  deriving DecidableEq, Repr

/-- The test access port. -/
structure Tap where
  state : TapState
  instr : TapInstr
  shift : List Bool             -- instruction shift register, last shifted in first
  dr : Bool                     -- bypass bit
  tdo : Bool
  deriving DecidableEq, Repr

/-- Fuses read at boot (R330, R348, Table 16.9). -/
structure Fuses where
  die : Nat
  ndie : Nat
  keyHash : List Byte
  arc : Nat
  retired : List Nat
  clean : Bool
  deriving DecidableEq, Repr

/-! ## The state, faults and refusals -/

/-- The whole engine, and the queue of commands that wait. -/
structure State where
  pending : List Instr
  mem : Memory
  extent : Nat
  q : Queues
  conf : Conf
  lcores : List LCore            -- program of logical core l at l, its CHAIN consumer's at 64 + l
  pcores : List PCore
  rings : List (Nat × ChainRing) -- by logical core
  cstore : Memory
  tender : Tender
  turn : Nat                     -- QID of the Lens user served last
  hash : HashAcc
  red : Red
  amax : Amax
  accts : Accts
  irq : Irq
  ill : Ill
  fw : Fw
  mail : Mail
  flt : Flt
  rb : Rb
  power : Power
  boot : Boot
  tap : Tap
  fuses : Fuses
  free : Nat                     -- counter of the free values (log 5)
  deriving DecidableEq, Repr

/-- The model stops with a fault only here. -/
inductive Fault where
  /-- Raised by a command whose operand names a unit, core, channel, domain, queue or job that the engine does not have. No such command
  can reach the hardware, so the stop is safe. -/
  | noSuchUnit
  deriving DecidableEq, Repr

/-- Refusals of the model. -/
inductive Refusal where
  /-- Raised by an arm of `exec` whose command has no meaning yet; safe, since nothing is claimed of it. -/
  | notModelled (mnemonic : String)
  deriving DecidableEq, Repr

/-! ## The state after cold reset -/

/-- A feeder after reset: idle (R77). -/
def Feeder.reset : Feeder := ⟨[], [], .idle⟩

/-- An array after reset: planes EMPTY, feeders idle, links empty, counters 0 (R70, R77, Table 16.8). -/
def ArrayState.reset : ArrayState :=
  ⟨[.empty, .empty], List.replicate 2 (List.replicate 8 none), List.replicate 8 Feeder.reset, List.replicate 8 Feeder.reset,
   List.replicate 64 [], List.replicate 64 [], [], [[], []], List.replicate 8 0⟩

/-- A physical core before boot has mapped it (log 13). -/
def PCore.reset : PCore :=
  ⟨.spare, false, none, none, none, none, none, 0, .empty, .empty, .empty, .empty, List.replicate 4 ArrayState.reset, 0, 0, [], List.replicate 16 0⟩

/-- An address generator with all fields 0 (Table 5.1). -/
def AddrGen.reset : AddrGen := ⟨0, 0, 0, 0, 0, 0, 0, 0, 0, 0, 0⟩

/-- The registers of Table 5.1, all 0. -/
def CoreRegs.reset : CoreRegs :=
  ⟨List.replicate 32 0, List.replicate 16 AddrGen.reset, List.replicate 8 ⟨0, 0, 0, false⟩, [], 0, List.replicate 8 0,
   List.replicate 15 Pair.zero, [], none, none, false⟩

/-- The mark record of a core that has run nothing. -/
def MarkRec.reset : MarkRec := ⟨0, 0, CoreRegs.reset, [], none, 0, [], false, []⟩

/-- A logical core that runs nothing. -/
def LCore.reset : LCore where
  regs := CoreRegs.reset
  run := .idle
  len := 0
  half := 0
  issue := 0
  qid := 0
  seq := 0
  wait := 0
  sends := []
  recvs := []
  curPlane := 0
  tile := none
  tileIds := [0, 0]
  tileWaves := [0, 0]
  tileShapes := [0, 0]
  preSet := [false, false]
  atChunk := [false, false]
  drains := []
  preloads := []
  tlds := []
  held := []
  barAt := none
  barPc := 0
  barHeld := none
  taken := []
  markPend := none
  mark := MarkRec.reset
  log := []
  prevLog := []
  logBytes := 0
  logAt := 0
  markAt := 0
  overflowed := false
  stretch := 0
  markGap := 0
  illCnt := 0
  illWord := 0
  illAddr := none
  waitAddr := 0
  waitRec := 0
  waitUs := 0
  claimed := none
  oob := none
  claimOob := none

/-- A work counter no command has declared (log 9). -/
def WorkCtr.reset : WorkCtr := ⟨0, 0, 0, []⟩

/-- A job after reset: disabled, nothing configured (log 9). -/
def Job.reset : Job :=
  ⟨0, 0, 0, 0, none, 0, 0, 0, false, false, 0, 0, none, none, false, none, 65537, 0, 0, List.replicate 16 WorkCtr.reset, [], (0, 0), 65537, 0⟩

/-- A queue counter set after reset. -/
def QCounters.reset : QCounters :=
  ⟨List.replicate 7 0, List.replicate 5 0, List.replicate 7 0, List.replicate 9 0, List.replicate 5 0, List.replicate 4 0⟩

/-- An amax slot after reset: every entry empty, M, scale and DERIVSTEP 0, never written (02, Amax history). -/
def AmaxSlot.reset : AmaxSlot := ⟨List.replicate 16 0, 0, 0, 0, 0, false, 0, 0⟩

/-- An account after cold reset (R313). -/
def Account.zero : Account := ⟨0, 0, 0, 0, 0, 0, 0, 0⟩

/-- A mailbox channel after reset (Tables 13.4-13.8). -/
def Chan.reset : Chan :=
  ⟨List.replicate 8 0, false, false, false, false, false, false, 0, 0, false, false, false, false, 0, 0, 63, 0, false, false⟩

/-- A switched domain after reset (Table 16.6): TARGET ON, domain 39 OFF; STATE OFF; VREQ 40. -/
def PwrDom.reset (d : Nat) : PwrDom :=
  ⟨if d = 39 then 0 else 2, .off, false, false, 40, 0, 0, 0, 0, false, false, none⟩

/-- Fuses of the modelled part (log 7): die 0 of 8, no key hash, no blown anti-rollback fuse, no retired core. -/
def Fuses.reset : Fuses := ⟨0, 8, List.replicate 48 0, 0, [], true⟩

/-- Configuration after reset (Table 16.8, R221, R253, R370). -/
def Conf.reset (f : Fuses) : Conf :=
  ⟨List.replicate 8 Job.reset, [], false, 2, f.ndie, [0, 1, 2, 3, 4, 5, 6, 7], [], List.replicate 8 0, List.replicate 32 0, List.replicate 6 0,
   [0, 0, 0, 0, 0], []⟩

/-- The machine when cold reset is released (Table 16.9, time 0): boot stands at PHASE 0, firmware STATE ROM, every domain OFF. -/
def State.reset : State where
  pending := []
  mem := .empty
  extent := 0
  q := ⟨0, false, false, [], [], [], [], 0, 0, [], [], [], []⟩
  conf := Conf.reset Fuses.reset
  lcores := List.replicate 128 LCore.reset
  pcores := List.replicate 68 PCore.reset
  rings := []
  cstore := .empty
  tender := ⟨[], [], 0, [], [], [], [], 0, [], []⟩
  turn := 0
  hash := ⟨none, []⟩
  red := ⟨0, [], [], [], [], [], [], []⟩
  amax := ⟨[], 0, List.replicate 10 0, false⟩
  accts := ⟨[], 0, List.replicate 8 0, 0, [], 0⟩
  irq := ⟨0, 0, 0⟩
  ill := ⟨0, 0, 0, 0⟩
  fw := ⟨0, .rom, 0, 0, false, false, 0, 0, .empty, .empty, 0, 0⟩
  mail := ⟨List.replicate 64 Chan.reset, false⟩
  flt := ⟨[], 0, false, 0xFF, 7, 0, 0, [], [], [], [], [], 0, 0, 0, 0, 0, 0, []⟩
  rb := ⟨0, 0, 0⟩
  power := ⟨(List.range 40).map PwrDom.reset, [], [], []⟩
  boot := ⟨0, 0, 0, 0, true, true⟩
  tap := ⟨.reset, .bypass, [], false, false⟩
  fuses := Fuses.reset
  free := 0

end Sys2Proof.Machine
end

