-- ==== Sys2Proof/Machine/Arith.lean ====
section
/-!
DEFINITION. The engine's arithmetic (02): exact values, their formats, rounding to nearest even and stochastic rounding, the compensated
pair, and the correctly rounded functions of 08 and 10. Exact values are signed dyadics m * 2^e; nothing is rounded except where a
rule says so.
-/
namespace Sys2Proof.Machine

/-! ## Exact values -/

/-- A signed zero. -/
def Num.zero (neg : Bool) : Num := .fin neg 0 0

/-- The exact value of an integer times 2^e; 0 is +0. -/
def Num.ofInt (x : Int) (e : Int) : Num := .fin (decide (x < 0)) x.natAbs e

/-- Whether a value is a zero of either sign. -/
def Num.isZero : Num → Bool
  | .fin _ m _ => m == 0
  | _ => false

/-- Whether a value is finite. -/
def Num.finite : Num → Bool
  | .fin _ _ _ => true
  | _ => false

/-- The value with its sign changed. -/
def Num.neg : Num → Num
  | .fin n m e => .fin (!n) m e
  | .inf n => .inf (!n)
  | .nan => .nan

/-- The magnitude. -/
def Num.abs : Num → Num
  | .fin _ m e => .fin false m e
  | .inf _ => .inf false
  | .nan => .nan

/-- The value times 2^k. -/
def Num.scale (x : Num) (k : Int) : Num :=
  match x with
  | .fin n m e => .fin n m (e + k)
  | y => y

/-- Exact product; the sign of a zero product is the exclusive-or of the signs (R28), infinity times zero is NaN (R29). -/
def Num.mul : Num → Num → Num
  | .nan, _ => .nan
  | _, .nan => .nan
  | .inf a, .inf b => .inf (xor a b)
  | .inf a, .fin b m _ => if m = 0 then .nan else .inf (xor a b)
  | .fin a m _, .inf b => if m = 0 then .nan else .inf (xor a b)
  | .fin a m e, .fin b n f => .fin (xor a b) (m * n) (e + f)

/-- The integer m * 2^(e - base), signed. -/
def scaledInt (base : Int) (n : Bool) (m : Nat) (e : Int) : Int :=
  let v : Int := (m <<< (e - base).toNat : Nat)
  if n then -v else v

/-- Exact sum of a list: NaN if a term is NaN or infinities of both signs meet; an infinity of the one sign present; an exact zero is -0
only when every term is -0 (R28, R29). -/
def Num.sum (l : List Num) : Num :=
  if l.any (· == .nan) then .nan
  else if l.any (· == .inf false) && l.any (· == .inf true) then .nan
  else if l.any (· == .inf false) then .inf false
  else if l.any (· == .inf true) then .inf true
  else
    let base : Int := l.foldl (fun b x => match x with | .fin _ m e => if m ≠ 0 ∧ e < b then e else b | _ => b) 0
    let v : Int := l.foldl (fun s x => match x with | .fin n m e => if m = 0 then s else s + scaledInt base n m e | _ => s) 0
    if v = 0 then .fin (l.all (fun x => match x with | .fin true 0 _ => true | _ => false)) 0 0
    else .fin (decide (v < 0)) v.natAbs base

/-- Exact sum of two values. -/
def Num.add (x y : Num) : Num := Num.sum [x, y]

/-- Exact difference. -/
def Num.sub (x y : Num) : Num := Num.sum [x, y.neg]

/-- Whether x < y as real numbers; false when a NaN takes part. -/
def Num.lt : Num → Num → Bool
  | .nan, _ => false
  | _, .nan => false
  | .inf a, .inf b => a && !b
  | .inf a, .fin _ _ _ => a
  | .fin _ _ _, .inf b => !b
  | .fin a m e, .fin b n f =>
    let base := if e < f then e else f
    decide (scaledInt base a m e < scaledInt base b n f)

/-- Whether x = y as real numbers (zeros of either sign are equal). -/
def Num.eq (x y : Num) : Bool :=
  match x, y with
  | .nan, _ => false
  | _, .nan => false
  | x, y => !x.lt y && !y.lt x

/-- The integer E with 2^E at most |x| and |x| below 2^(E+1) (R51), for a finite non-zero x. -/
def Num.expo : Num → Int
  | .fin _ m e => (Nat.log2 m : Nat) + e
  | _ => 0

/-! ## Formats -/

/-- A binary format: exponent bits, fraction bits, and which special encodings it has. `sat` formats cannot encode infinity. -/
structure Fmt where
  ebits : Nat
  mbits : Nat
  bias : Nat
  sat : Bool                    -- E4M3 and E2M1 (Table 7.2)
  nanBits : Nat                 -- the NaN that a conversion writes
  deriving DecidableEq, Repr

def fmtF32 : Fmt := ⟨8, 23, 127, false, 0x7FC00000⟩
def fmtBF16 : Fmt := ⟨8, 7, 127, false, 0x7FC0⟩
def fmtFP16 : Fmt := ⟨5, 10, 15, false, 0x7E00⟩
def fmtE4M3 : Fmt := ⟨4, 3, 7, true, 0x7F⟩
def fmtE5M2 : Fmt := ⟨5, 2, 15, false, 0x7E⟩
def fmtE2M1 : Fmt := ⟨2, 1, 1, true, 0⟩

/-- The format of a code of Table 2.1; PAIR and reserved codes have none of their own and read as FP32. -/
def fmtOf (code : Nat) : Fmt :=
  match code with
  | 0 => fmtBF16
  | 1 => fmtFP16
  | 2 => fmtE4M3
  | 3 => fmtE5M2
  | 4 => fmtE2M1
  | _ => fmtF32

/-- Bits of an element of a format code. -/
def fmtWidth (code : Nat) : Nat :=
  match code with
  | 0 => 16
  | 1 => 16
  | 2 => 8
  | 3 => 8
  | 4 => 4
  | 8 => 32
  | 9 => 64
  | _ => 32

/-- Bits of a value of the format. -/
def Fmt.width (f : Fmt) : Nat := 1 + f.ebits + f.mbits

/-- The largest finite magnitude's encoding: all ones below infinity; E4M3 keeps all but the NaN code, E2M1 every code. -/
def Fmt.maxFinite (f : Fmt) : Nat :=
  if f.sat then (if f.ebits = 4 then 0x7E else 7) else (2 ^ f.ebits - 1) * 2 ^ f.mbits - 1

/-- The exact value of an encoding; subnormals are honoured (R25). -/
def Fmt.decode (f : Fmt) (w : Nat) : Num :=
  let neg := bit w (f.ebits + f.mbits)
  let ex := bf w f.mbits f.ebits
  let fr := bf w 0 f.mbits
  if f.sat && f.ebits == 4 && ex == 15 && fr == 7 then .nan
  else if !f.sat && ex == 2 ^ f.ebits - 1 then (if fr = 0 then .inf neg else .nan)
  else if ex = 0 then .fin neg fr (1 - (f.bias : Int) - f.mbits)
  else .fin neg (2 ^ f.mbits + fr) ((ex : Int) - f.bias - f.mbits)

/-- The sign bit of the format. -/
def Fmt.sign (f : Fmt) (neg : Bool) : Nat := if neg then 2 ^ (f.ebits + f.mbits) else 0

/-- Exponent of the last place that a value of exponent E has in the format. -/
def Fmt.quantum (f : Fmt) (ex : Int) : Int :=
  (if ex < 1 - (f.bias : Int) then 1 - (f.bias : Int) else ex) - f.mbits

/-- The magnitude's encoding for n units of the last place 2^q (n may have reached 2^(mbits+1)). -/
def Fmt.encMag (f : Fmt) (q : Int) (n : Nat) : Nat :=
  (q - (1 - (f.bias : Int) - f.mbits)).toNat * 2 ^ f.mbits + n

/-- n / 2^k rounded to nearest, ties to even. -/
def rneShift (m k : Nat) : Nat :=
  let q := m >>> k
  let r := m % 2 ^ k
  if 2 * r > 2 ^ k then q + 1
  else if 2 * r = 2 ^ k then q + q % 2
  else q

/-- What an out-of-range magnitude encodes to: infinity, or the largest finite value where the format has no infinity (Table 7.2). -/
def Fmt.ovr (f : Fmt) : Nat := if f.sat then f.maxFinite else f.maxFinite + 1

/-- Conversion to nearest, ties to even, IEEE overflow rule (R41), saturating formats under Table 7.2. -/
def Fmt.rne (f : Fmt) (x : Num) : Nat :=
  match x with
  | .nan => f.nanBits
  | .inf n => f.sign n + f.ovr
  | .fin n m e =>
    if m = 0 then f.sign n
    else
      let q := f.quantum ((Nat.log2 m : Nat) + e)
      let k := if e ≥ q then m <<< (e - q).toNat else rneShift m (q - e).toNat
      let mag := f.encMag q k
      f.sign n + (if mag > f.maxFinite then f.ovr else mag)

/-- Whether the exact value is representable in the format (a NaN and an infinity count as such where R43 asks). -/
def Fmt.holds (f : Fmt) (x : Num) : Bool := (f.decode (f.rne x)).eq x

/-- Rounding toward zero of a finite value within range. -/
def Fmt.rtz (f : Fmt) (m : Nat) (e : Int) : Nat :=
  if m = 0 then 0
  else
    let q := f.quantum ((Nat.log2 m : Nat) + e)
    f.encMag q (if e ≥ q then m <<< (e - q).toNat else m >>> (q - e).toNat)

/-- Stochastic rounding of an exact value with the draw u (R43). The fraction's floor is taken of exact numbers. -/
def Fmt.sround (f : Fmt) (x : Num) (u : Nat) : Nat :=
  match x with
  | .fin n m e =>
    if f.holds x then f.rne x
    else if (f.decode f.maxFinite).lt (.fin false m e) then f.rne x
    else
      let lo := f.rtz m e
      match f.decode lo, f.decode (lo + 1) with
      | .fin _ ml el, .fin _ mh eh =>
        let base := if el < e then (if el < eh then el else eh) else (if e < eh then e else eh)
        let a := scaledInt base false m e
        let l := scaledInt base false ml el
        let h := scaledInt base false mh eh
        let fr := ((a - l).toNat * 2 ^ 32) / (h - l).toNat
        f.sign n + (if u < fr then lo + 1 else lo)
      | _, _ => f.rne x
  | y => f.rne y

/-! ## FP32 -/

/-- The exact value of FP32 bits. -/
def val (x : F32) : Num := fmtF32.decode x.toNat

/-- rne32 (R27): to FP32, to nearest, ties to even, IEEE overflow. -/
def rne32 (x : Num) : F32 := BitVec.ofNat 32 (fmtF32.rne x)

/-- cvt32 (R435). -/
def cvt32 (x : Num) : F32 := rne32 x

/-- The canonical quiet NaN (R29). -/
def nan32 : F32 := 0x7FC00000#32

/-- Whether FP32 bits are finite. -/
def fin32 (x : F32) : Bool := (val x).finite

/-- The sign bit. -/
def sgn32 (x : F32) : Bool := x.msb

/-- FP32 addition, subtraction, product and fused multiply-add, each rounded once (R55). -/
def add32 (a b : F32) : F32 := rne32 ((val a).add (val b))
def sub32 (a b : F32) : F32 := rne32 ((val a).sub (val b))
def mul32 (a b : F32) : F32 := rne32 ((val a).mul (val b))
def fma32 (a b c : F32) : F32 := rne32 (((val a).mul (val b)).add (val c))
def neg32 (a : F32) : F32 := a ^^^ 0x80000000#32

/-- two_sum (02, The compensated pair): t = rne32(a + b), e = a + b - t. -/
def twoSum (a b : F32) : F32 × F32 :=
  let t := add32 a b
  (t, rne32 (Num.sum [val a, val b, (val t).neg]))

/-- two_prod: p = rne32(a * b), pe = rne32(a * b - p). -/
def twoProd (a b : F32) : F32 × F32 :=
  let x := (val a).mul (val b)
  let p := rne32 x
  (p, rne32 (x.sub (val p)))

/-- norm(S, c): two_sum, where a sum that is not finite gives (sum, +0) (R32). -/
def normPair (s c : F32) : Pair :=
  let r := twoSum s c
  if fin32 r.1 then ⟨r.1, r.2⟩ else ⟨r.1, 0⟩

/-- The exact value of a pair; the IEEE sum when a part is not finite (R30). -/
def Num.ofPair (p : Pair) : Num := (val p.s).add (val p.c)

/-- wave_update (R31). -/
def waveUpdate (p : Pair) (q : Num) : Pair :=
  let qhi := rne32 q
  let qlo : F32 := if fin32 qhi then rne32 (q.sub (val qhi)) else 0
  let t := twoSum p.s qhi
  if fin32 t.1 then ⟨t.1, add32 p.c (add32 t.2 qlo)⟩ else ⟨t.1, 0⟩

/-- pair_add (R32); the left operand comes first. -/
def pairAdd (a b : Pair) : Pair :=
  let t := twoSum a.s b.s
  if fin32 t.1 then normPair t.1 (add32 (add32 a.c b.c) t.2) else ⟨t.1, 0⟩

/-- fused_add (R42). -/
def fusedAdd (p : Pair) (a : F32) : Pair := pairAdd p ⟨a, 0⟩

/-- fused_mul (R42). -/
def fusedMul (p : Pair) (a : F32) : Pair :=
  let t := twoProd p.s a
  if fin32 t.1 then normPair t.1 (add32 t.2 (mul32 p.c a)) else ⟨t.1, 0⟩

/-- A normalised pair (R30). -/
def normalise (p : Pair) : Pair := normPair p.s p.c

/-- rne32(S + c), the FP32 value of a pair (R44). -/
def pairVal (p : Pair) : F32 := rne32 (Num.ofPair p)

/-! ## Vector functions (R197) -/

/-- Total order that max and min use: -0 below +0. -/
def ltMin (a b : F32) : Bool := (val a).lt (val b) || ((val a).eq (val b) && sgn32 a && !sgn32 b)

/-- Whether the bits are a NaN. -/
def isNan (x : F32) : Bool := val x == .nan

/-- max and min of R197. -/
def max32 (a b : F32) : F32 := if isNan a || isNan b then nan32 else if ltMin a b then b else a
def min32 (a b : F32) : F32 := if isNan a || isNan b then nan32 else if ltMin b a then b else a

/-- a > 0, false for a NaN. -/
def gt0 (a : F32) : Bool := (Num.zero false).lt (val a)

/-- A NaN result is the canonical one. -/
def canon (x : F32) : F32 := if isNan x then nan32 else x

/-- abs and neg of `VOP`: sign-bit operations; a NaN gives the canonical NaN (R29, R55). -/
def vabs (a : F32) : F32 := canon (a &&& 0x7FFFFFFF#32)
def vneg (a : F32) : F32 := canon (neg32 a)

/-! ## Correctly rounded functions (R200, R263) -/

/-- FP32 nearest to the positive rational num / den, ties to even: the quotient is taken to 2^-400 below its leading bit with a sticky bit,
which no tie or rounding boundary of FP32 can hide in. -/
def rneRatio (neg : Bool) (num den : Nat) : F32 :=
  if num = 0 then (if neg then 0x80000000#32 else 0#32)
  else
    let k := 400 + Nat.log2 den
    let q := (num <<< k) / den
    let r := (num <<< k) % den
    rne32 (.fin neg (2 * q + (if r = 0 then 0 else 1)) (-(k : Int) - 1))

/-- Reciprocal (Table 8.4). -/
def rcp32 (x : F32) : F32 :=
  match val x with
  | .nan => nan32
  | .inf n => if n then 0x80000000#32 else 0#32
  | .fin n m e =>
    if m = 0 then (if n then 0xFF800000#32 else 0x7F800000#32)
    else if e ≥ 0 then rneRatio n 1 (m <<< e.toNat) else rneRatio n (1 <<< (-e).toNat) m

/-- Quotient of two FP32 values, rounded once (R263: clip over a sum). -/
def div32 (a b : F32) : F32 :=
  match val a, val b with
  | .nan, _ => nan32
  | _, .nan => nan32
  | .inf _, .inf _ => nan32
  | .inf x, .fin y _ _ => if xor x y then 0xFF800000#32 else 0x7F800000#32
  | .fin x _ _, .inf y => if xor x y then 0x80000000#32 else 0#32
  | .fin x m e, .fin y n f =>
    if n = 0 then (if m = 0 then nan32 else if xor x y then 0xFF800000#32 else 0x7F800000#32)
    else
      let d := e - f
      if d ≥ 0 then rneRatio (xor x y) (m <<< d.toNat) n else rneRatio (xor x y) m (n <<< (-d).toNat)

/-- Integer square root by the digit method from bit `k` down; structural, so that it evaluates. -/
def isqrtFrom (n : Nat) : Nat → Nat → Nat
  | 0, r => r
  | k + 1, r => let t := r + 2 ^ k; isqrtFrom n k (if t * t ≤ n then t else r)

/-- Greatest integer whose square is at most n. -/
def isqrt (n : Nat) : Nat := isqrtFrom n (Nat.log2 n / 2 + 1) 0

/-- Square root, correctly rounded (R263). -/
def sqrt32 (x : F32) : F32 :=
  match val x with
  | .nan => nan32
  | .inf n => if n then nan32 else 0x7F800000#32
  | .fin n m e =>
    if m = 0 then (if n then 0x80000000#32 else 0#32)
    else if n then nan32
    else
      let odd := e % 2 ≠ 0
      let m2 := (if odd then 2 * m else m) <<< 128
      let e2 := (if odd then e - 1 else e) - 128
      let r := isqrt m2
      rne32 (.fin false (2 * r + (if r * r = m2 then 0 else 1)) (e2 / 2 - 1))

/-- Reciprocal square root (Table 8.4): the root of 2^k / m. -/
def rsqrt32 (x : F32) : F32 :=
  match val x with
  | .nan => nan32
  | .inf n => if n then nan32 else 0#32
  | .fin n m e =>
    if m = 0 then (if n then 0xFF800000#32 else 0x7F800000#32)
    else if n then nan32
    else
      let odd := e % 2 ≠ 0
      let m2 := if odd then 2 * m else m
      let e2 := if odd then e - 1 else e
      let big := (1 <<< 256) / m2
      let r := isqrt big
      rne32 (.fin false (2 * r + (if r * r * m2 = 1 <<< 256 then 0 else 1)) (-(e2 / 2) - 129))

/-! ### exp, log and tanh: bounds in fixed point at 2^-192, decided when both bounds round alike -/

/-- Fraction bits of the fixed-point bounds. -/
def fx : Nat := 192

/-- Sum of the exponential series of y / 2^fx, 0 at most y below 2^fx, by terms t(k) = t(k-1) * y / k rounded down. -/
def expSeries (y : Nat) : Nat → Nat → Nat → Nat → Nat
  | 0, _, _, acc => acc
  | f + 1, k, t, acc => let t' := t * y / (k * 2 ^ fx); expSeries y f (k + 1) t' (acc + t')

/-- Lower bound of e^(y / 2^fx) * 2^fx for y below 2^fx; the true value is less than 80 units above. -/
def expFx (y : Nat) : Nat := expSeries y 64 1 (2 ^ fx) (2 ^ fx)

/-- Sum of the series 2 * (z + z^3/3 + …), z = a / b below 1/3, rounded down term by term: log((b + a) / (b - a)). -/
def atanhSeries (a b : Nat) : Nat → Nat → Nat → Nat → Nat
  | 0, _, _, acc => acc
  | f + 1, k, t, acc => atanhSeries a b f (k + 2) (t * a * a / (b * b)) (acc + t / k)

/-- Lower bound of log(1 + r) * 2^fx for the ratio n / d, 1 at most n / d at most 2; the true value is less than 400 units above. -/
def logFx (n d : Nat) : Nat := 2 * atanhSeries (n - d) (n + d) 66 1 (2 ^ fx * (n - d) / (n + d)) 0

/-- log 2 * 2^fx, rounded down (within 400 units). -/
def ln2Fx : Nat := logFx 2 1

/-- FP32 nearest to a value known to lie in [lo, hi] * 2^e, when both ends round alike; otherwise the value that the bounds do not
decide (log 17). -/
def decideF32 (tag : Nat) (x : F32) (neg : Bool) (lo hi : Nat) (e : Int) : F32 :=
  let a := rne32 (.fin neg (2 * lo + 1) (e - 1))
  let b := rne32 (.fin neg (2 * hi + 1) (e - 1))
  if a = b then a else Config.undecided tag x

/-- |x| * 2^fx for a finite x, exact when the exponent allows, else rounded down. -/
def toFx (m : Nat) (e : Int) : Nat :=
  if e + fx ≥ 0 then m <<< (e + fx).toNat else m >>> (-(e + fx)).toNat

/-- Bounds of e^v * 2^fx * 2^-k for v = s * a / 2^fx (a below 2^(fx+8)): the mantissa's lower bound, its width and the exponent k. -/
def expBounds (neg : Bool) (a : Nat) : Nat × Nat × Int :=
  let n := a / ln2Fx
  let r := a % ln2Fx
  if neg then
    -- e^-a = 2^-(n+1) * e^(ln2 - r)
    (expFx (ln2Fx - r), 2 ^ 20, -((n : Int) + 1))
  else (expFx r, 2 ^ 20, n)

/-- exp (Table 8.4). For |x| below 2^-26 the result is 1 in FP32. -/
def exp32 (x : F32) : F32 :=
  match val x with
  | .nan => nan32
  | .inf n => if n then 0#32 else 0x7F800000#32
  | .fin n m e =>
    if m = 0 then 0x3F800000#32
    else if (Num.fin false m e).lt (.fin false 1 (-26)) then 0x3F800000#32
    else if (Num.fin false 128 0).lt (.fin false m e) then (if n then 0#32 else 0x7F800000#32)
    else
      let b := expBounds n (toFx m e)
      decideF32 0 x false (b.1 - b.2.1) (b.1 + b.2.1) (b.2.2 - fx)

/-- log (Table 8.4). -/
def log32 (x : F32) : F32 :=
  match val x with
  | .nan => nan32
  | .inf n => if n then nan32 else 0x7F800000#32
  | .fin n m e =>
    if m = 0 then 0xFF800000#32
    else if n then nan32
    else if (Num.fin false m e).eq (.fin false 1 0) then 0#32
    else
      let k : Int := (Nat.log2 m : Nat) + e
      let l : Int := logFx m (2 ^ Nat.log2 m)
      let v : Int := k * ln2Fx + l
      let w : Int := 2 ^ 20
      if v ≥ 0 then decideF32 1 x false (v - w).toNat (v + w).toNat (-(fx : Int))
      else decideF32 1 x true ((-v) - w).toNat ((-v) + w).toNat (-(fx : Int))

/-- Powers of x in the series x - x^3/3 + 2x^5/15, for small |x|: bounds around x * (1 - x^2 / 3). -/
def tanhSmall (x : F32) (n : Bool) (m : Nat) (e : Int) : F32 :=
  -- |x| < 2^-40: tanh x lies in (x - x^3/3 - x^5, x), less than 2^-80 of x below it
  let hi : Num := .fin n (m * 2 ^ 100) (e - 100)
  let lo : Num := .fin n (m * 2 ^ 100 - m * 2 ^ 20) (e - 100)
  if rne32 hi = rne32 lo then rne32 hi else Config.undecided 2 x

/-- tanh (Table 8.4): (E - 1) / (E + 1) with E = e^(2|x|). -/
def tanh32 (x : F32) : F32 :=
  match val x with
  | .nan => nan32
  | .inf n => if n then 0xBF800000#32 else 0x3F800000#32
  | .fin n m e =>
    if m = 0 then x
    else if (Num.fin false m e).lt (.fin false 1 (-40)) then tanhSmall x n m e
    else if (Num.fin false 16 0).lt (.fin false m e) then (if n then 0xBF800000#32 else 0x3F800000#32)
    else
      let b := expBounds false (2 * toFx m e)
      let k := b.2.2.toNat
      let lo := (b.1 - b.2.1) * 2 ^ k
      let hi := (b.1 + b.2.1) * 2 ^ k
      let one := 2 ^ fx
      decideF32 2 x n ((lo - one) * 2 ^ fx / (lo + one)) ((hi - one) * 2 ^ fx / (hi + one) + 1) (-(fx : Int))

/-! ## The counter-based generator (R46, R47) -/

/-- Rotation left of 64 bits. -/
def rotl64 (x : Word) (n : Nat) : Word := x.rotateLeft n

/-- Rounds of `gen` from round r on. -/
def genRounds (k1 k2 : Word) : List (Nat × Nat) → Word × Word → Word × Word
  | [], x => x
  | (r, rot) :: rs, (x0, x1) =>
    let x0 := x0 + x1
    let x1 := rotl64 x1 rot ^^^ x0
    if r = 3 then genRounds k1 k2 rs (x0 + k1, x1 + k2 + 1) else genRounds k1 k2 rs (x0, x1)

/-- gen (R46). -/
def gen (seed : Word) (step tid : Nat) (ctr purpose : Word) : Word × Word :=
  let k1 : Word := (BitVec.ofNat 64 (step % 2 ^ 48) <<< 16) ||| BitVec.ofNat 64 (tid % 2 ^ 16)
  let k2 : Word := seed ^^^ k1 ^^^ 0x5A4C1D3EB7F02968#64
  let x := genRounds k1 k2 [(0, 13), (1, 47), (2, 29), (3, 5), (4, 41), (5, 19), (6, 58), (7, 36)] (ctr + seed, purpose + k1)
  (x.1 + k2, x.2 + seed + 2)

/-- The draw of element e (R47). -/
def draw (seed : Word) (step tid e : Nat) (purpose : Nat) : Nat :=
  let g := gen seed step tid (BitVec.ofNat 64 (e / 4)) (BitVec.ofNat 64 purpose)
  match e % 4 with
  | 0 => bf g.1.toNat 0 32
  | 1 => bf g.1.toNat 32 32
  | 2 => bf g.2.toNat 0 32
  | _ => bf g.2.toNat 32 32

/-! ## The fixed tree and row reductions (R251, R198, R199) -/

/-- ftree over leaves lo … lo + n - 1 of a list: n is the count, `fuel` bounds the depth. -/
def ftreeAux {α : Type} (comb : α → α → α) (d : α) (leaf : List α) : Nat → Nat → Nat → α
  | 0, _, _ => d
  | fuel + 1, lo, n =>
    let h := n / 2
    let v := leaf.getD (lo + h) d
    let v := if h = 0 then v else comb (ftreeAux comb d leaf fuel lo h) v
    if n - h - 1 = 0 then v else comb v (ftreeAux comb d leaf fuel (lo + h + 1) (n - h - 1))

/-- ftree(0, m - 1) over a list of m leaves; no leaf gives the identity. -/
def ftree {α : Type} (comb : α → α → α) (d : α) (leaf : List α) : α :=
  if leaf.isEmpty then d else ftreeAux comb d leaf leaf.length 0 leaf.length

/-- Elements i, i + 256, … of a list. -/
def laneOf (l : Nat) (es : List F32) : List F32 := (es.zipIdx.filter (fun x => x.2 % 256 = l)).map (·.1)

/-- Folds lanes l and l + w for w = 128, 64, … ; an empty lane is skipped. -/
def laneCombine {α : Type} (comb : α → α → α) : List Nat → List (Option α) → List (Option α)
  | [], acc => acc
  | w :: ws, acc =>
    let lo := acc.take w
    let hi := (acc.drop w).take w
    laneCombine comb ws (List.zipWith (fun a b => match a, b with
      | some a, some b => some (comb a b)
      | some a, none => some a
      | none, b => b) lo hi)

/-- The widths of the combining passes. -/
def laneWidths : List Nat := [128, 64, 32, 16, 8, 4, 2, 1]

/-- sum and sum of squares of `VRED` (R198). -/
def vredPair (f : F32 → Pair) (es : List F32) : F32 :=
  let acc := (List.range 256).map (fun l => some ((laneOf l es).foldl (fun a e => pairAdd a (f e)) Pair.zero))
  match laneCombine pairAdd laneWidths acc with
  | some p :: _ => pairVal p
  | _ => 0

/-- max and min of `VRED`: lanes start empty. -/
def vredSel (f : F32 → F32 → F32) (es : List F32) : F32 :=
  let acc := (List.range 256).map (fun l => match laneOf l es with
    | [] => none
    | e :: r => some (r.foldl f e))
  match laneCombine f laneWidths acc with
  | some p :: _ => p
  | _ => 0

/-- `VRED` by its function code of Table 5.5: 0 sum, 1 max, 2 min, 3 sum of squares. -/
def vred (fn : Nat) (es : List F32) : F32 :=
  match fn with
  | 0 => vredPair (fun e => ⟨e, 0⟩) es
  | 1 => vredSel max32 es
  | 2 => vredSel min32 es
  | _ => vredPair (fun e => let t := twoProd e e; ⟨t.1, t.2⟩) es

/-- A list cut into pieces of n (n positive), with fuel the length. -/
def chunksOf {α : Type} (n : Nat) : Nat → List α → List (List α)
  | 0, _ => []
  | f + 1, l => if l.isEmpty then [] else l.take n :: chunksOf n f (l.drop n)

/-- rowsum (R199). -/
def rowsum (es : List F32) : F32 :=
  if es.length ≤ 32768 then vred 0 es
  else vred 0 ((chunksOf 32768 (es.length / 32768 + 1) es).map (vred 0))

/-! ## Share and hash (R89, R223) -/

/-- share(k, u, cc) (R89): first and last (exclusive) unit. -/
def share (k u cc : Nat) : Nat × Nat := (k * u / cc, (k + 1) * u / cc)

/-- hmix (R223). -/
def hmix (x : Word) : Word :=
  let x := x ^^^ (x >>> 31)
  let x := x * 0x9B1C47E52DA36F0D#64
  let x := x ^^^ (x >>> 29)
  let x := x * 0x5C8E13F7A4B29D61#64
  x ^^^ (x >>> 32)

/-- owner(row, cc) (R223). -/
def owner (row cc : Nat) : Nat := (bf (hmix (BitVec.ofNat 64 (row % 2 ^ 32))).toNat 0 32 * cc) >>> 32

/-- hset(row, g, cc, nsets) (R223). -/
def hset (row g cc nsets : Nat) : Nat :=
  let spo := nsets / cc
  owner row cc * spo + bf (hmix (BitVec.ofNat 64 ((row % 2 ^ 32) * 2 ^ 16 + g % 2 ^ 16))).toNat 32 32 % spo

end Sys2Proof.Machine
end

