-- ==== Sys2Proof/Machine/Ops.lean ====
section
/-!
DEFINITION. The named operations over memories. A memory keeps one canonical form (`Memory.wf`): addresses strictly rising and no byte 0
listed, so equal memories are equal data. Every store of the model goes through the operations of this file.
-/
namespace Sys2Proof.Machine

/-- Strictly rising addresses above `lo`, no zero byte. -/
def cellsWf : Option Nat → List Host.Cell → Bool
  | _, [] => true
  | lo, (a, b) :: r => (match lo with | none => true | some l => decide (l < a)) && b != 0#8 && cellsWf (some a) r

/-- The canonical form of a memory. -/
def Memory.wf (m : Memory) : Bool := cellsWf none m.cells

/-- The byte at an address of a cell list. -/
def cellsRead : List Host.Cell → Nat → Byte
  | [], _ => 0#8
  | (k, b) :: r, a => if k = a then b else cellsRead r a

/-- A cell list with `v` at `a`. -/
def cellsWrite : List Host.Cell → Nat → Byte → List Host.Cell
  | [], a, v => if v = 0#8 then [] else [(a, v)]
  | (k, b) :: r, a, v =>
    if a < k then (if v = 0#8 then (k, b) :: r else (a, v) :: (k, b) :: r)
    else if a = k then (if v = 0#8 then r else (k, v) :: r)
    else (k, b) :: cellsWrite r a v

/-- Reads one byte. -/
def Memory.read (m : Memory) (a : Nat) : Byte := cellsRead m.cells a

/-- Writes one byte; a byte 0 removes the entry. -/
def Memory.write (m : Memory) (a : Nat) (v : Byte) : Memory := ⟨cellsWrite m.cells a v⟩

/-- Reads `n` bytes from `a`. -/
def Memory.bytes (m : Memory) (a : Nat) : Nat → List Byte
  | 0 => []
  | n + 1 => m.read a :: m.bytes (a + 1) n

/-- Reads an `n`-byte little-endian number. -/
def Memory.le (m : Memory) (a n : Nat) : Nat := ofLe (m.bytes a n)

/-- Writes bytes from `a` up. -/
def Memory.writeBytes (m : Memory) (a : Nat) : List Byte → Memory
  | [] => m
  | b :: bs => (m.write a b).writeBytes (a + 1) bs

/-- Writes an `n`-byte little-endian number. -/
def Memory.writeLe (m : Memory) (a n v : Nat) : Memory := m.writeBytes a (leBytes n v)

/-- A byte with one nibble replaced. -/
def setNibble (b : Byte) (high : Bool) (v : Nat) : Byte :=
  if high then BitVec.ofNat 8 (b.toNat % 16 + 16 * (v % 16)) else BitVec.ofNat 8 (b.toNat / 16 * 16 + v % 16)

/-- Performs one store. -/
def Memory.store (m : Memory) : Store → Memory
  | .bytes a bs => m.writeBytes a bs
  | .nibble a h v => m.write a (setNibble (m.read a) h v)

/-- Performs stores in order. -/
def Memory.stores (m : Memory) : List Store → Memory
  | [] => m
  | w :: ws => (m.store w).stores ws

/-- The addresses a store writes. -/
def Store.covers (w : Store) (a : Nat) : Prop :=
  match w with
  | .bytes b bs => b ≤ a ∧ a < b + bs.length
  | .nibble b _ _ => a = b

/-- The cells of a memory inside [a, a + n), moved to start at `to`. -/
def cellsWindow (a n dst : Nat) : List Host.Cell → List Host.Cell
  | [] => []
  | (k, b) :: r => if a ≤ k ∧ k < a + n then (k - a + dst, b) :: cellsWindow a n dst r else cellsWindow a n dst r

/-- `n` bytes of `src` from `a`, written to this memory from `dst` up (a copy of a storage image, Table 12.2, R345). -/
def Memory.copyFrom (m src : Memory) (a dst n : Nat) : Memory :=
  ⟨m.cells.filter (fun c => decide (c.1 < dst)) ++ cellsWindow a n dst src.cells ++ m.cells.filter (fun c => decide (dst + n ≤ c.1))⟩

/-- `n` bytes from `a` set to 0. -/
def Memory.clear (m : Memory) (a n : Nat) : Memory := ⟨m.cells.filter (fun c => !(decide (a ≤ c.1) && decide (c.1 < a + n)))⟩

/-- Bytes [a, a + n) take free values (log 6): a region whose contents the manual does not define (R104). -/
def Memory.havoc (m : Memory) (ctr a : Nat) : Nat → Memory
  | 0 => m
  | n + 1 => (m.write a (Config.freeByte ctr a)).havoc ctr (a + 1) n

/-- Bytes [a, a + n) take free values (log 76) that differ from those of every other storage: `tag` names the storage. -/
def Memory.scramble (m : Memory) (ctr tag a : Nat) : Nat → Memory
  | 0 => m
  | n + 1 => (m.write a (Config.freeByte ctr (a + 2 ^ 48 * (tag + 1)))).scramble ctr tag (a + 1) n

/-- Reads a pair: S at byte 0, c at byte 4 (Table 2.2). -/
def Memory.pair (m : Memory) (a : Nat) : Pair := ⟨BitVec.ofNat 32 (m.le a 4), BitVec.ofNat 32 (m.le (a + 4) 4)⟩

/-- The bytes of a pair. -/
def pairBytes (p : Pair) : List Byte := leBytes 4 p.s.toNat ++ leBytes 4 p.c.toNat

/-- Writes a pair. -/
def Memory.writePair (m : Memory) (a : Nat) (p : Pair) : Memory := m.writeBytes a (pairBytes p)

/-- `n` bytes from `a` lie in the die's memory (R14, R423). -/
def inDie (extent a n : Nat) : Bool := decide (a + n ≤ extent)

/-- The answer of a meaning whose operand names a unit outside its range (log 4). -/
def noUnit : Host.Outcome State Fault Refusal := .fault .noSuchUnit

end Sys2Proof.Machine
end

