-- ==== Sys2Proof/Machine/Operands.lean ====
section
/-!
DEFINITION. Operand forms: tensor descriptors (Table 7.1), loop descriptors (Table 4.3) and stream bindings (Table 6.3) as read from
memory; the address, index and value of an element (R171, R172, R176, R182, R435); what leaves a drain (Table 2.4): conversion, measurement,
stores; the alias check (R173, R175).
-/
namespace Sys2Proof.Machine

/-! ## Structures in memory -/

/-- A byte of the die's memory; a byte outside reads as 0 (R177). -/
def dieByte (m : Memory) (ext a : Nat) : Byte := if a < ext then m.read a else 0

/-- `n` bytes of the die's memory from `a`. -/
def dieBytes (m : Memory) (ext a n : Nat) : List Byte := (List.range n).map (fun i => dieByte m ext (a + i))

/-- A little-endian number of `n` bytes in the die's memory. -/
def dieLe (m : Memory) (ext a n : Nat) : Nat := ofLe (dieBytes m ext a n)

/-- Tensor descriptor spelled by the 512-bit number `w` (Table 7.1). -/
def parseDesc (w : Nat) : Desc where
  base := bf w 0 48
  fmt := bf w 48 4
  sclslot := bit w 52
  bsc := bit w 53
  ralias := bit w 54
  loc := bit w 55
  t := sext 8 (bf w 56 8)
  rows := bf w 64 32
  cols := bf w 96 32
  rstride := sext 40 (bf w 128 40)
  kdir := bit w 168
  rsv := bf w 169 7
  tid := bf w 176 16
  s1 := sext 40 (bf w 192 40)
  s2 := sext 40 (bf w 232 40)
  scBase := bf w 272 48
  scStride := sext 32 (bf w 320 32)
  fill := bf w 352 32
  row0 := bf w 384 32
  col0 := bf w 416 32
  grows := bf w 448 32
  gcols := bf w 480 32

/-- The 512-bit number that spells a descriptor, for the copy in a spill pool's header (Table 9.5). -/
def descWord (d : Desc) : Nat :=
  d.base + d.fmt <<< 48 + b2n d.sclslot <<< 52 + b2n d.bsc <<< 53 + b2n d.ralias <<< 54 + b2n d.loc <<< 55 + twos 8 d.t <<< 56 +
  d.rows <<< 64 + d.cols <<< 96 + twos 40 d.rstride <<< 128 + b2n d.kdir <<< 168 + d.rsv <<< 169 + d.tid <<< 176 + twos 40 d.s1 <<< 192 +
  twos 40 d.s2 <<< 232 + d.scBase <<< 272 + twos 32 d.scStride <<< 320 + d.fill <<< 352 + d.row0 <<< 384 + d.col0 <<< 416 +
  d.grows <<< 448 + d.gcols <<< 480

/-- Loop descriptor spelled by a 256-bit number (Table 4.3). -/
def parseLoop (w : Nat) : LoopDesc where
  shape := bf w 0 4
  walk := bf w 4 4
  order := bf w 8 1
  drainCol := bit w 9
  kpiece := bf w 16 16
  groupM := bf w 32 16
  groupN := bf w 48 16
  spillCs := bf w 64 12
  gpBt := bf w 80 16
  gpBf := bf w 96 16
  gpFw := bf w 112 16
  nb1 := bf w 128 32
  nb2 := bf w 160 32

/-- Stream binding spelled by a 256-bit number (Table 6.3). -/
def parseBinding (w : Nat) : Binding := ⟨bf w 0 48, bf w 48 16, bf w 64 64, bf w 128 48, bit w 176⟩

/-! ## Elements -/

/-- Signed 64-bit arithmetic (R171). -/
def wrap64 (x : Int) : Int := sext 64 (twos 64 x)

/-- Bytes that an element of a format touches (an FP4 element lies in one byte). -/
def eBytes (fmt : Nat) : Nat := if fmt = 4 then 1 else fmtWidth fmt / 8

/-- Address of element (r, c) of batch item `i`, counted in (b1, b2) order (R171). -/
def Desc.addr (d : Desc) (nb2 i r c : Nat) : Int :=
  wrap64 (d.base + (i / nb2 : Nat) * d.s1 + (i % nb2 : Nat) * d.s2 + r * d.rstride +
    (if d.fmt = 4 then (c / 2 : Nat) else (c * eBytes d.fmt : Nat) : Nat))

/-- Bytes of a row of a tensor as stored. -/
def Desc.rowBytes (d : Desc) : Nat := if d.fmt = 4 then cdiv d.cols 2 else d.cols * eBytes d.fmt

/-- Bytes of a tensor of `items` items with its block scales. -/
def Desc.bytes (d : Desc) (items : Nat) : Nat :=
  items * (d.rows * d.rowBytes) + if d.bsc then (if d.kdir then cdiv d.rows 32 * d.cols else d.rows * cdiv d.cols 32) else 0

/-- Whether `n` bytes from `a` lie in the die's memory (R14). -/
def inside (ext : Nat) (a : Int) (n : Nat) : Bool := decide (0 ≤ a) && decide (a + n ≤ ext)

/-- Whether an element is out of range by its address (R176). -/
def Desc.oob (d : Desc) (ext nb2 i r c : Nat) : Bool := !inside ext (d.addr nb2 i r c) (eBytes d.fmt)

/-- Element index (R172); `i` = b1 * NB2 + b2. -/
def Desc.index (d : Desc) (i r c : Nat) : Nat :=
  if d.loc then (i * d.grows + (d.row0 + r)) * d.gcols + (d.col0 + c) else (i * d.rows + r) * d.cols + c

/-- Element (r, c) of item `i` as stored; out of range it reads as `FILL`, (`FILL`, +0) for PAIR (R176). FP4 by R24. -/
def Desc.raw (d : Desc) (m : Memory) (ext nb2 i r c : Nat) : Nat :=
  if d.oob ext nb2 i r c then d.fill
  else
    let v := m.le (d.addr nb2 i r c).toNat (eBytes d.fmt)
    if d.fmt = 4 then (if c % 2 = 1 then v / 16 else v % 16) else v

/-- Block-scale byte of element (r, c) (R182); 127 where there is none or it lies out of range. -/
def Desc.scale (d : Desc) (m : Memory) (ext r c : Nat) : Nat :=
  if d.bsc then
    let a : Int := if d.kdir then d.scBase + (r / 32 : Nat) * d.scStride + c else d.scBase + r * d.scStride + (c / 32 : Nat)
    if inside ext a 1 then (m.read a.toNat).toNat else 127
  else 127

/-- Exact value of an encoding with per-tensor scale t and a block-scale byte; the byte 0xFF makes a NaN (R22, R23). -/
def scaled (fmt : Nat) (t : Int) (sb raw : Nat) : Num :=
  if sb = 255 then .nan else ((fmtOf fmt).decode raw).scale ((sb : Int) - 127 - t)

/-- Exact value that a list-driven read of coordinate (r, c) outside the tensor or the piece delivers: `FILL` with its scales, the block scale
of the byte that R182 places for the coordinate, 127 where that byte lies out of range; (`FILL`, +0) for PAIR (R176, R179). -/
def Desc.fillNum (d : Desc) (m : Memory) (ext : Nat) (r c : Int) : Num :=
  if d.fmt = 9 then Num.ofPair ⟨BitVec.ofNat 32 d.fill, 0⟩
  else
    let a : Int := if d.kdir then d.scBase + r / 32 * d.scStride + c else d.scBase + r * d.scStride + c / 32
    scaled d.fmt d.t (if d.bsc && inside ext a 1 then (m.read a.toNat).toNat else 127) d.fill

/-- Exact value of element (r, c) of item `i` with its scales; PAIR by R30. -/
def Desc.num (d : Desc) (m : Memory) (ext nb2 i r c : Nat) : Num :=
  let w := d.raw m ext nb2 i r c
  if d.fmt = 9 then Num.ofPair ⟨BitVec.ofNat 32 w, BitVec.ofNat 32 (w / 2 ^ 32)⟩
  else scaled d.fmt d.t (d.scale m ext r c) w

/-- The element converted exactly to FP32 (R435); a PAIR enters as rne32(S + c). -/
def Desc.f32 (d : Desc) (m : Memory) (ext nb2 i r c : Nat) : F32 := cvt32 (d.num m ext nb2 i r c)

/-- The element as a pair: a PAIR with its bits, any other as (cvt32, +0) (R33), under scale t. -/
def Desc.pairT (d : Desc) (t : Int) (m : Memory) (ext nb2 i r c : Nat) : Pair :=
  let w := d.raw m ext nb2 i r c
  if d.fmt = 9 then ⟨BitVec.ofNat 32 w, BitVec.ofNat 32 (w / 2 ^ 32)⟩
  else ⟨cvt32 (scaled d.fmt t (d.scale m ext r c) w), 0⟩

/-- The element as a pair under the descriptor's own scale. -/
def Desc.pair (d : Desc) (m : Memory) (ext nb2 i r c : Nat) : Pair := d.pairT d.t m ext nb2 i r c

/-- All positions (r, c) of a ROWS × COLS extent in row-major order. -/
def positions (rows cols : Nat) : List (Nat × Nat) :=
  (List.range rows).flatMap (fun r => (List.range cols).map (fun c => (r, c)))

/-- Number of out-of-range elements of a descriptor and the lowest index among them, over the elements that `use` selects (R176). -/
def Desc.oobCount (d : Desc) (ext nb2 items : Nat) (use : Nat → Nat → Nat → Bool) : Nat × Option Nat :=
  (List.range items).foldl (fun acc i => (positions d.rows d.cols).foldl (fun acc p =>
    if use i p.1 p.2 && d.oob ext nb2 i p.1 p.2 then (acc.1 + 1, minOpt acc.2 (some (d.index i p.1 p.2))) else acc) acc) (0, none)

/-- The `OOB` condition (R176): list-driven positions come before descriptors, descriptors in table order; the count covers all. -/
def oobCond (lists : Nat × Option Nat) (descs : List (Nat × Option Nat)) : List Cond :=
  let n := lists.1 + (descs.map (·.1)).sum
  let first := match lists.2 with
    | some p => some p
    | none => (descs.filterMap (·.2)).head?
  match first with
  | some p => [⟨0x10, p, n⟩]
  | none => if n = 0 then [] else [⟨0x10, 0, n⟩]

/-! ## What leaves step 2 of the drain -/

/-- Step 2: the fused epilogue with element value `a` of `E` (R42): 0 none, 1 add, 2 multiply. -/
def epilogue (mode : Nat) (a : F32) (p : Pair) : Pair :=
  match mode with
  | 1 => fusedAdd p a
  | 2 => fusedMul p a
  | _ => p

/-- An exact value in a format other than PAIR, with scale t, to nearest or with the draw `u` (R41, R43). -/
def convertNum (fmt : Nat) (t : Int) (u : Option Nat) (v : Num) : Nat :=
  let x := v.scale t
  match u with
  | some d => (fmtOf fmt).sround x d
  | none => (fmtOf fmt).rne x

/-- Step 3: the pair in a format, with scale t, to nearest or with the draw `u` (R41, R43). PAIR is written normalised. -/
def convert (fmt : Nat) (t : Int) (u : Option Nat) (p : Pair) : Nat :=
  if fmt = 9 then let q := normalise p; q.s.toNat + q.c.toNat * 2 ^ 32 else convertNum fmt t u (Num.ofPair p)

/-- The written value v of R44. -/
def written (fmt : Nat) (t : Int) (sb raw : Nat) : F32 :=
  if fmt = 9 then pairVal ⟨BitVec.ofNat 32 raw, BitVec.ofNat 32 (raw / 2 ^ 32)⟩ else cvt32 (scaled fmt t sb raw)

/-- The store of one encoded element; the last even FP4 element of an odd row writes 0 into the high nibble (R24). -/
def Desc.store (d : Desc) (nb2 i r c raw : Nat) : Store :=
  let a := (d.addr nb2 i r c).toNat
  if d.fmt = 4 then
    (if c % 2 = 0 ∧ c + 1 = d.cols then .bytes a [BitVec.ofNat 8 (raw % 16)] else .nibble a (c % 2 == 1) raw)
  else .bytes a (leBytes (eBytes d.fmt) raw)

/-- What step 4 measures of an output: amax (R49), and the lowest infinity and NaN indices (R54). -/
structure Meter where
  amax : F32
  inf : Option Nat
  nan : Option Nat
  deriving DecidableEq, Repr

/-- Nothing measured yet. -/
def Meter.zero : Meter := ⟨0, none, none⟩

/-- One more written value. -/
def Meter.add (m : Meter) (idx : Nat) (v : F32) : Meter :=
  match val v with
  | .nan => { m with nan := minOpt m.nan (some idx) }
  | .inf _ => { m with amax := 0x7F800000#32, inf := minOpt m.inf (some idx) }
  | _ => let a := v &&& 0x7FFFFFFF#32; { m with amax := if m.amax.toNat < a.toNat then a else m.amax }

/-- Both measurements together. -/
def Meter.join (a b : Meter) : Meter :=
  ⟨if a.amax.toNat < b.amax.toNat then b.amax else a.amax, minOpt a.inf b.inf, minOpt a.nan b.nan⟩

/-- The square of a written value added to a norm pair (R44). -/
def normAdd (p : Pair) (v : F32) : Pair := let q := twoProd v v; pairAdd p ⟨q.1, q.2⟩

/-- A written element: its index, its encoding, its value. -/
structure Wr where
  res : Res
  idx : Nat
  raw : Nat
  v : F32
  deriving DecidableEq, Repr

/-- How an output is written: batch count, scale exponent, whether stochastic, seed and step of its draws. -/
structure OutMode where
  nb2 : Nat
  t : Int
  sr : Bool
  seed : Word
  step : Nat
  deriving DecidableEq, Repr

/-- The draw of an element, none where rounding is to nearest (R43, R45). -/
def OutMode.drawAt (o : OutMode) (tid idx : Nat) : Option Nat := if o.sr then some (draw o.seed o.step tid idx 0) else none

/-- Step 3 of one element. -/
def writeOne (d : Desc) (o : OutMode) (x : Res) : Wr :=
  let idx := d.index x.i x.r x.c
  let raw := convert d.fmt o.t (o.drawAt d.tid idx) x.pair
  ⟨x, idx, raw, written d.fmt o.t 127 raw⟩

/-- What the drain of one output leaves: stores in order, the measurement, a norm pair per core, the pairs staged for a fold pass (R174),
and the written elements for a zero map. -/
structure Drained where
  stores : List Store
  meter : Meter
  norms : List Pair
  staged : List Res
  wrs : List Wr
  deriving DecidableEq, Repr

/-- Steps 3 to 5 for an output whose elements each core hands over in its drain order. Out-of-range elements are dropped (R176). With
`RALIAS` the pairs are staged and nothing is written yet (R174). -/
def drain (d : Desc) (ext : Nat) (o : OutMode) (cores : List (List Res)) : Drained :=
  let kept := cores.map (fun l => l.filter (fun x => !d.oob ext o.nb2 x.i x.r x.c))
  if d.ralias then ⟨[], Meter.zero, cores.map (fun _ => Pair.zero), kept.flatten, []⟩
  else
    let ws := kept.map (fun l => l.map (writeOne d o))
    let all := ws.flatten
    ⟨all.map (fun w => d.store o.nb2 w.res.i w.res.r w.res.c w.raw),
     all.foldl (fun m w => m.add w.idx w.v) Meter.zero,
     ws.map (fun l => l.foldl (fun p w => normAdd p w.v) Pair.zero), [], all⟩

/-- Address key of an element, in half bytes, for elements that share an address. -/
def Desc.key (d : Desc) (nb2 : Nat) (x : Res) : Int := 2 * d.addr nb2 x.i x.r x.c + (if d.fmt = 4 then (x.c % 2 : Nat) else 0 : Nat)

/-- Staged pairs grouped by address, in ascending element index, each group folded by pair_add from the lowest (R174). -/
def foldStaged (d : Desc) (nb2 : Nat) : List Res → List (Int × Res) → List (Int × Res)
  | [], acc => acc
  | x :: r, acc =>
    let k := d.key nb2 x
    foldStaged d nb2 r
      (if acc.any (fun g => g.1 == k) then acc.map (fun g => if g.1 = k then (g.1, { g.2 with pair := pairAdd g.2.pair x.pair }) else g)
       else acc ++ [(k, x)])

/-- The fold pass over one descriptor: one store and one measurement per address, in ascending order of the lowest index (R174). A fold of
one pair is that pair. -/
def foldPass (d : Desc) (o : OutMode) (staged : List Res) : Drained :=
  let sorted := sortBy (fun a b => d.index a.i a.r a.c ≤ d.index b.i b.r b.c) staged
  let ws := (foldStaged d o.nb2 sorted []).map (fun g => writeOne d o { g.2 with pair := normalise g.2.pair })
  ⟨ws.map (fun w => d.store o.nb2 w.res.i w.res.r w.res.c w.raw), ws.foldl (fun m w => m.add w.idx w.v) Meter.zero,
   [ws.foldl (fun p w => normAdd p w.v) Pair.zero], [],
   sorted.map (fun x => match ws.find? (fun w => d.key o.nb2 w.res == d.key o.nb2 x) with
     | some w => { w with res := x }
     | none => writeOne d o x)⟩

/-! ## Zero maps -/

/-- Columns of regions of an output as stored: 128 bytes each (R245). -/
def Desc.regionCols (d : Desc) : Nat := cdiv (if d.fmt = 4 then cdiv d.cols 2 else d.cols * eBytes d.fmt) 128

/-- Region of element (r, c) of item i: regions are numbered over (b1, b2, r / 32, byte / 128) (R245). -/
def Desc.region (d : Desc) (i r c : Nat) : Nat :=
  (i * cdiv d.rows 32 + r / 32) * d.regionCols + (if d.fmt = 4 then c / 2 else c * eBytes d.fmt) / 128

/-- Whether an encoding is a zero of either sign. -/
def zeroRaw (fmt raw : Nat) : Bool := if fmt = 9 then raw % 2 ^ 31 == 0 else ((fmtOf fmt).decode raw).isZero

/-- The bits of a byte list from a predicate: bit i in byte i / 8 at position i mod 8 (R158). -/
def bitBytes (n : Nat) (f : Nat → Bool) : List Byte :=
  (List.range (cdiv n 8)).map (fun b => BitVec.ofNat 8 ((List.range 8).foldl (fun v k => v + (if 8 * b + k < n ∧ f (8 * b + k) = true then 2 ^ k else 0)) 0))

/-- The zero map of an output: a region's bit is 1 when each of its elements was written and is a zero as written (R245); an element is
written at most once, so this holds when as many zeros were written into the region as it has elements. -/
def zeroMap (d : Desc) (items : Nat) (ws : List Wr) : List Byte :=
  let per := cdiv d.rows 32 * d.regionCols
  let zeros := ws.filter (fun w => zeroRaw d.fmt w.raw)
  bitBytes (items * per) (fun g =>
    ((positions d.rows d.cols).filter (fun p => d.region (g / per) p.1 p.2 == g)).length ==
      (zeros.filter (fun w => d.region w.res.i w.res.r w.res.c == g)).length)

/-- The store of a command's zero map, none where `ZOUT` is 0. -/
def zeroMapStore (zout : Nat) (d : Desc) (items : Nat) (ws : List Wr) : List Store :=
  if zout = 0 then [] else [.bytes zout (zeroMap d items ws)]

/-- A store cut to the die's memory: bytes outside are dropped (R14). -/
def Store.clip (ext : Nat) : Store → Store
  | .bytes a bs => .bytes a (bs.take (ext - a))
  | .nibble a h v => if a < ext then .nibble a h v else .bytes a []

/-- Stores performed on the die's memory. -/
def Memory.dieStores (m : Memory) (ext : Nat) (ws : List Store) : Memory := m.stores (ws.map (Store.clip ext))

/-- Free values over [a, a + n), cut to the die's memory. -/
def Memory.dieHavoc (m : Memory) (ext ctr a n : Nat) : Memory := m.havoc ctr a (if a + n ≤ ext then n else ext - a)

/-! ## Alias checks -/

/-- Half-bytes per element (R173). -/
def halfBytes (fmt : Nat) : Nat := fmtWidth fmt / 4

/-- Dimensions (number, extent, stride in half-bytes) with more than one index, ascending (R173). -/
def aliasDims (d : Desc) (nb1 nb2 : Nat) : List (Nat × Nat × Nat) :=
  [(0, d.cols, halfBytes d.fmt), (1, d.rows, (2 * d.rstride).natAbs), (2, nb2, (2 * d.s2).natAbs), (3, nb1, (2 * d.s1).natAbs)].filter
    (fun x => 1 < x.2.1)

/-- The pair test over one dimension and those after it. -/
def pairTest (i : Nat × Nat × Nat) (rest : List (Nat × Nat × Nat)) : Option Nat :=
  (rest.find? (fun j => let g := Nat.gcd i.2.2 j.2.2; j.2.2 / g < i.2.1 && i.2.2 / g < j.2.1)).map (fun j => 16 * i.1 + j.1)

/-- The pair test over all pairs, ascending. -/
def pairTests : List (Nat × Nat × Nat) → Option Nat
  | [] => none
  | i :: r => match pairTest i r with
    | some c => some c
    | none => pairTests r

/-- The reach test over dimensions by ascending stride, in natural numbers: whether the manual's u64 `reach` wraps is open (DESIGN CHOICE, log 83). -/
def reachTest : Nat → List (Nat × Nat × Nat) → Option Nat
  | _, [] => none
  | reach, i :: r => if i.2.2 ≤ reach then some 0xFF else reachTest (reach + i.2.2 * (i.2.1 - 1)) r

/-- alias_check (R173): the dimension code of a collision that is found or not excluded. -/
def aliasCheck (d : Desc) (nb1 nb2 : Nat) : Option Nat :=
  let live := aliasDims d nb1 nb2
  match live.find? (fun i => i.2.2 == 0) with
  | some i => some (16 * i.1 + i.1)
  | none => match pairTests live with
    | some c => some c
    | none => reachTest 0 (sortBy (fun a b => a.2.2 ≤ b.2.2) live)

/-- Lowest and highest byte of one dimension's contribution. -/
def spanDim (n : Nat) (s : Int) : Int × Int := if s < 0 then ((n - 1 : Nat) * s, 0) else (0, (n - 1 : Nat) * s)

/-- The span of a descriptor: its lowest byte and the byte after its highest (R175, R287). -/
def Desc.span (d : Desc) (nb1 nb2 : Nat) : Int × Int :=
  let r := spanDim d.rows d.rstride
  let a := spanDim nb1 d.s1
  let b := spanDim nb2 d.s2
  let w : Int := if d.fmt = 4 then (cdiv d.cols 2 : Nat) else (d.cols * eBytes d.fmt : Nat)
  (d.base + r.1 + a.1 + b.1, d.base + r.2 + a.2 + b.2 + w)

/-- Whether two half-open ranges meet. -/
def meets (a b : Int × Int) : Bool := decide (a.1 < b.2) && decide (b.1 < a.2)

end Sys2Proof.Machine
end

