-- ==== Sys2Proof/Machine/Flags.lean ====
section
/-!
DEFINITION. Flags and records: interrupt flags (Table 17.5), the ignored-illegal count and record (Table 17.6, R296), status conditions
(Table 11.6), the amax slots (R49-R51), and access to resident queues.
-/
namespace Sys2Proof.Machine

/-! ## Queues and jobs -/

/-- The resident queue of a QID. -/
def Queues.find (Q : Queues) (q : Nat) : Option QRes := Q.res.find? (fun r => r.qid == q)

/-- A resident queue changed. -/
def Queues.upd (Q : Queues) (q : Nat) (f : QRes → QRes) : Queues := { Q with res := Q.res.map (fun r => if r.qid = q then f r else r) }

/-- The context of a resident queue changed. -/
def Queues.updCtx (Q : Queues) (q : Nat) (f : QCtx → QCtx) : Queues := Q.upd q (fun r => { r with ctx := f r.ctx })

/-- The first command that satisfies `p`, changed. -/
def Queues.updCmd (Q : Queues) (p : Cmd → Bool) (f : Cmd → Cmd) : Queues := { Q with cmds := modifyFirst p f Q.cmds }

/-- A job's configuration. -/
def Conf.job (c : Conf) (j : Nat) : Job := c.jobs.getD j Job.reset

/-- A job changed. -/
def Conf.updJob (c : Conf) (j : Nat) (f : Job → Job) : Conf := { c with jobs := c.jobs.modify j f }

/-- A job is enabled when its enable bit, row mask and partition size are non-zero (R297). -/
def Job.enabled (j : Job) : Bool := j.enable && j.mask != 0 && j.psize != 0

/-- The logical cores of a job's rows, ascending (R297). -/
def Job.cores (j : Job) : List Nat := (bitsOf j.mask 8).flatMap (fun y => rangeFrom (8 * y) 8)

/-- Jobs that share a row form one placement (R298). -/
def samePlacement (a b : Job) : Bool := a.mask &&& b.mask != 0

/-! ## Interrupt flags (R412) -/

def irqPfault : Nat := 0
def irqWdog : Nat := 1
def irqFault : Nat := 2
def irqFatal : Nat := 3
def irqPower : Nat := 4
def irqBoot : Nat := 5
def irqIll : Nat := 6
def irqArc : Nat := 7

/-- Sets flag `k`. -/
def Irq.raise (i : Irq) (k : Nat) : Irq := { i with stat := i.stat ||| (1#8 <<< k) }

/-- Sets completion vector `v` (R413). -/
def Irq.complete (i : Irq) (v : Nat) : Irq := { i with pend := i.pend ||| (1#256 <<< v) }

/-- Levels of the engine, fatal and completion lines (R412, R413). -/
def engLine (s : State) : Bool := s.irq.stat &&& s.irq.en != 0
def fatalLine (s : State) : Bool := s.irq.stat.getLsbD 3
def cmpLine (s : State) : Bool := s.irq.pend != 0

/-! ## Ignored illegal sequences (R296) -/

/-- Whom a record names. -/
inductive IllId where
  | none | queue (q : Nat) | core (l : Nat)
  deriving DecidableEq, Repr

/-- The bits of GX_ILL_REC0. -/
def recWord (src : Nat) (id : IllId) (gen : Nat) : Word :=
  BitVec.ofNat 64 (src % 256 + gen % 65536 * 2 ^ 48 + match id with
    | .none => 0
    | .queue q => 2 ^ 9 + q % 2 ^ 22 * 2 ^ 10
    | .core l => 2 ^ 8 + 2 ^ 9 + l % 64 * 2 ^ 10)

/-- The engine-wide count and record after one more sequence. GEN counts the records modulo 65,536. -/
def Ill.note (i : Ill) (src : Nat) (id : IllId) (detail : Word) : Ill :=
  { i with cnt := satTo (2 ^ 48 - 1) (i.cnt + 1), rec0 := recWord src id (bf i.rec0.toNat 48 16 + 1), detail := detail }

/-- The queue's own count and record. Its `GEN` is the count of its own records. -/
def QCtx.noteIll (c : QCtx) (src : Nat) (id : IllId) (detail : Word) : QCtx :=
  { c with illCnt := satTo (2 ^ 48 - 1) (c.illCnt + 1), illRec0 := recWord src id (bf c.illRec0.toNat 48 16 + 1), illRec1 := detail }

/-- Counts an ignored illegal sequence: engine-wide count and record, the queue's where one is known, and the ILL flag. -/
def noteIll (s : State) (src : Nat) (id : IllId) (queue : Option Nat) (detail : Word) : State :=
  { s with
    ill := s.ill.note src id detail
    irq := s.irq.raise irqIll
    q := match queue with
      | some q => s.q.updCtx q (fun c => c.noteIll src id detail)
      | none => s.q }

/-- A sequence of a queue. -/
def illQueue (s : State) (src q : Nat) (detail : Word) : State := noteIll s src (.queue q) (some q) detail

/-! ## Halted control accesses (R143) -/

/-- Whether a page fault halts a control access. -/
def Tender.ctlHeld (t : Tender) (a : CtlAccess) : Bool := (t.recs ++ t.waiting).any (fun r => r.ctl == some a)

/-- Whether a page fault halts a control access made for a command. -/
def Tender.cmdHeld (t : Tender) (q : Nat) (seq : BitVec 32) : Bool :=
  (t.recs ++ t.waiting).any (fun r => r.ctl == some (.command q) && r.xfer.seq == seq)

/-! ## Fault records (R359) -/

/-- Whether a fault record finds room. -/
def Flt.room (f : Flt) : Bool := decide (f.recs.length < 64)

/-- A record enters, or is lost and counted. -/
def Flt.push (f : Flt) (r : FltRec) : Flt :=
  if f.room then { f with recs := f.recs ++ [r] } else { f with ovf := satTo 65535 (f.ovf + 1) }

/-- Writes a fault record and raises `FAULT`; the time in the next record is another free value. -/
def noteFault (s : State) (r : FltRec) : State :=
  { s with flt := s.flt.push r, irq := if s.flt.room then s.irq.raise irqFault else s.irq, free := s.free + 1 }

/-- Microseconds of the Keeper's oscillator: a free value (log 6). -/
def keeperUs (s : State) : Nat := bf (Config.sampled s.free 0).toNat 0 48

/-- A record without a core. -/
def engineFault (s : State) (kind action unit : Nat) (loc : Nat) : State :=
  noteFault s ⟨kind, false, action, 0x7F, none, unit, 0, BitVec.ofNat 64 loc, keeperUs s⟩

/-! ## Amax slots (R49-R51) -/

/-- The slot of a tensor ID. -/
def Amax.slot (a : Amax) (tid : Nat) : AmaxSlot := lookupD AmaxSlot.reset a.slots tid

/-- A slot replaced. -/
def Amax.setSlot (a : Amax) (tid : Nat) (x : AmaxSlot) : Amax := { a with slots := assocSet AmaxSlot.reset a.slots tid x }

/-- Updates a slot at command completion: step above the head step or a slot never written advances the head; the head step itself keeps
the larger value; a step below leaves the slot (R50). -/
def AmaxSlot.update (x : AmaxSlot) (step : Nat) (v : F32) : AmaxSlot :=
  if x.headStep.toNat < step ∨ x.written = false then
    let h := x.headPtr + 1
    { x with entries := x.entries.set h.toNat v, evalid := x.evalid ||| (1#16 <<< h.toNat), headStep := BitVec.ofNat 48 step, headPtr := h,
             written := true }
  else if x.headStep.toNat = step then
    let h := x.headPtr.toNat
    let old := x.entries.getD h 0
    { x with entries := x.entries.set h (if x.evalid.getLsbD h && decide (v.toNat ≤ old.toNat) then old else v),
             evalid := x.evalid ||| (1#16 <<< h) }
  else x

/-- The entries of the window for a command of step s: 15 from the head, or from behind the head when the head step equals s; written
entries only (R51). -/
def AmaxSlot.window (x : AmaxSlot) (step : Nat) : List F32 :=
  let first := if x.headStep.toNat = step then 1 else 0
  ((rangeFrom first 15).filterMap (fun k =>
    let i := (x.headPtr.toNat + 16 - k) % 16
    if x.evalid.getLsbD i then some (x.entries.getD i 0) else none))

/-- The exponent derived from the window with margin `m`, clamped to -127 … 127 (R51). -/
def AmaxSlot.derived (x : AmaxSlot) (m : BitVec 3) (step : Nat) : Int :=
  let h := (x.window step).foldl (fun a v => if a.toNat < v.toNat then v else a) (0 : F32)
  let cur := x.scale.toInt
  let t : Int := if h = 0 then cur else if h = 0x7F800000#32 then cur - 1 else 14 - (val h).expo - m.toNat
  if t < -127 then -127 else if 127 < t then 127 else t

/-- AMAX_DERIVATION (R51): at most once a step, and not when the head step is above the step. -/
def AmaxSlot.derive (x : AmaxSlot) (m : BitVec 3) (step : Nat) : AmaxSlot :=
  if step < x.headStep.toNat then x
  else if x.derivStep.toNat = step then x
  else { x with scale := BitVec.ofInt 8 (x.derived m step), derivStep := BitVec.ofNat 48 step }

/-- The derivation for several tensor IDs: under each slot's margin, or under the one a `CFG` behind the command's admission changed (`ms`). -/
def Amax.derive (a : Amax) (ms : List (Nat × BitVec 3)) (step : Nat) (tids : List Nat) : Amax :=
  tids.foldl (fun a t => a.setSlot t ((a.slot t).derive (lookupD (a.slot t).m ms t) step)) a

/-- The scale exponent with which a command writes an output: the one it took from the slot at its start under SCLSLOT, else T (R52, R418). -/
def outScale (c : Cmd) (d : Desc) : Int := if d.sclslot then lookupD 0 c.scales d.tid else d.t

/-- A command that takes the current exponents of slots; one already taken stays. -/
def Cmd.takeScales (c : Cmd) (a : Amax) (tids : List Nat) : Cmd :=
  { c with scales := c.scales ++ (tids.filter (fun t => !c.scales.any (fun x => x.1 == t))).map (fun t => (t, (a.slot t).scale.toInt)) }

/-- A `CFG` changes the margin of slot `tid` for the commands admitted after it: the others keep `old` (Table 11.4). -/
def Queues.keepMargin (Q : Queues) (tid : Nat) (old : BitVec 3) : Queues :=
  { Q with cmds := Q.cmds.map (fun c =>
      if (c.stage = .admitted ∨ c.stage = .started) ∧ (c.margins.any (fun x => x.1 == tid)) = false then { c with margins := (tid, old) :: c.margins }
      else c) }

/-- A whole slot is stored: its margin is every command's again (R418). -/
def Queues.dropMargins (Q : Queues) (tids : Nat → Bool) : Queues :=
  { Q with cmds := Q.cmds.map (fun c => { c with margins := c.margins.filter (fun x => !tids x.1) }) }

/-! ## Status conditions (Table 11.6) -/

/-- Rank of a completion code: 1 is the highest. -/
def condRank (code : Nat) : Nat :=
  match code with
  | 0x60 => 1
  | 0x31 => 2
  | 0x30 => 3
  | 0x10 => 4
  | 0x11 => 5
  | 0x51 => 6
  | 0x50 => 7
  | 0x02 => 8
  | 0x01 => 9
  | _ => 10

/-- The condition of highest rank. -/
def topCond : List Cond → Option Cond
  | [] => none
  | c :: r => match topCond r with
    | none => some c
    | some d => if condRank c.code ≤ condRank d.code then some c else some d

/-- A status "from OOB upward" (R278): OOB, FAULT_PAGE, CANCELLED, UNCORR. -/
def fromOob (code : Nat) : Bool := code == 0x10 || code == 0x30 || code == 0x31 || code == 0x60

/-- A refusal code (Table 11.6). -/
def isRefusal (code : Nat) : Bool :=
  code == 0x7E || code == 0x21 || code == 0x20 || code == 0x41 || code == 0x40 || code == 0x22 || code == 0x23

/-- The arithmetic exception figures of a command: of the first output that holds an infinity or NaN (R54). -/
def excOf (outs : List Meter) : Option ExcRec :=
  (outs.zipIdx.find? (fun x => x.1.inf.isSome || x.1.nan.isSome)).map (fun x => ⟨x.2, x.1.inf, x.1.nan⟩)

/-! ## Parameters of a packet -/

/-- Parameter word k. -/
def Cmd.p (c : Cmd) (k : Nat) : Nat := (c.params.getD k 0).toNat

/-- Field [lo + n - 1 : lo] of parameter word k. -/
def Cmd.pf (c : Cmd) (k lo n : Nat) : Nat := bf (c.p k) lo n

/-- Bit i of parameter word k. -/
def Cmd.pb (c : Cmd) (k i : Nat) : Bool := bit (c.p k) i

/-- A descriptor that names nothing. -/
def Desc.none : Desc := ⟨0, 0, false, false, false, false, 0, 0, 0, 0, false, 0, 0, 0, 0, 0, 0, 0, 0, 0, 0, 0⟩

/-- Descriptor at position k. -/
def Cmd.d (c : Cmd) (k : Nat) : Desc := c.descs.getD k Desc.none

/-- The loop descriptor. -/
def Cmd.lp (c : Cmd) : LoopDesc := c.loopd.getD ⟨0, 0, 0, false, 0, 0, 0, 0, 0, 0, 0, 0, 0⟩

end Sys2Proof.Machine
end

