-- ==== Sys2Proof/Machine/Packets.lean ====
section
/-!
DEFINITION. Check 1 on the packet itself (R266-R272, R436): its layout, CRC, sequence number, opcode, reserved fields, parameter values,
descriptor counts and descriptor-table address, in the order of R436. The rules of the descriptor table are in Legal.lean.
-/
namespace Sys2Proof.Machine

/-! ## Causes -/

/-- A cause of `IGNORED`: reason of Table 11.7, descriptor position or 0xFF, byte offset or 0xFFFF (R436). -/
structure Why where
  reason : Nat
  pos : Nat
  off : Nat
  deriving DecidableEq, Repr

/-- `FIRST` of the reply (Table 11.6). -/
def Why.first (w : Why) : Nat := w.reason + w.pos * 2 ^ 8 + w.off * 2 ^ 16

/-- The lowest offset that is at fault. -/
def firstBad (l : List (Nat × Bool)) : Option Nat := l.foldl (fun m x => if x.2 then minOpt m (some x.1) else m) none

/-- A cause that names a field of the packet. -/
def packetWhy (reason : Nat) (l : List (Nat × Bool)) : Option Why := (firstBad l).map (fun o => ⟨reason, 0xFF, o⟩)

/-! ## Layout (Table 11.1) -/

/-- Bytes of a packet in a format. -/
def pkBytes (fmt : Nat) : Nat := if fmt = 2 then 128 else 64

/-- Offset of `P0`, number of parameter words, offset of the reserved bytes before the CRC. -/
def pkParams (fmt : Nat) : Nat := if fmt = 2 then 32 else 24
def pkWords (fmt : Nat) : Nat := if fmt = 2 then 11 else 4
def pkTail (fmt : Nat) : Nat := if fmt = 2 then 120 else 56

/-- The parameter words `P0` to `P10`; format 1 gives `P4` to `P10` the value 0 (R268). -/
def pkParamWords (fmt w : Nat) : List Word :=
  (List.range 11).map (fun k => if k < pkWords fmt then BitVec.ofNat 64 (bf w (8 * pkParams fmt + 64 * k) 64) else 0)

/-! ## Opcodes (Table 11.2) -/

/-- The defined opcodes. -/
def opKnown : List Nat :=
  [0x10, 0x11, 0x12, 0x13, 0x20, 0x21, 0x22, 0x28, 0x30, 0x31, 0x32, 0x38, 0x40, 0x41, 0x42, 0x48, 0x49, 0x4A, 0x50, 0x51, 0x52, 0x53,
   0x58, 0x59, 0x60, 0x61, 0x62, 0x63, 0x70, 0x7F]

/-- The opcodes that format 1 accepts. -/
def opFormat1 : List Nat := [0x10, 0x11, 0x12, 0x13, 0x20, 0x21, 0x22, 0x28, 0x41, 0x42, 0x48, 0x50, 0x51, 0x7F]

/-- The opcodes with a loop descriptor. -/
def opHasLoop : List Nat := [0x10, 0x11, 0x12, 0x13, 0x31]

/-- The products, and the layer backward and element-wise commands. -/
def isProduct (op : Nat) : Bool := 0x10 ≤ op && op ≤ 0x13
def isLayer (op : Nat) : Bool := op == 0x20 || op == 0x21 || op == 0x22 || op == 0x28

/-! ## Parameter fields (Table 11.3) -/

/-- Fields that every product names, and that every layer command names. -/
def productFields : List (Nat × Nat × Nat) := [(0, 0, 7), (2, 0, 48), (3, 0, 40), (7, 0, 52)]
def layerFields : List (Nat × Nat × Nat) := [(0, 0, 64), (1, 9, 1), (6, 0, 48), (7, 0, 40)]

/-- The fields that an opcode names: word, lowest bit, width. Every other bit is reserved (R272). -/
def opFields (op : Nat) : List (Nat × Nat × Nat) :=
  match op with
  | 0x10 => productFields ++ [(0, 7, 2), (1, 0, 48), (4, 0, 48), (5, 0, 40), (6, 0, 48)]
  | 0x11 => productFields ++ [(0, 9, 2), (6, 0, 48), (8, 0, 48), (9, 0, 32)]
  | 0x12 => productFields ++ [(0, 7, 3), (1, 0, 48)]
  | 0x13 => productFields ++ [(0, 9, 1), (0, 11, 2), (6, 0, 48)]
  | 0x20 => layerFields ++ [(1, 0, 2), (1, 10, 6), (4, 0, 48)]
  | 0x21 => layerFields ++ [(1, 2, 2), (1, 14, 2), (2, 0, 64), (4, 0, 48)]
  | 0x22 => layerFields ++ [(1, 4, 5), (1, 10, 6), (1, 32, 16), (2, 0, 64), (3, 0, 32), (5, 0, 48)]
  | 0x28 => layerFields ++ [(1, 10, 4), (1, 16, 2), (2, 0, 32), (5, 0, 48)]
  | 0x30 => [(0, 0, 33), (1, 0, 48), (2, 0, 48), (3, 0, 40)]
  | 0x31 => [(0, 0, 43), (1, 0, 48), (2, 0, 48), (3, 0, 40), (4, 0, 48), (5, 0, 48)]
  | 0x32 => [(2, 0, 48)]
  | 0x38 => [(0, 0, 48), (1, 0, 32)]
  | 0x40 => [(0, 0, 2), (0, 32, 32), (1, 0, 64), (2, 0, 48), (3, 0, 17), (3, 32, 17), (4, 0, 48), (5, 0, 40)]
  | 0x41 => [(0, 0, 48), (1, 0, 48), (2, 0, 48)]
  | 0x42 => [(0, 0, 64)]
  | 0x48 => [(0, 0, 8), (0, 32, 32), (1, 0, 64)]
  | 0x49 => [(0, 0, 12), (0, 32, 32), (1, 0, 48), (2, 0, 64), (3, 0, 48)]
  | 0x4A => [(0, 0, 64)]
  | 0x50 => [(0, 0, 1)]
  | 0x51 => (List.range 8).flatMap (fun k => [(k, 0, 23), (k, 32, 32)])
  | 0x52 => [(0, 0, 55), (1, 0, 32)]
  | 0x53 => [(0, 0, 48), (1, 0, 64), (2, 0, 1)]
  | 0x58 => [(0, 0, 48), (1, 0, 14), (1, 16, 13), (1, 32, 9), (2, 0, 48), (3, 0, 53), (4, 0, 48), (5, 0, 40), (6, 0, 32), (7, 0, 55)]
  | 0x59 => [(0, 0, 8)]
  | 0x60 | 0x61 | 0x62 => [(0, 0, 48), (1, 0, 40), (2, 0, 1)]
  | 0x63 => [(0, 0, 48), (1, 0, 17)]
  | 0x70 => [(0, 0, 56)]
  | _ => []

/-- The bits of word `k` that an opcode names. -/
def namedBits (op k : Nat) : Nat := (opFields op).foldl (fun m f => if f.1 = k then m ||| ((2 ^ f.2.2 - 1) <<< f.2.1) else m) 0

/-- Lowest bit of the reserved field that holds bit `b`. -/
def fieldStart (mask : Nat) : Nat → Nat
  | 0 => 0
  | b + 1 => if bit mask b then b + 1 else fieldStart mask b

/-- Byte offset in word `w` of its first non-zero reserved field, where `mask` holds the bits that have a name. -/
def reservedIn (mask w : Nat) : Option Nat :=
  ((List.range 64).find? (fun b => bit w b && !bit mask b)).map (fun b => fieldStart mask b / 8)

/-- The first non-zero reserved field of a packet (reason 0x05). -/
def reservedWhy (fmt op w : Nat) : Option Why :=
  packetWhy 0x05 (
    [(0, bf w 4 4 != 0), (2, bf w 19 13 != 0), (23, bf w 185 7 != 0), (30, fmt == 2 && bf w 240 16 != 0),
     (pkTail fmt, bf w (8 * pkTail fmt) 32 != 0)] ++
    (List.range (pkWords fmt)).map (fun k =>
      match reservedIn (namedBits op k) (bf w (8 * pkParams fmt + 64 * k) 64) with
      | some o => (pkParams fmt + 8 * k + o, true)
      | none => (0, false)))

/-! ## Parameter values (reason 0x06) -/

/-- Whether an FP32 encoding is finite and above 0, finite and not below 0. -/
def finitePos (x : F32) : Bool :=
  match val x with
  | .fin neg m _ => !neg && m != 0
  | _ => false

def finiteNonNeg (x : F32) : Bool :=
  match val x with
  | .fin neg m _ => !neg || m == 0
  | _ => false

/-- Whether an FP32 encoding is zero, infinite or NaN. -/
def zeroOrNotFinite (x : F32) : Bool :=
  match val x with
  | .fin _ m _ => m == 0
  | _ => true

/-- `ALPHA` of Table 8.3 for a function code. -/
def alphaOk (afn : Nat) (a : F32) : Bool :=
  if afn = 1 then finitePos a && decide (a.toNat ≤ 0x3F800000)
  else if afn = 5 then finitePos a
  else a == 0

/-- Fault of a spill region: base 4 KiB aligned, size a multiple of 32 KiB. -/
def regionFaults (k : Nat) (base size : Nat) : List (Nat × Bool) := [(8 * k, base % 4096 != 0), (8 * k + 8, size % 32768 != 0)]

/-- Batch counts at the low and high half of word `k`. -/
def batchFaults (k : Nat) (w : Nat) : List (Nat × Bool) := [(8 * k, bf w 0 32 == 0), (8 * k + 4, bf w 32 32 == 0)]

/-- Values of the parameter words that lie outside their ranges, as offsets from `P0`. `chain` is the packet's place in a CHAIN (R134). -/
def paramFaults (op : Nat) (ps : List Word) (qid chain : Nat) : List (Nat × Bool) :=
  let p := fun k => (ps.getD k 0).toNat
  let pf := fun k lo n => bf (p k) lo n
  if isProduct op then
    [(0, pf 0 5 2 == 3), (0, pf 0 7 2 == 3 && (op == 0x10 || op == 0x12)), (8, pf 1 0 48 % 8 != 0)] ++ regionFaults 2 (p 2) (p 3) ++
    (if op = 0x10 then regionFaults 4 (p 4) (p 5) else [])
  else if isLayer op then
    batchFaults 0 (p 0) ++ [(32, pf 4 0 48 % 4 != 0)] ++ regionFaults 6 (p 6) (p 7) ++
    (if op = 0x20 ∨ op = 0x21 ∨ op = 0x22 then [(9, pf 1 14 2 == 3)] else []) ++
    (if op = 0x21 then [(16, zeroOrNotFinite (BitVec.ofNat 32 (pf 2 0 32)))] else []) ++
    (if op = 0x22 then
      [(8, decide (7 < pf 1 4 4)), (16, !alphaOk (pf 1 4 4) (BitVec.ofNat 32 (pf 2 0 32))),
       (20, pf 1 8 1 == 1 && !finitePos (BitVec.ofNat 32 (pf 2 32 32)))] else [])
  else match op with
    | 0x30 => [(0, pf 0 0 32 == 0), (8, pf 1 0 48 % 4 != 0), (16, pf 2 0 48 % 65536 != 0), (24, pf 3 0 40 % 65536 != 0)]
    | 0x31 => [(0, pf 0 0 13 == 0 || decide (4096 < pf 0 0 13)), (1, pf 0 13 25 == 0 || decide (2 ^ 24 < pf 0 13 25)),
               (8, pf 1 0 48 % 8 != 0), (40, pf 5 0 48 % 8 != 0)] ++ regionFaults 2 (p 2) (p 3)
    | 0x32 => [(16, pf 2 0 48 % 65536 != 0)]
    | 0x40 =>
      batchFaults 1 (p 1) ++ regionFaults 4 (p 4) (p 5) ++
      (if pf 0 0 2 < 2 then [(4, pf 0 32 32 != 0), (16, pf 2 0 48 != 0), (24, pf 3 0 17 != 0), (28, pf 3 32 17 != 0)]
       else [(16, pf 2 0 48 % 8 != 0), (24, pf 3 0 17 == 0 || decide (65536 < pf 3 0 17)),
             (28, pf 3 32 17 == 0 || decide (65536 < pf 3 32 17))])
    | 0x41 => [(16, pf 2 0 48 == 0)]
    | 0x42 => batchFaults 0 (p 0)
    | 0x48 => [(0, decide (6 < pf 0 0 4)), (0, pf 0 4 2 == 3), (4, pf 0 32 32 == 0)] ++ batchFaults 1 (p 1)
    | 0x49 => [(0, decide (1024 < pf 0 0 11)), (4, pf 0 32 32 == 0)]
    | 0x4A => [(0, decide (65536 < pf 0 0 16 + pf 0 16 16 + 1)), (4, pf 0 32 32 == 0)]
    | 0x51 => (List.range 8).map (fun k => (8 * k, pf k 22 1 == 1 && pf k 0 22 == qid))
    | 0x52 => [(8, pf 1 0 32 == 0)]
    | 0x53 => [(0, pf 0 0 48 % 8 != 0)]
    | 0x58 =>
      [(12, decide (256 < pf 1 32 9)), (30, decide (16 < pf 3 48 5)), (48, pf 6 0 32 == 0)] ++
      (if chain = 0 then [(56, pf 7 0 32 != 0), (60, pf 7 32 16 != 0), (62, pf 7 48 7 != 0)]
       else [(56, pf 7 0 32 == 0), (60, pf 7 32 16 == 0),
             (62, if chain = 1 then pf 7 48 7 != 0 else pf 7 48 7 == 0 || decide (64 < pf 7 48 7))])
    | 0x59 => [(0, decide (pf 0 0 7 < 2) || decide (64 < pf 0 0 7))]
    | 0x60 => [(16, pf 2 0 1 == 1)]
    | _ => []

/-! ## Descriptor counts (reason 0x07) -/

/-- Number of tensor descriptors that Table 11.2 gives an opcode; a `REDUCE` under `ROOT` may lack its destination until admission. -/
def descCount (op : Nat) (ps : List Word) : Nat :=
  let p := fun k lo n => bf (ps.getD k 0).toNat lo n
  let e := if p 0 5 2 = 0 then 0 else 1
  let le := if p 1 14 2 = 0 then 0 else 1
  match op with
  | 0x10 => 5 + e
  | 0x11 | 0x12 | 0x13 => 3 + e
  | 0x20 => (if p 1 0 1 = 0 then 8 else 6) + le
  | 0x21 => (if p 1 2 1 = 1 then 6 else 5) + le
  | 0x22 => 3 + le
  | 0x28 => if p 1 16 2 ≤ 1 then 3 else 2
  | 0x30 => 2
  | 0x31 => 5
  | 0x38 | 0x40 => 2
  | 0x42 => 1
  | 0x48 => if p 0 6 1 = 1 then 1 else 2
  | _ => 0

/-- The counts that the table does not give (reason 0x07): `NDESC` and `NBIND` lie in byte 22, `LDP` in byte 23. -/
def countFaults (op : Nat) (ps : List Word) (ndesc nbind ldp : Nat) : List (Nat × Bool) :=
  let n := descCount op ps
  let root := op == 0x48 && bf (ps.getD 0 0).toNat 4 2 == 0
  [(22, ndesc != n && !(root && ndesc + 1 == n)), (22, decide ((if op = 0x58 then 8 else 0) < nbind)),
   (23, ldp != (if opHasLoop.contains op then 1 else 0))]

/-- Bytes of a descriptor table. -/
def tableBytes (ndesc ldp nbind : Nat) : Nat := 64 * ndesc + 32 * ldp + 32 * nbind

/-! ## The packet checks in order -/

/-- Causes 0x01 to 0x07 and 0x0B of a packet of format `fmt` with the bits `w`; `want` is the expected `SEQ` (none where it is not judged
again, R295). -/
def packetWhys (ext fmt w : Nat) (bytes : List Byte) (want : Option (BitVec 32)) (qid chain : Nat) : Option Why :=
  let op := bf w 8 8
  let ps := pkParamWords fmt w
  let ndesc := bf w 176 4
  let nbind := bf w 180 4
  let ldp := bf w 184 1
  let dtab := bf w 128 48
  let size := tableBytes ndesc ldp nbind
  if crc32c (bytes.take (pkTail fmt + 4)) != bf w (8 * pkTail fmt + 32) 32 then some ⟨0x01, 0xFF, 0xFFFF⟩
  else if bf w 0 4 != fmt then some ⟨0x02, 0xFF, 0⟩
  else if want.any (fun q => q.toNat != bf w 32 32) then some ⟨0x03, 0xFF, 4⟩
  else if !opKnown.contains op || (fmt == 1 && !opFormat1.contains op) then some ⟨0x04, 0xFF, 1⟩
  else (reservedWhy fmt op w).or (
    (packetWhy 0x06 ((paramFaults op ps qid chain).map (fun x => (x.1 + pkParams fmt, x.2)))).or (
    (packetWhy 0x07 (countFaults op ps ndesc nbind ldp)).or (
    if size = 0 then (if dtab = 0 then none else some ⟨0x0B, 0xFF, 16⟩)
    else if dtab % 64 != 0 || !inDie ext dtab size then some ⟨0x0B, 0xFF, 16⟩
    else none)))

end Sys2Proof.Machine
end

