-- ==== Sys2Proof/Machine/Legal.lean ====
section
/-!
DEFINITION. Check 1 on the descriptor table (reasons 0x08, 0x09, 0x0A): roles and formats (Table 11.2, R21, R191, R225, R238, R247, R255),
the rules of one descriptor (R22, R170, R182), of two (R436), of the loop descriptor (R91) and of stream bindings (R150).
-/
namespace Sys2Proof.Machine

/-! ## Roles -/

/-- The roles of Table 11.2. -/
inductive Role where
  | x | w | w2v | dy | dx | dw | e | a | b | c | mu | rstd | gamma | dgamma | dbeta | out | dp | s | max | lsum | drow | y
  | tab | grad | dyd | dxd | src | dst
  deriving DecidableEq, Repr

/-- The roles of a command's descriptors in table order (R271); `n` is the packet's `NDESC`. -/
def rolesOf (op : Nat) (ps : List Word) (n : Nat) : List Role :=
  let p := fun k lo m => bf (ps.getD k 0).toNat lo m
  let e := if p 0 5 2 = 0 then [] else [Role.e]
  let le := if p 1 14 2 = 0 then [] else [Role.e]
  match op with
  | 0x10 => [.x, .w, .dy, .dx, .dw] ++ e
  | 0x11 => [.dy, if p 0 10 1 = 1 then .w2v else .w, .dx] ++ e
  | 0x12 => [.x, .dy, .dw] ++ e
  | 0x13 => [.a, .b, .c] ++ e
  | 0x20 => [.dy, .x] ++ (if p 1 0 1 = 0 then [.mu] else []) ++ [.rstd, .gamma, .dgamma] ++ (if p 1 0 1 = 0 then [.dbeta] else []) ++ [.out] ++ le
  | 0x21 => [.dp, .s, .max, .lsum] ++ (if p 1 2 1 = 1 then [.drow] else []) ++ [.out] ++ le
  | 0x22 => [.dy, .y, .out] ++ le
  | 0x28 => [.a] ++ (if p 1 16 2 ≤ 1 then [.b] else []) ++ [.out]
  | 0x30 => [.tab, .grad]
  | 0x31 => [.x, .dyd, .w, .dxd, .dw]
  | 0x38 => [.w, .w2v]
  | 0x40 => [.src, .dst]
  | 0x42 => [.dst]
  | 0x48 => ((if p 0 6 1 = 1 then [] else [Role.src]) ++ [Role.dst]).take n
  | _ => []

/-- Roles of a command. -/
def Cmd.roles (c : Cmd) : List Role := rolesOf c.op c.params c.descs.length

/-- Position of a role; the number of descriptors where it is absent. -/
def Cmd.pos (c : Cmd) (r : Role) : Nat := c.roles.findIdx (· == r)

/-- Descriptor of a role, where present. -/
def Cmd.role (c : Cmd) (r : Role) : Option Desc := if c.roles.contains r then c.descs[c.pos r]? else none

/-- Whether the command writes a descriptor of this role. -/
def writesRole (op : Nat) (r : Role) : Bool :=
  r == .dx || r == .dw || r == .c || r == .out || r == .dgamma || r == .dbeta || r == .tab || r == .dst || r == .dxd ||
  (r == .w2v && op == 0x38)

/-- The role of the output that a `CHAIN` hands to its consumer (R107): dX of the paired products, else the last output. -/
def Cmd.mainRole (c : Cmd) : Role :=
  if c.op = 0x10 then .dx else if c.op = 0x31 then .dxd else (c.roles.reverse.find? (writesRole c.op)).getD .out

/-- Formats: gradient operands, second operands, product outputs, FP32 vector data (Table 2.1, R21, R191). -/
def gradFmts : List Nat := [0, 1]
def secondFmts : List Nat := [0, 1, 2, 3, 4]
def productFmts : List Nat := [0, 1, 8, 9]
def vectorFmts : List Nat := [0, 1, 8]
def anyFmts : List Nat := [0, 1, 2, 3, 4, 8, 9]

/-- Formats of a role in a command. -/
def roleFmts (op : Nat) (ps : List Word) (r : Role) : List Nat :=
  let p := fun k lo m => bf (ps.getD k 0).toNat lo m
  let rop := p 0 0 4
  match r with
  | .x => if op = 0x20 then vectorFmts else secondFmts
  | .w | .w2v => secondFmts
  | .dy => if isLayer op then vectorFmts else gradFmts
  | .dyd | .dxd => gradFmts
  | .dw => if op = 0x10 ∨ op = 0x31 then [9] else productFmts
  | .dx | .c => productFmts
  | .a => if op = 0x13 then secondFmts else productFmts
  | .b => if op = 0x13 then secondFmts else vectorFmts
  | .mu | .rstd | .max | .lsum | .drow => [8]
  | .gamma => [0, 8]
  | .dgamma | .dbeta | .tab => [9]
  | .out => if op = 0x28 ∧ p 1 16 2 = 3 then [9] else vectorFmts
  | .e | .dp | .s | .y | .grad => vectorFmts
  | .src => if op = 0x48 then (if rop ≤ 1 then productFmts else if rop ≤ 3 then vectorFmts else anyFmts) else anyFmts
  | .dst =>
    if op = 0x48 then (if rop = 1 then productFmts else if rop ≤ 3 then vectorFmts else anyFmts)
    else if op = 0x40 ∧ 2 ≤ p 0 0 2 then [0, 1, 2, 3, 4, 8] else anyFmts

/-! ## One descriptor -/

/-- Whether a value is a multiple of `n`. -/
def multOf (x : Int) (n : Nat) : Bool := x % (n : Int) == 0

/-- Faults of one descriptor as byte offsets (R170, R22, R7). -/
def Desc.faults (d : Desc) (nb1 nb2 : Nat) (output : Bool) : List (Nat × Bool) :=
  let e := if d.fmt = 9 then 8 else if d.fmt = 8 then 4 else 2
  let wide := d.fmt == 0 || d.fmt == 1 || d.fmt == 8 || d.fmt == 9
  if !anyFmts.contains d.fmt then [(6, true)]
  else
    [(0, wide && d.base % e != 0),
     (6, d.sclslot && !(output && d.fmt == 1)),
     (6, d.bsc && (!(d.fmt == 2 || d.fmt == 3 || d.fmt == 4) || decide (1 < nb1) || decide (1 < nb2))),
     (7, d.t == -128 || (d.t != 0 && (d.fmt == 0 || d.fmt == 8 || d.fmt == 9))),
     (8, d.rows == 0), (12, d.cols == 0),
     (16, wide && !multOf d.rstride e),
     (21, d.rsv != 0), (21, !d.bsc && d.kdir),
     (24, wide && !multOf d.s1 e), (29, wide && !multOf d.s2 e),
     (34, !d.bsc && d.scBase != 0), (40, !d.bsc && d.scStride != 0),
     (44, decide (2 ^ (if d.fmt = 9 then 32 else fmtWidth d.fmt) ≤ d.fill)),
     (48, if d.loc then decide (d.grows < d.row0 + d.rows) else d.row0 != 0),
     (52, if d.loc then decide (d.gcols < d.col0 + d.cols) else d.col0 != 0),
     (56, !d.loc && d.grows != 0), (60, !d.loc && d.gcols != 0)]

/-- Batch counts of a command (R169). -/
def Cmd.nbs (c : Cmd) : Nat × Nat :=
  if opHasLoop.contains c.op then (c.lp.nb1, c.lp.nb2)
  else if isLayer c.op ∨ c.op = 0x42 then (c.pf 0 0 32, c.pf 0 32 32)
  else if c.op = 0x40 ∨ c.op = 0x48 then (c.pf 1 0 32, c.pf 1 32 32)
  else (1, 1)

/-- Direction of block scales that a role requires: along its K dimension (R182). -/
def kdirOf (c : Cmd) (r : Role) : Option Bool :=
  match c.op, r with
  | 0x10, .x => some true
  | 0x10, .w => some false
  | 0x11, .w => some false
  | 0x12, .x => some true
  | 0x31, .x => some true
  | 0x31, .w => some false
  | 0x38, .w => some false
  | 0x13, .a => some (c.pb 0 11)
  | 0x13, .b => some (!c.pb 0 12)
  | _, _ => none

/-- Faults of the descriptor of role `r` by the rules of its role and its command. -/
def Cmd.roleFaults (c : Cmd) (r : Role) (d : Desc) : List (Nat × Bool) :=
  [(6, !(roleFmts c.op c.params r).contains d.fmt),
   (6, d.ralias && ((c.op == 0x30 && r == .tab) || (c.op == 0x38 && r == .w2v) || (c.op == 0x48 && r == .dst))),
   (6, d.bsc && r == .w2v),
   (21, d.bsc && (kdirOf c r).any (fun k => k != d.kdir)),
   (8, (c.op == 0x30 && r == .grad && d.rows != c.pf 0 0 32) || ((r == .gamma || r == .dgamma || r == .dbeta) && d.rows != 1)),
   (12, (c.op == 0x30 && r == .tab && (d.cols % 64 != 0 || decide (d.cols < 64) || decide (65536 < d.cols))) ||
        ((r == .mu || r == .rstd || r == .max || r == .lsum || r == .drow) && d.cols != 1)),
   (52, (c.op == 0x20 || c.op == 0x21) && d.loc && d.col0 != 0),
   (8, c.op == 0x40 && ((c.pf 0 0 2 == 2 && r == .dst) || (c.pf 0 0 2 == 3 && r == .src)) && d.rows != c.pf 0 32 32 * c.pf 3 0 17),
   (12, c.op == 0x40 && ((c.pf 0 0 2 == 2 && r == .dst) || (c.pf 0 0 2 == 3 && r == .src)) && d.cols != c.pf 3 32 17)]

/-! ## Two descriptors -/

/-- "As DY" of Table 8.2. -/
def sameShape (a b : Desc) : Bool :=
  a.rows == b.rows && a.cols == b.cols && a.grows == b.grows && a.gcols == b.gcols && a.row0 == b.row0 && a.col0 == b.col0

/-- A descriptor with an extent. -/
def hasExtent (d : Desc) (rows cols : Nat) : Bool := d.rows == rows && d.cols == cols

/-- Whether the descriptor in role `r` fits the others in shape (R87, R191, R225, R238, R247, R187, R255). -/
def Cmd.fits (c : Cmd) (r : Role) (d : Desc) : Bool :=
  let g := fun (r : Role) => (c.role r).getD Desc.none
  match c.op, r with
  | 0x10, .w => d.rows == (g .x).cols
  | 0x10, .dy => hasExtent d (g .x).rows (g .w).cols
  | 0x10, .dx => hasExtent d (g .dy).rows (g .x).cols
  | 0x10, .dw => hasExtent d (g .x).cols (g .dy).cols
  | 0x10, .e => sameShape d (g .dx)
  | 0x11, .w => d.cols == (g .dy).cols
  | 0x11, .w2v => d.cols == 2 * cdiv (g .dy).cols 4
  | 0x11, .dx => hasExtent d (g .dy).rows (c.d 1).rows
  | 0x11, .e => sameShape d (g .dx)
  | 0x12, .dy => d.rows == (g .x).rows
  | 0x12, .dw => hasExtent d (g .x).cols (g .dy).cols
  | 0x12, .e => sameShape d (g .dw)
  | 0x13, .b =>
    let k := if c.pb 0 11 then (g .a).rows else (g .a).cols
    (if c.pb 0 12 then d.cols == k else d.rows == k) && (gradFmts.contains (g .a).fmt || gradFmts.contains d.fmt)
  | 0x13, .c =>
    let m := if c.pb 0 11 then (g .a).cols else (g .a).rows
    let n := if c.pb 0 12 then (g .b).rows else (g .b).cols
    if c.lp.drainCol then hasExtent d n m else hasExtent d m n
  | 0x13, .e => sameShape d (g .c)
  | 0x20, .x | 0x20, .out => sameShape d (g .dy)
  | 0x20, .mu | 0x20, .rstd => d.rows == (g .dy).rows
  | 0x20, .gamma | 0x20, .dgamma | 0x20, .dbeta => d.cols == (g .dy).cols
  | 0x20, .e | 0x21, .e | 0x22, .e => sameShape d (g .out)
  | 0x21, .s | 0x21, .out => sameShape d (g .dp)
  | 0x21, .max | 0x21, .lsum | 0x21, .drow => d.rows == (g .dp).rows
  | 0x22, .y | 0x22, .out => sameShape d (g .dy)
  | 0x28, .out => sameShape d (g .a) && ((c.role .b).all (fun b => sameShape d b))
  | 0x30, .grad => d.cols == (g .tab).cols
  | 0x31, .w => hasExtent d (g .x).cols (g .dyd).cols
  | 0x31, .dxd => d.cols == (g .x).cols && d.rows == (g .dyd).rows
  | 0x31, .dw => hasExtent d (g .w).rows (g .w).cols
  | 0x38, .w2v => hasExtent d (g .w).rows (2 * cdiv (g .w).cols 4)
  | 0x40, .dst =>
    if c.pf 0 0 2 = 0 then hasExtent d (g .src).rows (g .src).cols
    else if c.pf 0 0 2 = 1 then hasExtent d (g .src).cols (g .src).rows else true
  | 0x48, .dst =>
    match c.role .src with
    | some s => hasExtent d s.rows s.cols && (decide (c.pf 0 0 4 < 4) || d.fmt == s.fmt)
    | none => true
  | _, _ => true

/-- Whole rows of a local piece (R192): the columns hold all global columns. -/
def Cmd.wholeRows (c : Cmd) (d : Desc) : Bool := !((c.op == 0x20 || c.op == 0x21) && d.loc && d.cols != d.gcols)

/-! ## Loop descriptor and bindings -/

/-- Faults of the loop descriptor as byte offsets (R91, Table 4.3); `w` its 256 bits. -/
def Cmd.loopFaults (c : Cmd) (w : Nat) : List (Nat × Bool) :=
  let l := c.lp
  let gp := c.op == 0x10 || c.op == 0x31
  [(0, decide (4 < l.shape) || decide (3 < l.walk) || (gp && (l.shape != 0 || l.walk != 0)) ||
       (c.op == 0x11 && c.pb 0 10 && l.shape == 4)),
   (1, (gp && l.order != 0) || (c.op != 0x13 && l.drainCol) || bf w 10 6 != 0),
   (2, (l.order == 1 && l.kpiece == 0) || (gp && l.kpiece != 0)),
   (4, gp && l.groupM != 0), (6, gp && l.groupN != 0),
   (9, bf w 76 4 != 0),
   (10, if gp then l.gpBt == 0 else l.gpBt != 0), (12, if gp then l.gpBf == 0 else l.gpBf != 0),
   (14, if gp then l.gpFw != 0 && l.gpFw % l.gpBf != 0 else l.gpFw != 0),
   (16, l.nb1 == 0 || (gp && l.nb1 != 1)),
   (20, l.nb2 == 0 || (c.op == 0x10 && l.nb2 != 1) || (c.op == 0x31 && l.nb2 != c.pf 0 0 13)),
   (24, bf w 192 64 != 0)]

/-- Faults of a binding as byte offsets (R150, Table 6.3); `cores` is the core mask of the job, `w` its 256 bits. -/
def Binding.faults (b : Binding) (w cores : Nat) : List (Nat × Bool) :=
  [(0, b.list % 32 != 0), (6, b.slotLines == 0 || decide (12288 < b.slotLines)),
   (8, b.cons == 0 || b.cons &&& cores != b.cons), (16, b.zmap % 8 != 0), (22, bf w 177 79 != 0)]

/-! ## The table -/

/-- A fault of the descriptor table: twice its byte offset, for a disagreement of two descriptors one less than twice the offset behind the
later one; and its cause. -/
abbrev TableFault := Nat × Why

/-- A fault of a field. -/
def fieldFault (reason pos at_ off : Nat) : TableFault := (2 * (at_ + off), ⟨reason, pos, at_ + off⟩)

/-- The faults of the descriptor at position `i`. -/
def Cmd.descFaults (c : Cmd) (i : Nat) (r : Role) : List TableFault :=
  let d := c.d i
  let nb := c.nbs
  let fs := (d.faults nb.1 nb.2 (writesRole c.op r) ++ c.roleFaults r d).filter (·.2)
  fs.map (fun f => fieldFault 0x08 i (64 * i) f.1) ++
  (if c.fits r d && c.wholeRows d then [] else [(2 * (64 * i + 64) - 1, ⟨0x08, i, 0xFFFF⟩)])

/-- All faults of a command's descriptor table; `lw` and `bws` are the bits of its loop descriptor and bindings. -/
def Cmd.tableFaults (c : Cmd) (lw : Nat) (bws : List Nat) (cores : Nat) : List TableFault :=
  let n := c.descs.length
  let after := 64 * n + (if opHasLoop.contains c.op then 32 else 0)
  (c.roles.zipIdx.flatMap (fun x => c.descFaults x.2 x.1)) ++
  (if opHasLoop.contains c.op then ((c.loopFaults lw).filter (·.2)).map (fun f => fieldFault 0x09 0xFF (64 * n) f.1) else []) ++
  (bws.zipIdx.flatMap (fun b => (((parseBinding b.1).faults b.1 cores).filter (·.2)).map (fun f => fieldFault 0x0A 0xFF (after + 32 * b.2) f.1)))

/-- The first fault of the table in ascending byte offset (R436). -/
def Cmd.tableWhy (c : Cmd) (lw : Nat) (bws : List Nat) (cores : Nat) : Option Why :=
  ((c.tableFaults lw bws cores).foldl (fun m f => match m with
    | none => some f
    | some g => if f.1 < g.1 then some f else some g) (none : Option TableFault)).map (·.2)

end Sys2Proof.Machine
end

