-- ==== Sys2Proof/Machine/Prefetch.lean ====
section
/-!
DEFINITION. What the Tender holds for a command and releases when it ends (R152, R166, R168), and what a cancelled command's queue loses with it.
-/
namespace Sys2Proof.Machine

/-- `FIRST` of a reply without an offending index. -/
def noIndex : Nat := 0xFFFFFFFFFF

/-- Whether two commands are the same run of the same packet. -/
def Cmd.same (c d : Cmd) : Bool := c.qid == d.qid && c.seq == d.seq && c.ring == d.ring && c.iter == d.iter

/-- Counter set of Table 6.8, 7.5, 8.8, 9.7, 10.7 or 15.8 (0 to 5), entry `i`, advanced by `n`. -/
def QCounters.bump (c : QCounters) (set i n : Nat) : QCounters :=
  match set with
  | 0 => { c with tnd := Machine.bump c.tnd i n }
  | 1 => { c with lns := Machine.bump c.lns i n }
  | 2 => { c with lbw := Machine.bump c.lbw i n }
  | 3 => { c with hsh := Machine.bump c.hsh i n }
  | 4 => { c with red := Machine.bump c.red i n }
  | _ => { c with par := Machine.bump c.par i n }

/-- Several counters advanced. -/
def QCounters.bumps (c : QCounters) (l : List (Nat × Nat × Nat)) : QCounters := l.foldl (fun c x => c.bump x.1 x.2.1 x.2.2) c

/-- Whether a transfer was made for a command. -/
def Xfer.isOf (x : Xfer) (c : Cmd) : Bool := x.qid == c.qid && x.seq == c.seq

/-- Whether a read brings data for a stream: blocks, bytes of its list or of its zero map. -/
def Xfer.feeds (x : Xfer) (o : OStream) : Bool :=
  x.qid == o.qid && x.seq == o.seq && x.stream == o.num && !x.write && (x.skind == 0 || x.skind == 4 || x.skind == 5)

/-- Bytes that the Tender has read for a command and discards when it ends: blocks that no core has taken (R152, R168). Reads in flight follow when they
are answered. -/
def discarded (t : Tender) (c : Cmd) : Nat :=
  ((t.streams.filter (fun o => o.qid == c.qid && o.seq == c.seq && !o.dead)).flatMap (fun o =>
    (o.blocks.filter (fun b => b.takers.isEmpty)).map (·.got))).sum

/-- Halted transfers enter the records that have become free (R166). -/
def Tender.fill (t : Tender) : Tender :=
  let n := 64 - t.recs.length
  { t with recs := t.recs ++ t.waiting.take n, waiting := t.waiting.drop n }

/-- A stream that is released: nothing of it is read or taken any more. -/
def OStream.close (o : OStream) : OStream := { o with dead := true, ended := true, blocks := o.blocks.map (fun b => { b with data := .empty, todo := [], got := 0 }) }

/-- The streams and page-fault records of a command are released, and what it had still to send is discarded. Its transfers in flight complete: the
data of reads are dropped, and a stream holds its slots until its last one is answered (R152, R168). -/
def Tender.release (t : Tender) (c : Cmd) : Tender :=
  ({ t with
    streams := t.streams.filterMap (fun (o : OStream) =>
      if o.qid = c.qid ∧ o.seq = c.seq then (if t.xfers.any (fun x => x.feeds o) then some o.close else none) else some o)
    xfers := t.xfers.map (fun (x : Xfer) => if x.isOf c then { x with drop := true } else x)
    outq := t.outq.filter (fun x => !x.isOf c)
    redo := t.redo.filter (fun x => !x.isOf c)
    borrowers := t.borrowers.filter (fun b => !(b.1 == c.qid && b.2.1 == c.seq))
    recs := t.recs.filter (fun r => !r.xfer.isOf c)
    waiting := t.waiting.filter (fun r => !r.xfer.isOf c) } : Tender).fill

/-- The engine with a new Tender; `PFAULT` is raised where a record has entered. -/
def setTender (s : State) (t : Tender) : State :=
  { s with
    tender := t
    irq := if t.recs.any (fun r => !s.tender.recs.any (fun e => e.xfer.id == r.xfer.id)) then s.irq.raise irqPfault else s.irq }

/-- What has been fetched for commands behind a cancelled one in its queue is discarded with it (R168). -/
def dropAhead (s : State) (c : Cmd) : State :=
  let later := ((s.q.cmds.filter (fun d => d.qid == c.qid)).dropWhile (fun d => !d.same c)).filter (fun d => !d.same c && d.stage == .admitted)
  later.foldl (fun t d =>
    setTender { t with q := t.q.upd c.qid (fun x => { x with cnt := x.cnt.bump 0 3 (discarded t.tender d) }) } (t.tender.release d)) s

end Sys2Proof.Machine
end

