-- ==== Sys2Proof/Machine/Checks.lean ====
section
/-!
DEFINITION. The check bits of the storage arrays: corrected reads and their write-back, uncorrectable words, and injected errors (R338, R339, R357, R360).
-/
namespace Sys2Proof.Machine

/-- A physical core changed. -/
def State.updCore (s : State) (p : Nat) (f : PCore → PCore) : State := { s with pcores := s.pcores.modify p f }

/-- Physical core `p`. -/
def State.pcore (s : State) (p : Nat) : PCore := s.pcores.getD p PCore.reset

/-! ## Check bits of the storage arrays -/

/-- Entries of a list of words that an access of `n` bytes from `a` touches. -/
def wordsIn (l : List (Storage × Nat)) (st : Storage) (a n : Nat) : List (Storage × Nat) :=
  l.filter (fun e => e.1 == st && decide (e.2 < a + n) && decide (a < e.2 + 8))

/-- `ECC_CE` of an array advanced (R338). -/
def countCe (s : State) (st : Storage) (n : Nat) : State :=
  match st with
  | .scratch p => s.updCore p (fun x => { x with ceScratch := ctr48 x.ceScratch n })
  | .acc p => s.updCore p (fun x => { x with ceAcc := ctr48 x.ceAcc n })
  | .central => { s with flt := { s.flt with ceCentral := ctr48 s.flt.ceCentral n } }

/-- A read of `n` bytes: single-bit errors are counted and their words wait for the write-back. -/
def touchRead (s : State) (st : Storage) (a n : Nat) : State :=
  let one := wordsIn s.flt.single st a n
  if one.isEmpty then s
  else
    let t := countCe s st one.length
    { t with flt := { t.flt with wback := t.flt.wback ++ one.filter (fun e => !t.flt.wback.contains e) } }

/-- The uncorrectable words that a read of `n` bytes finds. -/
def badWords (s : State) (st : Storage) (a n : Nat) : List (Storage × Nat) := wordsIn s.flt.double st a n

/-- The memory of a storage array. -/
def storageMem (s : State) (st : Storage) : Memory :=
  match st with
  | .scratch p => (s.pcore p).scratch
  | .acc p => (s.pcore p).acc
  | .central => s.cstore

/-- The memory of a storage array replaced. -/
def setStorage (s : State) (st : Storage) (m : Memory) : State :=
  match st with
  | .scratch p => s.updCore p (fun x => { x with scratch := m })
  | .acc p => s.updCore p (fun x => { x with acc := m })
  | .central => { s with cstore := m }

/-- A word with two of its bits flipped; which two is free (log 6). -/
def flipTwo (m : Memory) (a ctr : Nat) : Memory :=
  let b := (Config.sampled ctr 2).toNat % 64
  let d := (Config.sampled (ctr + 1) 2).toNat % 63
  m.writeLe a 8 ((m.le a 8) ^^^ (2 ^ b) ^^^ (2 ^ ((b + 1 + d) % 64)))

/-- The injections that wait for a write of a word act on it (R360): a single-bit error keeps the word correctable, a double one does not. -/
def applyFlips (s : State) (st : Storage) (a n : Nat) : State :=
  let hit := fun (f : Storage × Nat × Bool) => f.1 == st && decide (f.2.1 < a + n) && decide (a < f.2.1 + 8)
  (s.flt.flips.filter hit).foldl (fun t f =>
    let u := { t with flt := { t.flt with
      flips := t.flt.flips.erase f
      single := if f.2.2 then t.flt.single else (st, f.2.1) :: t.flt.single
      double := if f.2.2 then (st, f.2.1) :: t.flt.double else t.flt.double } }
    if f.2.2 then { setStorage u st (flipTwo (storageMem u st) f.2.1 u.free) with free := u.free + 2 } else u) s


/-- Unit code of a storage array in a fault record (Table 14.5). -/
def storageUnit : Storage → Nat
  | .scratch _ => 3
  | .acc _ => 4
  | .central => 6

/-- Physical core of a storage array; none for the central store. -/
def storageCore : Storage → Option Nat
  | .scratch p => some p
  | .acc p => some p
  | .central => none

/-- `LIFE_WAVES` of a core as it stands: a free value from the last known one up (R342, log 6). -/
def lifeNow (s : State) (p : Nat) : Nat := ctr48 (s.pcore p).life (Config.sampled s.free (256 + p)).toNat

/-- A fault record about a word of a storage array. -/
def storageFault (s : State) (kind action : Nat) (inj : Bool) (st : Storage) (a : Nat) : State :=
  noteFault s ⟨kind, inj, action, (storageCore st).getD 0x7F, (storageCore st).bind (fun p => (s.pcore p).lidA), storageUnit st, 0, BitVec.ofNat 64 a,
    match storageCore st with
    | some p => lifeNow s p
    | none => keeperUs s⟩

/-- `n` bytes from `a` have been written: that takes the place of what was wrong with the words they touch, and what waits to be injected there acts. -/
def refreshed (s : State) (st : Storage) (a n : Nat) : State :=
  let gone := fun (l : List (Storage × Nat)) => l.filter (fun e => !(wordsIn l st a n).contains e)
  applyFlips { s with flt := { s.flt with single := gone s.flt.single, double := gone s.flt.double, wback := gone s.flt.wback } } st a n

/-- A write of bytes. -/
def storageWrite (s : State) (st : Storage) (a : Nat) (bs : List Byte) : State :=
  refreshed (setStorage s st ((storageMem s st).writeBytes a bs)) st a bs.length

/-- Bytes [a, a + n) of a storage array are written with values that are not given; `tag` tells them from others. -/
def writeFree (s : State) (st : Storage) (tag a n : Nat) : State :=
  refreshed { setStorage s st ((storageMem s st).scramble s.free tag a n) with free := s.free + 1 } st a n

/-! ## Words behind a standard command -/

/-- The physical core whose storage serves logical core `l` (R345, R346): the one that holds it as its own ID. -/
def storageOf (pc : List PCore) (l : Nat) : Option Nat := pc.findIdx? (fun p => p.lidA == some l)

/-- Whether a word lies in the storage behind a job's cores or in its partition. -/
def jobWord (s : State) (j : Nat) (e : Storage × Nat) : Bool :=
  let us := (s.conf.job j).cores.filterMap (storageOf s.pcores)
  let b := s.conf.job j
  match e.1 with
  | .scratch p | .acc p => us.contains p
  | .central => decide (b.pbase * 1048576 ≤ e.2) && decide (e.2 < (b.pbase + b.psize) * 1048576)

/-- What a standard command does with a word of that storage: bit 0, it reads it; bit 1, it writes it. Where its tiles, start pairs and staged blocks lie
the manual does not give, so both are free (log 76). -/
def usedBits (s : State) (e : Storage × Nat) : Nat :=
  (Config.sampled s.free (2 ^ 60 + e.2 + 2 ^ 48 * (match e.1 with
    | .scratch p => 2 * p
    | .acc p => 2 * p + 1
    | .central => 200))).toNat

/-- The uncorrectable words that a standard command of job `j` consumes (R357). -/
def metWords (s : State) (j : Nat) : List (Storage × Nat) := s.flt.double.filter (fun e => jobWord s j e && bit (usedBits s e) 0)

/-- The check bits behind a standard command: a word with a single-bit error that it reads is corrected and counted, one that it writes is as written,
and what waits to be injected there acts (R338, R339, R360). -/
def usedWords (s : State) (j : Nat) : State :=
  ((s.flt.single ++ s.flt.double ++ s.flt.flips.map (fun f => (f.1, f.2.1))).eraseDups.filter (jobWord s j)).foldl (fun t e =>
    let b := usedBits s e
    let u := if bit b 0 then touchRead t e.1 e.2 8 else t
    if bit b 1 then refreshed u e.1 e.2 8 else u) s

/-- A read of `n` bytes whose data no command consumes: an uncorrectable word leaves a fault record (R338, R357). -/
def readThrough (s : State) (st : Storage) (a n : Nat) : State :=
  (badWords s st a n).foldl (fun t w => storageFault t 4 0 false st w.2) (touchRead s st a n)

end Sys2Proof.Machine
end

