-- ==== Sys2Proof/Machine/Run.lean ====
section
/-!
DEFINITION. Running an admitted command: when its row is enabled (R159, R288, R396), what a run hands back, and the one update of State that
every such run makes.
-/
namespace Sys2Proof.Machine

/-! ## Cores and domains -/

/-- The physical core whose units serve logical core `l`: its own, or the HOST of a STORE core (R346). -/
def unitsOf (pc : List PCore) (l : Nat) : Option Nat :=
  pc.findIdx? (fun p => (p.pstate == .active && p.lidA == some l) || (p.pstate == .host && (p.lidA == some l || p.lidB == some l)))

/-- State of switched domain `d`. -/
def domState (s : State) (d : Nat) : PwrState := (s.power.doms.getD d (PwrDom.reset d)).state

/-- Whether domain `d` is ON. -/
def domOn (s : State) (d : Nat) : Bool := domState s d == .on

/-- Whether timing domain `t` is held or its clock is stopped (R389, R392). -/
def domHeld (s : State) (t : Nat) : Bool := s.power.uv.contains t || s.power.th.contains t || s.power.stopped.contains t

/-- Whether the Tender and the fabric ports let accesses through (R389, R392). -/
def fabricUp (s : State) : Bool := !domHeld s 69 && !domHeld s 72

/-- Whether the Keeper can work on commands: no hold stops it (R392). -/
def keeperUp (s : State) : Bool := !domHeld s 71

/-- The switched domains of the pairs of a job's cores (R396): those of their units, and of the storage that a `STORE` holds. -/
def coreDomains (s : State) (j : Nat) : List Nat :=
  (s.conf.job j).cores.flatMap (fun l => ((unitsOf s.pcores l).toList ++ (storageOf s.pcores l).toList).map (· / 2))

/-- The central-store halves that a job's partition touches (R396). -/
def storeDomains (s : State) (j : Nat) : List Nat :=
  let b := s.conf.job j
  (if b.pbase < 128 ∧ b.psize ≠ 0 then [34] else []) ++ (if 128 < b.pbase + b.psize then [35] else [])

/-- Opcodes that run on the job's cores or hash units (Table 11.2). -/
def isCoreOp (op : Nat) : Bool :=
  (0x10 ≤ op && op ≤ 0x13) || (0x20 ≤ op && op ≤ 0x22) || op == 0x28 || (0x30 ≤ op && op ≤ 0x32) || op == 0x58

/-- Collective opcodes of R257. -/
def isCollective (op : Nat) : Bool := op == 0x48 || op == 0x49 || op == 0x4A

/-- The domains that a command uses (R396). -/
def usedDomains (s : State) (c : Cmd) : List Nat :=
  (if isCoreOp c.op then coreDomains s c.job else []) ++ storeDomains s c.job ++ [36] ++
  (if c.op = 0x40 ∨ c.op = 0x38 ∨ c.op = 0x63 ∨ (c.op ≠ 0x42 ∧ c.descs.any (·.ralias) = true) then [37] else []) ++
  (if isCollective c.op ∨ c.op = 0x63 then [38] else [])

/-- The timing domains whose hold stops the units of a command (Table 16.1). -/
def usedTiming (s : State) (c : Cmd) : List Nat :=
  (if isCoreOp c.op then (s.conf.job c.job).cores.flatMap (fun l => (unitsOf s.pcores l).toList ++ (storageOf s.pcores l).toList) else []) ++ [68, 69, 71, 72] ++
  (if c.op = 0x40 ∨ c.op = 0x38 ∨ c.op = 0x63 then [70] else []) ++ (if isCollective c.op ∨ c.op = 0x63 then [74] else [])

/-- Every domain that the command uses is ON (R396) and none is held (R389, R392). -/
def powered (s : State) (c : Cmd) : Bool := (usedDomains s c).all (domOn s) && (usedTiming s c).all (fun t => !domHeld s t)

/-! ## Order -/

/-- The tile-table tag of a command's run: ring index and iteration. -/
def Cmd.tag (c : Cmd) : Nat := c.ring + 65536 * c.iter

/-- Whether an entry belongs to the command. -/
def IttEntry.isOf (e : IttEntry) (c : Cmd) : Bool := e.qid == c.qid && e.seq == c.seq && e.run == c.tag

/-- Whether an entry is a write or accumulate range. -/
def IttEntry.writes (e : IttEntry) : Bool := e.kind != 1

/-- Whether a later entry must wait for an earlier one to retire: in one queue unless both only read; between queues when both write
(R159, R288). -/
def mustWait (early late : IttEntry) : Bool :=
  decide (early.lo < late.hi) && decide (late.lo < early.hi) &&
    (if early.qid = late.qid then early.writes || late.writes else early.writes && late.writes)

/-- Entries admitted before the command's first one. -/
def ittBefore (c : Cmd) : List IttEntry → List IttEntry
  | [] => []
  | e :: r => if e.isOf c then [] else e :: ittBefore c r

/-- Whether the command waits for an earlier one. A command without entries waits for none. -/
def blocked (s : State) (c : Cmd) : Bool :=
  let own := s.q.itt.filter (·.isOf c)
  !own.isEmpty && (ittBefore c s.q.itt).any (fun a => own.any (mustWait a))

/-- The next admitted, not yet started command of an opcode in a queue. -/
def nextRun (s : State) (q op : Nat) : Option Cmd := s.q.cmds.find? (fun c => c.qid == q && c.op == op && c.stage == .admitted)

/-- Whether a job is active in its placement and enabled (R301). -/
def jobRuns (s : State) (j : Nat) : Bool := (s.conf.job j).enabled && (s.conf.job j).active

/-- Whether another enabled job shares the job's placement; otherwise its slice clock has no effect. -/
def sharesPlacement (s : State) (j : Nat) : Bool :=
  s.conf.jobs.zipIdx.any (fun k => k.2 != j && k.1.enabled && samePlacement k.1 (s.conf.job j))

/-- The slice of a job has expired: its clock had reached `SLICE` at a reply (R303). -/
def sliceExpired (s : State) (j : Nat) : Bool :=
  let b := s.conf.job j
  sharesPlacement s j && b.slice != 0 && b.expiredBy.isSome

/-- Whether a collective that is admitted or started lies at or behind the command in its queue (R305). -/
def leadsCollective (s : State) (c : Cmd) : Bool :=
  ((s.q.cmds.filter (fun d => d.qid == c.qid)).dropWhile (fun d => !d.same c)).any (fun d =>
    (isCollective d.op || d.op == 0x63) && (d.stage == .admitted || d.stage == .started))

/-- Whether a command is the consumer of a `CHAIN` whose producer has started: the pair is one command for scheduling and pre-emption (R107). -/
def chainHalf (s : State) (c : Cmd) : Bool :=
  c.chain == 2 && (c.stage == .admitted || c.stage == .started) &&
    !s.q.cmds.any (fun d => d.qid == c.qid && d.chain == 1 && (d.stage == .read || d.stage == .admitted))

/-- Whether the slice lets the Keeper start the command: before it expires, in an open group with an overrun of at most `GLIM`, or on the way
to a collective (R304, R305). -/
def sliceAllows (s : State) (c : Cmd) : Bool :=
  let b := s.conf.job c.job
  !sliceExpired s c.job || leadsCollective s c || chainHalf s c ||
    ((s.q.find c.qid).any (·.groupOpen) && decide (b.clock - b.slice ≤ b.glim))

/-- Whether a `SAVE` of the job that waits to switch it out lets a command start (R311): as a slice expired with `GLIM` = 0 does. -/
def saveAllows (s : State) (c : Cmd) : Bool :=
  c.op == 0x60 || leadsCollective s c || chainHalf s c || !s.q.cmds.any (fun d => d.job == c.job && d.op == 0x60 && d.stage == .admitted && !d.same c)

/-- The Keeper runs its firmware: not before `RUN`, and not in `HUNG` (R319, R333). -/
def keeperRuns (s : State) : Bool := s.fw.state == .run

/-- The transfers that are out, halted or to be reissued. -/
def Tender.open (t : Tender) : List Xfer := t.xfers ++ t.redo ++ (t.recs ++ t.waiting).map (·.xfer)

/-- Whether the Keeper may start the command now: it runs and no logical ID is lost (R319, R347), its domains are ON, its ranges are free, its job is active (a `CFG` of a job without a
placement needs none, log 26) and in its slice, no drain request holds core commands back (R300), no read made for it is outstanding (log 40) and no
control access of it halted (R143),
no started `RUNP` of its job holds the cores (R285),
and a `CHAIN` consumer has its producer's tiles: the producer has ended, or both are programs and the producer has started (R107). -/
def mayStart (s : State) (c : Cmd) : Bool :=
  keeperRuns s && !s.flt.lost && powered s c && !blocked s c && !(isCoreOp c.op && s.conf.drain) && !(s.conf.job c.job).saving && sliceAllows s c && saveAllows s c &&
  (jobRuns s c.job || (c.op == 0x70 && !(s.conf.job c.job).enabled)) &&
  (c.op == 0x58 || !s.tender.open.any (fun x => x.isOf c && !x.drop)) &&
  !(isCoreOp c.op && c.op != 0x30 && c.op != 0x32 && s.q.cmds.any (fun d =>
    d.job == c.job && d.op == 0x58 && d.stage == .started && !(d.qid == c.qid && d.chain == 1 && c.chain == 2))) &&
  !s.tender.cmdHeld c.qid c.seq &&
  (c.chain != 2 || !s.q.cmds.any (fun d => d.qid == c.qid && d.chain == 1 && (d.stage == .admitted ||
    (d.stage == .started && !(d.op == 0x58 && c.op == 0x58 && decide (d.pf 1 0 14 ≤ 4096) && decide (c.pf 1 0 14 ≤ 4096))))))

/-- The command that the row of an opcode starts in queue `q`, if the row is enabled. -/
def startable (s : State) (q op : Nat) : Option Cmd :=
  match nextRun s q op with
  | some c => if mayStart s c then some c else none
  | none => none

/-! ## What a run hands back -/

/-- The effects of one command's run: stores to the die's memory; the stores of its chained output; per output, in descriptor-table order,
tensor ID and measurement; norm pairs by job rank; staged pairs; conditions; evictions; regions whose contents are free afterwards; queue
counters (set, index, amount); bytes read from memory, and further ones written, as far as the manual fixes them (Table 11.5). -/
structure RunRes where
  stores : List Store
  chained : List Store
  outs : List (Nat × Meter)
  norms : List Pair
  staged : List (Nat × List Res)
  conds : List Cond
  spillCs : Nat
  spillMem : Nat
  havoc : List (Nat × Nat)
  counts : List (Nat × Nat × Nat)
  rd : Nat := 0
  wr : Nat := 0
  deriving DecidableEq, Repr

/-- A run with no effect. -/
def RunRes.empty : RunRes := ⟨[], [], [], [], [], [], 0, 0, [], [], 0, 0⟩

/-- Seed of a command's client (R45), as it was when the command was admitted (Table 11.4). -/
def seedOf (_ : State) (c : Cmd) : Word := c.seed

/-- The memory that a command reads: a CHAIN consumer sees its producer's output (R107). -/
def viewOf (s : State) (c : Cmd) : Memory :=
  if c.chain = 2 then (match s.q.find c.qid with
    | some r => s.mem.dieStores s.extent r.chained
    | none => s.mem) else s.mem

/-- The command after its run: its figures for the reply, and the stage: a staged fold keeps it started. -/
def Cmd.ran (c : Cmd) (bad : Bool) (r : RunRes) : Cmd :=
  { c with
    stage := if r.staged.isEmpty then .ended else .started
    conds := c.conds ++ r.conds ++ (if c.chain = 2 ∧ bad = true then [⟨0x31, 0, 0⟩] else [])
    infF := r.outs.any (fun o => o.2.inf.isSome)
    nanF := r.outs.any (fun o => o.2.nan.isSome)
    exc := excOf (r.outs.map (·.2))
    amaxOut := if c.op = 0x42 then [] else r.outs.map (fun o => (o.1, o.2.amax))
    normLeaves := r.norms
    staged := r.staged
    spillCs := r.spillCs
    spillMem := r.spillMem
    rd := c.rd + r.rd }

/-- The queue at the start of a `CHAIN` producer, or at its end before that: the pair holds nothing yet (R107). -/
def QRes.pair (x : QRes) (c : Cmd) : QRes :=
  if c.chain = 1 then { x with chained := [], chainMade := false, chainBad := false, producer := some c } else x

/-- The queue when a `CHAIN` consumer has ended: nothing is left of the pair. -/
def QRes.chainOver (x : QRes) (c : Cmd) : QRes :=
  if c.chain = 2 then { x with chained := [], chainMade := false, chainBad := false, producer := none } else x

/-- The queue after a run: counters, and what its CHAIN holds (R107, R109). -/
def QRes.ran (x : QRes) (c : Cmd) (r : RunRes) : QRes :=
  { x with
    cnt := x.cnt.bumps r.counts
    chained := if c.chain = 1 then r.chained else x.chained
    chainMade := if c.chain = 1 then !r.staged.any (fun e => e.1 == c.pos c.mainRole) else x.chainMade
    chainBad := if c.chain = 1 then r.conds.any (fun k => fromOob k.code) else x.chainBad }.chainOver c

/-- Work counters of a standard command that its Keeper expansion decides (R141): blocks, zero-map skips and bytes read of its
streams (Table 6.8). The manual does not give the expansion, so the amounts are free (log 74). -/
def expansionCounts (s : State) : List (Nat × Nat × Nat) :=
  let x := fun k => (Config.sampled s.free k).toNat
  [(0, 0, x 16), (0, 1, x 17), (0, 2, x 18)]

/-- Bytes that stores write in the die's memory: a byte of two FP4 elements once (Table 11.5, `WBYTES`). -/
def storeBytes (ext : Nat) (ws : List Store) : Nat :=
  (ws.map (fun w => match w with
    | .bytes a bs => (bs.take (ext - a)).length
    | .nibble _ _ _ => 0)).sum +
  ((ws.filterMap (fun w => match w with
    | .nibble a _ _ => if a < ext then some a else none
    | .bytes _ _ => none)).eraseDups).length

/-- A core's share of Tables 8.8 and 9.7 after a command: of each count of the command a free part (log 95); Table 8.8 is counter set 2, Table 9.7 set 3. -/
def shareOf (counts : List (Nat × Nat × Nat)) (x : Nat → Nat) (share : List Nat) : List Nat :=
  counts.foldl (fun l n =>
    if n.1 = 2 ∨ n.1 = 3 then
      let k := n.2.1 + (if n.1 = 2 then 0 else 7)
      bump l k (x (32 + k) % (n.2.2 + 1))
    else l) share

/-- Storage behind a standard command on the cores: its accumulator slots (R98, R99), scratchpads (R103) and partition (R103, R107, R246) held parked
tiles, start pairs, staged blocks and tiles in places that the manual does not give, so what is left there is free (log 76). What its expansion
adds to the counters of the arrays, a core's shares and `MARK_GAP_MAX` is free too, the last one below the bound of R141 (log 95). -/
def usedCores (s : State) (j : Nat) (counts : List (Nat × Nat × Nat)) : State :=
  let w := usedWords s j
  let us := (s.conf.job j).cores.filterMap (storageOf s.pcores)
  let b := s.conf.job j
  let x := fun (p k : Nat) => (Config.sampled s.free (1000 + 64 * p + k)).toNat
  { s with
    flt := w.flt
    free := w.free
    pcores := w.pcores.zipIdx.map (fun e => if us.contains e.2 then
        { e.1 with
          acc := e.1.acc.scramble s.free (2 * e.2) 0 Config.accBytes
          scratch := e.1.scratch.scramble s.free (2 * e.2 + 1) 0 Config.scratchBytes
          parked := []
          arrays := e.1.arrays.zipIdx.map (fun a => { a.1 with cnt := (List.range 7).foldl (fun c k => bump c k (x e.2 (7 * a.2 + k))) a.1.cnt })
          share := shareOf counts (x e.2) e.1.share }
      else e.1)
    lcores := s.lcores.zipIdx.map (fun e => if b.cores.contains e.2 then { e.1 with markGap := Nat.max e.1.markGap (x e.2 28 % 16385) } else e.1)
    cstore := w.cstore.scramble s.free 200 (b.pbase * 1048576) (b.psize * 1048576) }

/-- Bytes that a run writes to memory: its stores, tiles evicted to memory and dX partials (R99, R105), pairs staged for a fold pass (R174). -/
def runWrites (ext : Nat) (c : Cmd) (r : RunRes) : Nat :=
  storeBytes ext (r.stores ++ if c.chain = 1 ∧ c.wt = false then [] else r.chained) + 32768 * r.spillMem + 8 * (r.staged.map (·.2.length)).sum + r.wr

/-- Whether a command is the consumer of a producer that has failed (R109). -/
def chainFailed (s : State) (c : Cmd) : Bool := c.chain == 2 && (s.q.find c.qid).any (·.chainBad)

/-- What has been fetched behind a consumer that ends as cancelled is discarded (R109, R168). -/
def ranAhead (s : State) (c : Cmd) : State := if chainFailed s c then dropAhead s c else s

/-- The state after a run. The chained output reaches memory only with write-through (R107). The counts of a consumer that its failed producer has cut
short are those of the whole command (DESIGN CHOICE, log 113). -/
def finishRun (s : State) (c : Cmd) (r : RunRes) : State :=
  let t := if isCoreOp c.op then usedCores s c.job r.counts else s
  let u := ranAhead s c
  { s with
    tender := u.tender
    irq := u.irq
    lcores := t.lcores
    pcores := t.pcores
    cstore := t.cstore
    flt := t.flt
    mem := (r.havoc.foldl (fun m h => m.dieHavoc s.extent s.free h.1 h.2) s.mem).dieStores s.extent
      (r.stores ++ if c.chain = 1 ∧ c.wt = false then [] else r.chained)
    q := (u.q.updCmd (fun d => d.same c) (fun d => { d.ran (chainFailed s c) r with wr := d.wr + runWrites s.extent c r })).upd c.qid
      (fun x => x.ran c { r with counts := r.counts ++ expansionCounts s })
    free := t.free + 1 }

/-! ## A run that ends before it has written (R357) -/

def Cmd.xE (c : Cmd) : Nat := c.pf 0 0 13
def Cmd.xCap (c : Cmd) : Nat := c.pf 0 13 25

/-- Word of the send list at a byte offset; outside the die's memory it reads 0 (Table 9.6). -/
def sendWord (s : State) (m : Memory) (c : Cmd) (off : Nat) : Nat := dieLe m s.extent (c.pf 1 0 48 + off) 4

/-- START and COUNT of expert e. -/
def xStart (s : State) (m : Memory) (c : Cmd) (e : Nat) : Nat := sendWord s m c (8 * e)
def xCount (s : State) (m : Memory) (c : Cmd) (e : Nat) : Nat := sendWord s m c (8 * e + 4)

/-- Tokens computed for expert e: at most `CAP` (R240). -/
def xTokens (s : State) (m : Memory) (c : Cmd) (e : Nat) : Nat := satTo c.xCap (xCount s m c e)

/-- The `XSTAT` bytes of an `XGRAD` that ends before its run, which reaches every expert in one step (R242, log 39): it has reached no expert, and under `UNCORR` it ends in the first one with tokens,
behind the empty ones before it. -/
def xstatStores (s : State) (c : Cmd) (code : Nat) : List Store :=
  if c.op = 0x31 ∧ c.pf 4 0 48 ≠ 0 ∧ c.stage ≠ .ended ∧ c.staged = [] then
    let first := (List.range c.xE).findIdx (fun e => xTokens s s.mem c e != 0)
    (List.range c.xE).map (fun e => .bytes (c.pf 4 0 48 + e)
      [if code = 0x60 ∧ e < first then 0x01 else if code = 0x60 ∧ e = first then 0x60 else 0x31])
  else []

/-- A standard command on the cores that consumes words which cannot be corrected: it ends with `UNCORR`, in the one step of its run before it has
written an element (log 39). -/
def failRun (s : State) (c : Cmd) (words : List (Storage × Nat)) : State :=
  let t := words.foldl (fun t w => storageFault t 4 3 false w.1 w.2) s
  let first := match (c.roles.find? (writesRole c.op)).bind c.role with
    | some d => d.index 0 0 0
    | none => noIndex
  { t with
    mem := t.mem.dieStores t.extent (xstatStores t c 0x60)
    q := (t.q.updCmd (fun d => d.same c) (fun d => { d with stage := .ended, conds := d.conds ++ [⟨0x60, first, words.length⟩] })).upd c.qid
      (fun x => if c.chain = 1 then { x with chainBad := true } else x.chainOver c) }

/-- One item of a queue (Table 11.4): `PRIO`, `MAXOUTM1`, `SPAN`, `CREDIT`, `DET`, `HALTERR`. -/
def QCtx.applyItem (c : QCtx) (x : QItem) : QCtx :=
  match x.1 with
  | 0x10 => { c with prio := x.2 }
  | 0x11 => { c with maxOutM1 := x.2 }
  | 0x12 => { c with span := x.2 }
  | 0x13 => { c with credit := x.2 }
  | 0x14 => { c with det := x.2 == 1 }
  | _ => { c with halterr := x.2 == 1 }

/-- The queue at the start of one of its commands: a boundary for its waiting items (R439), and the group is open (R304). -/
def QRes.begin (x : QRes) : QRes := { x with groupOpen := true, items := [], ctx := x.items.foldl QCtx.applyItem x.ctx }

/-- What the expansion of a command depends on (R141): its opcode and parameters, its descriptors, and the job's core count; a `RUNP` has none. -/
def expandKey (c : Cmd) (cc : Nat) : List Nat :=
  let n := fun (x : Int) => (x % 2 ^ 48).toNat
  if c.op = 0x58 then []
  else c.op :: cc :: c.params.map BitVec.toNat ++ c.descs.flatMap (fun d =>
    [d.base, d.fmt, b2n d.sclslot, b2n d.bsc, b2n d.ralias, b2n d.loc, n d.t, d.rows, d.cols, n d.rstride, b2n d.kdir, d.tid, n d.s1, n d.s2, d.scBase,
     n d.scStride, d.fill, d.row0, d.col0, d.grows, d.gcols]) ++
    (match c.loopd with
      | some l => [l.shape, l.walk, l.order, b2n l.drainCol, l.kpiece, l.groupM, l.groupN, l.spillCs, l.gpBt, l.gpBf, l.gpFw, l.nb1, l.nb2]
      | none => [])

/-- The command `c` starts: its queue is at a boundary, its expansion becomes the queue's most recent one (R141, log 94), and what a restore before it
cost is charged to it (R315). -/
def beginCmd (s : State) (c : Cmd) : State :=
  let b := s.conf.job c.job
  { s with
    q := (s.q.upd c.qid (fun x => { x.begin.pair c with expand := expandKey c b.cores.length })).updCmd (fun d => d.same c) (fun d =>
      { d with owedR := d.owedR + b.oweBytes, owedNs := d.owedNs + b.oweNs, owedE := d.owedE + b.oweEnergy })
    conf := s.conf.updJob c.job (fun b => { b with oweBytes := 0, oweNs := 0, oweEnergy := 0 }) }

/-- The words that a command of a kind on the cores consumes and that cannot be corrected. -/
def metBy (s : State) (c : Cmd) : List (Storage × Nat) := if isCoreOp c.op then metWords s c.job else []

/-- The end of a run: with its effects, or before them where it meets such a word. -/
def runEnd (s : State) (c : Cmd) (r : RunRes) : State := if (metBy s c).isEmpty then finishRun s c r else failRun s c (metBy s c)

/-- The amax slots of a starting command are derived (R51), and the command keeps the exponents that they give (R52, R418). -/
def takeScales (s : State) (c : Cmd) (tids : List Nat) : State :=
  let a := s.amax.derive c.margins c.step tids
  { s with amax := a, q := s.q.updCmd (fun d => d.same c) (fun d => d.takeScales a tids) }

/-- Starts and runs the next command of opcode `op` in queue `q`: it takes its scales, `f` gives its effects, unless it meets a word that
cannot be corrected. Without an enabled command nothing happens (log 3). -/
def runOp (s : State) (q op : Nat) (tids : Cmd → List Nat) (f : State → Cmd → RunRes) : State :=
  match startable s q op with
  | none => s
  | some c =>
    let t := takeScales (beginCmd s c) c (tids c)
    let d := c.takeScales t.amax (tids c)
    runEnd t d (f t d)

/-- The answer of a command row: `t` when the queue exists. -/
def onQueue (q : Nat) (t : State) : Host.Outcome State Fault Refusal := if q < Config.queueCount then .next t else noUnit

/-- How a command writes an output. -/
def outMode (s : State) (c : Cmd) (d : Desc) (nb2 : Nat) (sr : Bool) : OutMode := ⟨nb2, outScale c d, sr, seedOf s c, c.step⟩

/-- The tensor IDs among some outputs that take their scale from their slots (R52). -/
def slotTids (ds : List Desc) : List Nat := (ds.filter (·.sclslot)).map (·.tid)

/-- Splits an output's stores by whether the output is the command's chained one: of two outputs the main one, dX (DESIGN CHOICE, log 85). -/
def chainStores (c : Cmd) (main : Drained) : List Store × List Store := if c.chain = 1 then ([], main.stores) else (main.stores, [])

end Sys2Proof.Machine
end

