-- ==== Sys2Proof/Machine/Tiles.lean ====
section
/-!
DEFINITION. Work units, tiles and their order: the work split and the walk of a product (R88-R97), the extents of a product (Table 4.2), what a
consumer of a `CHAIN` works on step by step (R108, R134), and how far it comes behind a producer that has failed (R109).
-/
namespace Sys2Proof.Machine

/-! ## Work split, walks and tiles -/

/-- Morton index of a tile: column bits even, row bits odd (R92). -/
def mortonIdx (r c : Nat) : Nat := (List.range 32).foldl (fun s b => s + bf c b 1 * 4 ^ b + bf r b 1 * 2 * 4 ^ b) 0

/-- The walk over a grid of tiles (R92). -/
def walkOrder (kind mt nt : Nat) : List (Nat × Nat) :=
  match kind with
  | 0 => positions mt nt
  | 1 => (List.range nt).flatMap (fun c => (List.range mt).map (fun r => (r, c)))
  | 2 => (List.range mt).flatMap (fun r => (if r % 2 = 0 then List.range nt else (List.range nt).reverse).map (fun c => (r, c)))
  | _ => sortBy (fun a b => mortonIdx a.1 a.2 ≤ mortonIdx b.1 b.2) (positions mt nt)

/-- Rows and columns of one problem's tile (Table 4.1). -/
def tileDims (shape : Nat) : Nat × Nat :=
  match shape with
  | 0 => (32, 128)
  | 1 => (64, 64)
  | 2 => (128, 32)
  | _ => (32, 32)

/-- Work units of the list (R89, R97). -/
def workUnits (shape m n items : Nat) : Nat :=
  let d := tileDims shape
  if shape ≤ 2 then items * cdiv m d.1
  else if shape = 3 then cdiv items 4 * (cdiv m d.1 * cdiv n d.2)
  else items * (cdiv m d.1 * cdiv n d.2)

/-- Columns of the share's grid: column tiles of a band. The grid of a share of units (`Q32` and the split-K form) is one column of them: the
manual does not say its rows and columns (DESIGN CHOICE, log 84). -/
def gridCols (shape n : Nat) : Nat := if shape ≤ 2 then cdiv n (tileDims shape).2 else 1

/-- The output tiles (item, row tile, column tile) in unit `u`, grid column `j`; up to four items of a `Q32` unit, in array order. -/
def unitTiles (shape m n items u j : Nat) : List (Nat × Nat × Nat) :=
  let d := tileDims shape
  let rt := cdiv m d.1
  let ct := cdiv n d.2
  if shape ≤ 2 then [(u / rt, u % rt, j)]
  else if shape = 3 then ((List.range 4).map (fun a => (4 * (u / (rt * ct)) + a, u / ct % rt, u % ct))).filter (fun x => x.1 < items)
  else [(u / (rt * ct), u / ct % rt, u % ct)]

/-- Piece length in units of 128 K indices; 0 in tile-major order, which cuts no pieces (R93, Table 4.3). -/
def LoopDesc.piece (l : LoopDesc) : Nat := if l.order = 0 then 0 else l.kpiece

/-- The core tiles of a rank, group by group, each group in walk order; in tile-major order the share is one group (R92, R93). -/
def shareGroups (l : LoopDesc) (m n items rank cc : Nat) : List (List (List (Nat × Nat × Nat))) :=
  let sh := share rank (workUnits l.shape m n items) cc
  let mt := sh.2 - sh.1
  let nt := gridCols l.shape n
  let gm := if l.piece = 0 ∨ l.groupM = 0 then mt else l.groupM
  let gn := if l.piece = 0 ∨ l.groupN = 0 then nt else l.groupN
  if mt = 0 then []
  else (positions (cdiv mt gm) (cdiv nt gn)).map (fun g =>
    let r0 := g.1 * gm
    let c0 := g.2 * gn
    let h := if mt - r0 < gm then mt - r0 else gm
    let w := if nt - c0 < gn then nt - c0 else gn
    (walkOrder l.walk h w).map (fun t => unitTiles l.shape m n items (sh.1 + r0 + t.1) (c0 + t.2)))

/-- The elements of an output tile, as (item, row, column) of the output, in row-major order of the output's logical index (R44);
`tr` when the product is stored transposed. Elements beyond the extent do not exist (R88). -/
def tileElems (shape m n : Nat) (tr : Bool) (t : Nat × Nat × Nat) : List (Nat × Nat × Nat) :=
  let d := tileDims shape
  let is := (rangeFrom (t.2.1 * d.1) d.1).filter (· < m)
  let js := (rangeFrom (t.2.2 * d.2) d.2).filter (· < n)
  if tr then js.flatMap (fun j => is.map (fun i => (t.1, j, i))) else is.flatMap (fun i => js.map (fun j => (t.1, i, j)))

/-- Pieces of a core tile: 1 in tile-major order, else those of the whole K or of the longest quarter (R93, R94). -/
def pieceCount (l : LoopDesc) (k : Nat) : Nat :=
  let span := if l.shape = 4 then (if 4 * cdiv k 16 < k then 4 * cdiv k 16 else k) else k
  if l.piece = 0 then 1 else cdiv span (l.piece * 128)

/-! ## Commands -/

/-- A product: extents, the output's position, whether it is stored transposed, K indices a wave, the position of `E`. -/
structure Prod where
  m : Nat
  n : Nat
  k : Nat
  out : Nat
  tr : Bool
  step : Nat
  ePos : Option Nat
  deriving DecidableEq, Repr

/-- Extents of `DXP`, `DWP`, `MATMUL` (Table 4.2). -/
def prodOf (c : Cmd) : Prod :=
  let e := if c.pf 0 5 2 = 0 then none else some 3
  match c.op with
  | 0x11 => ⟨(c.d 0).rows, (c.d 1).rows, (c.d 0).cols, 2, false, if c.pb 0 10 then 8 else 4, e⟩
  | 0x12 => ⟨(c.d 0).cols, (c.d 1).cols, (c.d 0).rows, 2, false, 4, e⟩
  | _ => ⟨if c.pb 0 11 then (c.d 0).cols else (c.d 0).rows, if c.pb 0 12 then (c.d 1).rows else (c.d 1).cols,
      if c.pb 0 11 then (c.d 0).rows else (c.d 0).cols, 2, c.lp.drainCol, 4, e⟩

/-- First of `n` units and the number of units in the share that holds unit `g`, among `cc` cores (R89). -/
def shareWith (g n cc : Nat) : Nat × Nat :=
  match (List.range cc).find? (fun k => let sh := share k n cc; decide (sh.1 ≤ g) && decide (g < sh.2)) with
  | some k => let sh := share k n cc; (sh.1, sh.2 - sh.1)
  | none => (0, n)

/-- The split threshold θ (R243). -/
def xTheta (d : Desc) : Nat := 128 * (131072 / d.rowBytes)

def Cmd.nb1 (c : Cmd) : Nat := c.pf 0 0 32
def Cmd.nb2 (c : Cmd) : Nat := c.pf 0 32 32
def Cmd.items (c : Cmd) : Nat := c.nb1 * c.nb2

/-- Batch counts of the descriptor of role `r`: an `XGRAD` steps only W and `DW` (R238); row-wide vectors have one item (Table 8.2). -/
def Cmd.roleNbs (c : Cmd) (r : Role) : Nat × Nat :=
  if c.op = 0x31 then (if r == .w || r == .dw then (1, c.xE) else (1, 1))
  else if r == .gamma || r == .dgamma || r == .dbeta then (1, 1)
  else c.nbs

/-! ## CHAIN shares (R108, R134) -/

/-- Bands of 32 along a dimension. -/
def bandsOf (n : Nat) : Nat := cdiv n 32

/-- The number of work units of a command (R89, R97, R193). -/
def Cmd.units' (c : Cmd) : Nat :=
  if c.op = 0x10 ∨ c.op = 0x31 then bandsOf (c.d 0).cols
  else if isProduct c.op then workUnits c.lp.shape (prodOf c).m (prodOf c).n (c.lp.nb1 * c.lp.nb2)
  else if isLayer c.op then c.items * (c.d 0).rows
  else 0

/-- The units of a product that use row-operand row x (none: every row) and column y of item i. -/
def prodUnits (c : Cmd) (i : Nat) (x y : Option Nat) : List Nat :=
  let p := prodOf c
  let d := tileDims c.lp.shape
  let rt := cdiv p.m d.1
  let ct := cdiv p.n d.2
  let xs := match x with
    | some v => [v / d.1]
    | none => List.range rt
  let ys := match y with
    | some v => [v / d.2]
    | none => List.range ct
  if c.lp.shape ≤ 2 then xs.map (fun a => i * rt + a)
  else xs.flatMap (fun a => ys.map (fun b => (if c.lp.shape = 3 then i / 4 else i) * (rt * ct) + a * ct + b))

/-- The work units that produce or use element (i, r, col) of the descriptor in role `ro`. -/
def Cmd.unitsOf (c : Cmd) (ro : Role) (i r col : Nat) : List Nat :=
  if c.op = 0x10 ∨ c.op = 0x31 then
    match ro with
    | .x | .dx | .dxd => [col / 32]
    | .w | .dw => [r / 32]
    | .e => [col / 32]
    | _ => List.range (bandsOf (c.d 0).cols)
  else if isProduct c.op then
    match c.op, ro with
    | 0x11, .dy => prodUnits c i (some r) none
    | 0x11, .w => prodUnits c i none (some r)
    | 0x11, .w2v => prodUnits c i none (some r)
    | 0x12, .x => prodUnits c i (some col) none
    | 0x12, .dy => prodUnits c i none (some col)
    | 0x13, .a => prodUnits c i (some (if c.pb 0 11 then col else r)) none
    | 0x13, .b => prodUnits c i none (some (if c.pb 0 12 then r else col))
    | _, _ => if (prodOf c).tr then prodUnits c i (some col) (some r) else prodUnits c i (some r) (some col)
  else if ro == .gamma || ro == .dgamma || ro == .dbeta then List.range c.units'
  else [i * (c.d 0).rows + r]

/-- Whether the share of rank `k` of `cc` holds one of the units. -/
def inShare (k cc n : Nat) (us : List Nat) : Bool := let sh := share k n cc; us.any (fun u => decide (sh.1 ≤ u) && decide (u < sh.2))

/-- Whether rank `k` covers row `x` of the chained tensor under a `RUNP`'s declaration (R134). -/
def runpCovers (c : Cmd) (k cc x : Nat) : Bool :=
  let sh := share k (c.pf 7 0 32) cc
  decide (c.pf 7 32 16 * sh.1 ≤ x) && decide (x < c.pf 7 32 16 * sh.2)

/-- The role of a consumer that names the producer's output: the same tensor. -/
def chainedRole (p : Desc) (c : Cmd) : Option Role :=
  c.roles.find? (fun r => !writesRole c.op r && (match c.role r with
    | some d => d.base == p.base && d.fmt == p.fmt && d.rows == p.rows && d.cols == p.cols && d.rstride == p.rstride && d.s1 == p.s1 && d.s2 == p.s2
    | none => false))

/-- All elements of a chained tensor: item, row, column. -/
def chainElems (d : Desc) (items : Nat) : List (Nat × Nat × Nat) :=
  (List.range items).flatMap (fun i => (positions d.rows d.cols).map (fun x => (i, x.1, x.2)))

/-- Whether a number lies in block `b` of `n`. -/
def inBlock (n b x : Nat) : Bool := decide (n * b ≤ x) && decide (x < n * b + n)

/-- The tiles that a producer hands over on rank `k`, in the order in which they drain, each as the elements (item, row, column) of its output
(R92, R93, R101): core tiles of a product, dX tiles of the paired products. Rows of a layer command, and what a program hands over, are taken in
tiles of 32 rows and 128 columns, row-major (log 71). -/
def chainTiles (p : Cmd) (items rows cols k cc : Nat) : List (Nat × Nat × Nat → Bool) :=
  if p.op = 0x10 ∨ p.op = 0x31 then
    let sh := share k (bandsOf (p.d 0).cols) cc
    let bands := rangeFrom sh.1 (sh.2 - sh.1)
    let bt := if p.lp.gpBt = 0 then 1 else p.lp.gpBt
    let parts := if p.op = 0x10 then [(0, rows)] else (List.range p.xE).map (fun e => (e * p.xCap, p.xCap))
    parts.flatMap (fun e => (List.range (cdiv e.2 (bt * 128))).flatMap (fun tb => bands.flatMap (fun g =>
      ((rangeFrom (tb * bt) bt).filter (fun j => decide (128 * j < e.2))).map (fun j x => decide (e.1 ≤ x.2.1) && decide (x.2.1 < e.1 + e.2) && inBlock 128 j (x.2.1 - e.1) && inBlock 32 g x.2.2))))
  else if isProduct p.op then
    let q := prodOf p
    let t := tileDims p.lp.shape
    (shareGroups p.lp q.m q.n items k cc).flatten.map (fun ts x =>
      ts.any (fun u => u.1 == x.1 && (if q.tr then inBlock t.1 u.2.1 x.2.2 && inBlock t.2 u.2.2 x.2.1 else inBlock t.1 u.2.1 x.2.1 && inBlock t.2 u.2.2 x.2.2)))
  else
    (List.range items).flatMap (fun i => (positions (cdiv rows 32) (cdiv cols 128)).map (fun b x => x.1 == i && inBlock 32 b.1 x.2.1 && inBlock 128 b.2 x.2.2))

/-- Whether element (r, col) of the operand in role `ro` of a product enters the tile at (rt, ct) in piece `n` of its K range (R93, R94). -/
def tileUses (c : Cmd) (ro : Role) (rt ct n r col : Nat) : Bool :=
  let p := prodOf c
  let t := tileDims c.lp.shape
  let piece := c.lp.piece * 128
  let kq := 4 * cdiv p.k 16
  let inK := fun k => piece == 0 || (if c.lp.shape = 4 then k % kq else k) / piece == n
  let row := inBlock t.1 rt
  let column := inBlock t.2 ct
  match c.op, ro with
  | 0x11, .dy => row r && inK col
  | 0x11, .w => column r && inK col
  | 0x11, .w2v => column r && inK (2 * col)
  | 0x12, .x => row col && inK r
  | 0x12, .dy => column col && inK r
  | 0x13, .a => if c.pb 0 11 then row col && inK r else row r && inK col
  | 0x13, .b => if c.pb 0 12 then column r && inK col else column col && inK r
  | _, _ => if p.tr then row col && column r else row r && column col

/-- The steps in which a consumer works on rank `k`, each as the elements in role `ro` that it needs, or of an output on which it works up to its drain: a product's tiles piece by
piece, group by group; the tiles of the paired products block by block, of an `XGRAD` expert by expert, part by part, and in a block every dX tile before
the dW tiles (R239, R243); the rows of a layer command. Which rows of X an expert takes its list says, so a step of a dW tile may need any of them. -/
def chainSteps (c : Cmd) (ro : Role) (items k cc : Nat) : List (Nat × Nat × Nat → Bool) :=
  if c.op = 0x10 then
    let sh := share k (bandsOf (c.d 0).cols) cc
    let bands := rangeFrom sh.1 (sh.2 - sh.1)
    let l := c.lp
    let nfb := cdiv (c.d 2).cols (l.gpBf * 128)
    let fpb := if l.gpFw = 0 then nfb else l.gpFw / l.gpBf
    (List.range (cdiv nfb fpb)).flatMap (fun sb => (List.range (cdiv (c.d 2).rows (l.gpBt * 128))).flatMap (fun tb =>
      ((rangeFrom (sb * fpb) fpb).filter (· < nfb)).flatMap (fun fb => bands.flatMap (fun g => (List.range (Nat.max l.gpBt l.gpBf)).map (fun j x =>
        let tok := inBlock (l.gpBt * 128) tb
        let feat := inBlock (l.gpBf * 128) fb
        let dx := decide (j < l.gpBt)
        let dw := decide (j < l.gpBf)
        match ro with
        | .x => dw && tok x.2.1 && inBlock 32 g x.2.2
        | .w => dx && inBlock 32 g x.2.1 && feat x.2.2
        | .dy => (dx && inBlock 128 (tb * l.gpBt + j) x.2.1 && feat x.2.2) || (dw && tok x.2.1 && inBlock 128 (fb * l.gpBf + j) x.2.2)
        | .dw => dw && tb + 1 == cdiv (c.d 2).rows (l.gpBt * 128) && inBlock 32 g x.2.1 && inBlock 128 (fb * l.gpBf + j) x.2.2
        | _ => dx && fb + 1 == nfb && inBlock 128 (tb * l.gpBt + j) x.2.1 && inBlock 32 g x.2.2)))))
  else if c.op = 0x31 then
    let sh := share k (bandsOf (c.d 0).cols) cc
    let bands := rangeFrom sh.1 (sh.2 - sh.1)
    let l := c.lp
    let th := xTheta (c.d 0)
    let nfb := cdiv (c.d 1).cols (l.gpBf * 128)
    let fpb := if l.gpFw = 0 then nfb else l.gpFw / l.gpBf
    (positions c.xE (cdiv c.xCap th)).flatMap (fun e =>
      let lo := e.1 * c.xCap + e.2 * th
      let n := Nat.min th (c.xCap - e.2 * th)
      let slots := fun (w b r : Nat) => decide (lo ≤ r) && decide (r < lo + n) && inBlock w b (r - lo)
      (List.range (cdiv nfb fpb)).flatMap (fun sb => (List.range (cdiv n (l.gpBt * 128))).flatMap (fun tb =>
        ((rangeFrom (sb * fpb) fpb).filter (· < nfb)).flatMap (fun fb =>
          let feat := inBlock (l.gpBf * 128) fb
          (bands.flatMap (fun g => (List.range l.gpBt).map (fun j x =>
            match ro with
            | .w => x.1 == e.1 && inBlock 32 g x.2.1 && feat x.2.2
            | .x | .dw => false
            | .dxd => fb + 1 == nfb && slots 128 (tb * l.gpBt + j) x.2.1 && inBlock 32 g x.2.2
            | _ => slots 128 (tb * l.gpBt + j) x.2.1 && feat x.2.2))) ++
          (bands.flatMap (fun g => (List.range l.gpBf).map (fun j x =>
            match ro with
            | .w | .dxd => false
            | .x => inBlock 32 g x.2.2
            | .dw => tb + 1 == cdiv n (l.gpBt * 128) && x.1 == e.1 && inBlock 32 g x.2.1 && inBlock 128 (fb * l.gpBf + j) x.2.2
            | _ => slots (l.gpBt * 128) tb x.2.1 && inBlock 128 (fb * l.gpBf + j) x.2.2)))))))
  else if isProduct c.op then
    let q := prodOf c
    (shareGroups c.lp q.m q.n (c.lp.nb1 * c.lp.nb2) k cc).flatMap (fun g => (List.range (pieceCount c.lp q.k)).flatMap (fun n =>
      g.map (fun ts x => ts.any (fun u => u.1 == x.1 && tileUses c ro u.2.1 u.2.2 n x.2.1 x.2.2))))
  else
    let sh := share k c.units' cc
    (rangeFrom sh.1 (sh.2 - sh.1)).map (fun u x => decide (x.1 < items) && (c.unitsOf ro x.1 x.2.1 x.2.2).contains u)

/-! ## Behind a producer that has failed (R109) -/

/-- Whether the producer `p` has made element `x` of the chained tensor, which its consumer `c` holds in role `ro`: of a program by the tiles that it
has published. -/
def QRes.made (q : QRes) (p c : Cmd) (ext : Nat) (ro : Role) (x : Nat × Nat × Nat) : Bool :=
  let d := (c.role ro).getD Desc.none
  if p.op = 0x58 then
    let a := d.addr (c.roleNbs ro).2 x.1 x.2.1 x.2.2
    !inside ext a (eBytes d.fmt) || q.chained.any (fun w => match w with
      | .bytes b bs => decide (b ≤ a.toNat) && decide (a.toNat < b + bs.length)
      | .nibble b _ _ => b == a.toNat)
  else q.chainMade

/-- How many steps the consumer of a failed producer takes on each core, since it consumes the tiles that the producer has made: all before the first
one that needs another (R109). None where the consumer is not cut short. -/
def chainCut (s : State) (c : Cmd) : Option (List Nat) :=
  match s.q.find c.qid with
  | some q => match q.producer with
    | some p =>
      if c.chain = 2 ∧ q.chainBad = true then
        let ro := if p.op = 0x58 then some (c.roles.headD .x) else ((p.role p.mainRole).bind (fun d => chainedRole d c))
        ro.map (fun ro =>
          let items := (c.roleNbs ro).1 * (c.roleNbs ro).2
          let cc := (s.conf.job c.job).cores.length
          let gone := (chainElems ((c.role ro).getD Desc.none) items).filter (fun x => !q.made p c s.extent ro x)
          (List.range cc).map (fun k => (chainSteps c ro items k cc).findIdx (fun uses => gone.any uses)))
      else none
    | none => none
  | none => none

/-- Whether rank `k` has done every step for element `x` of the output in role `ro`, of which it takes the first `n`. -/
def Cmd.done (c : Cmd) (cc : Nat) (ro : Role) (k n : Nat) (x : Nat × Nat × Nat) : Bool :=
  let nb := c.roleNbs ro
  !((chainSteps c ro (nb.1 * nb.2) k cc).drop n).any (fun uses => uses x)

/-- The results of an output in role `ro`, rank by rank, that a command reaches. -/
def keptRes (s : State) (c : Cmd) (ro : Role) (l : List (List Res)) : List (List Res) :=
  match chainCut s c with
  | none => l
  | some ns => l.zipIdx.map (fun e => e.1.filter (fun x => c.done (s.conf.job c.job).cores.length ro e.2 (ns.getD e.2 0) (x.i, x.r, x.c)))

/-- Whether every rank has done its steps for element `x` of an output that all of them make together. -/
def reached (s : State) (c : Cmd) (ro : Role) (x : Nat × Nat × Nat) : Bool :=
  match chainCut s c with
  | none => true
  | some ns => ns.zipIdx.all (fun n => c.done (s.conf.job c.job).cores.length ro n.2 n.1 x)

end Sys2Proof.Machine
end

