-- ==== Sys2Proof/Machine/Products.lean ====
section
/-!
DEFINITION. The products (04): `GPAIR`, `DXP`, `DWP`, `MATMUL`. One element's sum over K (R26-R39, R93, R94), the work split and the order
in which a core drains its tiles (R89-R97, R101), evictions (R98, R99, R105), the Sector mask (R216-R218), operand zero maps (R246) and the
2:4 form (R83, R247-R249).
-/
namespace Sys2Proof.Machine

/-! ## One element -/

/-- q of a dense wave: the products of four K indices from `k`, +0 at and beyond `hi` (R26, R28). -/
def denseWave (f : Nat → Num) (hi k : Nat) : Num :=
  Num.sum ((rangeFrom k 4).map (fun x => if x < hi then f x else .zero false))

/-- One wave of a K range of `n` waves on a cell's pair and chunk result (R34, R35, R94). A park and a chunk's end normalise the pair (R30, R74);
chunk results fold from the left. -/
def foldWave (wave : Nat → Num) (step lo n piece : Nat) (st : Pair × Option Pair) (w : Nat) : Pair × Option Pair :=
  let cur := waveUpdate st.1 (wave (lo + step * w))
  let pos := step * (w + 1)
  if pos % 65536 = 0 ∨ w + 1 = n then
    (Pair.zero, some (match st.2 with
      | none => normalise cur
      | some d => pairAdd d (normalise cur)))
  else if piece ≠ 0 ∧ pos % piece = 0 then (normalise cur, st.2)
  else (cur, st.2)

/-- The pair of one K range [lo, hi): `step` K indices a wave, a chunk every 65,536 indices from the range's first, a park every `piece`
indices (0: none). -/
def foldK (wave : Nat → Num) (step lo hi piece : Nat) (start : Pair) : Pair :=
  let n := cdiv (hi - lo) step
  ((List.range n).foldl (foldWave wave step lo n piece) (start, none)).2.getD (normalise start)

/-- The pair in the cell before wave `w` of the range. -/
def cellBefore (wave : Nat → Num) (step lo hi piece : Nat) (start : Pair) (w : Nat) : Pair :=
  ((List.range w).foldl (foldWave wave step lo (cdiv (hi - lo) step) piece) (start, none)).1

/-- One element of a tile shape (Table 2.3): the whole K range in one array, or the four quarters of the split-K form combined as
(A0 + A1) + (A2 + A3), an empty quarter giving (+0, +0) (R38). -/
def elemPair (shape step k piece : Nat) (wave : Nat → Nat → Num) (start : Pair) : Pair :=
  if shape = 4 then
    let kq := 4 * cdiv k 16
    let part := fun a =>
      let hi := if (a + 1) * kq < k then (a + 1) * kq else k
      if a * kq < hi then foldK (wave hi) step (a * kq) hi piece (if a = 0 then start else Pair.zero) else Pair.zero
    pairAdd (pairAdd (part 0) (part 1)) (pairAdd (part 2) (part 3))
  else foldK (wave k) step 0 k piece start

/-- Evictions of one group: every tile after the 62nd is evicted at each park, the first `SPILL_CS` of them to the central store, the rest to
memory (R98, R99): (central store, memory). -/
def groupEvictions (parks spillCs tiles : Nat) : Nat × Nat :=
  let ovr := tiles - 62
  let cs := if ovr < spillCs then ovr else spillCs
  (parks * cs, parks * (ovr - cs))

/-- The slots that parked tiles hold: 0 to 61 in the accumulator store, the next `SPILL_CS` in the central store, the rest in memory. -/
abbrev Slots := List ((Nat × Nat × Nat) × Nat)

/-- A tile's slot: its own, or at its first park the lowest free one (R98). -/
def tileSlot (st : Slots) (key : Nat × Nat × Nat) : Nat :=
  match st.find? (fun x => x.1 == key) with
  | some x => x.2
  | none => ((List.range (st.length + 1)).find? (fun n => !st.any (fun x => x.2 == n))).getD st.length

/-- The slots with that of a parked tile among them. -/
def touchTile (st : Slots) (key : Nat × Nat × Nat) : Slots := if st.any (fun x => x.1 == key) then st else st ++ [(key, tileSlot st key)]

/-- One park: the tile takes its slot, and a slot outside the accumulator store makes it an eviction (R36, R99). -/
def parkTile (spillCs : Nat) (st : Slots × Nat × Nat) (key : Nat × Nat × Nat) : Slots × Nat × Nat :=
  let n := tileSlot st.1 key
  (touchTile st.1 key, st.2.1 + b2n (decide (62 ≤ n) && decide (n < 62 + spillCs)), st.2.2 + b2n (decide (62 + spillCs ≤ n)))

/-- A tile's slot is free again. -/
def freeTile (st : Slots × Nat × Nat) (key : Nat × Nat × Nat) : Slots × Nat × Nat := (st.1.filter (fun x => x.1 != key), st.2)

/-! ## Operands of products -/

/-- Bit `g` of a bit array at an address (R158). A byte outside the die's memory reads as 0 and is not counted as out of range: of a Sector mask it
freezes nothing (DESIGN CHOICE, log 109). -/
def mapBit (m : Memory) (ext addr g : Nat) : Bool := bit (dieByte m ext (addr + g / 8)).toNat (g % 8)

/-- Whether the map at `zin` marks every region that rows [r0, r0 + n) and columns [c0, c0 + k) of item i touch. -/
def marksAll (m : Memory) (ext zin : Nat) (d : Desc) (i r0 n c0 k : Nat) : Bool :=
  ((positions (cdiv n 32) k).map (fun p => (r0 + 32 * p.1, c0 + p.2))).all (fun x =>
    decide (d.rows ≤ x.1) || decide (d.cols ≤ x.2) || mapBit m ext zin (d.region i x.1 x.2))

/-- The block of a `GPAIR` operand that holds element (r, col) (R101, R103): first row, rows, first column, columns. Of dY a token block by a feature
block; of X a token block by the bands of a core; of W these bands by a feature block. -/
def gpairBlock (c : Cmd) (cc pos r col : Nat) : Nat × Nat × Nat × Nat :=
  let bt := c.lp.gpBt * 128
  let bf := c.lp.gpBf * 128
  let bands := fun (i : Nat) => let b := shareWith (i / 32) (cdiv (c.d 0).cols 32) cc; (32 * b.1, 32 * b.2)
  match pos with
  | 0 => let b := bands col; (r / bt * bt, bt, b.1, b.2)
  | 1 => let b := bands r; (b.1, b.2, col / bf * bf, bf)
  | _ => (r / bt * bt, bt, col / bf * bf, bf)

/-- Whether the Tender skips the block of an element under the command's operand zero map (R246): every region that the block covers is marked.
The blocks of a `GPAIR` are those of R101 and R103; of other commands the manual does not give them, so a marked region is skipped for
certain only where the whole operand is marked, and else by a free value (log 20). -/
def zskipped (s : State) (m : Memory) (c : Cmd) (pos i r col : Nat) : Bool :=
  let zin := c.pf 7 0 48
  let d := c.d pos
  let g := d.region i r col
  let cc := (s.conf.job c.job).cores.length
  zin != 0 && c.pf 7 48 4 == pos && mapBit m s.extent zin g &&
    (if c.op = 0x10 then
      let b := gpairBlock c cc pos r col
      marksAll m s.extent zin d 0 b.1 b.2.1 b.2.2.1 b.2.2.2
    else (List.range (c.lp.nb1 * c.lp.nb2)).all (fun k => marksAll m s.extent zin d k 0 d.rows 0 d.cols) || Config.zskip (expandKey c cc) g)

/-- Operand element of a product with its scales; +0 where its block was skipped by the zero map. -/
def operand (s : State) (m : Memory) (c : Cmd) (pos nb2 i r col : Nat) : Num :=
  if zskipped s m c pos i r col then .zero false else (c.d pos).num m s.extent nb2 i r col

/-- Whether `ZIN` names no operand of the command (R246). -/
def zinMismatch (c : Cmd) (operands : List Nat) : Bool := c.pf 7 0 48 != 0 && !operands.contains (c.pf 7 48 4)

/-! ## Sector mask (R216-R218) -/

/-- Whether element (i, j) of dW is frozen. -/
def frozen (s : State) (m : Memory) (c : Cmd) (d : Desc) (i j : Nat) : Bool :=
  let gi := if d.loc then d.row0 + i else i
  let gj := if d.loc then d.col0 + j else j
  let ng := if d.loc then d.gcols else d.cols
  match c.pf 0 7 2 with
  | 1 => mapBit m s.extent (c.pf 1 0 48) gi
  | 2 => mapBit m s.extent (c.pf 1 0 48) (gi / 32 * cdiv ng 32 + gj / 32)
  | _ => false

/-- Whether the 32 × 32 block (bi, bj) of dW is skipped: every element of it inside the extent is frozen. -/
def blockSkipped (s : State) (m : Memory) (c : Cmd) (d : Desc) (bi bj : Nat) : Bool :=
  c.pf 0 7 2 != 0 && (positions 32 32).all (fun p =>
    let i := 32 * bi + p.1
    let j := 32 * bj + p.2
    decide (d.rows ≤ i) || decide (d.cols ≤ j) || frozen s m c d i j)

/-- Whether block (bi, bj) lies in the dW extent and is skipped: the array that holds it fires no wave on it. -/
def blockIdle (s : State) (m : Memory) (c : Cmd) (d : Desc) (bi bj : Nat) : Bool :=
  decide (bi < cdiv d.rows 32) && decide (bj < cdiv d.cols 32) && blockSkipped s m c d bi bj

/-- The block that array `a` holds of a tile at (rt, ct) (Table 4.1). -/
def arrayBlock (shape rt ct a : Nat) : Nat × Nat :=
  match shape with
  | 0 => (rt, 4 * ct + a)
  | 1 => (2 * rt + a / 2, 2 * ct + a % 2)
  | 2 => (4 * rt + a, ct)
  | _ => (rt, ct)

/-- Whether every block of an output tile is skipped. -/
def tileSkipped (s : State) (m : Memory) (c : Cmd) (d : Desc) (shape rt ct : Nat) : Bool :=
  let t := tileDims shape
  (positions (t.1 / 32) (t.2 / 32)).all (fun p =>
    let bi := rt * (t.1 / 32) + p.1
    let bj := ct * (t.2 / 32) + p.2
    decide (cdiv d.rows 32 ≤ bi) || decide (cdiv d.cols 32 ≤ bj) || blockSkipped s m c d bi bj)

/-- SMASK_SKIP and SMASK_DROP of one dW (Table 8.8): blocks skipped; elements computed and not written under a row mask. -/
def maskCounts (s : State) (m : Memory) (c : Cmd) (d : Desc) (items : Nat) : List (Nat × Nat × Nat) :=
  if c.pf 0 7 2 = 0 then []
  else
    let blocks := (positions (cdiv d.rows 32) (cdiv d.cols 32))
    let skip := (blocks.filter (fun b => blockSkipped s m c d b.1 b.2)).length
    let drop := if c.pf 0 7 2 = 1 then
      ((positions d.rows d.cols).filter (fun p => frozen s m c d p.1 p.2 && !blockSkipped s m c d (p.1 / 32) (p.2 / 32))).length else 0
    [(2, 5, skip * items), (2, 6, drop * items)]

/-! ## 2:4 metadata (R247-R249) -/

/-- Presence mask of group `g` of W row `j`. -/
def w24Mask (s : State) (m : Memory) (c : Cmd) (j g : Nat) : Nat :=
  let a : Int := (c.pf 8 0 48 : Nat) + j * sext 32 (c.pf 9 0 32) + (g / 2 : Nat)
  let b := if inside s.extent a 1 then (m.read a.toNat).toNat else 0
  if g % 2 = 0 then b % 16 else b / 16

/-- The kept positions of a mask: its two lowest set bits (R248). -/
def keptOf (mask : Nat) : List Nat := (bitsOf mask 4).take 2

/-- The kept values of W row `j` in the wave over eight K indices from `k`, with their positions. A kept position at or beyond K reads `W2V`'s
`FILL` (R248). -/
def w24Vals (s : State) (m : Memory) (c : Cmd) (nb2 item j hi k : Nat) : List (Nat × Num) :=
  (rangeFrom (k / 4) 2).flatMap (fun g =>
    if 4 * g < hi then (keptOf (w24Mask s m c j g)).zipIdx.map (fun x =>
      (4 * g + x.1, if 4 * g + x.1 < hi then operand s m c 1 nb2 item j (2 * g + x.2) else scaled (c.d 1).fmt (c.d 1).t 127 (c.d 1).fill))
    else [])

/-- q of a compressed wave over eight K indices from `k`: the products at the kept positions, at most four; fewer leave +0 products (R28, R83).
The dY value at or beyond K is +0 (R88; DEDUCED, log 77). -/
def w24Wave (s : State) (m : Memory) (c : Cmd) (nb2 item i j hi k : Nat) : Num :=
  let ps := (w24Vals s m c nb2 item j hi k).map (fun x => (if x.1 < hi then operand s m c 0 nb2 item i x.1 else .zero false).mul x.2)
  Num.sum (ps ++ List.replicate (4 - ps.length) (.zero false))

/-- Groups with more than two set bits: how many, and the lowest number row × ⌈K/4⌉ + group (R248). -/
def w24Over (s : State) (m : Memory) (c : Cmd) (n k : Nat) : Nat × Option Nat :=
  (positions n (cdiv k 4)).foldl (fun acc p =>
    if (bitsOf (w24Mask s m c p.1 p.2) 4).length > 2 then (acc.1 + 1, minOpt acc.2 (some (p.1 * cdiv k 4 + p.2))) else acc) (0, none)

/-- Set bits for positions at or beyond K: how many over the batch items, and the lowest index of their value elements, a dropped bit having that
of the group's last one (R248, R176; log 77). -/
def w24Beyond (s : State) (m : Memory) (c : Cmd) (items n k : Nat) : Nat × Option Nat :=
  let g := cdiv k 4 - 1
  (positions items n).foldl (fun acc p => (bitsOf (w24Mask s m c p.2 g) 4).zipIdx.foldl (fun acc x =>
    if k ≤ 4 * g + x.1 then (acc.1 + 1, minOpt acc.2 (some ((c.d 1).index p.1 p.2 (2 * g + Nat.min 1 x.2)))) else acc) acc) (0, none)

/-! ## One product -/

/-- Products of two dense operands, row operand by (item, row, k), column operand by (item, column, k). -/
def denseProd (a b : Nat → Nat → Nat → Num) (item i j : Nat) (hi k : Nat) : Num :=
  denseWave (fun x => (a item i x).mul (b item j x)) hi k

/-- q of a wave of `DXP`, `DWP`, `MATMUL` for element (i, j) of an item (Table 4.2, R83). -/
def prodWave (s : State) (m : Memory) (c : Cmd) (item i j hi k : Nat) : Num :=
  let nb2 := c.lp.nb2
  let o := operand s m c
  match c.op with
  | 0x11 => if c.pb 0 10 then w24Wave s m c nb2 item i j hi k else denseProd (o 0 nb2) (o 1 nb2) item i j hi k
  | 0x12 => denseProd (fun i r x => o 0 nb2 i x r) (fun i j x => o 1 nb2 i x j) item i j hi k
  | _ => denseProd (fun i r x => if c.pb 0 11 then o 0 nb2 i x r else o 0 nb2 i r x)
      (fun i j x => if c.pb 0 12 then o 1 nb2 i j x else o 1 nb2 i x j) item i j hi k

/-- The pair from which the element at row r, column c of a product's output starts (`ACC`). An FP16 output under `SCLSLOT` is read back with the
exponent that the command took from the slot, with which it is also written: the manual names neither that exponent nor `T` for the read (DESIGN
CHOICE, log 100). -/
def prodStart (s : State) (m : Memory) (c : Cmd) (p : Prod) (item r col : Nat) : Pair :=
  let d := c.d p.out
  if c.pb 0 9 then d.pairT (outScale c d) m s.extent c.lp.nb2 item r col else Pair.zero

/-- The element of a product at row r, column c of its output: its sum over K and its epilogue (R40 steps 1 and 2). -/
def prodElem (s : State) (m : Memory) (c : Cmd) (p : Prod) (item r col : Nat) : Pair :=
  let nb2 := c.lp.nb2
  let ij := if p.tr then (col, r) else (r, col)
  let sum := elemPair c.lp.shape p.step p.k (c.lp.piece * 128) (prodWave s m c item ij.1 ij.2) (prodStart s m c p item r col)
  match p.ePos with
  | some e => epilogue (c.pf 0 5 2) ((c.d e).f32 m s.extent nb2 item r col) sum
  | none => sum

/-- Out-of-range figures of descriptors in table order, each with its batch items and the elements that the command accesses (R176). -/
def oobDescs (ext nb2 : Nat) (l : List (Desc × Nat × (Nat → Nat → Nat → Bool))) : List (Nat × Option Nat) :=
  l.map (fun x => x.1.oobCount ext nb2 x.2.1 x.2.2)

/-- All elements. -/
def allElems : Nat → Nat → Nat → Bool := fun _ _ _ => true

/-- An output and the `E` of its epilogue, if there is one; in the in-place role each element counts once (R176, R213). `E` counts as read at every
position, a frozen one of dW among them: the manual does not say whether it is read there (DESIGN CHOICE, log 108). -/
def outAndE (out : Desc) (e : Option Desc) (items : Nat) (use : Nat → Nat → Nat → Bool) : List (Desc × Nat × (Nat → Nat → Nat → Bool)) :=
  match e with
  | none => [(out, items, use)]
  | some d => if d = out then [(out, items, allElems)] else [(out, items, use), (d, items, allElems)]

/-! ## Zero waves (R244) -/

/-- Whether the waves of an array with these operand values leave every pair without a -0 as it is. -/
def zeroWave (row col : List Num) : Bool :=
  (row.all (·.isZero) && col.all (·.finite)) || (col.all (·.isZero) && row.all (·.finite))

/-- A pair with -0 in S or c. -/
def hasNegZero (p : Pair) : Bool := p.s == 0x80000000#32 || p.c == 0x80000000#32

/-- The waves of one array over a K range that it skips: the wave's operand values per lane, the cells' waves and starts. A lane beyond the extent
carries +0 (R88), so the lanes given are those inside. -/
def skippedWaves (rows cols : List Nat) (rowVals colVals : Nat → Nat → List Num) (q : Nat → Nat → Nat → Num) (start : Nat → Nat → Pair)
    (step lo hi piece : Nat) : Nat :=
  ((List.range (cdiv (hi - lo) step)).filter (fun w =>
    zeroWave (rows.flatMap (rowVals (lo + step * w))) (cols.flatMap (colVals (lo + step * w))) &&
    !rows.any (fun i => cols.any (fun j => hasNegZero (cellBefore (q i j) step lo hi piece (start i j) w))))).length

/-- Rows, columns and K range of each array of a tile at (rt, ct) (Table 4.1, R38); a `Q32` tile has the one array of its item. -/
def tileArrays (shape m n k rt ct : Nat) : List (List Nat × List Nat × Nat × Nat) :=
  let rows := fun a => (rangeFrom a 32).filter (· < m)
  let cols := fun a => (rangeFrom a 32).filter (· < n)
  match shape with
  | 0 => (List.range 4).map (fun a => (rows (32 * rt), cols (128 * ct + 32 * a), 0, k))
  | 1 => (List.range 4).map (fun a => (rows (64 * rt + 32 * (a / 2)), cols (64 * ct + 32 * (a % 2)), 0, k))
  | 2 => (List.range 4).map (fun a => (rows (128 * rt + 32 * a), cols (32 * ct), 0, k))
  | 3 => [(rows (32 * rt), cols (32 * ct), 0, k)]
  | _ => (List.range 4).map (fun a =>
      let kq := 4 * cdiv k 16
      (rows (32 * rt), cols (32 * ct), a * kq, Nat.min k ((a + 1) * kq)))

/-- The values of a product's row lane `i`, or column lane `j`, in the wave from K index `k`. -/
def prodRowVals (s : State) (m : Memory) (c : Cmd) (p : Prod) (item : Nat) (k i : Nat) : List Num :=
  ((rangeFrom k p.step).filter (· < p.k)).map (fun x => match c.op with
    | 0x11 => operand s m c 0 c.lp.nb2 item i x
    | 0x12 => operand s m c 0 c.lp.nb2 item x i
    | _ => if c.pb 0 11 then operand s m c 0 c.lp.nb2 item x i else operand s m c 0 c.lp.nb2 item i x)
def prodColVals (s : State) (m : Memory) (c : Cmd) (p : Prod) (item : Nat) (k j : Nat) : List Num :=
  if c.op = 0x11 ∧ c.pb 0 10 = true then (w24Vals s m c c.lp.nb2 item j p.k k).map (·.2)
  else ((rangeFrom k p.step).filter (· < p.k)).map (fun x => match c.op with
    | 0x11 => operand s m c 1 c.lp.nb2 item j x
    | 0x12 => operand s m c 1 c.lp.nb2 item x j
    | _ => if c.pb 0 12 then operand s m c 1 c.lp.nb2 item j x else operand s m c 1 c.lp.nb2 item x j)

/-- Waves that the arrays skip in one unit's tiles at a grid column: those of each array's own problem, and of a `Q32` array without an item all of
them, since it computes on +0 (R97, R244). An array that holds a block which the Sector mask skips fires no wave (R218). -/
def prodSkipped (s : State) (m : Memory) (c : Cmd) (p : Prod) (skip : Nat × Nat × Nat → Bool) (ts : List (Nat × Nat × Nat)) : Nat :=
  let idle := fun (t : Nat × Nat × Nat) (a : Nat) => let b := arrayBlock c.lp.shape t.2.1 t.2.2 a; c.op == 0x12 && blockIdle s m c (c.d p.out) b.1 b.2
  let one := fun (t : Nat × Nat × Nat) => (((tileArrays c.lp.shape p.m p.n p.k t.2.1 t.2.2).zipIdx.filter (fun a => !idle t a.2)).map (fun a =>
    skippedWaves a.1.1 a.1.2.1 (prodRowVals s m c p t.1) (prodColVals s m c p t.1) (fun i j => prodWave s m c t.1 i j a.1.2.2.2)
      (fun i j => if c.lp.shape = 4 ∧ a.2 ≠ 0 then Pair.zero else if p.tr then prodStart s m c p t.1 j i else prodStart s m c p t.1 i j)
      p.step a.1.2.2.1 a.1.2.2.2 (c.lp.piece * 128))).sum
  ((ts.filter (!skip ·)).map one).sum + (if c.lp.shape = 3 ∧ ts.all skip = false then (4 - ts.length) * cdiv p.k p.step else 0)

/-- The run of `DXP`, `DWP` or `MATMUL`. -/
def productRun (s : State) (c : Cmd) : RunRes :=
  let m := viewOf s c
  let p := prodOf c
  let l := c.lp
  let items := l.nb1 * l.nb2
  let d := c.d p.out
  let cc := (s.conf.job c.job).cores.length
  let dead := fun r col => c.op == 0x12 && frozen s m c d r col
  let skip := fun (t : Nat × Nat × Nat) => c.op == 0x12 && tileSkipped s m c d l.shape t.2.1 t.2.2
  let groups := (List.range cc).map (fun rank => shareGroups l p.m p.n items rank cc)
  let elems := groups.map (fun gs => (gs.flatten.flatten.flatMap (tileElems l.shape p.m p.n p.tr)).filter (fun x => !dead x.2.1 x.2.2))
  let dr := drain d s.extent (outMode s c d l.nb2 (c.pb 0 0)) (keptRes s c c.mainRole
    (elems.map (fun es => es.map (fun x => ⟨x.1, x.2.1, x.2.2, prodElem s m c p x.1 x.2.1 x.2.2⟩))))
  let parks := pieceCount l p.k - 1
  let ev := groups.flatten.map (fun g => groupEvictions parks l.spillCs (g.filter (fun ts => !ts.all skip)).length)
  let mem := (ev.map (·.2)).sum
  let w24 := c.op == 0x11 && c.pb 0 10
  let ovr := if w24 then w24Over s m c p.n p.k else (0, none)
  let figs := oobDescs s.extent l.nb2 ([(c.d 0, items, allElems), (c.d 1, items, allElems)] ++
    outAndE d (p.ePos.map c.d) items (fun _ r col => !dead r col))
  let beyond := if w24 then w24Beyond s m c items p.n p.k else (0, none)
  let figs := figs.modify 1 (fun x => (x.1 + beyond.1, minOpt x.2 beyond.2))
  let cs := chainStores c dr
  { stores := cs.1 ++ zeroMapStore (c.pf 6 0 48) d items dr.wrs
    chained := cs.2
    outs := [(d.tid, dr.meter)]
    norms := dr.norms
    staged := if d.ralias then [(p.out, dr.staged)] else []
    conds := oobCond (0, none) figs ++ (match ovr.2 with
      | some g => [⟨0x11, g, ovr.1⟩]
      | none => [])
    spillCs := (ev.map (·.1)).sum
    spillMem := mem
    havoc := if mem = 0 ∧ d.ralias = false then [] else [(c.pf 2 0 48, c.pf 3 0 40)]
    counts := (if c.op = 0x12 then maskCounts s m c d items else []) ++
      [(3, 8, ovr.1), (3, 7, (groups.flatten.flatten.map (prodSkipped s m c p skip)).sum)] }

/-! ## GPAIR (R101-R106) -/

/-- Evictions of one rank's GPAIR schedule to spill slots: those of the dX tiles' and the dW tiles' parks. A dX tile leaves for the partial
region at the end of its token block's last feature block in a super-block, and its slot is free then (R105); that move is counted apart. -/
def gpairEvictions (l : LoopDesc) (tokens feats : Nat) (bands : List Nat) (skip : Nat → Nat → Bool) : Nat × Nat :=
  let bt := l.gpBt * 128
  let bf := l.gpBf * 128
  let ntb := cdiv tokens bt
  let nfb := cdiv feats bf
  let fpb := if l.gpFw = 0 then nfb else l.gpFw / l.gpBf
  let visits := (List.range (cdiv nfb fpb)).flatMap (fun sb => (List.range ntb).flatMap (fun tb =>
    ((rangeFrom (sb * fpb) fpb).filter (· < nfb)).map (fun fb => (sb, tb, fb))))
  let st := visits.foldl (fun st v =>
    let tb := v.2.1
    let fb := v.2.2
    let nx := cdiv (if tokens - tb * bt < bt then tokens - tb * bt else bt) 128
    let nw := cdiv (if feats - fb * bf < bf then feats - fb * bf else bf) 128
    let st := bands.foldl (fun st g => (List.range (if nx < nw then nw else nx)).foldl (fun st j =>
      let st := if j < nx then
        let key := (0, g, tb * l.gpBt + j)
        if fb + 1 = nfb then freeTile st key
        else if fb + 1 = (v.1 + 1) * fpb then (touchTile st.1 key, st.2)
        else parkTile l.spillCs st key
        else st
      if j < nw then
        let key := (1, g, fb * l.gpBf + j)
        if skip g (fb * l.gpBf + j) then st
        else if tb + 1 = ntb then freeTile st key else parkTile l.spillCs st key
      else st) st) st
    if fb + 1 ≠ nfb ∧ fb + 1 = (v.1 + 1) * fpb then (bands.flatMap (fun g => (List.range nx).map (fun j => (0, g, tb * l.gpBt + j)))).foldl freeTile st
    else st) (([], 0, 0) : Slots × Nat × Nat)
  st.2

/-- Waves that the arrays skip in the `T32x128` tile of rows `band` and columns `128 j` up of a dense product over [lo, hi) (R244); an array that is
`idle` fires none (R218). -/
def bandSkipped (band : List Nat) (j n hi piece : Nat) (a b : Nat → Nat → Num) (start : Nat → Nat → Pair) (idle : Nat → Bool) : Nat :=
  (((List.range 4).filter (fun x => !idle x)).map (fun x =>
    let vals := fun (f : Nat → Nat → Num) (k i : Nat) => ((rangeFrom k 4).filter (· < hi)).map (f i)
    skippedWaves band ((rangeFrom (128 * j + 32 * x) 32).filter (· < n)) (vals a) (vals b)
      (fun i t => denseWave (fun k => (a i k).mul (b t k)) hi) start 4 0 hi piece)).sum

/-- Bytes that a `GPAIR` reads of its tensors as far as the manual fixes them (R103): dY and W once, X in each super-block, the dW start pairs and
`E` once. A tensor with elements out of range, one that a zero map names, the consumer's side of a `CHAIN`, and what a Sector mask may spare (X and
the start pairs) are left to the free part of the reply (log 74). `oob` counts the elements out of range by descriptor position. -/
def gpairReads (c : Cmd) (supers : Nat) (oob : List Nat) : Nat :=
  let oob := if c.d 5 = c.d 3 then oob.take 5 ++ [oob.getD 3 0] else oob
  let sure := fun (pos : Nat) => oob.getD pos 0 == 0 && !(c.pf 7 0 48 != 0 && c.pf 7 48 4 == pos) && c.chain != 2
  let bytes := fun (pos : Nat) => if sure pos then (c.d pos).bytes 1 else 0
  let masked := c.pf 0 7 2 != 0
  bytes 2 + bytes 1 + (if masked then 0 else supers * bytes 0 + bytes 4) + (if c.pf 0 5 2 = 0 then 0 else bytes 5)

/-- The run of `GPAIR`: descriptors X, W, DY, DX, DW, E. -/
def gpairRun (s : State) (c : Cmd) : RunRes :=
  let m := viewOf s c
  let l := c.lp
  let x := operand s m c 0 1 0
  let w := operand s m c 1 1 0
  let dy := operand s m c 2 1 0
  let tokens := (c.d 2).rows
  let feats := (c.d 2).cols
  let ins := (c.d 0).cols
  let dxd := c.d 3
  let dwd := c.d 4
  let cc := (s.conf.job c.job).cores.length
  let rows := (List.range cc).map (fun k => let sh := share k (cdiv ins 32) cc; rangeFrom sh.1 (sh.2 - sh.1))
  let inBand := fun g => (rangeFrom (32 * g) 32).filter (· < ins)
  let dxElem := fun t i => elemPair 0 4 feats (l.gpBf * 128) (fun hi k => denseWave (fun f => (w i f).mul (dy t f)) hi k) Pair.zero
  let dwElem := fun i j => elemPair 0 4 tokens (l.gpBt * 128) (fun hi k => denseWave (fun t => (x t i).mul (dy t j)) hi k)
    (dwd.pairT dwd.t m s.extent 1 0 i j)
  let epi := fun t i p => if c.pf 0 5 2 = 0 then p else epilogue (c.pf 0 5 2) ((c.d 5).f32 m s.extent 1 0 t i) p
  let dx := drain dxd s.extent (outMode s c dxd 1 (c.pb 0 0)) (keptRes s c .dx (rows.map (fun bs => bs.flatMap (fun g =>
    (List.range tokens).flatMap (fun t => (inBand g).map (fun i => ⟨0, t, i, epi t i (dxElem t i)⟩))))))
  let nw0 := l.gpBf
  let dw := drain dwd s.extent (outMode s c dwd 1 false) (keptRes s c .dw (rows.map (fun bs =>
    (List.range (cdiv feats (l.gpBf * 128))).flatMap (fun fb => bs.flatMap (fun g => (rangeFrom (fb * nw0) nw0).flatMap (fun tile =>
      ((inBand g).flatMap (fun i => ((rangeFrom (tile * 128) 128).filter (fun j => decide (j < feats) && !frozen s m c dwd i j)).map
        (fun j => ⟨0, i, j, dwElem i j⟩)))))))))
  let ev := rows.map (fun bs => gpairEvictions l tokens feats bs (fun g t => tileSkipped s m c dwd 0 g t))
  let mem := (ev.map (·.2)).sum
  let inE := c.pf 0 5 2 ≠ 0 ∧ c.d 5 ≠ dxd
  let figs := oobDescs s.extent 1 ([(c.d 0, 1, allElems), (c.d 1, 1, allElems), (c.d 2, 1, allElems), (dxd, 1, allElems),
    (dwd, 1, fun _ i j => !frozen s m c dwd i j)] ++ if inE then [(c.d 5, 1, allElems)] else [])
  let cs := chainStores c dx
  let supers := if l.gpFw = 0 then 1 else cdiv (cdiv feats (l.gpBf * 128)) (l.gpFw / l.gpBf)
  let toMem := mem + cdiv ins 32 * cdiv tokens 128 * (supers - 1)
  let skipped := (rows.flatten.map (fun g =>
    ((List.range (cdiv tokens 128)).map (fun j => bandSkipped (inBand g) j tokens feats (l.gpBf * 128) w dy (fun _ _ => Pair.zero) (fun _ => false))).sum +
    (((List.range (cdiv feats 128)).filter (fun t => !tileSkipped s m c dwd 0 g t)).map (fun j =>
      bandSkipped (inBand g) j feats tokens (l.gpBt * 128) (fun i t => x t i) (fun f t => dy t f) (fun i f => dwd.pairT dwd.t m s.extent 1 0 i f)
        (fun a => blockIdle s m c dwd g (4 * j + a)))).sum)).sum
  { stores := cs.1 ++ dw.stores ++ zeroMapStore (c.pf 6 0 48) dxd 1 dx.wrs
    chained := cs.2
    outs := [(dxd.tid, dx.meter), (dwd.tid, dw.meter)]
    norms := dw.norms
    staged := (if dxd.ralias then [(3, dx.staged)] else []) ++ if dwd.ralias then [(4, dw.staged)] else []
    conds := oobCond (0, none) figs
    spillCs := (ev.map (·.1)).sum
    spillMem := toMem
    havoc := (if mem = 0 ∧ dxd.ralias = false ∧ dwd.ralias = false then [] else [(c.pf 2 0 48, c.pf 3 0 40)]) ++
      if supers ≤ 1 then [] else [(c.pf 4 0 48, c.pf 5 0 40)]
    counts := maskCounts s m c dwd 1 ++ [(3, 7, skipped)]
    rd := gpairReads c supers (figs.map (·.1)) + 32768 * toMem }

/-- Records an operand zero map whose geometry fits no operand (R246, source 0x0A). -/
def zinIll (s : State) (c : Cmd) (operands : List Nat) : State :=
  if zinMismatch c operands then illQueue s 0x0A c.qid (BitVec.ofNat 64 (c.pf 7 48 4)) else s

/-- Runs a product and records a zero map that fits none of its operands. -/
def runProduct (s : State) (q op : Nat) (operands : List Nat) (tids : Cmd → List Nat) (f : State → Cmd → RunRes) : State :=
  match startable s q op with
  | none => s
  | some c => runOp (zinIll s c operands) q op tids f

/-- `GPAIR` (R101-R106). -/
def execGpair (q : Nat) (s : State) : Host.Outcome State Fault Refusal :=
  onQueue q (runProduct s q 0x10 [0, 1, 2] (fun c => slotTids [c.d 3]) gpairRun)

/-- `DXP` (R106). -/
def execDxp (q : Nat) (s : State) : Host.Outcome State Fault Refusal :=
  onQueue q (runProduct s q 0x11 [0, 1] (fun c => slotTids [c.d 2]) productRun)

/-- `DWP` (R106). -/
def execDwp (q : Nat) (s : State) : Host.Outcome State Fault Refusal :=
  onQueue q (runProduct s q 0x12 [0, 1] (fun c => slotTids [c.d 2]) productRun)

/-- `MATMUL` (Table 4.2). -/
def execMatmul (q : Nat) (s : State) : Host.Outcome State Fault Refusal :=
  onQueue q (runProduct s q 0x13 [0, 1] (fun c => slotTids [c.d 2]) productRun)

end Sys2Proof.Machine
end

