-- ==== Sys2Proof/Machine/Layer.lean ====
section
/-!
DEFINITION. The layer backward and element-wise commands (08): `NBWD`, `SBWD`, `ABWD`, `EPI`. Rows are shared among the job's cores (R193);
each row is computed by the operations of R201, R204, R206-R210 and R214, and its results enter Table 2.4 at step 2 (R212).
-/
namespace Sys2Proof.Machine

/-! ## Parameters (Table 11.3) -/

/-- The epilogue field of P1. -/
def Cmd.epi (c : Cmd) : Nat := c.pf 1 14 2
def Cmd.fa (c : Cmd) : F32 := BitVec.ofNat 32 (c.pf 2 0 32)
def Cmd.fb (c : Cmd) : F32 := BitVec.ofNat 32 (c.pf 2 32 32)

/-- Work units of a rank: rows (item, row) in (b1, b2, r) order (R193, R89). -/
def rowShare (items rows rank cc : Nat) : List (Nat × Nat) :=
  let sh := share rank (items * rows) cc
  (rangeFrom sh.1 (sh.2 - sh.1)).map (fun u => (u / rows, u % rows))

/-- Stored length of list position u, before it is limited (R196); `cols` without a list. -/
def listLen (s : State) (m : Memory) (c : Cmd) (cols u : Nat) : Nat :=
  let a := c.pf 4 0 48
  if a = 0 then cols else dieLe m s.extent (a + 4 * u) 4

/-- Length of a row (R196). -/
def rowLen (s : State) (m : Memory) (c : Cmd) (d : Desc) (i r : Nat) : Nat := satTo d.cols (listLen s m c d.cols (i * d.rows + r))

/-- Rows whose listed length exceeds `COLS`: how many, and the lowest list position (R196). -/
def longRows (s : State) (m : Memory) (c : Cmd) (d : Desc) : Nat × Option Nat :=
  (List.range (c.items * d.rows)).foldl (fun acc u =>
    if d.cols < listLen s m c d.cols u then (acc.1 + 1, minOpt acc.2 (some u)) else acc) (0, none)

/-- The elements of one row of results with the epilogue's tensor `E` (R211, R212). -/
def rowRes (s : State) (m : Memory) (c : Cmd) (ePos : Nat) (i r : Nat) (zs : List F32) : List Res :=
  zs.zipIdx.map (fun z => ⟨i, r, z.2, if c.epi = 0 then ⟨z.1, 0⟩ else epilogue c.epi ((c.d ePos).f32 m s.extent c.nb2 i r z.2) ⟨z.1, 0⟩⟩)

/-- The descriptor of the epilogue's tensor `E`, if the command has an epilogue. -/
def Cmd.eDesc (c : Cmd) (ePos : Nat) : Option Desc := if c.epi = 0 then none else some (c.d ePos)

/-- Waves of the epilogue per 256 elements (R215). -/
def epiWaves (c : Cmd) : Nat := if c.epi = 1 then 8 else if c.epi = 2 then 6 else 0

/-! ## NBWD (R201-R203) -/

/-- The position of `RSTD` of an `NBWD`; the roles after it follow. -/
def nbRstd (c : Cmd) : Nat := if c.pb 1 0 then 2 else 3

/-- The position of `OUT` of an `NBWD`. -/
def nbOut (c : Cmd) : Nat := if c.pb 1 0 then nbRstd c + 3 else nbRstd c + 4

/-- One row of `nbwd_row`: the results over the row's length, and what each column adds to dγ and dβ. -/
def nbwdRow (rms : Bool) (dy x gamma : List F32) (mu rs : F32) : List F32 × List Pair × List Pair :=
  let n := dy.length
  let invN := rcp32 (rne32 (Num.ofInt n 0))
  let xh := x.map (fun a => if rms then mul32 a rs else mul32 (sub32 a mu) rs)
  let g := List.zipWith mul32 dy gamma
  let t := List.zipWith mul32 g xh
  let a2 := mul32 (rowsum t) invN
  let a1 := mul32 (rowsum g) invN
  let u := List.zipWith (fun h gc => if rms then fma32 (neg32 h) a2 gc else fma32 (neg32 h) a2 (sub32 gc a1)) xh g
  (u.map (mul32 rs), List.zipWith (fun a h => let p := twoProd a h; ⟨p.1, p.2⟩) dy xh, dy.map (fun a => ⟨a, 0⟩))

/-- Column pairs with a row's contributions; columns beyond the row's length keep theirs. -/
def addCols : List Pair → List Pair → List Pair
  | p :: ps, x :: xs => pairAdd p x :: addCols ps xs
  | ps, [] => ps
  | [], _ => []

/-- The results of row (i, r) of an `NBWD`. -/
def nbwdOne (s : State) (m : Memory) (c : Cmd) (i r : Nat) : List F32 × List Pair × List Pair :=
  let rms := c.pb 1 0
  let k := nbRstd c
  let n := rowLen s m c (c.d 0) i r
  let f := fun (pos : Nat) (row col : Nat) => (c.d pos).f32 m s.extent c.nb2 i row col
  let cols := List.range n
  if n = 0 then ([], [], [])
  else nbwdRow rms (cols.map (f 0 r)) (cols.map (f 1 r)) (cols.map (fun col => (c.d (k + 1)).f32 m s.extent 1 0 0 col))
    (if rms then 0 else f 2 r 0) (f k r 0)

/-- Pads a row of results with +0 to `COLS` (R196). -/
def padRow (cols : Nat) (l : List F32) : List F32 := l ++ List.replicate (cols - l.length) 0

/-- Two-pass rows (R195). -/
def isLong (n : Nat) : Bool := decide (32768 < n)

/-- Bytes of the first `n` elements of a row. -/
def Desc.rowPart (d : Desc) (n : Nat) : Nat := if d.fmt = 4 then cdiv n 2 else n * eBytes d.fmt

/-- Bytes that an `NBWD` or `SBWD` reads of its two row inputs: a resident row once, a row in two passes twice (R195). A tensor with elements out of
range, whose bytes are not all there to read, and the consumer's side of a `CHAIN` are left to the free part of the reply (log 74). -/
def rowReads (c : Cmd) (lens : List Nat) (onePass : Bool) (oob : List Nat) : Nat :=
  ((List.range 2).map (fun pos =>
    if oob.getD pos 0 = 0 ∧ c.chain ≠ 2 then (lens.map (fun n => (if isLong n && !onePass then 2 else 1) * (c.d pos).rowPart n)).sum else 0)).sum

/-- LBW_ROWS, LBW_LONG, LBW_SHORT, VU_WAVES, SFU_OPS of an `NBWD` or `SBWD` over its rows' lengths: the waves of Table 8.7 with the overhead of
every row, which the vector unit works through too (R220; DEDUCED, log 78). -/
def rowCounts (lens : List Nat) (cols res two extra overhead sfu sfuTwo : Nat) (onePass : Bool) : List (Nat × Nat × Nat) :=
  let long := fun n => isLong n && !onePass
  [(2, 0, lens.length), (2, 1, (lens.filter long).length), (2, 2, (lens.filter (· < cols)).length),
   (2, 3, (lens.map (fun n => cdiv n 256 * ((if long n then two else res) + extra) + overhead)).sum),
   (2, 4, (lens.map (fun n => if long n then sfuTwo * n else sfu * n)).sum)]

/-- The run of `NBWD`. Under `GACC` = 1 core rank 0 starts from memory's pairs, also where its share of the rows is empty, though R202 makes an empty
share a (+0, +0) leaf too (DESIGN CHOICE, log 106). -/
def nbwdRun (s : State) (c : Cmd) : RunRes :=
  let m := viewOf s c
  let rms := c.pb 1 0
  let k := nbRstd c
  let op := nbOut c
  let d := c.d 0
  let od := c.d op
  let dgd := c.d (k + 2)
  let dbd := c.d (k + 3)
  let cc := (s.conf.job c.job).cores.length
  let rows := (List.range cc).map (fun rank => (rowShare c.items d.rows rank cc).map (fun u => (u, nbwdOne s m c u.1 u.2)))
  let start := fun (x : Desc) (rank : Nat) => (List.range d.cols).map (fun col =>
    if rank = 0 ∧ c.pb 1 1 = true then x.pair m s.extent 1 0 0 col else Pair.zero)
  let cols := fun (x : Desc) (sel : List F32 × List Pair × List Pair → List Pair) =>
    rows.zipIdx.map (fun l => l.1.foldl (fun a u => addCols a (sel u.2)) (start x l.2))
  let tree := fun (ls : List (List Pair)) => (List.range d.cols).map (fun col => ftree pairAdd Pair.zero (ls.map (fun l => l.getD col Pair.zero)))
  let colRes := fun (ps : List Pair) => [(ps.zipIdx.map (fun p => (⟨0, 0, p.2, p.1⟩ : Res))).filter (fun x => reached s c .dgamma (0, 0, x.c))]
  let dg := drain dgd s.extent (outMode s c dgd 1 false) (colRes (tree (cols dgd (·.2.1))))
  let db := drain dbd s.extent (outMode s c dbd 1 false) (if rms then [] else colRes (tree (cols dbd (·.2.2))))
  let out := drain od s.extent (outMode s c od c.nb2 (c.pb 1 9)) (keptRes s c .out (rows.map (fun l => l.flatMap (fun u =>
    rowRes s m c (op + 1) u.1.1 u.1.2 (padRow d.cols u.2.1)))))
  let norm := (dg.wrs ++ db.wrs).foldl (fun p w => normAdd p w.v) Pair.zero
  let len := fun i r => rowLen s m c d i r
  let inRow := fun i r col => decide (col < len i r)
  let anyRow := fun (_ _ : Nat) col => (positions c.items d.rows).any (fun u => col < len u.1 u.2)
  let stat := fun i r (_ : Nat) => decide (0 < len i r)
  let figs := oobDescs s.extent c.nb2 ([(c.d 0, c.items, inRow), (c.d 1, c.items, inRow)] ++
    (if rms then [] else [(c.d 2, c.items, stat)]) ++ [(c.d k, c.items, stat), (c.d (k + 1), 1, anyRow), (dgd, 1, allElems)] ++
    (if rms then [] else [(dbd, 1, allElems)]) ++ outAndE od (c.eDesc (op + 1)) c.items allElems)
  let cs := chainStores c out
  let lens := (positions c.items d.rows).map (fun u => len u.1 u.2)
  { stores := cs.1 ++ dg.stores ++ db.stores
    chained := cs.2
    outs := [(dgd.tid, dg.meter)] ++ (if rms then [] else [(dbd.tid, db.meter)]) ++ [(od.tid, out.meter)]
    norms := (List.range cc).map (fun r => if r = 0 then norm else Pair.zero)
    staged := (if dgd.ralias then [(k + 2, dg.staged)] else []) ++ (if !rms && dbd.ralias then [(k + 3, db.staged)] else []) ++
      if od.ralias then [(op, out.staged)] else []
    conds := oobCond (longRows s m c d) figs
    spillCs := 0
    spillMem := 0
    havoc := if c.colsMem || dgd.ralias || (!rms && dbd.ralias) || od.ralias then [(c.pf 6 0 48, c.pf 7 0 40)] else []
    counts := rowCounts lens d.cols (if rms then 22 else 39) (if rms then 24 else 42) (epiWaves c) (if rms then 24 else 32) 0 0 false ++
      [(2, 4, (lens.filter (0 < ·)).length)]
    rd := rowReads c lens false (figs.map (·.1)) }

/-! ## SBWD (R204, R205) -/

/-- The position of `OUT` of an `SBWD`. -/
def sbOut (c : Cmd) : Nat := if c.pb 1 2 then 5 else 4

/-- `sbwd_row` over a row of length n. -/
def sbwdRow (dp s : List F32) (live : List Bool) (m l tau : F32) (dcol : Option F32) : List F32 :=
  let p := List.zipWith (fun v x => if v then exp32 (sub32 (sub32 (mul32 tau x) m) l) else 0) live s
  let t := List.zipWith (fun v x => if v then x else 0) live (List.zipWith mul32 dp p)
  let d := dcol.getD (rowsum t)
  List.zipWith (fun v x => if v then x else 0) live (List.zipWith (fun a b => mul32 tau (mul32 b (sub32 a d))) dp p)

/-- Whether element (r, col) is unmasked (Table 8.3, `CAUSAL`). -/
def sbLive (c : Cmd) (r col : Nat) : Bool :=
  let d := c.d 0
  !c.pb 1 3 || decide (((if d.loc then d.col0 + col else col : Nat) : Int) ≤ ((if d.loc then d.row0 + r else r : Nat) : Int) + c.fb.toInt)

/-- The run of `SBWD`. -/
def sbwdRun (s : State) (c : Cmd) : RunRes :=
  let m := viewOf s c
  let d := c.d 0
  let op := sbOut c
  let od := c.d op
  let cc := (s.conf.job c.job).cores.length
  let f := fun (pos i r col : Nat) => (c.d pos).f32 m s.extent c.nb2 i r col
  let one := fun i r =>
    let cols := List.range (rowLen s m c d i r)
    sbwdRow (cols.map (f 0 i r)) (cols.map (f 1 i r)) (cols.map (sbLive c r)) (f 2 i r 0) (f 3 i r 0) c.fa
      (if c.pb 1 2 then some (f 4 i r 0) else none)
  let out := drain od s.extent (outMode s c od c.nb2 (c.pb 1 9)) (keptRes s c .out ((List.range cc).map (fun rank =>
    (rowShare c.items d.rows rank cc).flatMap (fun u => rowRes s m c (op + 1) u.1 u.2 (padRow d.cols (one u.1 u.2))))))
  let len := fun i r => rowLen s m c d i r
  let inRow := fun i r col => decide (col < len i r)
  let stat := fun i r (_ : Nat) => decide (0 < len i r)
  let figs := oobDescs s.extent c.nb2 ([(c.d 0, c.items, inRow), (c.d 1, c.items, inRow), (c.d 2, c.items, stat), (c.d 3, c.items, stat)] ++
    (if c.pb 1 2 then [(c.d 4, c.items, stat)] else []) ++ outAndE od (c.eDesc (op + 1)) c.items allElems)
  let cs := chainStores c out
  let lens := (positions c.items d.rows).map (fun u => len u.1 u.2)
  let lives := (positions c.items d.rows).map (fun u => (u, ((List.range (len u.1 u.2)).filter (sbLive c u.2)).length))
  { stores := cs.1
    chained := cs.2
    outs := [(od.tid, out.meter)]
    norms := []
    staged := if od.ralias then [(op, out.staged)] else []
    conds := oobCond (longRows s m c d) figs
    spillCs := 0
    spillMem := 0
    havoc := if od.ralias then [(c.pf 6 0 48, c.pf 7 0 40)] else []
    counts := rowCounts lens d.cols (if c.pb 1 2 then 10 else 12) 19 (b2n (c.pb 1 3) + epiWaves c) (if c.pb 1 2 then 16 else 24) 0 0 (c.pb 1 2) ++
      [(2, 4, (lives.map (fun x => if isLong (len x.1.1 x.1.2) && !c.pb 1 2 then 2 * x.2 else x.2)).sum)]
    rd := rowReads c lens (c.pb 1 2) (figs.map (·.1)) }

/-! ## ABWD (R206-R210) -/

/-- silu_d (R208). -/
def siluD (x : F32) : F32 :=
  if x = 0x7F800000#32 then 0x3F800000#32
  else if x = 0xFF800000#32 then 0x80000000#32
  else
    let s := rcp32 (add32 0x3F800000#32 (exp32 (neg32 x)))
    mul32 s (fma32 x (sub32 0x3F800000#32 s) 0x3F800000#32)

/-- gelu_d (R209). -/
def geluD (x : F32) : F32 :=
  let one : F32 := 0x3F800000#32
  if !(Num.abs (val x)).lt (.fin false 16 0) then (if gt0 x then one else 0)
  else
    let x2 := mul32 x x
    let u := mul32 0x3F4C422A#32 (mul32 x (fma32 0x3D372713#32 x2 one))
    let t := tanh32 u
    let h := mul32 0x3F000000#32 (add32 one t)
    let q := fma32 (neg32 t) t one
    let w := mul32 0x3F4C422A#32 (fma32 0x3E095D4F#32 x2 one)
    fma32 (mul32 0x3F000000#32 x) (mul32 q w) h

/-- dX of one element by its function code (Table 8.6, R207). -/
def abwdOne (afn : Nat) (alpha dy y : F32) : F32 :=
  let one : F32 := 0x3F800000#32
  if isNan dy || isNan y then nan32
  else match afn with
    | 0 => if gt0 y then dy else 0
    | 1 => if gt0 y then dy else mul32 alpha dy
    | 2 => mul32 dy (mul32 y (sub32 one y))
    | 3 => mul32 dy (fma32 (neg32 y) y one)
    | 4 => mul32 dy (sub32 one (exp32 (neg32 y)))
    | 5 => if gt0 y then dy else mul32 dy (add32 y alpha)
    | 6 => mul32 dy (siluD y)
    | _ => mul32 dy (geluD y)

/-- dy' of R210. -/
def dropped (s : State) (c : Cmd) (idx : Nat) (dy : F32) : F32 :=
  if c.pb 1 8 then
    (if c.pf 3 0 32 ≤ draw (seedOf s c) c.step (c.pf 1 32 16) idx 1 then mul32 dy c.fb else 0)
  else dy

/-- Vector waves per 256 elements of an activation (Table 8.6). -/
def abwdWaves (afn : Nat) : Nat := [2, 3, 3, 2, 7, 4, 15, 19].getD afn 0

/-- Special-function results per element of an activation, counted for every element, also for one whose value an early case of R208 or R209 or a NaN
decides (DESIGN CHOICE, log 107). -/
def abwdSfu (afn : Nat) : Nat := [0, 0, 0, 0, 1, 0, 2, 1].getD afn 0

/-- The run of `ABWD`. -/
def abwdRun (s : State) (c : Cmd) : RunRes :=
  let m := viewOf s c
  let d := c.d 0
  let od := c.d 2
  let afn := c.pf 1 4 4
  let cc := (s.conf.job c.job).cores.length
  let one := fun i r => (List.range d.cols).map (fun col =>
    abwdOne afn c.fa (dropped s c (d.index i r col) (d.f32 m s.extent c.nb2 i r col)) ((c.d 1).f32 m s.extent c.nb2 i r col))
  let out := drain od s.extent (outMode s c od c.nb2 (c.pb 1 9)) (keptRes s c .out ((List.range cc).map (fun rank =>
    (rowShare c.items d.rows rank cc).flatMap (fun u => rowRes s m c 3 u.1 u.2 (one u.1 u.2)))))
  let figs := oobDescs s.extent c.nb2 ([(d, c.items, allElems), (c.d 1, c.items, allElems)] ++ outAndE od (c.eDesc 3) c.items allElems)
  let cs := chainStores c out
  let n := c.items * d.rows
  { stores := cs.1 ++ zeroMapStore (c.pf 5 0 48) od c.items out.wrs
    chained := cs.2
    outs := [(od.tid, out.meter)]
    norms := out.norms
    staged := if od.ralias then [(2, out.staged)] else []
    conds := oobCond (0, none) figs
    spillCs := 0
    spillMem := 0
    havoc := if od.ralias then [(c.pf 6 0 48, c.pf 7 0 40)] else []
    counts := [(2, 3, n * (cdiv d.cols 256 * (abwdWaves afn + (if c.pb 1 8 then 2 else 0) + epiWaves c))), (2, 4, n * d.cols * abwdSfu afn)] }

/-! ## EPI (R214) -/

/-- One element of `EPI` by its mode: `a` as a pair, `b` or σ, and the pair in place of `OUT`. -/
def epiOne (mode : Nat) (a : Pair) (b : F32) (out : Pair) : Pair :=
  match mode with
  | 0 => fusedAdd a b
  | 1 => fusedMul a b
  | 2 => fusedMul a b
  | _ => pairAdd out a

/-- The run of `EPI`. -/
def epiRun (s : State) (c : Cmd) : RunRes :=
  let m := viewOf s c
  let d := c.d 0
  let mode := c.pf 1 16 2
  let op := if mode ≤ 1 then 2 else 1
  let od := c.d op
  let cc := (s.conf.job c.job).cores.length
  let one := fun i r col =>
    epiOne mode (d.pair m s.extent c.nb2 i r col) (if mode ≤ 1 then (c.d 1).f32 m s.extent c.nb2 i r col else c.fa)
      (if mode = 3 then od.pair m s.extent c.nb2 i r col else Pair.zero)
  let out := drain od s.extent (outMode s c od c.nb2 (c.pb 1 9)) (keptRes s c .out ((List.range cc).map (fun rank =>
    (rowShare c.items d.rows rank cc).flatMap (fun u => (List.range d.cols).map (fun col => ⟨u.1, u.2, col, one u.1 u.2 col⟩)))))
  let figs := oobDescs s.extent c.nb2 ([(d, c.items, allElems)] ++ (if mode ≤ 1 then [(c.d 1, c.items, allElems)] else []) ++
    [(od, c.items, allElems)])
  let cs := chainStores c out
  { stores := cs.1 ++ zeroMapStore (c.pf 5 0 48) od c.items out.wrs
    chained := cs.2
    outs := [(od.tid, out.meter)]
    norms := out.norms
    staged := if od.ralias then [(op, out.staged)] else []
    conds := oobCond (0, none) figs
    spillCs := 0
    spillMem := 0
    havoc := if od.ralias then [(c.pf 6 0 48, c.pf 7 0 40)] else []
    counts := [(2, 3, c.items * d.rows * (cdiv d.cols 256 * [8, 6, 6, 14].getD mode 0))] }

/-- `NBWD` (R201-R203). -/
def execNbwd (q : Nat) (s : State) : Host.Outcome State Fault Refusal :=
  onQueue q (runOp s q 0x20 (fun c => slotTids [c.d (nbOut c)]) nbwdRun)

/-- `SBWD` (R204, R205). -/
def execSbwd (q : Nat) (s : State) : Host.Outcome State Fault Refusal :=
  onQueue q (runOp s q 0x21 (fun c => slotTids [c.d (sbOut c)]) sbwdRun)

/-- `ABWD` (R206-R210). -/
def execAbwd (q : Nat) (s : State) : Host.Outcome State Fault Refusal := onQueue q (runOp s q 0x22 (fun c => slotTids [c.d 2]) abwdRun)

/-- `EPI` (R214). -/
def execEpi (q : Nat) (s : State) : Host.Outcome State Fault Refusal :=
  onQueue q (runOp s q 0x28 (fun c => slotTids [c.d (if c.pf 1 16 2 ≤ 1 then 2 else 1)]) epiRun)

end Sys2Proof.Machine
end

