-- ==== Sys2Proof/Machine/Sparse.lean ====
section
/-!
DEFINITION. Embedding and expert gradients (09): `XGRAD` (R237-R243), `EMBG` and its phases (R221-R231), the spill pool and `MERGE`
(R233-R237, R437).
-/
namespace Sys2Proof.Machine

/-! ## XGRAD -/

/-- Token of slot i of expert e, signed. -/
def xToken (s : State) (m : Memory) (c : Cmd) (e i : Nat) : Int := sext 32 (sendWord s m c (8 * c.xE + 4 * (xStart s m c e + i)))

/-- First global row of the local piece. -/
def firstRow (d : Desc) : Nat := if d.loc then d.row0 else 0

/-- Rows that a list's coordinates may name: the global ones of a local piece (R179, R228). -/
def globalRows (d : Desc) : Nat := if d.loc then d.grows else d.rows

/-- Whether a token names a row of X (R240; of a local piece, a global row: R179). -/
def tokenIn (d : Desc) (t : Int) : Bool := decide (0 ≤ t) && decide (t < globalRows d)

/-- Whether a token's row lies in memory here: in range and, of a local piece, not foreign (R179). -/
def tokenHere (d : Desc) (t : Int) : Bool := tokenIn d t && decide (firstRow d ≤ t.toNat) && decide (t.toNat < firstRow d + d.rows)

/-- Element of X for a token; an out-of-range or foreign token reads `FILL` (R240, R179). -/
def xNum (s : State) (m : Memory) (d : Desc) (t : Int) (col : Nat) : Num :=
  if tokenHere d t then d.num m s.extent 1 0 (t.toNat - firstRow d) col else d.fillNum m s.extent (t - firstRow d) col

/-- dX element of slot i, input `row` of expert e (R239). -/
def xDx (s : State) (m : Memory) (c : Cmd) (e i row : Nat) : Pair :=
  let dy := c.d 1
  let w := c.d 2
  elemPair 0 4 dy.cols (c.lp.gpBf * 128)
    (fun hi k => denseWave (fun f => (w.num m s.extent c.xE e row f).mul (dy.num m s.extent 1 0 (e * c.xCap + i) f)) hi k) Pair.zero

/-- Part of a dW element over slots [lo, lo + n) of expert e (R239, R243). -/
def xPart (s : State) (m : Memory) (c : Cmd) (e row f lo n : Nat) (start : Pair) : Pair :=
  elemPair 0 4 n (c.lp.gpBt * 128)
    (fun hi k => denseWave (fun i => (xNum s m (c.d 0) (xToken s m c e (lo + i)) row).mul
      ((c.d 1).num m s.extent 1 0 (e * c.xCap + lo + i) f)) hi k) start

/-- dW element (row, f) of expert e: one range, or its parts combined over the fixed tree (R239, R243). -/
def xDw (s : State) (m : Memory) (c : Cmd) (e row f : Nat) : Pair :=
  let t := xTokens s m c e
  let th := xTheta (c.d 0)
  let dw := c.d 4
  let start := dw.pair m s.extent c.xE e row f
  if t ≤ th then xPart s m c e row f 0 t start
  else ftree pairAdd Pair.zero ((List.range (cdiv t th)).map (fun j =>
    xPart s m c e row f (j * th) (if t - j * th < th then t - j * th else th) (if j = 0 then start else Pair.zero)))

/-- dW positions of one rank's bands in drain order: feature blocks, bands, tiles, row-major (R101, R44). -/
def xOrder (c : Cmd) (bands : List Nat) : List (Nat × Nat) :=
  let feats := (c.d 1).cols
  let ins := (c.d 0).cols
  let nw := c.lp.gpBf
  (List.range (cdiv feats (nw * 128))).flatMap (fun fb => bands.flatMap (fun g => (rangeFrom (fb * nw) nw).flatMap (fun tile =>
    ((rangeFrom (32 * g) 32).filter (· < ins)).flatMap (fun i => ((rangeFrom (tile * 128) 128).filter (· < feats)).map (fun j => (i, j))))))

/-- Evictions of one rank for one range of `tokens` slots: all dX tiles of a block, then all dW tiles (R239). -/
def xEvictions (l : LoopDesc) (tokens feats : Nat) (bands : List Nat) (st : Slots × Nat × Nat) : Slots × Nat × Nat :=
  let bt := l.gpBt * 128
  let bf := l.gpBf * 128
  let ntb := cdiv tokens bt
  let nfb := cdiv feats bf
  (positions ntb nfb).foldl (fun st v =>
    let nx := cdiv (if tokens - v.1 * bt < bt then tokens - v.1 * bt else bt) 128
    let nw := cdiv (if feats - v.2 * bf < bf then feats - v.2 * bf else bf) 128
    let st := (bands.flatMap (fun g => (List.range nx).map (fun j => (0, g, v.1 * l.gpBt + j)))).foldl (fun st key =>
      if v.2 + 1 = nfb then freeTile st key else parkTile l.spillCs st key) st
    (bands.flatMap (fun g => (List.range nw).map (fun j => (1, g, v.2 * l.gpBf + j)))).foldl (fun st key =>
      if v.1 + 1 = ntb then freeTile st key else parkTile l.spillCs st key) st) st

/-- Out-of-range list positions of expert e: slots beyond `CAP`, and tokens outside X (R240). -/
def xOob (s : State) (m : Memory) (c : Cmd) (e : Nat) : List Nat :=
  (List.range (xCount s m c e)).filterMap (fun i =>
    if c.xCap ≤ i || !tokenIn (c.d 0) (xToken s m c e i) then some (xStart s m c e + i) else none)

/-- Token positions of expert e that name a row of X which lies partly outside the die's memory: the list drives that access too (R176). -/
def xFar (s : State) (m : Memory) (c : Cmd) (e : Nat) : List Nat :=
  let d := c.d 0
  (List.range (xTokens s m c e)).filterMap (fun i =>
    let t := xToken s m c e i
    if tokenHere d t && (List.range d.cols).any (fun col => d.oob s.extent 1 0 (t.toNat - firstRow d) col) then some (xStart s m c e + i) else none)

/-- Whether row `r` of X is read by an expert. -/
def xReads (s : State) (m : Memory) (c : Cmd) (e r : Nat) : Bool :=
  (List.range (xTokens s m c e)).any (fun i => xToken s m c e i == ((firstRow (c.d 0) + r : Nat) : Int))

/-- Foreign elements that expert e reads: a row of X for each of its tokens outside the local piece (R179). -/
def xForeign (s : State) (m : Memory) (c : Cmd) (e : Nat) : Nat :=
  ((List.range (xTokens s m c e)).filter (fun i => let t := xToken s m c e i; tokenIn (c.d 0) t && !tokenHere (c.d 0) t)).length * (c.d 0).cols

/-- The elements of descriptor position k that expert e accesses. -/
def xUses (s : State) (m : Memory) (c : Cmd) (k e : Nat) (i r : Nat) : Bool :=
  let t := xTokens s m c e
  match k with
  | 0 => xReads s m c e r
  | 1 => decide (e * c.xCap ≤ r) && decide (r < e * c.xCap + t)
  | 3 => decide (e * c.xCap ≤ r) && decide (r < e * c.xCap + t)
  | _ => i == e && t != 0

/-- Whether an expert meets an out-of-range condition. -/
def xBad (s : State) (m : Memory) (c : Cmd) (e : Nat) : Bool :=
  !(xOob s m c e).isEmpty || (List.range 5).any (fun k =>
    ((c.d k).oobCount s.extent c.xE (if k = 2 ∨ k = 4 then c.xE else 1) (fun i r _ => xUses s m c k e i r)).1 != 0)

/-- Waves that the arrays skip for expert e on one band of 32 inputs: its dX tiles, then the dW tiles of each of its parts (R239, R243, R244). -/
def xSkipped (s : State) (m : Memory) (c : Cmd) (e g : Nat) : Nat :=
  let feats := (c.d 1).cols
  let t := xTokens s m c e
  let th := xTheta (c.d 0)
  let band := (rangeFrom (32 * g) 32).filter (· < (c.d 0).cols)
  let w := fun i f => (c.d 2).num m s.extent c.xE e i f
  let dy := fun lo i f => (c.d 1).num m s.extent 1 0 (e * c.xCap + lo + i) f
  ((List.range (cdiv t th)).map (fun p =>
    let lo := p * th
    let n := if t - lo < th then t - lo else th
    ((List.range (cdiv n 128)).map (fun j => bandSkipped band j n feats (c.lp.gpBf * 128) w (dy lo) (fun _ _ => Pair.zero) (fun _ => false))).sum +
    ((List.range (cdiv feats 128)).map (fun j => bandSkipped band j feats n (c.lp.gpBt * 128)
      (fun i k => xNum s m (c.d 0) (xToken s m c e (lo + k)) i) (fun f k => dy lo k f)
      (fun i f => if p = 0 then (c.d 4).pair m s.extent c.xE e i f else Pair.zero) (fun _ => false))).sum)).sum

/-- The run of `XGRAD`. -/
def xgradRun (s : State) (c : Cmd) : RunRes :=
  let m := viewOf s c
  let l := c.lp
  let ex := List.range c.xE
  let ins := (c.d 0).cols
  let feats := (c.d 1).cols
  let dxd := c.d 3
  let dwd := c.d 4
  let cc := (s.conf.job c.job).cores.length
  let bands := (List.range cc).map (fun k => let sh := share k (cdiv ins 32) cc; rangeFrom sh.1 (sh.2 - sh.1))
  let live := ex.filter (fun e => xTokens s m c e != 0)
  let dx := drain dxd s.extent (outMode s c dxd 1 (c.pb 0 38)) (keptRes s c .dxd (bands.map (fun bs => live.flatMap (fun e =>
    (List.range (xTokens s m c e)).flatMap (fun i => bs.flatMap (fun g => ((rangeFrom (32 * g) 32).filter (· < ins)).map (fun row =>
      ⟨0, e * c.xCap + i, row, xDx s m c e i row⟩)))))))
  let dwOf := fun (bs : List Nat) e => (xOrder c bs).map (fun p => (⟨e, p.1, p.2, xDw s m c e p.1 p.2⟩ : Res))
  let mode := outMode s c dwd c.xE false
  let dw := drain dwd s.extent mode (keptRes s c .dw (bands.map (fun bs => live.flatMap (dwOf bs))))
  let perExpert := fun e => if xTokens s m c e = 0 then Pair.zero
    else ftree pairAdd Pair.zero (drain { dwd with ralias := false } s.extent mode (keptRes s c .dw (bands.map (fun bs => dwOf bs e)))).norms
  let empties := c.xE - live.length
  let split := (live.filter (fun e => xTheta (c.d 0) < xTokens s m c e)).length
  let ev := bands.map (fun bs => (live.foldl (fun st e =>
    let t := xTokens s m c e
    let th := xTheta (c.d 0)
    (List.range (cdiv t th)).foldl (fun st j => xEvictions l (if t - j * th < th then t - j * th else th) feats bs st) st)
    (([], 0, 0) : Slots × Nat × Nat)).2)
  let mem := (ev.map (·.2)).sum
  let lists := ex.flatMap (xOob s m c)
  let figs := (List.range 5).map (fun k => (c.d k).oobCount s.extent c.xE (if k = 2 ∨ k = 4 then c.xE else 1)
    (fun i r _ => live.any (fun e => xUses s m c k e i r)))
  let status := fun e => if (positions ins feats).any (fun x => !reached s c .dw (e, x.1, x.2)) then 0x31 else if xCount s m c e = 0 then 1 else if xBad s m c e then 0x10 else 0
  let cs := chainStores c dx
  { stores := cs.1 ++ dw.stores ++
      (if c.pf 4 0 48 = 0 then [] else ex.map (fun e => .bytes (c.pf 4 0 48 + e) [BitVec.ofNat 8 (status e)])) ++
      (if c.pf 5 0 48 = 0 then [] else ex.map (fun e => .bytes (c.pf 5 0 48 + 8 * e) (pairBytes (perExpert e))))
    chained := cs.2
    outs := [(dxd.tid, dx.meter), (dwd.tid, dw.meter)]
    norms := dw.norms
    staged := (if dxd.ralias then [(3, dx.staged)] else []) ++ if dwd.ralias then [(4, dw.staged)] else []
    conds := oobCond (lists.length, (lists ++ ex.flatMap (xFar s m c)).foldl (fun a p => minOpt a (some p)) none) figs ++
      if empties = 0 then [] else [⟨0x01, 0, empties⟩]
    spillCs := (ev.map (·.1)).sum
    spillMem := mem
    havoc := if mem = 0 ∧ split = 0 ∧ dxd.ralias = false ∧ dwd.ralias = false then [] else [(c.pf 2 0 48, c.pf 3 0 40)]
    counts := [(3, 5, empties), (3, 6, split), (1, 2, (live.map (xForeign s m c)).sum),
      (3, 7, (bands.flatten.map (fun g => (live.map (fun e => xSkipped s m c e g)).sum)).sum)]
    wr := 8 * ins * feats * (live.map (fun e => let p := cdiv (xTokens s m c e) (xTheta (c.d 0)); if p ≤ 1 then 0 else p)).sum }

/-- `XGRAD` (R237-R243). -/
def execXgrad (q : Nat) (s : State) : Host.Outcome State Fault Refusal := onQueue q (runOp s q 0x31 (fun c => slotTids [c.d 3]) xgradRun)

/-! ## The hash accumulator and the spill pool -/

/-- Sets of the accumulator for an HSIZE code (Table 9.2). -/
def hashSets (code : Nat) : Nat := 2048 <<< code

/-- Whether a global row lies in the local piece. -/
def rowLocal (d : Desc) (row : Nat) : Bool := decide (firstRow d ≤ row) && decide (row < firstRow d + d.rows)

/-- The index at a list position; none where its bytes do not all lie in the die's memory (R228). -/
def idxAt (s : State) (c : Cmd) (p : Nat) : Option Int :=
  let a := c.pf 1 0 48 + 4 * p
  if inDie s.extent a 4 then some (sext 32 (s.mem.le a 4)) else none

/-- Whether an index names a row of the table. -/
def idxIn (d : Desc) : Option Int → Bool
  | some v => decide (0 ≤ v) && decide (v < globalRows d)
  | none => false

/-- The runs of an index list (R226, R228) from position p on: head, length, value; a position without a value is a run of its own. -/
def runsFrom (p : Nat) : List (Option Int) → List (Nat × Nat × Option Int)
  | [] => []
  | v :: r => match runsFrom (p + 1) r with
    | (h, n, w) :: rest => if v.isSome && v == w then (p, n + 1, v) :: rest else (p, 1, v) :: (h, n, w) :: rest
    | [] => [(p, 1, v)]

/-- All runs of an `EMBG`. -/
def embgRuns (s : State) (c : Cmd) : List (Nat × Nat × Option Int) := runsFrom 0 ((List.range (c.pf 0 0 32)).map (idxAt s c))

/-- The buckets by owner rank: in-range runs of local rows, heads ascending (Table 9.4). -/
def buckets (s : State) (c : Cmd) (cc : Nat) : List (List Run) :=
  let d := c.d 0
  let runs := (embgRuns s c).filterMap (fun x => match x.2.2 with
    | some v => if idxIn d (some v) && rowLocal d v.toNat then some (⟨x.1, x.2.1, v.toNat⟩ : Run) else none
    | none => none)
  (List.range cc).map (fun o => runs.filter (fun r => owner r.row cc == o))

/-- The folded segment of a run (R226). -/
def runFold (s : State) (c : Cmd) (r : Run) (g : Nat) : List Pair :=
  let d := c.d 1
  (List.range 64).map (fun i =>
    let x := fun q => d.f32 s.mem s.extent 1 0 q (64 * g + i)
    (rangeFrom (r.head + 1) (r.len - 1)).foldl (fun f q => pairAdd f ⟨x q, 0⟩) ⟨x r.head, 0⟩)

/-- The segment (global row, g) of a table in memory. -/
def tabSegment (m : Memory) (ext : Nat) (d : Desc) (row g : Nat) : List Pair :=
  (List.range 64).map (fun i => d.pair m ext 1 0 (row - firstRow d) (64 * g + i))

/-- The stores of a segment, out-of-range elements dropped, as normalised pairs; and what is measured of them. -/
def segWrites (ext : Nat) (d : Desc) (row g : Nat) (ps : List Pair) : List Wr :=
  ((ps.zipIdx.map (fun p => (⟨0, row - firstRow d, 64 * g + p.2, p.1⟩ : Res))).filter (fun x => !d.oob ext 1 x.i x.r x.c)).map
    (writeOne d ⟨1, 0, false, 0, 0⟩)

/-- Stores of written elements. -/
def wrStores (d : Desc) (nb2 : Nat) (ws : List Wr) : List Store := ws.map (fun w => d.store nb2 w.res.i w.res.r w.res.c w.raw)

/-- Address of chunk k of a pool (R233). -/
def chunkAddr (pool k : Nat) : Nat := pool + 65536 * k

/-- The header of a fresh pool (Table 9.5): TAB copy, flag clear, owner count, allocation pointer 1, no chains. -/
def poolInit (pool : Nat) (tab : Desc) (cc : Nat) : List Store :=
  [.bytes pool (leBytes 64 (descWord tab)), .bytes (pool + 64) (leBytes 8 (2 * cc)), .bytes (pool + 72) (leBytes 8 1)] ++
    (List.range cc).map (fun o => .bytes (pool + 1024 + 16 * o) (leBytes 16 0))

/-- The flag word of a pool header with its open flag. -/
def poolFlag (pool cc : Nat) (isOpen : Bool) : Store := .bytes (pool + 64) (leBytes 8 (2 * cc + b2n isOpen))

/-- The bytes of a spill record (Table 9.5). -/
def recordBytes (row g head len : Nat) (ps : List Pair) : List Byte :=
  leBytes 4 row ++ leBytes 2 g ++ leBytes 2 0 ++ leBytes 4 head ++ leBytes 4 len ++ ps.flatMap pairBytes

/-- An accumulate phase under way: ways given, memory with the records appended, next free chunk, per owner its last chunk and how many
records that holds, and the counters. -/
structure AccSt where
  ways : List HWay
  mem : Memory
  alloc : Nat
  tails : List (Nat × Nat)
  nAlloc : Nat
  nAdd : Nat
  nFold : Nat
  nSpill : Nat
  deriving DecidableEq, Repr

/-- Appends a spill record to an owner's chain, taking a chunk when it has none with room (R233). -/
def appendRecord (ext pool o : Nat) (row g head len : Nat) (ps : List Pair) (a : AccSt) : AccSt :=
  let t := a.tails.getD o (0, 0)
  let fresh := t.1 = 0 ∨ t.2 = 124
  let chunk := if fresh then chunkAddr pool a.alloc else t.1
  let n := if fresh then 0 else t.2
  let link := if t.1 = 0 then pool + 1024 + 16 * o else t.1
  let ws : List Store := (if fresh then [.bytes chunk (leBytes 64 0), .bytes link (leBytes 8 chunk), .bytes (pool + 72) (leBytes 8 (a.alloc + 1))] else []) ++
    [.bytes (chunk + 64 + 528 * n) (recordBytes row g head len ps), .bytes (chunk + 8) (leBytes 4 (n + 1))]
  { a with mem := a.mem.dieStores ext ws, alloc := if fresh then a.alloc + 1 else a.alloc, tails := a.tails.set o (chunk, n + 1)
           nSpill := a.nSpill + 1 }

/-- One contribution: into the key's slot, a fresh slot, or the spill pool when the set is full (R224, Table 9.4). Slots are not freed before
the flush, so a key that found its set full never becomes resident. -/
def contribute (s : State) (c : Cmd) (cc o : Nat) (r : Run) (g : Nat) (a : AccSt) : AccSt :=
  let f := runFold s c r g
  let a := { a with nFold := a.nFold + (r.len - 1) }
  let set := hset r.row g cc (hashSets s.conf.hsize)
  if a.ways.any (fun w => w.row == r.row && w.seg == g) then
    { a with ways := a.ways.map (fun w => if w.row = r.row ∧ w.seg = g then { w with pairs := List.zipWith pairAdd w.pairs f } else w)
             nAdd := a.nAdd + 1 }
  else if (a.ways.filter (fun w => w.set == set)).length < 8 then
    { a with ways := a.ways ++ [⟨set, r.row, g, List.zipWith pairAdd (tabSegment s.mem s.extent (c.d 0) r.row g) f⟩]
             nAlloc := a.nAlloc + 1, nAdd := a.nAdd + 1 }
  else appendRecord s.extent (c.pf 2 0 48) o r.row g r.head r.len f a

/-- The contributions of a bucket in order: runs by head, segments ascending. -/
def bucketWork (segs : Nat) (b : List Run) : List (Run × Nat) := b.flatMap (fun r => (List.range segs).map (fun g => (r, g)))

/-- The accumulate phase: at each turn one hash unit with work left acts (log 21). -/
def accumulate (s : State) (c : Cmd) (cc : Nat) : Nat → List (Nat × List (Run × Nat)) → AccSt → AccSt
  | 0, _, a => a
  | n + 1, work, a =>
    let live := work.filter (fun w => !w.2.isEmpty)
    match live[Config.hashTurn s.free n % live.length]? with
    | some (o, (r, g) :: _) =>
      accumulate s c cc n (live.map (fun w => if w.1 = o then (w.1, w.2.tail) else w)) (contribute s c cc o r g a)
    | _ => a

/-- A measurement joined to what the command has measured of its output with tensor ID `tid` so far. -/
def Cmd.addMeter (c : Cmd) (tid : Nat) (m : Meter) : Cmd :=
  let old : Meter := ⟨(c.amaxOut.map (·.2)).headD 0, (c.exc.map (·.inf)).getD none, (c.exc.map (·.nan)).getD none⟩
  let j := old.join m
  { c with amaxOut := [(tid, j.amax)], infF := j.inf.isSome, nanF := j.nan.isSome, exc := excOf [j] }

/-! ## MERGE (R235, R437) -/

/-- The chunks of an owner's chain, as address and record count, and whether the chain is faulty (R437). -/
def chainChunks (m : Memory) (ext pool alloc : Nat) : Nat → Nat → List (Nat × Nat) × Bool
  | _, 0 => ([], false)
  | 0, _ => ([], true)
  | fuel + 1, a =>
    let k := (a - pool) / 65536
    let n := dieLe m ext (a + 8) 4
    if a < pool ∨ chunkAddr pool k ≠ a ∨ k = 0 ∨ alloc ≤ k ∨ 124 < n then ([], true)
    else
      let r := chainChunks m ext pool alloc fuel (dieLe m ext a 8)
      ((a, n) :: r.1, r.2)

/-- A merge under way: memory, segments written, records folded, dropped elements with the lowest dropped position, foreign elements, chains
ended early with the lowest owner. -/
structure MergeSt where
  mem : Memory
  touched : List (Nat × Nat)
  merged : Nat
  dropped : Nat
  firstDrop : Option Nat
  foreign : Nat
  early : Nat
  firstEarly : Option Nat
  deriving DecidableEq, Repr

/-- One record at an address, number `i` of its owner's list. -/
def mergeRecord (ext : Nat) (tab : Desc) (a : Nat × Nat) (st : MergeSt) : MergeSt :=
  let row := dieLe st.mem ext a.1 4
  let g := dieLe st.mem ext (a.1 + 4) 2
  if globalRows tab ≤ row ∨ tab.cols ≤ 64 * g then
    { st with dropped := st.dropped + 64, firstDrop := minOpt st.firstDrop (some a.2) }
  else if !rowLocal tab row then { st with foreign := st.foreign + 64 }
  else
    let rec_ := (List.range 64).map (fun i => (⟨BitVec.ofNat 32 (dieLe st.mem ext (a.1 + 16 + 8 * i) 4),
      BitVec.ofNat 32 (dieLe st.mem ext (a.1 + 20 + 8 * i) 4)⟩ : Pair))
    let ps := List.zipWith pairAdd (tabSegment st.mem ext tab row g) rec_
    { st with mem := st.mem.dieStores ext (wrStores tab 1 (segWrites ext tab row g ps)), merged := st.merged + 1
              touched := if st.touched.contains (row, g) then st.touched else st.touched ++ [(row, g)] }

/-- One owner's list, from the records merged so far, and of the `n` records that are left the first `upto o n`; then its count in the header. -/
def mergeOwner (ext pool : Nat) (tab : Desc) (alloc : Nat) (upto : Nat → Nat → Nat) (st : MergeSt) (o : Nat) : MergeSt :=
  let ch := chainChunks st.mem ext pool alloc alloc (dieLe st.mem ext (pool + 1024 + 16 * o) 8)
  let done := dieLe st.mem ext (pool + 1032 + 16 * o) 8
  let recs := (ch.1.flatMap (fun x => (List.range x.2).map (fun i => x.1 + 64 + 528 * i))).zipIdx
  let now := (recs.drop done).take (upto o (recs.length - done))
  let st := now.foldl (fun st a => mergeRecord ext tab a st) st
  { st with
    mem := st.mem.dieStores ext [.bytes (pool + 1032 + 16 * o) (leBytes 8 (done + now.length))]
    early := st.early + b2n ch.2
    firstEarly := if ch.2 then minOpt st.firstEarly (some o) else st.firstEarly }

/-- What a merge measures: the final value of every element it wrote. -/
def touchedMeter (ext : Nat) (tab : Desc) (m : Memory) (l : List (Nat × Nat)) : Meter :=
  (l.flatMap (fun k => segWrites ext tab k.1 k.2 (tabSegment m ext tab k.1 k.2))).foldl (fun a w => a.add w.idx w.v) Meter.zero

/-- Out-of-range elements of the table among some segments: count and lowest index. -/
def segOob (ext : Nat) (tab : Desc) (l : List (Nat × Nat)) : Nat × Option Nat :=
  l.foldl (fun acc k => (List.range 64).foldl (fun acc i =>
    if tab.oob ext 1 0 (k.1 - firstRow tab) (64 * k.2 + i) then (acc.1 + 1, minOpt acc.2 (some (tab.index 0 (k.1 - firstRow tab) (64 * k.2 + i))))
    else acc) acc) (0, none)

/-- The fold of the lists of a pool, of each owner's as far as `upto` says. -/
def mergeLists (m : Memory) (ext pool : Nat) (upto : Nat → Nat → Nat) : MergeSt :=
  let tab := parseDesc (dieLe m ext pool 64)
  let cc := bf (dieLe m ext (pool + 64) 8) 1 7
  let alloc := dieLe m ext (pool + 72) 8
  (List.range cc).foldl (mergeOwner ext pool tab alloc upto) ⟨m, [], 0, 0, none, 0, 0, none⟩

/-- The fold of a whole pool: every owner's list; the open flag is cleared unless a chain ended early or a record was dropped (R437). -/
def mergePool (m : Memory) (ext pool : Nat) : MergeSt :=
  let st := mergeLists m ext pool (fun _ n => n)
  if st.early = 0 ∧ st.dropped = 0 then { st with mem := st.mem.dieStores ext [poolFlag pool (bf (dieLe m ext (pool + 64) 8) 1 7) false] } else st

/-- What a fold that stops midway leaves: dirty ways written back, each owner's count in the header, the flag set (R235, R231). How many records
of each owner it has folded by then is a free value (log 79). -/
def mergePart (s : State) (pool : Nat) : MergeSt :=
  mergeLists s.mem s.extent pool (fun o n => (Config.sampled s.free (64 + o)).toNat % (n + 1))

/-- The conditions of a merge (R437, R176). -/
def mergeConds (ext : Nat) (tab : Desc) (st : MergeSt) : List Cond :=
  let o := segOob ext tab st.touched
  let n := st.early + st.dropped + o.1
  if n = 0 then [] else [⟨0x10, (match st.firstEarly with
    | some x => x
    | none => (match st.firstDrop with
      | some x => x
      | none => o.2.getD 0)), n⟩]

/-- Opens or closes a pool in a job's list of open pools (R236). -/
def setPool (jobs : List Job) (j pool : Nat) (isOpen : Bool) : List Job :=
  if isOpen then jobs.modify j (fun b => { b with pools := b.pools.filter (· != pool) ++ [pool] })
  else jobs.map (fun b => { b with pools := b.pools.filter (· != pool) })

/-- Whether a command has come into the in-flight tile table before another. -/
def entersBefore (s : State) (a b : Cmd) : Bool := decide (s.q.itt.findIdx (·.isOf a) < s.q.itt.findIdx (·.isOf b))

/-- Whether no other command that may start waits longer for the accumulator: those that wait take it in admission order (R222). -/
def hashFirst (s : State) (c : Cmd) : Bool :=
  !s.q.cmds.any (fun d => (d.op == 0x30 || d.op == 0x32) && d.stage == .admitted && mayStart s d && entersBefore s d c)

/-- The `EMBG` or `MERGE` of queue `q` that takes the free accumulator. -/
def hashStartable (s : State) (q op : Nat) : Option Cmd :=
  match s.hash.holder with
  | none => (startable s q op).filter (hashFirst s)
  | some _ => none

/-- The started `EMBG` (0x30) or `MERGE` (0x32) of a queue that can go on: in `HUNG` no instruction is issued (R319), and a
hold of a domain that it uses stops it (R389, R392). -/
def hashRunning (s : State) (q op : Nat) : Option Cmd :=
  if s.fw.state = .hung then none else s.q.cmds.find? (fun c => c.qid == q && c.op == op && c.stage == .started && powered s c)

/-- A `MERGE` starts: a pool that is not open leaves everything as it is; otherwise the command takes the accumulator. -/
def mergeStart (s : State) (c : Cmd) : State :=
  let s := beginCmd s c
  let pool := c.pf 2 0 48
  if !bit (dieLe s.mem s.extent (pool + 64) 8) 0 then
    { s with
      q := s.q.updCmd (fun d => d.same c) (fun d => { d with stage := .ended })
      conf := { s.conf with jobs := setPool s.conf.jobs c.job pool false } }
  else
    { s with
      hash := ⟨some (c.qid, c.seq), []⟩
      q := s.q.updCmd (fun d => d.same c) (fun d => { d with stage := .started, units := 0 }) }

/-- The fold of a `MERGE` that has started (R235, R437). -/
def mergeFold (s : State) (c : Cmd) : State :=
  let pool := c.pf 2 0 48
  let tab := parseDesc (dieLe s.mem s.extent pool 64)
  let st := mergePool s.mem s.extent pool
  let t := usedCores s c.job [(3, 4, st.merged)]
  if !(metWords s c.job).isEmpty then { failRun s c (metWords s c.job) with hash := ⟨none, []⟩ } else
  { t with
    mem := st.mem
    hash := ⟨none, []⟩
    q := (s.q.updCmd (fun d => d.same c) (fun d => { d.addMeter tab.tid (touchedMeter s.extent tab st.mem st.touched) with
      stage := .ended, conds := d.conds ++ mergeConds s.extent tab st })).upd c.qid (fun x => { x with
        cnt := x.cnt.bumps ([(3, 4, st.merged), (1, 2, st.foreign)] ++ expansionCounts s) })
    free := t.free + 1
    conf := { s.conf with jobs := if st.early = 0 ∧ st.dropped = 0 then setPool s.conf.jobs c.job pool false else s.conf.jobs } }

/-- `MERGE`: the row starts the queue's next `MERGE`, and the row after it folds; what comes between can stop it midway (R235, log 79). -/
def mergeStep (s : State) (q : Nat) : State :=
  match hashRunning s q 0x32 with
  | some c => mergeFold s c
  | none => match hashStartable s q 0x32 with
    | some c => mergeStart s c
    | none => s

def execMerge (q : Nat) (s : State) : Host.Outcome State Fault Refusal := onQueue q (mergeStep s q)

/-! ## EMBG -/

/-- `EMBG` takes the accumulator when no other command holds it (R222); its phases follow as `EMBG_PHASE`. -/
def embgStart (s : State) (q : Nat) : State :=
  match hashStartable s q 0x30 with
  | some c =>
    let s := beginCmd s c
    { s with
      hash := ⟨some (c.qid, c.seq), []⟩
      q := s.q.updCmd (fun d => d.same c) (fun d => { d with stage := .started, units := 0 }) }
  | none => s

def execEmbg (q : Nat) (s : State) : Host.Outcome State Fault Refusal := onQueue q (embgStart s q)

/-- The sort phase: buckets by owner, a fresh pool header (a pool that stood open there is open no longer), and what is out of range or foreign
(R226-R228). The list drives the accesses to `TAB`, so the lowest position is that of an index out of range or of a row outside the die's memory
(R176). -/
def embgSort (s : State) (c : Cmd) (cc : Nat) : State :=
  let tab := c.d 0
  let grad := c.d 1
  let idx := (List.range (c.pf 0 0 32)).map (idxAt s c)
  let bad := (idx.zipIdx.filter (fun x => !idxIn tab x.1)).map (·.2)
  let foreign := (idx.filter (fun x => idxIn tab x && !rowLocal tab (x.getD 0).toNat)).length
  let rows := idx.filterMap (fun x => if idxIn tab x && rowLocal tab (x.getD 0).toNat then some ((x.getD 0).toNat - firstRow tab) else none)
  let far := (idx.zipIdx.filter (fun x => idxIn tab x.1 && rowLocal tab (x.1.getD 0).toNat &&
    (List.range tab.cols).any (fun col => tab.oob s.extent 1 0 ((x.1.getD 0).toNat - firstRow tab) col))).map (·.2)
  let figs := [tab.oobCount s.extent 1 1 (fun _ r _ => rows.contains r), grad.oobCount s.extent 1 1 (fun _ r _ => (idx.getD r none).isSome)]
  { s with
    mem := s.mem.dieStores s.extent (poolInit (c.pf 2 0 48) tab cc)
    q := (s.q.updCmd (fun d => d.same c) (fun d => { d with
      units := 1, runs := buckets s c cc, conds := d.conds ++ oobCond (bad.length * tab.cols, minOpt bad.head? far.head?) figs })).upd c.qid
        (fun x => { x with cnt := x.cnt.bumps [(1, 2, foreign * tab.cols)] })
    conf := { s.conf with jobs := setPool s.conf.jobs c.job (c.pf 2 0 48) false } }

/-- The accumulate phase. -/
def embgAccumulate (s : State) (c : Cmd) (cc : Nat) : State :=
  let segs := (c.d 0).cols / 64
  let work := c.runs.zipIdx.map (fun b => (b.2, bucketWork segs b.1))
  let a := accumulate s c cc (work.map (fun w => w.2.length)).sum work ⟨[], s.mem, 1, List.replicate cc (0, 0), 0, 0, 0, 0⟩
  let t := usedCores s c.job [(3, 0, a.nAlloc), (3, 1, a.nAdd), (3, 2, a.nFold), (3, 3, a.nSpill)]
  if !(metWords s c.job).isEmpty then { failRun s c (metWords s c.job) with hash := ⟨none, []⟩ } else
  { t with
    mem := a.mem
    hash := { s.hash with ways := a.ways }
    q := (s.q.updCmd (fun d => d.same c) (fun d => { d with units := 2 })).upd c.qid
      (fun x => { x with cnt := x.cnt.bumps ([(3, 0, a.nAlloc), (3, 1, a.nAdd), (3, 2, a.nFold), (3, 3, a.nSpill)] ++ expansionCounts s) })
    free := t.free + 1 }

/-- The flush phase: every valid slot to its segment; the pool stays open under `MDEFER` and the command ends (R231, R234, R236). -/
def embgFlush (s : State) (c : Cmd) (cc : Nat) : State :=
  let tab := c.d 0
  let defer := c.pb 0 32
  let ws := s.hash.ways.flatMap (fun w => segWrites s.extent tab w.row w.seg w.pairs)
  let pool := c.pf 2 0 48
  { s with
    mem := s.mem.dieStores s.extent (wrStores tab 1 ws ++ [poolFlag pool cc defer])
    hash := ⟨if defer then none else s.hash.holder, []⟩
    q := s.q.updCmd (fun d => d.same c) (fun d => { d.addMeter tab.tid (ws.foldl (fun m w => m.add w.idx w.v) Meter.zero) with
      units := 3, stage := if defer then .ended else .started })
    conf := { s.conf with jobs := if defer then setPool s.conf.jobs c.job pool true else s.conf.jobs } }

/-- The merge phase of an `EMBG` without `MDEFER`, as `MERGE` on the pool (Table 9.4). -/
def embgMerge (s : State) (c : Cmd) : State :=
  let tab := c.d 0
  let st := mergePool s.mem s.extent (c.pf 2 0 48)
  { s with
    mem := st.mem
    hash := ⟨none, []⟩
    q := (s.q.updCmd (fun d => d.same c) (fun d => { d.addMeter tab.tid (touchedMeter s.extent tab st.mem st.touched) with
      units := 4, stage := .ended
      conds := d.conds ++ if st.early + st.dropped = 0 then [] else mergeConds s.extent tab { st with touched := [] } })).upd c.qid
        (fun x => { x with cnt := x.cnt.bumps [(3, 4, st.merged), (1, 2, st.foreign)] }) }

/-- `EMBG_PHASE` (R227): the next of sort, accumulate, flush and merge of the queue's `EMBG`. -/
def embgPhaseStep (s : State) (q : Nat) : State :=
  match hashRunning s q 0x30 with
  | some c =>
    let cc := (s.conf.job c.job).cores.length
    match c.units with
    | 0 => embgSort s c cc
    | 1 => embgAccumulate s c cc
    | 2 => embgFlush s c cc
    | _ => embgMerge s c
  | none => s

def execEmbgPhase (q : Nat) (s : State) : Host.Outcome State Fault Refusal := onQueue q (embgPhaseStep s q)

end Sys2Proof.Machine
end

