-- ==== Sys2Proof/Machine/Lens.lean ====
section
/-!
DEFINITION. The Lens and data movement (07, R273, R274): what the units of `LENS`, `PRUNE` and the alias fold pass (R174) do, who has the central stage's
next turn, `COPY` and `FILL`. The turns themselves are in Central.lean.
-/
namespace Sys2Proof.Machine

/-! ## Conversion (R180, R181) -/

/-- Whether a value is replaced by the largest finite value of its sign (Table 7.2). -/
def Fmt.saturates (f : Fmt) : Num → Bool
  | .inf _ => f.sat
  | .fin _ m e =>
    if m = 0 then false
    else
      let q := f.quantum ((Nat.log2 m : Nat) + e)
      f.sat && decide (f.maxFinite < f.encMag q (if e ≥ q then m <<< (e - q).toNat else rneShift m (q - e).toNat))
  | .nan => false

/-- m of R181. -/
def blockM (fmt : Nat) : Int := if fmt = 2 then 8 else if fmt = 3 then 15 else 2

/-- The scale byte of a block whose finite elements have these values, already times 2^t (R181). -/
def blockByte (fmt : Nat) (ys : List Num) : Nat :=
  let a := (ys.filter Num.finite).foldl (fun (a : Num) y => if a.lt y.abs then y.abs else a) (.zero false)
  if a.isZero then 127
  else
    let b := a.expo - blockM fmt + 127
    if b < 0 then 0 else if 254 < b then 254 else b.toNat

/-- The block of an element (R182): item, row part, column part. -/
def Desc.block (d : Desc) (x : Res) : Nat × Nat × Nat := if d.kdir then (x.i, x.r / 32, x.c) else (x.i, x.r, x.c / 32)

/-- Address of an element's scale byte. -/
def Desc.scaleAddr (d : Desc) (r c : Nat) : Int :=
  if d.kdir then d.scBase + (r / 32 : Nat) * d.scStride + c else d.scBase + r * d.scStride + (c / 32 : Nat)

/-- What the central stage writes of some elements: stores (scale bytes first), written elements, saturations, NaNs lost. -/
structure Emit where
  stores : List Store
  wrs : List Wr
  sat : Nat
  lost : Nat
  deriving DecidableEq, Repr

/-- Conversion of elements with their exact values into a `LENS` or `PRUNE` destination under scale t: the scale byte of each block from the
elements given, then each element; out-of-range elements are dropped (R180, R181, R176). A PAIR is written as its normalised pair. A scale
byte comes from the elements of its block that the unit writes, since the manual is silent on those a scatter leaves (DESIGN CHOICE, log 81). -/
def emit (ext : Nat) (d : Desc) (nb2 : Nat) (t : Int) (es : List (Res × Num)) : Emit :=
  let byte := fun (x : Res) => if d.bsc then blockByte d.fmt ((es.filter (fun e => d.block e.1 == d.block x)).map (fun e => e.2.scale t)) else 127
  let kept := es.filter (fun e => !d.oob ext nb2 e.1.i e.1.r e.1.c)
  let y := fun (e : Res × Num) => (e.2.scale t).scale (127 - (byte e.1 : Int))
  let wrs := kept.map (fun e =>
    let raw := if d.fmt = 9 then convert 9 0 none e.1.pair else (fmtOf d.fmt).rne (y e)
    (⟨e.1, d.index e.1.i e.1.r e.1.c, raw, written d.fmt t (byte e.1) raw⟩ : Wr))
  { stores := (if d.bsc then (kept.filter (fun e => inside ext (d.scaleAddr e.1.r e.1.c) 1)).map (fun e =>
      .bytes (d.scaleAddr e.1.r e.1.c).toNat [BitVec.ofNat 8 (byte e.1)]) else []) ++ wrStores d nb2 wrs
    wrs := wrs
    sat := (kept.filter (fun e => d.fmt ≠ 9 ∧ (fmtOf d.fmt).saturates (y e) = true)).length
    lost := (kept.filter (fun e => d.fmt = 4 ∧ e.2 = .nan)).length }

/-! ## LENS: where an element comes from (R187-R189) -/

def Cmd.lmode (c : Cmd) : Nat := c.pf 0 0 2
def Cmd.llen (c : Cmd) : Nat := c.pf 0 32 32
def Cmd.lnb1 (c : Cmd) : Nat := c.pf 1 0 32
def Cmd.lnb2 (c : Cmd) : Nat := c.pf 1 32 32
def Cmd.brw (c : Cmd) : Nat := c.pf 3 0 17
def Cmd.bcl (c : Cmd) : Nat := c.pf 3 32 17

/-- Entry k of the block list: signed block row and column. -/
def lensEntry (s : State) (c : Cmd) (k : Nat) : Int × Int :=
  let w := dieLe s.mem s.extent (c.pf 2 0 48 + 8 * k) 8
  (sext 32 (bf w 0 32), sext 32 (bf w 32 32))

/-- Place of a global coordinate in a descriptor: local position, foreign, or out of range (R179, R188). -/
inductive Place where
  | here (r c : Nat) | foreign | beyond
  deriving DecidableEq, Repr

/-- Where element (dr, dc) of the block at an entry lies in a tensor. -/
def placeOf (d : Desc) (e : Int × Int) (brw bcl dr dc : Nat) : Place :=
  if e.1 < 0 ∨ e.2 < 0 then .beyond
  else
    let r := e.1.toNat * brw + dr
    let col := e.2.toNat * bcl + dc
    let gr := if d.loc then d.grows else d.rows
    let gc := if d.loc then d.gcols else d.cols
    if gr ≤ r ∨ gc ≤ col then .beyond
    else if d.loc then
      (if d.row0 ≤ r ∧ r < d.row0 + d.rows ∧ d.col0 ≤ col ∧ col < d.col0 + d.cols then .here (r - d.row0) (col - d.col0) else .foreign)
    else .here r col

/-- A value as pair and exact number: a PAIR by its normalised bits, any other as (cvt32 y, +0) (R187). -/
def lensVal (s : State) (d : Desc) (nb2 i r col : Nat) : Pair × Num :=
  let p := d.pair s.mem s.extent nb2 i r col
  if d.fmt = 9 then (normalise p, Num.ofPair p) else (p, d.num s.mem s.extent nb2 i r col)

/-- The value that a list-driven read outside the tensor or the piece delivers for element (dr, dc) of the block at an entry (R176, R179). -/
def fillVal (s : State) (d : Desc) (e : Int × Int) (brw bcl dr dc : Nat) : Pair × Num :=
  let x := d.fillNum s.mem s.extent (e.1 * brw + dr - if d.loc then (d.row0 : Int) else 0) (e.2 * bcl + dc - if d.loc then (d.col0 : Int) else 0)
  if d.fmt = 9 then (⟨BitVec.ofNat 32 d.fill, 0⟩, x) else (⟨cvt32 x, 0⟩, x)

/-- What destination element (i, r, col) receives: no value (scatter, not named), or values in list order, the last one winning unless the
destination reduces on alias (R187-R189). -/
def lensSources (s : State) (c : Cmd) (i r col : Nat) : List (Pair × Num) :=
  let src := c.d 0
  let dst := c.d 1
  let nb2 := c.lnb2
  match c.lmode with
  | 0 => [lensVal s src nb2 i r col]
  | 1 => [lensVal s src nb2 i col r]
  | 2 =>
    let e := lensEntry s c (r / c.brw)
    match placeOf src e c.brw c.bcl (r % c.brw) col with
    | .here a b => [lensVal s src nb2 i a b]
    | _ => [fillVal s src e c.brw c.bcl (r % c.brw) col]
  | _ => (List.range c.llen).flatMap (fun k =>
      let e := lensEntry s c k
      let gr : Int := if dst.loc then dst.row0 + r else r
      let gc : Int := if dst.loc then dst.col0 + col else col
      let dr := gr - e.1 * c.brw
      let dc := gc - e.2 * c.bcl
      if 0 ≤ e.1 ∧ 0 ≤ e.2 ∧ 0 ≤ dr ∧ dr < c.brw ∧ 0 ≤ dc ∧ dc < c.bcl then [lensVal s src nb2 i (k * c.brw + dr.toNat) dc.toNat] else [])

/-- The list positions whose block elements lie beyond the addressed tensor or on a foreign piece: elements out of range, the lowest such
position, and foreign elements, both times the batch items (R188, R179; DESIGN CHOICE, log 82). A position is the lowest also where an element of its
block lies outside the die's memory, since the list drives that access too (R176); such an element counts with its descriptor. -/
def lensList (c : Cmd) (s : State) : (Nat × Option Nat) × Nat :=
  if c.lmode ≤ 1 then ((0, none), 0)
  else
    let d := if c.lmode = 2 then c.d 0 else c.d 1
    let items := c.lnb1 * c.lnb2
    (List.range c.llen).foldl (fun acc k =>
      let ps := (positions c.brw c.bcl).map (fun p => placeOf d (lensEntry s c k) c.brw c.bcl p.1 p.2)
      let b := (ps.filter (· == .beyond)).length * items
      let f := (ps.filter (· == .foreign)).length * items
      let far := ps.any (fun p => match p with
        | .here r col => (List.range items).any (fun i => d.oob s.extent c.lnb2 i r col)
        | _ => false)
      ((acc.1.1 + b, if b = 0 ∧ far = false then acc.1.2 else minOpt acc.1.2 (some k)), acc.2 + f)) ((0, none), 0)

/-- Whether a list-driven source or destination element is named, for the count of out-of-range elements. -/
def lensUsed (s : State) (c : Cmd) (isSrc : Bool) (i r col : Nat) : Bool :=
  match c.lmode with
  | 2 => if isSrc then (List.range c.llen).any (fun k => (positions c.brw c.bcl).any (fun p =>
      placeOf (c.d 0) (lensEntry s c k) c.brw c.bcl p.1 p.2 == .here r col)) else true
  | 3 => if isSrc then true else !(lensSources s c i r col).isEmpty
  | _ => true

/-! ## Units (R186) -/

/-- Units of 32 rows × 128 bytes of a tensor as stored. -/
def unitCount (d : Desc) (items : Nat) : Nat := items * (cdiv d.rows 32 * d.regionCols)

/-- Elements of unit u, row-major. -/
def unitElems (d : Desc) (u : Nat) : List (Nat × Nat × Nat) :=
  let per := cdiv d.rows 32 * d.regionCols
  let rb := u % per / d.regionCols
  ((rangeFrom (32 * rb) 32).filter (· < d.rows)).flatMap (fun r =>
    ((List.range d.cols).filter (fun col => d.region (u / per) r col == u)).map (fun col => (u / per, r, col)))

/-- Units of a `LENS` or `PRUNE`. -/
def lensUnits (c : Cmd) : Nat := unitCount (c.d 1) (if c.op = 0x40 then c.lnb1 * c.lnb2 else 1)

/-- Whether a command is a user of the central stage with units left. -/
def isLensUser (c : Cmd) : Bool := c.stage == .started && (c.op == 0x40 || c.op == 0x38) && decide (c.units < lensUnits c)

/-- Whether a command's pairs wait for a fold pass: all its other work is done (R174). -/
def isFolder (c : Cmd) : Bool := c.stage == .started && !c.staged.isEmpty && !isLensUser c

/-- Whether a `PARITY` has shards still to fold on this engine. -/
def isParityUser (c : Cmd) : Bool := c.stage == .started && c.op == 0x63 && decide (c.folded < c.foldUnits)

/-- The user of the central stage's next turn among `LENS`, `PRUNE`, the fold passes and parity folding: highest queue priority, round-robin by QID among equals,
from after the last one served (R186). -/
def centralUser (s : State) : Option Cmd :=
  let prio := fun (c : Cmd) => match s.q.find c.qid with
    | some r => r.ctx.prio
    | none => 0
  let users := s.q.cmds.filter (fun c => isLensUser c || isFolder c || isParityUser c)
  let top := users.foldl (fun p c => if p < prio c then prio c else p) 0
  let best := sortBy (fun a b => a.qid ≤ b.qid) (users.filter (fun c => prio c == top))
  match best.find? (fun c => decide (s.turn < c.qid)) with
  | some c => some c
  | none => best.head?

/-- What one `LENS` unit does: its emission, or the pairs it stages for a fold pass, and the elements overwritten (R189). -/
def lensUnit (s : State) (c : Cmd) : Emit × List Res × Nat :=
  let d := c.d 1
  let es := unitElems d c.units
  let vals := es.map (fun x => (x, lensSources s c x.1 x.2.1 x.2.2))
  if d.ralias then
    (⟨[], [], 0, 0⟩, vals.flatMap (fun v => (v.2.map (fun y => (⟨v.1.1, v.1.2.1, v.1.2.2, y.1⟩ : Res))).filter
      (fun x => !d.oob s.extent c.lnb2 x.i x.r x.c)), 0)
  else
    (emit s.extent d c.lnb2 (outScale c d) (vals.filterMap (fun v => v.2.getLast?.map (fun y => (⟨v.1.1, v.1.2.1, v.1.2.2, y.1⟩, y.2)))), [],
      (vals.map (fun v => v.2.length - 1)).sum)

/-! ## PRUNE (R190, R250) -/

/-- Rank class of a value: NaN above infinity above finite values. -/
def pruneClass : Num → Nat
  | .nan => 2
  | .inf _ => 1
  | _ => 0

/-- Whether a ranks strictly above b (R190). -/
def ranksAbove (a b : Num) : Bool :=
  decide (pruneClass b < pruneClass a) || (pruneClass a == 0 && pruneClass b == 0 && b.abs.lt a.abs)

/-- The kept positions of a group of at most four values, ascending: the two of greatest rank, lower position first among equals. -/
def keepTwo (vs : List Num) : List Nat :=
  let better := fun (i : Nat) (x : Num) => (vs.zipIdx.filter (fun y => ranksAbove y.1 x || (!ranksAbove x y.1 && decide (y.2 < i)))).length
  (vs.zipIdx.filter (fun x => decide (better x.2 x.1 < 2))).map (·.2)

/-- Group g of W row r: its values. -/
def pruneGroup (s : State) (c : Cmd) (r g : Nat) : List Num :=
  ((rangeFrom (4 * g) 4).filter (· < (c.d 0).cols)).map (fun k => (c.d 0).num s.mem s.extent 1 0 r k)

/-- What the encoding of an unused value element of group g of row r may depend on (R56): the command's parameters and the group's encodings. -/
def pruneKey (s : State) (c : Cmd) (r g : Nat) : List Nat :=
  expandKey c (s.conf.job c.job).cores.length ++
    ((rangeFrom (4 * g) 4).filter (· < (c.d 0).cols)).map (fun k => (c.d 0).raw s.mem s.extent 1 0 r k)

/-- One `PRUNE` unit: the value elements of a unit of `W2V` and the masks of their groups. A value element that no kept position fills gets a
free value (log 22). -/
def pruneUnit (s : State) (c : Cmd) : Emit :=
  let d := c.d 1
  let es := unitElems d c.units
  let val := fun (r col : Nat) =>
    let vs := pruneGroup s c r (col / 2)
    (keepTwo vs)[col % 2]?.map (fun k => vs.getD k .nan)
  let kept := es.filterMap (fun x => (val x.2.1 x.2.2).map (fun y => ((⟨0, x.2.1, x.2.2, Pair.zero⟩ : Res), y)))
  let unused := es.filter (fun x => (val x.2.1 x.2.2).isNone && !d.oob s.extent 1 0 x.2.1 x.2.2)
  let metas := (es.filter (fun x => x.2.2 % 2 == 0)).map (fun x => (x.2.1, x.2.2 / 2))
  let metaStores := metas.filterMap (fun x =>
    let a : Int := (c.pf 0 0 48 : Nat) + x.1 * sext 32 (c.pf 1 0 32) + (x.2 / 2 : Nat)
    if inside s.extent a 1 then some (Store.nibble a.toNat (x.2 % 2 == 1) (((keepTwo (pruneGroup s c x.1 x.2)).map (2 ^ ·)).sum)) else none)
  let e := emit s.extent d 1 (outScale c d) kept
  { e with stores := e.stores ++ unused.map (fun x => d.store 1 0 x.2.1 x.2.2
      (Config.pruneFill (pruneKey s c x.2.1 (x.2.2 / 2)) x.2.1 x.2.2 % 2 ^ fmtWidth d.fmt)) ++ metaStores }

/-! ## Rows -/

/-- Conditions and counters that a `LENS` or `PRUNE` has from its operands alone. -/
def lensConds (s : State) (c : Cmd) : List Cond × Nat :=
  if c.op = 0x40 then
    let l := lensList c s
    let items := c.lnb1 * c.lnb2
    (oobCond l.1 [(c.d 0).oobCount s.extent c.lnb2 items (lensUsed s c true), (c.d 1).oobCount s.extent c.lnb2 items (lensUsed s c false)], l.2)
  else (oobCond (0, none) [(c.d 0).oobCount s.extent 1 1 allElems, (c.d 1).oobCount s.extent 1 1 allElems], 0)

/-- Starts a `LENS` or `PRUNE`: its units follow as `LENS_UNIT`. -/
def lensStart (s : State) (q op : Nat) : State :=
  match startable s q op with
  | none => s
  | some c =>
    let k := lensConds s c
    let s := takeScales (beginCmd s c) c (slotTids [c.d 1])
    { s with
      mem := if op = 0x40 ∧ (c.d 1).ralias = true then s.mem.dieHavoc s.extent s.free (c.pf 4 0 48) (c.pf 5 0 40) else s.mem
      q := (s.q.updCmd (fun d => d.same c) (fun d => { d with stage := .started, units := 0, conds := d.conds ++ k.1 })).upd c.qid
        (fun x => { x with cnt := x.cnt.bumps ((1, 2, k.2) :: expansionCounts s) })
      free := s.free + 1 }

/-- `LENS` (R187). -/
def execLens (q : Nat) (s : State) : Host.Outcome State Fault Refusal := onQueue q (lensStart s q 0x40)

/-- `PRUNE` (R190). -/
def execPrune (q : Nat) (s : State) : Host.Outcome State Fault Refusal := onQueue q (lensStart s q 0x38)

/-- Lowest element index that a fold pass in progress has not written: the first of its next unit. -/
def firstFold (c : Cmd) : Nat :=
  match c.staged with
  | e :: _ => (((unitElems (c.d e.1) c.folded).head?).map (fun x => (c.d e.1).index x.1 x.2.1 x.2.2)).getD 0
  | [] => 0

/-- Lowest element index that a `LENS` or `PRUNE` has not written: the first of its next unit, or of all where its pairs are only staged. -/
def firstUnwritten (c : Cmd) : Nat :=
  if isFolder c then firstFold c
  else if (c.d 1).ralias then (c.d 1).index 0 0 0
  else match (unitElems (c.d 1) c.units).head? with
    | some x => (c.d 1).index x.1 x.2.1 x.2.2
    | none => 0

/-- Whether the central stage works: its domain is ON and no hold stops it (R389, R396). -/
def centralUp (s : State) : Bool := domOn s 37 && !domHeld s 70

/-! ## The fold pass (R174) -/

/-- Batch counts of a command's outputs: NB2, and the items of a descriptor position. -/
def batchOf (c : Cmd) : Nat × Nat :=
  if c.op = 0x40 then (c.lnb2, c.lnb1 * c.lnb2)
  else if 0x20 ≤ c.op ∧ c.op ≤ 0x28 then (c.nb2, c.items)
  else if c.op = 0x31 then (c.xE, c.xE)
  else (c.lp.nb2, c.lp.nb1 * c.lp.nb2)

/-- Whether stochastic rounding applies to the output at a position. -/
def srOf (c : Cmd) (pos : Nat) : Bool :=
  if c.op = 0x31 then c.pb 0 38 && pos == 3
  else if c.op = 0x10 then c.pb 0 0 && pos == 3
  else if 0x11 ≤ c.op ∧ c.op ≤ 0x13 then c.pb 0 0
  else if c.op = 0x20 then c.pb 1 9 && pos == nbOut c
  else if 0x21 ≤ c.op ∧ c.op ≤ 0x28 then c.pb 1 9
  else false

/-- Whether the command's norm group covers the output at a position. -/
def normOf (c : Cmd) (pos : Nat) : Bool :=
  if c.op = 0x10 ∨ c.op = 0x31 then pos == 4
  else if c.op = 0x20 then pos != nbOut c
  else c.op != 0x40

/-- Zero map and position it describes (R245). -/
def zoutOf (c : Cmd) : Nat × Nat :=
  if c.op = 0x10 then (c.pf 6 0 48, 3)
  else if 0x11 ≤ c.op ∧ c.op ≤ 0x13 then (c.pf 6 0 48, 2)
  else if c.op = 0x22 then (c.pf 5 0 48, 2)
  else if c.op = 0x28 then (c.pf 5 0 48, if c.pf 1 16 2 ≤ 1 then 2 else 1)
  else (0, 0)

/-- The positions of a command's outputs in descriptor-table order. -/
def outPositions (c : Cmd) : List Nat :=
  if c.op = 0x10 ∨ c.op = 0x31 then [3, 4]
  else if 0x11 ≤ c.op ∧ c.op ≤ 0x13 then [2]
  else if c.op = 0x20 then (if c.pb 1 0 then [4, 5] else [5, 6, 7])
  else if c.op = 0x21 then [sbOut c]
  else if c.op = 0x22 then [2]
  else if c.op = 0x28 then [if c.pf 1 16 2 ≤ 1 then 2 else 1]
  else [1]

/-- The output of a command that a `CHAIN` hands to its consumer (R107): dX of the paired products, else the last output. -/
def mainOut (c : Cmd) : Nat := if c.op = 0x10 ∨ c.op = 0x31 then 3 else (outPositions c).getLastD 0

/-- The folded pairs of a staged descriptor, each under the lowest element index of its address, in ascending order. -/
def foldGroups (c : Cmd) (pos : Nat) (staged : List Res) : List Res :=
  let d := c.d pos
  (foldStaged d (batchOf c).1 (sortBy (fun a b => d.index a.i a.r a.c ≤ d.index b.i b.r b.c) staged) []).map (·.2)

/-- What one unit of a fold pass writes: the addresses whose lowest element lies in it; and how many values it saturates and NaNs it loses. -/
def foldUnit (s : State) (c : Cmd) (pos : Nat) (staged : List Res) (u : Nat) : List Store × Nat × Nat :=
  let d := c.d pos
  let nb2 := (batchOf c).1
  let mine := (foldGroups c pos staged).filter (fun g => d.region g.i g.r g.c == u)
  if c.op = 0x40 then
    let e := emit s.extent d nb2 (outScale c d) (mine.map (fun g => (g, Num.ofPair g.pair)))
    (e.stores, e.sat, e.lost)
  else
    (mine.map (fun g => let w := writeOne d (outMode s c d nb2 (srOf c pos)) { g with pair := normalise g.pair }; d.store nb2 w.res.i w.res.r w.res.c w.raw), 0, 0)

/-- The fold of one staged descriptor: of a `LENS` under its conversions (R180, R181), of every other command under R41 and R43; and how many
values it saturated and NaNs it lost. -/
def foldOne (s : State) (c : Cmd) (pos : Nat) (staged : List Res) : Drained × Nat × Nat :=
  let d := c.d pos
  let b := batchOf c
  if c.op = 0x40 then
    let sorted := sortBy (fun a b => d.index a.i a.r a.c ≤ d.index b.i b.r b.c) staged
    let e := emit s.extent d b.1 (outScale c d) ((foldStaged d b.1 sorted []).map (fun g => (g.2, Num.ofPair g.2.pair)))
    (⟨e.stores, e.wrs.foldl (fun m w => m.add w.idx w.v) Meter.zero, [], [], e.wrs⟩, e.sat, e.lost)
  else (foldPass d (outMode s c d b.1 (srOf c pos)) staged, 0, 0)

/-! ## COPY and FILL (R273, R274) -/

/-- Bytes of [a, a + n) outside the die's memory: how many, and the lowest offset. -/
def outsideBytes (ext a n : Nat) : Nat × Option Nat :=
  let inn := if a + n ≤ ext then n else ext - a
  (n - inn, if inn < n then some inn else none)

/-- The run of `COPY`. -/
def copyRun (s : State) (c : Cmd) : RunRes :=
  let src := c.pf 0 0 48
  let dst := c.pf 1 0 48
  let n := c.pf 2 0 48
  let a := outsideBytes s.extent src n
  let b := outsideBytes s.extent dst n
  { RunRes.empty with
    stores := [.bytes dst (dieBytes s.mem s.extent src n)]
    conds := oobCond (0, none) [(a.1 + b.1, minOpt a.2 b.2)]
    rd := n - a.1 }

/-- `COPY`. -/
def execCopy (q : Nat) (s : State) : Host.Outcome State Fault Refusal := onQueue q (runOp s q 0x41 (fun _ => []) copyRun)

/-- The run of `FILL`. Its infinities and NaNs are recorded (R54), under the exponent of the slot where `SCLSLOT` names one (R52); it measures no amax
(R274). -/
def fillRun (s : State) (c : Cmd) : RunRes :=
  let d := c.d 0
  let es := (List.range c.items).flatMap (fun i => (positions d.rows d.cols).map (fun p => (i, p.1, p.2)))
  let kept := es.filter (fun x => !d.oob s.extent c.nb2 x.1 x.2.1 x.2.2)
  let v := written d.fmt (outScale c d) 127 d.fill
  { RunRes.empty with
    stores := kept.map (fun x => d.store c.nb2 x.1 x.2.1 x.2.2 d.fill)
    outs := [(d.tid, kept.foldl (fun m x => m.add (d.index x.1 x.2.1 x.2.2) v) Meter.zero)]
    conds := oobCond (0, none) [d.oobCount s.extent c.nb2 c.items allElems] }

/-- `FILL`. -/
def execFill (q : Nat) (s : State) : Host.Outcome State Fault Refusal := onQueue q (runOp s q 0x42 (fun c => slotTids [c.d 0]) fillRun)

end Sys2Proof.Machine
end

