-- ==== Sys2Proof/Machine/Context.lean ====
section
/-!
DEFINITION. Queue contexts in memory (Table 11.8a, R279), residency (R280, R302) and what is free of a partition (R438).
-/
namespace Sys2Proof.Machine

/-! ## The context record -/

/-- Codes of the queue states, in the order of Table 11.9. -/
def QState.code : QState → Nat
  | .off => 0 | .on => 1 | .draining => 2 | .pendingOn => 3

/-- State of a code. -/
def QState.ofCode (n : Nat) : QState :=
  match n with
  | 0 => .off | 1 => .on | 2 => .draining | _ => .pendingOn

/-- The reserved bits of a context: offset and width. -/
def ctxReserved : List (Nat × Nat) :=
  [(54, 10), (116, 12), (282, 38), (368, 16), (402, 14), (496, 16), (544, 16), (724, 12), (790, 10), (865, 31), (960, 64), (1984, 2112)]

/-- Context spelled by 4,096 bits; the reserved bits count in `rsv` only, and the engine writes them as 0 (R7). -/
def parseCtx (w : Nat) : QCtx where
  rbase := bf w 0 48
  rlog2 := bf w 48 4
  pkfmt := bf w 52 2
  pbase := bf w 64 48
  plog2 := bf w 112 4
  head := bf w 128 16
  tail := bf w 144 16
  pwr := bf w 160 16
  prd := bf w 176 16
  nextSeq := BitVec.ofNat 32 (bf w 192 32)
  doneSeq := BitVec.ofNat 32 (bf w 224 32)
  state := QState.ofCode (bf w 256 2)
  prio := bf w 258 3
  maxOutM1 := bf w 261 8
  det := bit w 269
  halterr := bit w 270
  job := bf w 271 3
  irqv := bf w 274 8
  span := bf w 320 48
  credit := bf w 384 18
  wdog := bf w 416 32
  illCnt := bf w 448 48
  illRec0 := BitVec.ofNat 64 (bf w 512 32 + bf w 560 16 * 2 ^ 48)
  illRec1 := BitVec.ofNat 64 (bf w 576 64)
  exc := BitVec.ofNat 128 (bf w 640 84 + bf w 736 32 * 2 ^ 96)
  loopBody := bf w 768 16
  loopBodyM1 := bf w 784 6
  loopT := bf w 800 32
  loopIter := bf w 832 32
  loopActive := bit w 864
  overrun := bf w 896 64
  norm := (List.range 15).map (fun k => ⟨BitVec.ofNat 32 (bf w (1024 + 64 * k) 32), BitVec.ofNat 32 (bf w (1056 + 64 * k) 32)⟩)
  rsv := (ctxReserved.map (fun f => bf w f.1 f.2)).sum

/-- The bytes of a context: the two words of software, the engine's words, the rest (R279). -/
def QCtx.bytes (c : QCtx) : List Byte :=
  leBytes 8 (c.rbase + c.rlog2 * 2 ^ 48 + c.pkfmt * 2 ^ 52) ++ leBytes 8 (c.pbase + c.plog2 * 2 ^ 48) ++
  leBytes 2 c.head ++ leBytes 2 c.tail ++ leBytes 2 c.pwr ++ leBytes 2 c.prd ++ leBytes 4 c.nextSeq.toNat ++ leBytes 4 c.doneSeq.toNat ++
  leBytes 8 (c.state.code + c.prio * 2 ^ 2 + c.maxOutM1 * 2 ^ 5 + b2n c.det * 2 ^ 13 + b2n c.halterr * 2 ^ 14 + c.job * 2 ^ 15 + c.irqv * 2 ^ 18) ++
  leBytes 8 c.span ++ leBytes 4 c.credit ++ leBytes 4 c.wdog ++ leBytes 8 c.illCnt ++ leBytes 8 c.illRec0.toNat ++ leBytes 8 c.illRec1.toNat ++
  leBytes 16 c.exc.toNat ++ leBytes 4 (c.loopBody + c.loopBodyM1 * 2 ^ 16) ++ leBytes 4 c.loopT ++ leBytes 4 c.loopIter ++
  leBytes 4 (b2n c.loopActive) ++ leBytes 8 c.overrun ++ leBytes 8 0 ++ (c.norm.flatMap pairBytes) ++ leBytes 264 0

/-- Whether a context is legal for an enable (R279). -/
def QCtx.legal (c : QCtx) : Bool :=
  c.rsv == 0 && (c.pkfmt == 1 || c.pkfmt == 2) && decide (4 ≤ c.rlog2 ∧ c.rlog2 ≤ 16) && decide (4 ≤ c.plog2 ∧ c.plog2 ≤ 16) &&
  c.rbase % pkBytes c.pkfmt == 0 && c.pbase % 32 == 0 && decide (c.head < 2 ^ c.rlog2) && decide (c.tail < 2 ^ c.rlog2) &&
  decide (c.pwr < 2 ^ c.plog2) && decide (c.prd < 2 ^ c.plog2) && c.state == .off

/-- Address of context q. -/
def ctxAddr (Q : Queues) (q : Nat) : Nat := Q.base + 512 * q

/-- The context that memory holds. -/
def memCtx (s : State) (q : Nat) : QCtx := parseCtx (dieLe s.mem s.extent (ctxAddr s.q q) 512)

/-- The stores of a write-back: the fields marked Engine, and `STATE` (R279); with them `SPAN` and `CREDIT`, which an item of a `CFG` may have set
(R275, log 112). -/
def QCtx.writeBack (c : QCtx) (addr : Nat) : List Store :=
  let b := c.bytes
  [.bytes (addr + 16) ((b.drop 16).take 36), .bytes (addr + 56) ((b.drop 56).take 64), .bytes (addr + 128) ((b.drop 128).take 120)]

/-- A queue just brought in. -/
def QRes.fresh (slot q : Nat) (c : QCtx) : QRes where
  slot := slot
  qid := q
  ctx := c
  loopPos := 0
  groupOpen := false
  chainLeft := 0
  chainRing := 0
  chainWt := false
  judged := []
  loopColl := 0
  loopStep := false
  chained := []
  chainMade := false
  producer := none
  chainBad := false
  conds := []
  age := 0
  items := []
  expand := []
  cnt := QCounters.reset

/-! ## What a partition and a credit have free (R438) -/

/-- Bytes per element of a chained tile: the output's format; a pair where the producer is a program (log 23). -/
def chainElemBytes (c : Cmd) : Nat :=
  match (c.role .dx).or ((c.role .c).or ((c.role .out).or ((c.role .dw).or (c.role .dxd)))) with
  | some d => eBytes d.fmt
  | none => 8

/-- Bytes of the sector-mask bitmap of a command (R216). -/
def maskBytes (c : Cmd) : Nat :=
  match c.role .dw with
  | some d =>
    let rows := if d.loc then d.grows else d.rows
    let cols := if d.loc then d.gcols else d.cols
    if c.pf 0 7 2 = 1 then cdiv rows 8 else if c.pf 0 7 2 = 2 then cdiv (cdiv rows 32 * cdiv cols 32) 8 else 0
  | none => 0

/-- Bytes of the column pairs of an `NBWD` (R203). -/
def columnBytes (c : Cmd) (cc : Nat) : Nat := if c.op = 0x20 then 16 * (c.d 0).cols * cc else 0

/-- Fixed allocations of a command beside its spill slots, sector mask and column pairs (R438): `CHAIN` ring, claim bitmaps, argument block, staging
areas, sort buckets of one 8-byte entry per lookup (log 23). -/
def otherFixed (c : Cmd) (cc : Nat) : Nat :=
  (if c.chain = 1 then c.ring2 * cc * 4096 * chainElemBytes c else 0) +
  (if c.op = 0x58 then c.pf 3 48 5 * 131072 + c.pf 1 32 9 else 0) +
  (if c.op = 0x31 then 2 * 16777216 else 0) + (if c.op = 0x30 then 8 * c.pf 0 0 32 else 0)

/-- Fixed allocations of a command in its partition, without column pairs (R438). -/
def fixedBase (c : Cmd) (cc : Nat) : Nat :=
  (if opHasLoop.contains c.op then c.lp.spillCs * cc * 32768 else 0) + otherFixed c cc +
  (if c.op = 0x10 ∨ c.op = 0x12 then maskBytes c else 0)

/-- Fixed allocations of a command. -/
def fixedAlloc (c : Cmd) (cc : Nat) : Nat := fixedBase c cc + if c.colsMem then 0 else columnBytes c cc

/-- Whether a command is admitted and has not replied. -/
def Cmd.inFlight (c : Cmd) : Bool := c.stage == .admitted || c.stage == .started || c.stage == .ended

/-- The free part of a job's partition in bytes; negative where more is held than it has (R438). -/
def partFree (s : State) (j : Nat) : Int :=
  let b := s.conf.job j
  let cc := b.cores.length
  (b.psize * 1048576 : Nat) - (((s.q.res.filter (fun r => r.ctx.job == j)).map (fun r => r.ctx.credit * 1024)).sum : Nat) -
  ((if b.enabled then cc * 66560 else 0 : Nat)) - (((s.q.cmds.filter (fun c => c.job == j && c.inFlight)).map (fun c => fixedAlloc c cc)).sum : Nat)

/-! ## Residency (R280, R302) -/

/-- The lowest free slot. -/
def freeSlot (Q : Queues) : Option Nat := (List.range Config.residentSlots).find? (fun k => !Q.res.any (fun r => r.slot == k))

/-- Whether a resident queue is in use: an unreplied command, an active `LOOP` or an open `CHAIN`. -/
def inUse (Q : Queues) (r : QRes) : Bool := Q.cmds.any (fun c => c.qid == r.qid) || r.ctx.loopActive || r.chainLeft != 0

/-- The least recently admitted resident queue that is not in use and whose write-back no page fault halts (R143). -/
def evictable (t : Tender) (Q : Queues) : Option QRes :=
  (Q.res.filter (fun r => !inUse Q r && !t.ctlHeld (.context r.qid))).foldl (fun m r => match m with
    | none => some r
    | some x => if r.age < x.age then some r else some x) none

/-- Writes a resident queue's context back and frees its slot. Its items that wait for a command boundary go on waiting (R439), and the queues of
its job that wait for credit may be tried again (R302). -/
def evict (s : State) (r : QRes) : State :=
  { s with
    mem := s.mem.dieStores s.extent (r.ctx.writeBack (ctxAddr s.q r.qid))
    q := { s.q with
      res := s.q.res.filter (fun x => x.qid != r.qid)
      groups := if r.groupOpen then r.qid :: s.q.groups.filter (· != r.qid) else s.q.groups
      waitItems := s.q.waitItems ++ r.items.map (fun e => (r.qid, e))
      short := s.q.short.filter (fun q => (memCtx s q).job != r.ctx.job) } }

/-- The bitmap of pending queues with one bit set. -/
def Queues.setPend (Q : Queues) (q : Nat) : Queues := { Q with pend := if Q.pend.contains q then Q.pend else Q.pend ++ [q] }

/-- What the save of its job, or an operation since, has kept of a queue that is not resident (R308). -/
def savedQueue (s : State) (q : Nat) : Option QRes :=
  (s.q.kept ++ (s.conf.jobs.filterMap (·.image)).flatMap (·.qs)).find? (fun x => x.qid == q)

/-- Puts queue `q` into slot `k`. -/
def place (s : State) (q k : Nat) : State :=
  let x := match savedQueue s q with
    | some x => { x with slot := k, ctx := memCtx s q }
    | none => { QRes.fresh k q (memCtx s q) with groupOpen := s.q.groups.contains q }
  { s with q := { s.q with
      res := s.q.res ++ [{ x with items := (s.q.waitItems.filter (fun e => e.1 == q)).map (·.2) }]
      pend := s.q.pend.filter (· != q)
      groups := s.q.groups.filter (· != q)
      short := s.q.short.filter (· != q)
      kept := s.q.kept.filter (fun x => x.qid != q)
      waitItems := s.q.waitItems.filter (fun e => e.1 != q) } }

/-- A queue that is not resident, as what the engine keeps of it and its context in memory show it. -/
def outQueue (s : State) (q : Nat) : QRes :=
  match savedQueue s q with
  | some x => { x with ctx := memCtx s q, items := [] }
  | none => { QRes.fresh 0 q (memCtx s q) with groupOpen := s.q.groups.contains q }

/-- An operation on a queue, resident or not: the context of one that is not is updated in memory, and what the save of its job or a cancel still
needs of it is kept. -/
def onOut (s : State) (q : Nat) (f : State → State) : State :=
  if (s.q.find q).isSome then f s
  else
    let u := f { s with q := { s.q with res := s.q.res ++ [outQueue s q] } }
    match u.q.find q with
    | none => u
    | some y =>
      let needed := (savedQueue s q).isSome || u.q.cmds.any (fun c => c.qid == q) || y.ctx.loopActive || y.chainLeft != 0
      { u with
        mem := u.mem.dieStores u.extent (y.ctx.writeBack (ctxAddr u.q q))
        q := { u.q with
          res := u.q.res.filter (fun x => x.qid != q)
          groups := if y.groupOpen then q :: u.q.groups.filter (· != q) else u.q.groups.filter (· != q)
          kept := u.q.kept.filter (fun x => x.qid != q) ++ (if needed then [y] else []) } }

/-- Whether the credit of a queue fits the free part of its job's partition (R302). A job that is not enabled has no partition to carve it from, and its
queues come in: their commands are refused by check 6 (log 37). -/
def creditFits (s : State) (q : Nat) : Bool :=
  let c := memCtx s q
  !(s.conf.job c.job).enabled || decide ((c.credit * 1024 : Nat) ≤ partFree s c.job) || c.credit == 0

/-- A counter of Table 12.4 advanced. -/
def Conf.bumpShare (c : Conf) (i n : Nat) : Conf := { c with share := bump c.share i n }

/-- A queue found short of credit: it is pending until a resident queue of its job is evicted, and `SH_CREDITWAIT` counts it (R302). -/
def heldShort (s : State) (q : Nat) : State :=
  let Q := s.q.setPend q
  { s with q := { Q with short := Q.short ++ [q] }, conf := s.conf.bumpShare 4 1 }

/-- Brings a queue in: into a free slot, into the slot of the least recently admitted idle queue, or into the pending bitmap, where it also
waits while a page fault halts the read of its context (R143), while the fabric is held (R389), or for credit (R302). -/
def bringIn (s : State) (q : Nat) : State :=
  if (s.q.find q).isSome || s.q.short.contains q then s
  else if s.tender.ctlHeld (.context q) || !fabricUp s then { s with q := s.q.setPend q }
  else if !creditFits s q then heldShort s q
  else match freeSlot s.q with
    | some k => place s q k
    | none => match evictable s.tender s.q with
      | some r => place (evict s r) q r.slot
      | none => { s with q := s.q.setPend q }

/-- The pending queues in serving order: descending `PRIO`, then ascending `QID`. -/
def pendOrder (s : State) : List Nat :=
  sortBy (fun a b => let p := (memCtx s a).prio; let r := (memCtx s b).prio; decide (r < p) || (p == r && decide (a ≤ b))) s.q.pend

/-- Brings in the pending queues that a freed slot or an eviction lets in; none is evicted for them. -/
def servePending (s : State) : State :=
  (pendOrder s).foldl (fun t q =>
    if t.q.short.contains q || t.tender.ctlHeld (.context q) || !fabricUp t then t
    else match freeSlot t.q with
      | some k => if creditFits t q then place t q k else heldShort t q
      | none => t) s

/-! ## Replies and collectives that end without running -/

/-- The collective sequence number of a command: in its packet, or in the header of its code-group table (R374). -/
def cseqBase (s : State) (op : Nat) (ps : List Word) : Nat :=
  if isCollective op then bf (ps.getD 0 0).toNat 32 32
  else if op = 0x63 then dieLe s.mem s.extent (bf (ps.getD 0 0).toNat 0 48) 4
  else 0

/-- The collective sequence number of a command, advanced in the later iterations of a `LOOP` (R294). -/
def cseqOf (s : State) (c : Cmd) : Nat := (cseqBase s c.op c.params + c.cseqAdd) % 2 ^ 32

/-- Counts as completed every number whose predecessor is completed (R257). -/
def Red.settle (r : Red) : Nat → Red
  | 0 => r
  | n + 1 =>
    let next := (r.lastCseq + 1) % 2 ^ 32
    if r.doneAhead.contains next then Red.settle { r with lastCseq := next, doneAhead := r.doneAhead.filter (· != next) } n else r

/-- A collective ended on this engine: its number counts once its predecessor has completed. -/
def Red.ended (r : Red) (cseq : Nat) : Red :=
  let x := { r with doneAhead := r.doneAhead ++ [cseq], early := r.early.filter (fun e => e.2.cseq != cseq) }
  x.settle x.doneAhead.length

/-- The position of this engine's die, if it holds one (R253). -/
def position (s : State) : Option Nat := (List.range s.conf.npos).find? (fun p => s.conf.posDie.getD p 0 == s.fuses.die)

/-- Left child, right child and parent of position `p` in ftree(lo, lo + n - 1), with the link of the parent it enters (R251, Table 10.1);
`fuel` bounds the depth. -/
def treeFind (p : Nat) : Nat → Nat → Nat → Option (Nat × RedLink) → Option (Option Nat × Option Nat × Option (Nat × RedLink))
  | 0, _, _, _ => none
  | fuel + 1, lo, n, up =>
    if n = 0 then none
    else
      let m := lo + n / 2
      let nl := m - lo
      let nr := lo + n - 1 - m
      let root := fun (a k : Nat) => if k = 0 then none else some (a + k / 2)
      if p = m then some (root lo nl, root (m + 1) nr, up)
      else if p < m then treeFind p fuel lo nl (some (m, .cl))
      else treeFind p fuel (m + 1) nr (some (m, .cr))

/-- Children and parent of this engine's position. -/
def treeOf (s : State) : Option (Option Nat × Option Nat × Option (Nat × RedLink)) :=
  match position s with
  | some p => treeFind p 8 0 s.conf.npos none
  | none => none

/-- The links of this engine that carry tree edges. -/
def treeLinks (s : State) : List RedLink :=
  match treeOf s with
  | some (l, r, u) => (if u.isSome then [.up] else []) ++ (if l.isSome then [.cl] else []) ++ (if r.isSome then [.cr] else [])
  | none => []

/-- Whether the reduction port is powered and its clock runs (R389, R396). -/
def redPortUp (s : State) : Bool := domOn s 38 && !domHeld s 74

/-- Sends the abort of a collective along every tree edge, except the one it came by (R259); it overtakes queued segments. While the port is not powered
or its clock stands, the aborts wait at the crossing (R389). -/
def sendAbort (s : State) (cseq : Nat) (from_ : Option RedLink) : Red :=
  let l := ((treeLinks s).filter (fun l => from_ != some l)).map (fun l => (l, cseq))
  if redPortUp s then { s.red with sentAborts := s.red.sentAborts ++ l } else { s.red with heldAborts := s.red.heldAborts ++ l }

/-- Aborts that have waited for the port cross it. -/
def flushAborts (s : State) : State :=
  if redPortUp s then { s with red := { s.red with sentAborts := s.red.sentAborts ++ s.red.heldAborts, heldAborts := [] } } else s

/-- A collective that a check refused: it counts as completed and its abort is sent (R257). -/
def refuseCollective (s : State) (c : Cmd) : State :=
  if isCollective c.op ∨ c.op = 0x63 then
    let k := cseqOf s c
    { s with red := (sendAbort s k none).ended k }
  else s

end Sys2Proof.Machine
end

