-- ==== Sys2Proof/Machine/Items.lean ====
section
/-!
DEFINITION. `CFG` items (Tables 11.4, 12.1, 15.4; R439): the entry, its legality, the configuration that staged items give, and the
placement rules of R298.
-/
namespace Sys2Proof.Machine

/-- An entry of an item table (R275). -/
structure CfgItem where
  item : Nat
  index : Nat
  qid : Nat
  rsv : Nat
  value : Nat
  deriving DecidableEq, Repr

/-- Entry spelled by 128 bits. -/
def parseItem (w : Nat) : CfgItem := ⟨bf w 0 16, bf w 16 16, bf w 32 22, bf w 54 10, bf w 64 64⟩

/-- The item table of a `CFG`. -/
def cfgItems (s : State) (c : Cmd) : List CfgItem :=
  (List.range (c.pf 0 48 8 + 1)).map (fun i => parseItem (dieLe s.mem s.extent (c.pf 0 0 48 + 16 * i) 16))

/-- The staged items: HSIZE, tree positions, row masks, partitions and enables (R300). -/
def isStaged (item : Nat) : Bool := item == 1 || item == 2 || item == 3 || item == 0x30 || item == 0x31 || item == 0x36

/-- The items of one queue. -/
def isQueueItem (item : Nat) : Bool := decide (0x10 ≤ item ∧ item ≤ 0x15)

/-- Width of an item's value field and its largest index; none for an undefined item. -/
def itemShape (item : Nat) : Option (Nat × Nat) :=
  match item with
  | 0x01 => some (3, 0) | 0x02 => some (4, 0) | 0x03 => some (3, 7) | 0x04 => some (64, 65535) | 0x05 => some (3, 65535)
  | 0x06 => some (32, 0) | 0x10 => some (3, 0) | 0x11 => some (8, 0) | 0x12 => some (48, 0) | 0x13 => some (18, 0)
  | 0x14 => some (1, 0) | 0x15 => some (1, 0) | 0x20 => some (4, 7) | 0x21 => some (5, 31) | 0x30 => some (8, 7)
  | 0x31 => some (16, 7) | 0x32 => some (48, 7) | 0x33 => some (48, 7) | 0x34 => some (48, 7) | 0x35 => some (40, 7)
  | 0x36 => some (1, 7) | 0x37 => some (0, 65535) | 0x3F => some (1, 0)
  | _ => none

/-- Whether a value lies in the range of its item, beyond its width. -/
def valueOk (item v : Nat) : Bool :=
  match item with
  | 0x01 => decide (v ≤ 4)
  | 0x02 => decide (1 ≤ v ∧ v ≤ 8)
  | 0x31 => decide (v / 256 ≤ 240)
  | 0x34 => v % 4096 == 0
  | _ => true

/-- Whether a queue has a context: the table has a base, and the context lies in the die's memory. -/
def hasContext (s : State) (q : Nat) : Bool := s.q.baseValid && inDie s.extent (ctxAddr s.q q) 512

/-- Byte offset in its entry of an item's first offending field (R439). -/
def itemFault (s : State) (x : CfgItem) : Option Nat :=
  match itemShape x.item with
  | none => some 0
  | some (w, imax) =>
    firstBad [(2, decide (imax < x.index)), (4, if isQueueItem x.item then !hasContext s x.qid else x.qid != 0), (6, x.rsv != 0),
              (8, decide (2 ^ w ≤ x.value) || !valueOk x.item x.value)]

/-- Offset of the first offending field of an item table. -/
def itemsFault (s : State) (c : Cmd) : Option Nat :=
  (cfgItems s c).zipIdx.foldl (fun m x => match m with
    | some o => some o
    | none => (itemFault s x.1).map (· + 16 * x.2)) none

/-! ## Configuration with staged items -/

/-- One staged item applied. -/
def Conf.applyItem (c : Conf) (x : StagedItem) : Conf :=
  match x.item with
  | 0x01 => { c with hsize := x.value }
  | 0x02 => { c with npos := x.value }
  | 0x03 => { c with posDie := c.posDie.set x.index x.value }
  | 0x30 => c.updJob x.index (fun j => { j with mask := x.value })
  | 0x31 => c.updJob x.index (fun j => { j with pbase := x.value % 256, psize := x.value / 256 })
  | 0x36 => c.updJob x.index (fun j => { j with enable := x.value == 1 })
  | _ => c

/-- The configuration that all staged items give. -/
def Conf.result (c : Conf) (items : List StagedItem) : Conf := items.foldl Conf.applyItem c

/-- The staged items among the entries of a table. -/
def stagedOf (l : List CfgItem) : List StagedItem := (l.filter (fun x => isStaged x.item)).map (fun x => ⟨x.item, x.index, x.value⟩)

/-- HSIZE in MiB (Table 9.2). -/
def hsizeMib (code : Nat) : Nat := 8 * 2 ^ code

/-- Two enabled jobs agree with R298. -/
def placedWith (a b : Job) : Bool :=
  if samePlacement a b then a.mask == b.mask && a.pbase == b.pbase && a.psize == b.psize
  else decide (a.pbase + a.psize ≤ b.pbase) || decide (b.pbase + b.psize ≤ a.pbase)

/-- The placements of a configuration are legal (R298). -/
def Conf.placed (c : Conf) : Bool :=
  let on := (c.jobs.zipIdx).filter (fun j => j.1.enabled)
  on.all (fun j => decide (j.1.pbase + j.1.psize ≤ 248 - hsizeMib c.hsize) &&
    on.all (fun k => j.2 == k.2 || placedWith j.1 k.1))

/-- Whether another job than `i`, among those that `p` selects, is active in its placement. -/
def mateActive (js : List Job) (i : Nat) (p : Nat → Bool) : Bool :=
  js.zipIdx.any (fun k => k.2 != i && p k.2 && k.1.enabled && k.1.active && samePlacement k.1 (js.getD i Job.reset))

/-- Whether the placement of job `i` is being handed over: it or another of its jobs has been saved and no job restored since. -/
def handedOver (js : List Job) (i : Nat) : Bool :=
  js.zipIdx.any (fun k => k.1.saving && (k.2 == i || (k.1.enabled && samePlacement k.1 (js.getD i Job.reset))))

/-- Active jobs that are no longer enabled, or whose placement has an active job that was enabled before them (those of `seen`) or is being handed over,
become inactive. -/
def deactivate : List Nat → List Nat → List Job → List Job
  | [], _, js => js
  | i :: r, seen, js => deactivate r (i :: seen) (js.modify i (fun j =>
      if mateActive js i (fun k => seen.contains k) || handedOver js i then { j with active := false } else j))

/-- An enabled job of a placement without an active job becomes active: the first one enabled; at one barrier, the lowest (R301, log 24). One that a
save has switched out is selected to be restored from its area instead (R311), and none while the placement is handed over. -/
def activate : List Nat → List Job → List Job
  | [], js => js
  | i :: r, js => activate r (js.modify i (fun j =>
      if j.enabled && !mateActive js i (fun _ => true) && !handedOver js i then
        (if j.image.isSome then { j with saving := true, incoming := some i, saveClient := 65537 } else { j with active := true })
      else j))

/-- The enabled jobs in the order in which they became so; at one barrier, ascending (log 24). -/
def Conf.order (c : Conf) : List Nat :=
  let on := fun (i : Nat) => (c.job i).enabled
  c.enabledOrder.filter on ++ (List.range 8).filter (fun i => on i && !c.enabledOrder.contains i)

/-- The configuration with its active jobs settled (R301). -/
def Conf.settle (c : Conf) : Conf :=
  let js := c.jobs.map (fun j => if j.enabled then j else { j with active := false })
  { c with enabledOrder := c.order, jobs := activate c.order (deactivate c.order [] js) }

/-- The jobs that are active in `d` and were not in `c`. -/
def newActive (c d : Conf) : List Nat := (List.range 8).filter (fun j => (d.job j).active && !(c.job j).active)

end Sys2Proof.Machine
end

