-- ==== Sys2Proof/Machine/Reading.lean ====
section
/-!
DEFINITION. PACKET_READ (R269, R282, R286, R436): the next packet of a queue is read and judged by check 1, the entries of a command's own
tables included (reasons 0x0D and 0x0E). The body check of a `LOOP` (R295), the count of a `REDUCE` under `ROOT`, and what a `CFG` and a
`RESTORE` find in the engine's state wait until the command is ready (log 25).
-/
namespace Sys2Proof.Machine

/-! ## Tables of a command's own (reason 0x0E) -/

/-- An entry of a `GNORM` leaf list is illegal (R262, Table 10.5). -/
def leafBad (w : Nat) : Bool :=
  decide (1 < bf w 0 2) || (bf w 0 2 == 0 && bf w 2 4 == 0) || bf w 28 36 != 0 ||
  (bf w 0 2 == 1 && (bf w 64 48 % 8 != 0 || bf w 112 16 == 0))

/-- A `GNORM` with an illegal list, `CLIP` or `EPS` (R262, R263). -/
def gnormBad (c : Cmd) : Bool :=
  !finitePos (BitVec.ofNat 32 (c.pf 2 0 32)) || !finiteNonNeg (BitVec.ofNat 32 (c.pf 2 32 32)) ||
  c.leaves.any leafBad

/-- A `MERGE` of an open pool whose header is illegal (R437). -/
def mergeBad (s : State) (c : Cmd) : Bool :=
  let pool := c.pf 2 0 48
  let tab := parseDesc (dieLe s.mem s.extent pool 64)
  let flag := dieLe s.mem s.extent (pool + 64) 8
  bit flag 0 &&
    ((tab.faults 1 1 true).any (·.2) || tab.fmt != 9 || tab.ralias || tab.cols % 64 != 0 || decide (tab.cols < 64) ||
     decide (65536 < tab.cols) || bf flag 1 7 == 0 || bf flag 8 56 != 0 || dieLe s.mem s.extent (pool + 72) 8 == 0)

/-- An `XGRAD` outside R238: rows of `DYD` other than E × C, or a row of X longer than 131,072 B. -/
def xgradBad (c : Cmd) : Bool := (c.d 1).rows != c.xE * c.xCap || decide (131072 < (c.d 0).rowBytes)

/-- A counter-table entry of a `RUNP` is illegal (R112). -/
def counterBad (w : Nat) : Bool := bf w 32 21 == 0 || decide (1048576 < bf w 32 21) || bf w 53 11 != 0

/-- A `RUNP` outside R112. -/
def runpBad (s : State) (c : Cmd) : Bool :=
  let len := c.pf 1 0 14
  len == 0 || decide (8192 < len) || decide (len ≤ c.pf 1 16 13) || c.pf 4 0 48 == 0 || c.pf 5 0 40 == 0 ||
  (List.range (c.pf 3 48 5)).any (fun i => counterBad (dieLe s.mem s.extent (c.pf 3 0 48 + 8 * i) 8))

/-- Bytes of a save area (Table 12.2). -/
def saveBytes (j : Job) : Nat := 65536 + 3735552 * j.cores.length + j.psize * 1048576

/-- The area that a `SAVE` writes (R311). -/
def saveArea (s : State) (c : Cmd) : Nat × Nat :=
  if c.pf 0 0 48 = 0 ∧ c.pf 1 0 40 = 0 then ((s.conf.job c.job).saveBase, (s.conf.job c.job).saveSize) else (c.pf 0 0 48, c.pf 1 0 40)

/-- Counts of a Daymark header: queues, streams, export entries, tensor IDs, clients (Table 15.3). -/
structure DmCounts where
  qs : Nat
  xs : Nat
  es : Nat
  partner : Nat
  povr : Bool
  tidBase : Nat
  tids : Nat
  clBase : Nat
  cls : Nat
  deriving DecidableEq, Repr

/-- The software part of an area's header. -/
def dmCounts (s : State) (area : Nat) : DmCounts :=
  let a := dieLe s.mem s.extent (area + 256) 8
  let b := dieLe s.mem s.extent (area + 264) 8
  let d := dieLe s.mem s.extent (area + 272) 8
  ⟨bf a 0 10, bf a 10 9, bf a 19 5, bf a 24 4, bit a 28, bf b 0 16, bf b 16 17, bf d 0 16, bf d 16 17⟩

/-- `SIZE` of the layout of Table 15.2. -/
def dmBytes (k : DmCounts) : Nat := 20480 + 512 * k.qs + 80 * k.tids + 8 * k.cls + 64 * (k.cls + 1) + 16 * k.xs

/-- Queue i of an area's list. -/
def dmQueue (s : State) (area i : Nat) : Nat := bf (dieLe s.mem s.extent (area + 4096 + 8 * i) 8) 0 22

/-- External stream i of an area's list: counter word, position word, `RATE`. -/
def dmStream (s : State) (area i : Nat) : Nat × Nat × Nat :=
  let w := dieLe s.mem s.extent (area + 8192 + 32 * i) 32
  (bf w 0 48, bf w 64 48, bf w 128 32)

/-- Job of a queue: of its resident context, else of the one in memory. -/
def jobOfQueue (s : State) (q : Nat) : Nat :=
  match s.q.find q with
  | some r => r.ctx.job
  | none => (memCtx s q).job

/-- Whether a byte other than 0 lies in [a, a + n) of the die's memory. -/
def anyByte (s : State) (a n : Nat) : Bool := s.mem.cells.any (fun c => decide (a ≤ c.1 ∧ c.1 < a + n ∧ c.1 < s.extent) && c.2 != 0)

/-- Reserved bits of the header and the lists that are set, and bytes of the header that no field takes (R7, Table 15.3). -/
def dmReserved (s : State) (area : Nat) (k : DmCounts) : Bool :=
  anyByte s (area + 6) 2 || anyByte s (area + 14) 2 || anyByte s (area + 26) 6 || anyByte s (area + 37) 3 ||
  anyByte s (area + 48) 208 || anyByte s (area + 280) 104 || anyByte s (area + 768) 3328 ||
  bf (dieLe s.mem s.extent (area + 256) 8) 29 35 != 0 || bf (dieLe s.mem s.extent (area + 264) 8) 33 31 != 0 ||
  bf (dieLe s.mem s.extent (area + 272) 8) 33 31 != 0 ||
  (List.range k.qs).any (fun i => bf (dieLe s.mem s.extent (area + 4096 + 8 * i) 8) 22 42 != 0) ||
  (List.range k.xs).any (fun i => let w := dieLe s.mem s.extent (area + 8192 + 32 * i) 32; bf w 48 16 != 0 || bf w 112 16 != 0 || bf w 160 96 != 0) ||
  (List.range k.es).any (fun e => (List.range 3).any (fun f => bf (dieLe s.mem s.extent (area + 384 + 24 * e + 8 * f) 8) 48 16 != 0))

/-- A `DAYMARK` outside R366. -/
def daymarkBad (s : State) (c : Cmd) : Bool :=
  let area := c.pf 0 0 48
  let k := dmCounts s area
  decide (c.pf 1 0 40 < dmBytes k) || k.qs == 0 || decide (512 < k.qs) || decide (256 < k.xs) || decide (16 < k.es) ||
  (decide (7 < k.partner) && k.partner != 15) || decide (65536 < k.tids) || decide (65536 < k.cls) ||
  decide (65536 < k.tidBase + k.tids) || decide (65536 < k.clBase + k.cls) || dmReserved s area k ||
  (List.range k.xs).any (fun i => (dmStream s area i).2.2 == 0) ||
  (List.range k.qs).any (fun i => jobOfQueue s (dmQueue s area i) != c.job)

/-- A code-group entry (Table 15.5). -/
structure Group where
  pkind : Nat
  rebuild : Bool
  dmask : Nat
  hp : Nat
  hq : Nat
  gid : Nat
  la : Nat
  lb : Nat
  lbv : Bool
  plost : Bool
  qlost : Bool
  saddr : Nat
  paddr : Nat
  qaddr : Nat
  slen : Nat
  raddr : Nat
  rbaddr : Nat
  rsv : Nat
  deriving DecidableEq, Repr

/-- Entry spelled by 512 bits. -/
def parseGroup (w : Nat) : Group :=
  ⟨bf w 0 2, bit w 2, bf w 8 8, bf w 16 3, bf w 20 3, bf w 24 8, bf w 32 3, bf w 35 3, bit w 38, bit w 39, bit w 40, bf w 64 48, bf w 128 48,
   bf w 192 48, bf w 256 40, bf w 304 48, bf w 368 48,
   bf w 3 5 + bf w 19 1 + bf w 23 1 + bf w 41 23 + bf w 112 16 + bf w 176 16 + bf w 240 16 + bf w 296 8 + bf w 352 16 + bf w 416 96⟩

/-- Entry i of a `PARITY`. -/
def groupAt (s : State) (c : Cmd) (i : Nat) : Group := parseGroup (dieLe s.mem s.extent (c.pf 0 0 48 + 64 + 64 * i) 64)

/-- The positions that hold the data of a group, by data index (Table 15.5). -/
def Group.data (g : Group) : List Nat := bitsOf g.dmask 8

/-- A code-group entry is illegal (R372); rebuild losses are those of Table 15.7. -/
def Group.bad (g : Group) (n : Nat) : Bool :=
  let k := g.data.length
  g.rsv != 0 || g.pkind == 0 || g.pkind == 3 || g.dmask == 0 || g.data.any (fun p => decide (n ≤ p)) ||
  bit g.dmask g.hp || decide (n ≤ g.hp) || (g.pkind == 2 && (bit g.dmask g.hq || decide (n ≤ g.hq) || g.hp == g.hq)) ||
  g.slen == 0 || g.slen % 16 != 0 ||
  (g.rebuild && (decide (k ≤ g.la) || (g.lbv && (decide (k ≤ g.lb) || g.la == g.lb)) ||
    (if g.pkind = 1 then g.lbv || g.plost else if g.lbv then g.plost || g.qlost else g.plost && g.qlost)))

/-- A `PARITY` outside R372. -/
def parityBad (s : State) (c : Cmd) : Bool :=
  let n := c.pf 1 0 16
  n == 0 || decide (4096 < n) || dieLe s.mem s.extent (c.pf 0 0 48 + 4) 60 != 0 ||
  (List.range n).any (fun i => (groupAt s c i).bad s.conf.npos)

/-- Reasons 0x0D and 0x0E. -/
def ownWhy (s : State) (c : Cmd) : Option Why :=
  match c.op with
  | 0x70 => (itemsFault s c).map (fun o => ⟨0x0D, 0xFF, o⟩)
  | 0x49 => if gnormBad c then some ⟨0x0E, 0xFF, 0xFFFF⟩ else none
  | 0x32 => if mergeBad s c then some ⟨0x0E, 0xFF, 0xFFFF⟩ else none
  | 0x31 => if xgradBad c then some ⟨0x0E, 0xFF, 0xFFFF⟩ else none
  | 0x58 => if runpBad s c then some ⟨0x0E, 0xFF, 0xFFFF⟩ else none
  | 0x60 => if decide ((saveArea s c).2 < saveBytes (s.conf.job c.job)) then some ⟨0x0E, 0xFF, 0xFFFF⟩ else none
  | 0x62 => if daymarkBad s c then some ⟨0x0E, 0xFF, 0xFFFF⟩ else none
  | 0x63 => if parityBad s c then some ⟨0x0E, 0xFF, 0xFFFF⟩ else none
  | _ => none

/-! ## Reading a packet -/

/-- The leaf list that the packet of a `GNORM` names, one number an entry (Table 10.5). -/
def readLeaves (s : State) (w fmt : Nat) : List Nat :=
  let ps := pkParamWords fmt w
  (List.range (bf (ps.getD 0 0).toNat 0 11)).map (fun i => dieLe s.mem s.extent (bf (ps.getD 1 0).toNat 0 48 + 16 * i) 16)

/-- The command of a packet, before its checks. -/
def cmdOf (s : State) (x : QRes) (ring w : Nat) : Cmd :=
  let fmt := x.ctx.pkfmt
  let n := bf w 176 4
  let ldp := bf w 184 1
  let dtab := bf w 128 48
  { qid := x.qid, job := x.ctx.job, seq := BitVec.ofNat 32 (bf w 32 32), ring := ring, op := bf w 8 8, irq := bit w 16, gend := bit w 17,
    early := bit w 18, client := bf w 64 16, step := bf w 80 48, dtab := dtab, wdecl := if fmt = 2 then bf w 192 48 else 0,
    params := pkParamWords fmt w,
    descs := (List.range n).map (fun i => parseDesc (dieLe s.mem s.extent (dtab + 64 * i) 64)),
    loopd := if ldp = 1 then some (parseLoop (dieLe s.mem s.extent (dtab + 64 * n) 32)) else none,
    binds := (List.range (bf w 180 4)).map (fun j => parseBinding (dieLe s.mem s.extent (dtab + 64 * n + 32 * ldp + 32 * j) 32)),
    stage := .read, refusal := none, conds := [], infF := false, nanF := false, exc := none, amaxOut := [], colsMem := false, normLeaves := [],
    result := none, trip := 0, spillCs := 0, spillMem := 0, weak := false, loopb := false, skip := false, iter := 0, lastBody := true,
    chain := if x.chainLeft = 2 then 1 else if x.chainLeft = 1 then 2 else 0, ring2 := if x.chainLeft = 0 then 0 else x.chainRing, cseqAdd := 0,
    wt := x.chainLeft != 0 && x.chainWt, units := 0, folded := 0, foldUnits := 0, retries := 0, runs := [], staged := [], held := [], seed := 0,
    margins := [], scales := [], tags := [], leaves := if bf w 8 8 = 0x49 then readLeaves s w fmt else [], rd := tableBytes n ldp (bf w 180 4), wr := 0, energy := 0,
    owedR := 0, owedNs := 0, owedE := 0, adv := true, mute := false }

/-- Mask of the logical cores of a job. -/
def coreMask (j : Job) : Nat := j.cores.foldl (fun m l => m + 2 ^ l) 0

/-- The packet at ring entry `ring` of a queue: its bits, and what the packet alone shows of check 1. -/
def packetAt (s : State) (x : QRes) (ring : Nat) (want : Option (BitVec 32)) : Nat × Option Why :=
  let fmt := x.ctx.pkfmt
  let bytes := dieBytes s.mem s.extent (x.ctx.rbase + pkBytes fmt * ring) (pkBytes fmt)
  let w := ofLe bytes
  (w, packetWhys s.extent fmt w bytes want x.qid (cmdOf s x ring w).chain)

/-- Check 1 on the packet at ring entry `ring` of a queue. -/
def judge (s : State) (x : QRes) (ring : Nat) (want : Option (BitVec 32)) : Cmd × Option Why :=
  let p := packetAt s x ring want
  let w := p.1
  let c := cmdOf s x ring w
  let after := c.dtab + 64 * c.descs.length
  let lw := dieLe s.mem s.extent after 32
  let bws := (List.range c.binds.length).map (fun j => dieLe s.mem s.extent (after + 32 * bf w 184 1 + 32 * j) 32)
  (c, p.2.or ((c.tableWhy lw bws (coreMask (s.conf.job c.job))).or (ownWhy s c)))

/-- The Keeper's firmware runs and boot has completed (R333). -/
def admissionOpen (s : State) : Bool := keeperRuns s && s.boot.phase == 5

/-- Body length of the active `LOOP`, and its iterations; a trip count of 0 skips the body once. -/
def bodyLen (x : QRes) : Nat := x.ctx.loopBodyM1 + 1
def bodyRuns (x : QRes) : Nat := if x.ctx.loopT = 0 then 1 else x.ctx.loopT

/-- Ring entry of the next packet, if one may be read: in a `LOOP` the next body packet, otherwise the one at `HEAD`. A legal `LOOP` that
has not run holds back the packets behind it (R294). -/
def nextEntry (s : State) (x : QRes) : Option Nat :=
  if x.ctx.state != .on then none
  else if s.q.cmds.any (fun c => c.qid == x.qid && c.op == 0x52 && (c.stage == .read || c.stage == .admitted || c.stage == .started)) then none
  else if x.ctx.loopActive then
    (if x.loopPos < bodyLen x then some ((x.ctx.loopBody + x.loopPos) % 2 ^ x.ctx.rlog2) else none)
  else if x.ctx.head = x.ctx.tail then none else some x.ctx.head

/-- The queue after a packet has been read: `HEAD`, `NEXTSEQ`, the place in a `LOOP` body and in a `CHAIN`. -/
def QRes.afterRead (x : QRes) (c : Cmd) (adv : Bool) (verdict : Option Cond) : QRes :=
  let seq := if adv then x.ctx.nextSeq + 1 else x.ctx.nextSeq
  let left := if c.op = 0x59 ∧ verdict.isNone = true ∧ c.skip = false then 2 else x.chainLeft - 1
  let y := { x with
    chainLeft := left
    chainRing := if left = 2 then c.pf 0 0 7 else x.chainRing
    chainWt := if left = 2 then c.pb 0 7 else x.chainWt }
  if x.ctx.loopActive then
    let last := x.loopPos + 1 = bodyLen x ∧ x.ctx.loopIter + 1 < bodyRuns x
    { y with
      loopPos := if last then 0 else x.loopPos + 1
      judged := match verdict with
        | some k => if x.ctx.loopIter = 0 then x.judged ++ [(x.loopPos, k)] else x.judged
        | none => x.judged
      ctx := { x.ctx with nextSeq := seq, loopIter := if last then x.ctx.loopIter + 1 else x.ctx.loopIter } }
  else { y with ctx := { x.ctx with nextSeq := seq, head := (x.ctx.head + 1) % 2 ^ x.ctx.rlog2 } }

/-- What a body packet has beyond an ordinary one in iteration i (R294). -/
def Cmd.inBody (c : Cmd) (x : QRes) : Cmd :=
  if x.ctx.loopActive then
    let i := x.ctx.loopIter
    { c with
      loopb := true
      skip := x.ctx.loopT == 0
      iter := i
      lastBody := decide (x.loopPos + 1 = bodyLen x) && decide (i + 1 = bodyRuns x)
      step := if x.loopStep then (c.step + i) % 2 ^ 48 else c.step
      cseqAdd := i * x.loopColl }
  else c

/-- Puts a command that has been read behind those of its queue. -/
def pushCmd (s : State) (x : QRes) (c : Cmd) (k : Option Cond) : State :=
  { s with q := { s.q.upd x.qid (fun y => y.afterRead c c.adv k) with cmds := s.q.cmds ++ [c] } }

/-- Takes the packet at ring entry `ring`: a legal one waits for admission, an illegal one for its `IGNORED` reply, and a body packet of a
`LOOP` with trip count 0 for its `SKIP` reply. Legality of a body packet is judged in its first iteration (R295). -/
def takePacket (s : State) (x : QRes) (ring : Nat) : State :=
  let again := x.ctx.loopActive && x.ctx.loopIter != 0
  let j := judge s x ring (if again then none else some x.ctx.nextSeq)
  let c := j.1.inBody x
  if c.skip then pushCmd s x { c with stage := .ended } none
  else
    match (if again then ((x.judged.find? (fun k => k.1 == x.loopPos)).map (·.2)) else none) with
    | some k =>
      let legible := k.first % 256 != 1
      let u := pushCmd s x { c with stage := .refused, refusal := some k, adv := false, irq := c.irq && legible, gend := c.gend && legible } (some k)
      if legible then refuseCollective u c else u
    | none =>
      match (if again then none else j.2) with
      | none => pushCmd s x { c with adv := !again } none
      | some y =>
        let t := illQueue s 0x01 x.qid (BitVec.ofNat 64 (y.reason + c.seq.toNat * 2 ^ 32))
        let k : Cond := ⟨0x7E, y.first, satTo (2 ^ 32 - 1) (x.ctx.illCnt + 1)⟩
        let bad := { c with stage := .refused, refusal := some k, adv := y.reason == 1 || c.seq == x.ctx.nextSeq }
        let u := pushCmd t x { bad with irq := c.irq && y.reason != 1, gend := c.gend && y.reason != 1 } (some k)
        if y.reason = 1 then u else refuseCollective u c

/-- `PACKET_READ` of queue `q`, unless a page fault halts a read of it (R143) or a hold stops it (R389, R392). -/
def packetReadStep (s : State) (q : Nat) : State :=
  match s.q.find q with
  | none => s
  | some x => if !admissionOpen s || !keeperUp s || !fabricUp s || s.tender.ctlHeld (.ring q) || s.tender.ctlHeld (.tables q) then s else match nextEntry s x with
    | none => s
    | some ring => takePacket s x ring

/-- The engine reads a posted packet from a queue's ring and runs check 1 on it (R286). -/
def execPacketRead (q : Nat) (s : State) : Host.Outcome State Fault Refusal := onQueue q (packetReadStep s q)

end Sys2Proof.Machine
end

