-- ==== Sys2Proof/Machine/Ranges.lean ====
section
/-!
DEFINITION. The memory ranges of a command (R287), its alias check (R173, R175, R213), its `CHAIN` share (R108, R134) and the feed-group
check (R371).
-/
namespace Sys2Proof.Machine

/-! ## Descriptors -/

/-- The output that an epilogue's `E` belongs to. -/
def eOutput (op : Nat) : Role :=
  if op = 0x10 ∨ op = 0x11 then .dx else if op = 0x12 then .dw else if op = 0x13 then .c else .out

/-- The in-place role of `E` (R213) or of a `REDUCE` source (R256): a descriptor identical to the output's. -/
def Cmd.inPlace (c : Cmd) (out input : Role) : Bool :=
  ((input == .e && out == eOutput c.op) || (c.op == 0x48 && input == .src && out == .dst)) &&
    (c.role input).isSome && c.role input == c.role out

/-- Whether the command reads its output of role `r` in place (R287). -/
def Cmd.accumulates (c : Cmd) (r : Role) : Bool :=
  ((r == .dw && (c.op == 0x10 || c.op == 0x31)) || ((c.op == 0x11 || c.op == 0x12 || c.op == 0x13) && c.pb 0 9) ||
    ((r == .dgamma || r == .dbeta) && c.pb 1 1) || (r == .tab) || (c.op == 0x28 && c.pf 1 16 2 == 3)) && writesRole c.op r ||
  c.inPlace r .e || c.inPlace r .src

/-- A range with its kind: 1 read, 2 write, 3 accumulate. -/
abbrev Rng := (Int × Int) × Nat

/-- The Light list from the entry at `a`, as memory holds it: the lowest and the highest byte of its entries, and of the zero-map bits that they name
(R287). A list that has left the die's memory names nothing more, and one that comes back to an entry nothing new, so with `n` the number of entries
that the memory can hold the walk meets every one. Non-zero reserved bits of an entry (Table 6.2 [63:52], [255:160]) are ignored: no reason of Table
11.7 names a list, which is no field of the packet or of its table (DESIGN CHOICE, log 101). -/
def listSpan (mem : Memory) (ext zmap : Nat) : Nat → Nat → (Option (Nat × Nat) × Option (Nat × Nat)) → (Option (Nat × Nat) × Option (Nat × Nat))
  | 0, _, r => r
  | n + 1, a, r =>
    let grow := fun (o : Option (Nat × Nat)) (lo hi : Nat) => match o with
      | some p => some (Nat.min p.1 lo, Nat.max p.2 hi)
      | none => some (lo, hi)
    let w := dieLe mem ext a 32
    let z := bf w 128 32
    let l := grow r.1 a (a + 32)
    if ext ≤ a then r else
    match bf w 48 4 with
    | 0 => listSpan mem ext zmap n (a + 32) (l, if zmap = 0 ∨ z = 0xFFFFFFFF then r.2 else grow r.2 (zmap + z / 8) (zmap + z / 8 + 1))
    | 1 => if bf w 0 48 % 32 = 0 then listSpan mem ext zmap n (bf w 0 48) (l, r.2) else (l, r.2)
    | 3 => listSpan mem ext zmap n (a + 32) (l, r.2)
    | _ => (l, r.2)

/-- The ranges of a binding's Light list and zero map, as they stand at admission (log 98). -/
def bindRanges (s : State) (b : Binding) : List Rng :=
  let r := listSpan s.mem s.extent b.zmap (s.extent / 32 + 1) b.list (none, none)
  (r.1.toList ++ r.2.toList).map (fun x => (((x.1 : Int), (x.2 : Int)), 1))

/-- A range of bytes from an address. -/
def rngAt (kind addr n : Nat) : Rng := (((addr : Int), (addr : Int) + (n : Int)), kind)

/-- The span of a descriptor's block scales (R182). -/
def Desc.scaleSpan (d : Desc) : Int × Int :=
  let rows := if d.kdir then cdiv d.rows 32 else d.rows
  let cols := if d.kdir then d.cols else cdiv d.cols 32
  let r := spanDim rows d.scStride
  (d.scBase + r.1, d.scBase + r.2 + (cols : Nat))

/-- The ranges of the descriptor of role `r`; an in-place input is covered by its output. -/
def Cmd.roleRanges (c : Cmd) (r : Role) : List Rng :=
  match c.role r with
  | none => []
  | some d =>
    let nb := c.roleNbs r
    let kind := if !writesRole c.op r then 1 else if c.accumulates r then 3 else 2
    if c.inPlace (eOutput c.op) r || c.inPlace .dst r then []
    else (d.span nb.1 nb.2, kind) :: (if d.bsc then [(d.scaleSpan, if kind = 1 then 1 else 2)] else [])

/-! ## Lists, regions, pools, spans -/

/-- A memory spill or partial region. -/
def regionRange (c : Cmd) (k : Nat) : List Rng :=
  if c.pf k 0 48 = 0 ∨ c.pf (k + 1) 0 40 = 0 then [] else [rngAt 2 (c.pf k 0 48) (c.pf (k + 1) 0 40)]

/-- Bytes of a zero map of a descriptor with `items` items (R245). -/
def zmapBytes (d : Desc) (items : Nat) : Nat := cdiv (items * (cdiv d.rows 32 * d.regionCols)) 8

/-- A zero map at an address, none where it is 0. -/
def zmapRange (kind addr : Nat) (d : Desc) (items : Nat) : List Rng := if addr = 0 then [] else [rngAt kind addr (zmapBytes d items)]

/-- Span of 2:4 metadata: `rows` rows of `k` indices, signed row stride (R247). -/
def metaRange (kind addr : Nat) (stride : Int) (rows k : Nat) : List Rng :=
  let r := spanDim rows stride
  [(((addr : Int) + r.1, (addr : Int) + r.2 + (cdiv (cdiv k 4) 2 : Nat)), kind)]

/-- Bytes of the list of an `XGRAD`: its expert words and the tokens they reach. -/
def slistBytes (s : State) (c : Cmd) : Nat :=
  8 * c.xE + 4 * (List.range c.xE).foldl (fun m e => Nat.max m (xStart s s.mem c e + xCount s s.mem c e)) 0

/-- Ranges of the leaves of a `GNORM` (Table 10.5). -/
def leafRanges (c : Cmd) : List Rng :=
  c.leaves.flatMap (fun w => if bf w 0 2 = 1 then [rngAt 1 (bf w 64 48) (8 * bf w 112 16)] else [])

/-- Positions that write a result of a code-group entry, with the address: P and Q, or the rebuilt shards. -/
def Group.dests (g : Group) : List (Nat × Nat) :=
  if g.rebuild then [(g.data.getD g.la 8, g.raddr)] ++ (if g.lbv then [(g.data.getD g.lb 8, g.rbaddr)] else [])
  else [(g.hp, g.paddr)] ++ (if g.pkind = 2 then [(g.hq, g.qaddr)] else [])

/-- Whether position `p` supplies bytes to an entry: a surviving data shard, or P or Q of a rebuild. -/
def Group.reads (g : Group) (p : Nat) : List Nat :=
  (if bit g.dmask p && !(g.rebuild && (g.dests.any (fun d => d.1 == p))) then [g.saddr] else []) ++
  (if g.rebuild && p == g.hp && !g.plost then [g.paddr] else []) ++
  (if g.rebuild && g.pkind == 2 && p == g.hq && (g.lbv || g.plost) then [g.qaddr] else [])

/-- Ranges of a `PARITY`: every shard read and every destination with its stamp (R377). -/
def parityRanges (s : State) (c : Cmd) : List Rng :=
  rngAt 1 (c.pf 0 0 48) (64 + 64 * c.pf 1 0 16) :: (match position s with
    | none => []
    | some p => (List.range (c.pf 1 0 16)).flatMap (fun i =>
      let g := groupAt s c i
      (g.reads p).map (fun a => rngAt 1 a g.slen) ++
      (g.dests.filter (fun d => d.1 == p)).map (fun d => rngAt 2 d.2 (if g.rebuild then g.slen else g.slen + 64))))

/-- Export entry e of a Daymark area: source, destination, length. -/
def dmExport (s : State) (area e : Nat) : Nat × Nat × Nat :=
  (dieLe s.mem s.extent (area + 384 + 24 * e) 6, dieLe s.mem s.extent (area + 392 + 24 * e) 6, dieLe s.mem s.extent (area + 400 + 24 * e) 6)

/-- Ranges that no descriptor names. -/
def Cmd.ownRanges (s : State) (c : Cmd) : List Rng :=
  let e := eOutput c.op
  let out := (c.role e).getD Desc.none
  let items := c.nbs.1 * c.nbs.2
  if isProduct c.op then
    regionRange c 2 ++ (if c.op = 0x10 then regionRange c 4 else []) ++
    (if (c.op = 0x10 ∨ c.op = 0x12) ∧ c.pf 0 7 2 ≠ 0 then [rngAt 1 (c.pf 1 0 48) (maskBytes c)] else []) ++
    (if c.op = 0x12 then [] else zmapRange 2 (c.pf 6 0 48) out items) ++ zmapRange 1 (c.pf 7 0 48) (c.d (c.pf 7 48 4)) items ++
    (if c.op = 0x11 ∧ c.pb 0 10 = true then metaRange 1 (c.pf 8 0 48) (sext 32 (c.pf 9 0 32)) (c.d 1).rows (c.d 0).cols else [])
  else if isLayer c.op then
    regionRange c 6 ++ (if c.pf 4 0 48 = 0 then [] else [rngAt 1 (c.pf 4 0 48) (4 * (items * (c.d 0).rows))]) ++
    (if c.op = 0x22 ∨ c.op = 0x28 then zmapRange 2 (c.pf 5 0 48) out items else [])
  else match c.op with
    | 0x30 => [rngAt 1 (c.pf 1 0 48) (4 * c.pf 0 0 32), rngAt 3 (c.pf 2 0 48) (c.pf 3 0 40)]
    | 0x31 => rngAt 1 (c.pf 1 0 48) (slistBytes s c) :: (regionRange c 2 ++
        (if c.pf 4 0 48 = 0 then [] else [rngAt 2 (c.pf 4 0 48) c.xE]) ++ (if c.pf 5 0 48 = 0 then [] else [rngAt 2 (c.pf 5 0 48) (8 * c.xE)]))
    | 0x32 =>
      let pool := c.pf 2 0 48
      let tab := parseDesc (dieLe s.mem s.extent pool 64)
      [rngAt 3 pool (65536 * Nat.max 1 (dieLe s.mem s.extent (pool + 72) 8))] ++
        (if bit (dieLe s.mem s.extent (pool + 64) 8) 0 then [(tab.span 1 1, 3)] else [])
    | 0x38 => metaRange 2 (c.pf 0 0 48) (sext 32 (c.pf 1 0 32)) (c.d 0).rows (c.d 0).cols
    | 0x40 => regionRange c 4 ++ (if 2 ≤ c.lmode then [rngAt 1 (c.pf 2 0 48) (8 * c.llen)] else [])
    | 0x41 => [rngAt 1 (c.pf 0 0 48) (c.pf 2 0 48), rngAt 2 (c.pf 1 0 48) (c.pf 2 0 48)]
    | 0x49 => [rngAt 1 (c.pf 1 0 48) (16 * c.pf 0 0 11), rngAt 2 (c.pf 3 0 48) 16] ++ leafRanges c
    | 0x52 => [rngAt 1 (c.pf 0 0 48) 4]
    | 0x53 => [rngAt 1 (c.pf 0 0 48) 8]
    | 0x58 => [rngAt 1 (c.pf 0 0 48) (8 * c.pf 1 0 14), rngAt 1 (c.pf 2 0 48) (c.pf 1 32 9), rngAt 1 (c.pf 3 0 48) (8 * c.pf 3 48 5),
        rngAt 2 (c.pf 4 0 48) (c.pf 5 0 40)] ++ c.binds.flatMap (bindRanges s)
    | 0x60 => [rngAt 2 (saveArea s c).1 (saveArea s c).2]
    | 0x61 => [rngAt 1 (c.pf 0 0 48) (c.pf 1 0 40)]
    | 0x62 => rngAt 2 (c.pf 0 0 48) (c.pf 1 0 40) :: (if c.pb 2 0 then (List.range (dmCounts s (c.pf 0 0 48)).es).flatMap (fun i =>
        let x := dmExport s (c.pf 0 0 48) i
        [rngAt 1 x.1 x.2.2, rngAt 2 x.2.1 x.2.2]) else [])
    | 0x63 => parityRanges s c
    | 0x70 => [rngAt 1 (c.pf 0 0 48) (16 * (c.pf 0 48 8 + 1))]
    | _ => []

/-- Every memory range of a command (R287), none empty. -/
def Cmd.ranges (s : State) (c : Cmd) : List Rng :=
  (c.roles.flatMap c.roleRanges ++ c.ownRanges s).filter (fun r => decide (r.1.1 < r.1.2) && decide (0 < r.1.2))

/-- The table entries of a command (R287). -/
def Cmd.entries (s : State) (c : Cmd) (slot : Nat) : List IttEntry :=
  (c.ranges s).map (fun r => ⟨r.1.1.toNat, r.1.2.toNat, r.2, c.qid, c.seq, slot, c.tag⟩)

/-! ## Check 3: aliasing -/

/-- The roles that a command writes. -/
def Cmd.outs (c : Cmd) : List Role := c.roles.filter (writesRole c.op)

/-- The roles that a command reads, its in-place outputs included. -/
def Cmd.reads (c : Cmd) : List Role := c.roles.filter (fun r => !writesRole c.op r || c.accumulates r)

/-- Span of a role's descriptor. -/
def Cmd.roleSpan (c : Cmd) (r : Role) : Int × Int := ((c.role r).getD Desc.none).span (c.roleNbs r).1 (c.roleNbs r).2

/-- Whether an entry of a `DAYMARK`'s export list has source and destination ranges that overlap: it copies as a `COPY` does (R369, R273). -/
def exportMeets (s : State) (c : Cmd) : Bool :=
  c.op == 0x62 && c.pb 2 0 && (List.range (dmCounts s (c.pf 0 0 48)).es).any (fun i =>
    let x := dmExport s (c.pf 0 0 48) i
    x.2.2 != 0 && meets (rngAt 1 x.1 x.2.2).1 (rngAt 1 x.2.1 x.2.2).1)

/-- `FIRST` of the first `ALIAS` of a command: the check of R173 on each write descriptor, then the overlaps of R175: of the write descriptors, and of
the write ranges that belong to no descriptor. -/
def aliasWhy (s : State) (c : Cmd) : Option Nat :=
  if c.op = 0x42 then none
  else if c.op = 0x41 then
    (if meets (rngAt 1 (c.pf 0 0 48) (c.pf 2 0 48)).1 (rngAt 1 (c.pf 1 0 48) (c.pf 2 0 48)).1 then some (0xEE + 0xFF * 256) else none)
  else
    let self := c.outs.filterMap (fun r =>
      let d := (c.role r).getD Desc.none
      if d.ralias then none else (aliasCheck d (c.roleNbs r).1 (c.roleNbs r).2).map (· + 256 * c.pos r))
    let ovr := c.outs.filterMap (fun r =>
      if c.reads.any (fun x => x != r && !c.inPlace r x && meets (c.roleSpan r) (c.roleSpan x)) then some (0xEE + 256 * c.pos r) else none)
    let own := if (c.ownRanges s).any (fun p => p.2 != 1 && c.reads.any (fun x => meets p.1 (c.roleSpan x))) || exportMeets s c then [0xEE + 0xFF * 256]
      else []
    (self ++ ovr ++ own).head?

/-! ## Check 4: feed groups (R371) -/

/-- The feed set of a die. -/
def feedSet (f : Conf) (die : Nat) : List Nat :=
  f.dieTags.getD die 0 :: (List.range 4).map (fun k =>
    let t := f.stackTags.getD (4 * die + k) 0
    if bit t 4 then f.dieTags.getD die 0 else t % 16)

/-- Whether two dies share a feed group. -/
def feedsMeet (f : Conf) (a b : Nat) : Bool := (feedSet f a).any (fun g => (feedSet f b).contains g)

/-- The conflicting placements of a command: index of the code-group entry (0xFFFF for a partner), and the first data position it meets. R371 gives
no data position for the partner of a `DAYMARK`, whose data are the engine's own die's: the model puts 0 (DESIGN CHOICE, log 102). -/
def feedConflicts (s : State) (c : Cmd) : List (Nat × Nat) :=
  if c.op = 0x63 then
    (List.range (c.pf 1 0 16)).flatMap (fun i =>
      let g := groupAt s c i
      ([g.hp] ++ (if g.pkind = 2 then [g.hq] else [])).filterMap (fun h =>
        (g.data.find? (fun p => feedsMeet s.conf (s.conf.posDie.getD h 0) (s.conf.posDie.getD p 0))).map (fun p => (i, p))))
  else if c.op = 0x62 then
    let k := dmCounts s (c.pf 0 0 48)
    if k.partner ≠ 15 ∧ feedsMeet s.conf k.partner s.fuses.die = true then [(0xFFFF, 0)] else []
  else []

/-- Whether the command overrides feed conflicts (`POVR`). -/
def feedOverride (s : State) (c : Cmd) : Bool := if c.op = 0x63 then c.pb 1 16 else (dmCounts s (c.pf 0 0 48)).povr

/-- The look-ahead of steps that need these tiles, of `n` tiles in all (R108): over every tile, from it on the tiles that must have come by the time
of its last use, when it can be freed. -/
def lookOf (steps : List (List Nat)) (n : Nat) : Nat :=
  (List.range n).foldl (fun m k =>
    let upto := (steps.reverse.dropWhile (fun l => !l.contains k))
    if upto.isEmpty then m else Nat.max m (upto.flatten.foldl Nat.max 0 + 1 - k)) 0

/-- The look-ahead of a consumer on its producer, the largest of any core. -/
def lookAhead (p c : Cmd) (ro : Role) (d : Desc) (items cc : Nat) : Nat :=
  (List.range cc).foldl (fun m k =>
    let ts := chainTiles p items d.rows d.cols k cc
    let steps := (chainSteps c ro items k cc).map (fun uses =>
      (ts.zipIdx.filter (fun t => (chainElems d items).any (fun x => t.1 x && uses x))).map (·.2))
    Nat.max m (lookOf steps ts.length)) 0

/-- Whether a `CHAIN` pair is rejected (R108): shares that differ on a core, a look-ahead above `RING`, or a `GPAIR` whose super-block does
not cover the layer output width. A pair that chains no tensor of core commands has no equal shares. -/
def chainBadPair (p c : Cmd) (cc : Nat) : Bool :=
  let ranks := List.range cc
  let gp := p.op == 0x10 && p.lp.gpFw != 0 && decide (p.lp.gpFw * 128 < (p.d 2).cols)
  if p.op = 0x58 ∧ c.op = 0x58 then
    p.pf 7 32 16 * p.pf 7 0 32 != c.pf 7 32 16 * c.pf 7 0 32 || decide (p.ring2 < c.pf 7 48 7) ||
    ranks.any (fun k => (List.range (p.pf 7 32 16 * p.pf 7 0 32)).any (fun x => runpCovers p k cc x != runpCovers c k cc x))
  else if p.op = 0x58 then
    let d := c.d 0
    let items := (c.roleNbs (c.roles.headD .x)).1 * (c.roleNbs (c.roles.headD .x)).2
    let ro := c.roles.headD .x
    !(isProduct c.op || isLayer c.op || c.op == 0x31) || decide (p.ring2 < lookAhead p c ro d items cc) ||
    p.pf 7 32 16 * p.pf 7 0 32 != items * d.rows ||
    ranks.any (fun k => (chainElems d items).any (fun x =>
      runpCovers p k cc (x.1 * d.rows + x.2.1) != inShare k cc c.units' (c.unitsOf ro x.1 x.2.1 x.2.2)))
  else
    let po := p.roles.getD (mainOut p) .out
    let d := p.d (mainOut p)
    let items := (p.roleNbs po).1 * (p.roleNbs po).2
    gp || !(isProduct p.op || isLayer p.op || p.op == 0x31) ||
    (if c.op = 0x58 then
      p.ring2 < c.pf 7 48 7 || c.pf 7 32 16 * c.pf 7 0 32 != items * d.rows ||
      ranks.any (fun k => (chainElems d items).any (fun x =>
        inShare k cc p.units' (p.unitsOf po x.1 x.2.1 x.2.2) != runpCovers c k cc (x.1 * d.rows + x.2.1)))
    else match chainedRole d c with
      | none => true
      | some ro => !(isProduct c.op || isLayer c.op || c.op == 0x31) || decide (p.ring2 < lookAhead p c ro d items cc) ||
        ranks.any (fun k => (chainElems d items).any (fun x =>
          inShare k cc p.units' (p.unitsOf po x.1 x.2.1 x.2.2) != inShare k cc c.units' (c.unitsOf ro x.1 x.2.1 x.2.2))))

end Sys2Proof.Machine
end

