-- ==== Sys2Proof/Machine/Admission.lean ====
section
/-!
DEFINITION. ADMISSION (R285-R289, Tables 11.10, 11.11): which command of a job is ready, the checks 2 to 7 with the parts of check 1 that
wait for them, and what an admitted command holds.
-/
namespace Sys2Proof.Machine

/-! ## Stream reserves and the free part of a credit (R162, R438) -/

/-- Least and largest sum of the reserves of a command's streams. Slot sizes and numbers of the operand streams that the Keeper builds are
not given: one stream of one line at least, one stream per core of the largest slot at most, for each tensor or list read (log 27). -/
def reserveBand (s : State) (c : Cmd) : Nat × Nat :=
  let cc := (s.conf.job c.job).cores.length
  let perCore := if c.op = 0x30 ∨ c.op = 0x32 then 196608 * cc else if isCoreOp c.op then 131072 * cc else 0
  let lists :=
    if isProduct c.op then (if c.op = 0x11 ∧ c.pb 0 10 = true then 1 else 0)
    else if isLayer c.op then (if c.pf 4 0 48 = 0 then 0 else 1)
    else if c.op = 0x30 ∨ c.op = 0x31 then 1
    else if c.op = 0x40 then (if 2 ≤ c.lmode then 1 else 0)
    else if c.op = 0x41 ∨ c.op = 0x63 then 1
    else if c.op = 0x62 then b2n (c.pb 2 0)
    else 0
  let n := if c.op = 0x42 then 0 else c.reads.length + lists
  let zmaps := if isProduct c.op ∧ c.pf 7 0 48 ≠ 0 then 8192 else 0
  let fixed :=
    if c.op = 0x58 then (c.binds.map (fun b => 256 * b.slotLines + if b.zmap = 0 then 0 else 8192)).sum
    else if c.op = 0x48 then 65536 + (if (c.role .dst).isSome then 65536 else 0)
    else if c.op = 0x49 ∨ c.op = 0x4A then 65536
    else if c.op = 0x63 then 65536 + (match position s with
      | some p => if (List.range (c.pf 1 0 16)).any (fun i => (groupAt s c i).dests.any (fun d => d.1 == p)) then 65536 else 0
      | none => 0)
    else if c.op = 0x38 ∨ c.op = 0x40 ∨ c.op = 0x41 ∨ c.op = 0x42 ∨ (c.op = 0x62 ∧ c.pb 2 0 = true) then 65536
    else 0
  let base := perCore + fixed
  (base + 256 * n, base + (if isCoreOp c.op then Nat.max 1 cc else 1) * 3145728 * n + cc * zmaps)

/-- The sum of the reserves of a command: a free value in its band, by what its expansion depends on (R56, R141, log 27). -/
def reserveOf (s : State) (c : Cmd) : Nat :=
  let b := reserveBand s c
  if b.1 = b.2 then b.1 else b.1 + Config.reserveExtra (expandKey c (s.conf.job c.job).cores.length) % (b.2 - b.1 + 1)

/-- Whether the reserves of a command fit the free part of its queue's credit. -/
def reservesFit (s : State) (x : QRes) (c : Cmd) : Bool :=
  let held := (s.q.cmds.filter (fun d => d.qid == c.qid && d.inFlight)).map (reserveOf s)
  let own := reserveOf s c
  own == 0 || decide (held.sum + own ≤ x.ctx.credit * 1024)

/-! ## Check 6 -/

/-- The largest share of any core. -/
def maxShare (u cc : Nat) : Nat := (List.range cc).foldl (fun m k => let sh := share k u cc; Nat.max m (sh.2 - sh.1)) 0

/-- L_live (R100, R103, R239). -/
def liveTiles (c : Cmd) (cc : Nat) : Nat :=
  let l := c.lp
  if c.op = 0x10 ∨ c.op = 0x31 then
    let g := maxShare (bandsOf (c.d 0).cols) cc
    let t := if c.op = 0x10 then (c.d 0).rows else c.xCap
    let n := if c.op = 0x10 then (c.d 2).cols else (c.d 1).cols
    let bt := l.gpBt * 128
    let fw := if l.gpFw = 0 then n else l.gpFw * 128
    g * cdiv (Nat.min bt t) 128 + (if c.op = 0x31 ∧ t ≤ bt then 0 else g * cdiv (Nat.min fw n) 128)
  else if l.piece = 0 then 0
  else
    let p := prodOf c
    let mt := maxShare (workUnits l.shape p.m p.n (l.nb1 * l.nb2)) cc
    let nt := gridCols l.shape p.n
    Nat.min (if l.groupM = 0 then mt else l.groupM) mt * Nat.min (if l.groupN = 0 then nt else l.groupN) nt

/-- Bytes of a memory region named at word k; 0 where none is named. -/
def regionBytes (c : Cmd) (k : Nat) : Nat := if c.pf k 0 48 = 0 then 0 else c.pf (k + 1) 0 40

/-- Bytes that the alias folds of a command stage (R174); `RALIAS` has no effect on a `FILL` (R170). -/
def foldBytes (c : Cmd) : Nat :=
  if c.op = 0x42 then 0
  else (c.outs.map (fun r => match c.role r with
    | some d => if d.ralias then 8 * (d.rows * d.cols * ((c.roleNbs r).1 * (c.roleNbs r).2)) else 0
    | none => 0)).sum

/-- Bytes of the split experts of an `XGRAD` (R243). -/
def splitBytes (c : Cmd) : Nat :=
  let th := xTheta (c.d 0)
  if c.op = 0x31 ∧ th < c.xCap then cdiv c.xCap th * ((c.d 2).rows * (c.d 2).cols * 8) else 0

/-- The word that names a command's memory spill region. -/
def spillWord (op : Nat) : Nat := if op = 0x40 then 4 else if isLayer op then 6 else 2

/-- Whether the column pairs of an `NBWD` lie in memory: they do not fit the free part of the partition (R203). -/
def columnsOut (s : State) (c : Cmd) : Bool :=
  let cc := (s.conf.job c.job).cores.length
  c.op == 0x20 && decide (partFree s c.job < (otherFixed c cc + columnBytes c cc : Nat))

/-- No job is enabled: the first `CFG` after a reset has still to place one (log 26). -/
def noJob (s : State) : Bool := s.conf.jobs.all (fun b => !b.enabled)

/-- The first `ADMIT` reason of a command: the span, then a job without a placement, then the rest ascending (log 28). `pairBad` is the
verdict on its `CHAIN` pair. Its own fixed allocations count against what is free (R438); where they do not fit, the reason is 4, the manual
giving none to a ring, a bitmap, an argument block, a staging area or a bucket (DESIGN CHOICE, log 86). An `XGRAD` has no dX partial region to
name, so one with several super-blocks and several token blocks is refused with reason 5 (R104; DEDUCED, log 86). -/
def admitWhy (s : State) (x : QRes) (c : Cmd) (pairBad : Bool) : Option Nat :=
  let b := s.conf.job c.job
  let cc := b.cores.length
  let span := x.ctx.span
  let region := regionBytes c (spillWord c.op)
  let excess := if opHasLoop.contains c.op then liveTiles c cc - 62 - c.lp.spillCs else 0
  let slots := excess * cc * 32768
  let csBytes := if opHasLoop.contains c.op then c.lp.spillCs * cc * 32768 else 0
  let other := otherFixed c cc
  let fw := c.lp.gpFw * 128
  let need := bandsOf (c.d 0).cols * cdiv (c.d 0).rows 128 * 32768
  let cols := if columnsOut s c then columnBytes c cc else 0
  if span ≠ 0 ∧ span < c.wdecl then some 1
  else if span ≠ 0 ∧ c.wdecl = 0 ∧ isCoreOp c.op = true then some 2
  else if !b.enabled then (if c.op = 0x70 ∧ noJob s = true then none else some 0x0F)
  else if !reservesFit s x c then some 3
  else if (excess ≠ 0 ∧ region / cc / 32768 < excess) ∨ partFree s c.job < (csBytes + other : Nat) ∧ csBytes + other ≠ 0 then some 4
  else if c.op = 0x10 ∧ c.lp.gpFw ≠ 0 ∧ fw < (c.d 2).cols ∧ regionBytes c 4 < need then some 5
  else if c.op = 0x31 ∧ c.lp.gpFw ≠ 0 ∧ fw < (c.d 1).cols ∧ c.lp.gpBt * 128 < c.xCap then some 5
  else if pairBad then some 6
  else if foldBytes c ≠ 0 ∧ region < slots + splitBytes c + cols + foldBytes c then some 7
  else if cols ≠ 0 ∧ region < cols then some 8
  else if (c.op = 0x10 ∨ c.op = 0x12) ∧ maskBytes c ≠ 0 ∧ partFree s c.job < (csBytes + other + maskBytes c : Nat) then some 9
  else if c.op = 0x30 ∧ c.pf 3 0 40 < 65536 * (1 + cdiv (c.pf 0 0 32 * ((c.d 0).cols / 64)) 124 + cc) then some 0x0A
  else if ((c.op = 0x30 ∧ c.pb 0 32 = true) ∨ c.op = 0x62) ∧ b.pools ≠ [] then some 0x0B
  else if splitBytes c ≠ 0 ∧ region < slots + splitBytes c then some 0x0C
  else if (isCollective c.op ∨ c.op = 0x63) ∧ (position s).isNone = true then some 0x0D
  else none

/-! ## The waiting parts of check 1 -/

/-- The op bytes of the body packets of a `LOOP` at the head of the ring. -/
def bodyOps (s : State) (x : QRes) (n : Nat) : List Nat :=
  (List.range n).map (fun k => (dieByte s.mem s.extent (x.ctx.rbase + pkBytes x.ctx.pkfmt * ((x.ctx.head + k) % 2 ^ x.ctx.rlog2) + 1)).toNat)

/-- A `LOOP` body with a packet that may not stand in it (R295). -/
def bodyBad (ops : List Nat) : Bool :=
  ops.zipIdx.any (fun o => o.1 == 0x52 || o.1 == 0x60 || o.1 == 0x61 || o.1 == 0x62 || (o.1 == 0x59 && decide (ops.length < o.2 + 3)))

/-- The context that queue record i of an area holds. -/
def dmCtx (s : State) (area i : Nat) : QCtx := parseCtx (dieLe s.mem s.extent (area + 20480 + 512 * i) 512)

/-- A Daymark area that a `RESTORE` may not use (R381); a record with a reserved bit set is one (R7). -/
def restoreBad (s : State) (c : Cmd) : Bool :=
  let a := c.pf 0 0 48
  let rd := fun off n => dieLe s.mem s.extent (a + off) n
  let size := bf (rd 32 8) 0 40
  let w := rd 24 8
  let k := dmCounts s a
  let bytes := dieBytes s.mem s.extent a size
  let crc := crc64 (bytes.take 40 ++ List.replicate 8 0 ++ bytes.drop 48)
  rd 0 4 != 0x444D4B31 || rd 4 2 != 1 || dmReserved s a k ||
  (List.range k.qs).any (fun i => (dmCtx s a i).rsv != 0) || decide (c.pf 1 0 40 < size) || rd 40 8 != crc || bf w 2 3 != c.job ||
  (bit w 11 && position s != some (bf w 8 3)) || bf w 12 4 != s.conf.npos ||
  (List.range k.qs).any (fun i =>
    let q := dmQueue s a i
    q == c.qid || (s.q.find q).isSome || (memCtx s q).state != .off) ||
  s.q.cmds.any (fun d => (isCollective d.op || d.op == 0x63) && d.inFlight) || (s.conf.job c.job).pools != []

/-- The parts of check 1 that wait for readiness (R286): the body of a `LOOP`, the descriptors of a `REDUCE` under `ROOT` (R271), the state
that a `RESTORE` needs. -/
def lateWhy (s : State) (x : QRes) (c : Cmd) : Option Why :=
  if c.op = 0x52 then (if bodyBad (bodyOps s x (c.pf 0 48 6 + 1)) then some ⟨0x0C, 0xFF, 0xFFFF⟩ else none)
  else if c.op = 0x48 ∧ c.pf 0 4 2 = 0 then
    match position s with
    | some p => if (c.role .dst).isSome != (p == s.conf.npos / 2) then some ⟨0x07, 0xFF, 22⟩ else none
    | none => none
  else if c.op = 0x61 then (if restoreBad s c then some ⟨0x0E, 0xFF, 0xFFFF⟩ else none)
  else none

/-! ## Checks 5 and 7 -/

/-- Record i of the external streams of an area: counter value, position value. -/
def dmRecord (s : State) (area i : Nat) : Nat × Nat :=
  let k := dmCounts s area
  let a := area + dmBytes k - 16 * k.xs + 16 * i
  (dieLe s.mem s.extent a 8, dieLe s.mem s.extent (a + 8) 8)

/-- The external streams whose counter does not fit their position (R382). -/
def drifts (s : State) (c : Cmd) : List Nat :=
  let a := c.pf 0 0 48
  if c.op = 0x61 ∧ c.pb 2 0 = false then
    (List.range (dmCounts s a).xs).filter (fun i => let r := dmRecord s a i; r.1 != r.2 * (dmStream s a i).2.2 % 2 ^ 64)
  else []

/-- The entry of another queue's command that deterministic mode forbids the command to meet (R289). -/
def orderWhy (s : State) (x : QRes) (own : List IttEntry) : Option IttEntry :=
  s.q.itt.find? (fun a => a.qid != x.qid && a.writes && (x.ctx.det || (s.q.find a.qid).any (fun y => y.ctx.det)) &&
    own.any (fun b => b.writes && decide (a.lo < b.hi) && decide (b.lo < a.hi)))

/-- The place of a body packet in its `LOOP` body. -/
def bodyPos (x : QRes) (c : Cmd) : Nat := (c.ring + 2 ^ x.ctx.rlog2 - x.ctx.loopBody) % 2 ^ x.ctx.rlog2

/-- What check 1 finds late: judged once, in the first iteration of a `LOOP` (R295). -/
def lateVerdict (s : State) (x : QRes) (c : Cmd) : Option Cond :=
  if c.loopb && c.iter != 0 then (x.judged.find? (fun k => k.1 == bodyPos x c)).map (·.2)
  else (lateWhy s x c).map (fun w => ⟨0x7E, w.first, satTo (2 ^ 32 - 1) (x.ctx.illCnt + 1)⟩)

/-- The refusal of a ready command (Table 11.10), if a check fails. -/
def verdict (s : State) (x : QRes) (c : Cmd) (pairBad : Bool) : Option Cond :=
  match lateVerdict s x c with
  | some k => some k
  | none =>
    if (c.op = 0x20 ∨ c.op = 0x21) ∧ 2097152 < (c.d 0).cols then some ⟨0x21, 0, 0⟩
    else match aliasWhy s c with
      | some f => some ⟨0x20, f, 0⟩
      | none =>
        match (if feedOverride s c then [] else feedConflicts s c) with
        | (i, p) :: r => some ⟨0x41, i + p * 2 ^ 16, r.length + 1⟩
        | [] => match drifts s c with
          | i :: r => some ⟨0x40, i, r.length + 1⟩
          | [] => match admitWhy s x c pairBad with
            | some k => some ⟨0x22, k, 0⟩
            | none => (orderWhy s x (c.entries s x.slot)).map (fun a => ⟨0x23, a.qid, a.seq.toNat⟩)

/-! ## Readiness (R285) -/

/-- Commands that hold back the rest of their queue until they are complete. -/
def isWaitOp (op : Nat) : Bool := op == 0x50 || op == 0x51 || op == 0x52 || op == 0x53

/-- The queues that the area of a `DAYMARK` lists. -/
def dmQueues (s : State) (c : Cmd) : List Nat :=
  let a := c.pf 0 0 48
  (List.range (dmCounts s a).qs).map (dmQueue s a)

/-- Whether a core command has wave blocks still to issue: it is admitted, or a `RUNP` whose programs have not all halted. A standard command issues
its own when it runs, and the hash commands have none. -/
def issuesWaves (s : State) (d : Cmd) : Bool :=
  isCoreOp d.op && d.op != 0x30 && d.op != 0x32 && (d.stage == .admitted || (d.stage == .started && d.op == 0x58 &&
    s.lcores.any (fun x => x.run != .idle && x.run != .halted && x.qid == d.qid && x.seq == d.seq)))

/-- The commands of a queue, in the order read. -/
def queueCmds (s : State) (q : Nat) : List Cmd := s.q.cmds.filter (fun c => c.qid == q)

/-- Commands that a queue admits only when every earlier one has replied (R294, R311, R364, R381). -/
def waitsAlone (op : Nat) : Bool := op == 0x52 || op == 0x60 || op == 0x61 || op == 0x62

/-- Whether a `DAYMARK` holds the queue back: from its admission on, when every earlier command of its own queue has replied (R364). -/
def daymarkHolds (s : State) (x : QRes) : Bool :=
  !x.groupOpen && s.q.cmds.any (fun c => c.op == 0x62 &&
    ((c.stage == .started && c.held.contains x.qid) || (c.stage == .admitted && (dmQueues s c).contains x.qid)))

/-- Packets posted and not read. -/
def unread (x : QRes) : Nat := (x.ctx.tail + 2 ^ x.ctx.rlog2 - x.ctx.head) % 2 ^ x.ctx.rlog2

/-- The next command of a queue with those before it and those after it, if it is ready for admission. -/
def readyIn (s : State) (x : QRes) : Option Cmd :=
  let cs := queueCmds s x.qid
  let early := cs.takeWhile (fun c => c.stage != .read)
  match cs.drop early.length with
  | [] => none
  | c :: rest =>
    let n := if c.chain = 1 then 2 else 1
    let room := (x.ctx.pwr + 2 ^ x.ctx.plog2 - x.ctx.prd) % 2 ^ x.ctx.plog2 + early.length + n
    let job := s.conf.job c.job
    if x.ctx.state != .on || early.any (fun d => isWaitOp d.op && (d.stage == .admitted || d.stage == .started)) ||
      (waitsAlone c.op && !early.isEmpty) || decide (2 ^ x.ctx.plog2 - 1 < room) ||
      decide (16 < (early.filter (·.inFlight)).length + n) ||
      (c.op == 0x52 && decide (unread x < c.pf 0 48 6 + 1)) ||
      (c.chain == 1 && rest.isEmpty) ||
      (isCoreOp c.op && s.q.cmds.any (fun d => d.job == c.job && issuesWaves s d)) ||
      (isCollective c.op && cseqOf s c != (s.red.lastCseq + 1) % 2 ^ 32) ||
      daymarkHolds s x || (job.enabled && !job.active) || job.saving then none
    else some c

/-- The queue of a job from which a command is admitted next: the highest `PRIO`, among equals the least recently admitted (R285). -/
def nextQueue (s : State) (j : Nat) : Option QRes :=
  (s.q.res.filter (fun x => x.ctx.job == j && (readyIn s x).isSome)).foldl (fun m x => match m with
    | none => some x
    | some y => if y.ctx.prio < x.ctx.prio || (y.ctx.prio == x.ctx.prio && decide (x.age < y.age)) then some x else some y) none

/-! ## Admission -/

/-- Ends a ready command with a refusal. An illegal body packet of a `LOOP` is counted once, in its first iteration, whose verdict the later ones
repeat (R295). -/
def refuse (s : State) (x : QRes) (c : Cmd) (k : Cond) : State :=
  let ill := k.code == 0x7E && !(c.loopb && c.iter != 0)
  let t := if ill then illQueue s 0x01 x.qid (BitVec.ofNat 64 (k.first % 256 + c.seq.toNat * 2 ^ 32)) else s
  let note := ill && c.loopb && x.ctx.loopActive
  refuseCollective { t with
    q := (t.q.updCmd (fun d => d.same c) (fun d => { d with stage := .refused, refusal := some k })).upd x.qid (fun y =>
      if note then { y with judged := y.judged ++ [(bodyPos x c, k)] } else y)
    free := t.free + 1 } c

/-- A command that every check passed: its ranges enter the tile table, a placement under an override is recorded (R371), and a collective
whose abort has come already ends without moving data (R257). -/
def acceptCmd (s : State) (x : QRes) (c : Cmd) : State :=
  let weak := if feedOverride s c then feedConflicts s c else []
  let k := cseqOf s c
  let dead := (isCollective c.op || c.op == 0x63) && s.red.aborted.contains k
  let t := { s with
    q := { (s.q.updCmd (fun d => d.same c) (fun d => { d with
        stage := if dead then .ended else .admitted
        conds := if dead then d.conds ++ [⟨0x31, 0, 0⟩] else d.conds
        colsMem := columnsOut s c
        weak := !weak.isEmpty
        seed := lookupD 0 s.conf.seeds c.client
        margins := []
        tags := if d.op = 0x63 then s.conf.dieTags ++ s.conf.stackTags else [] })).upd x.qid (fun y => { y with age := s.q.stamp + 1, cnt := (y.cnt.bump 5 2 weak.length).bump 4 4 (b2n dead) }) with
      itt := s.q.itt ++ (if dead then [] else c.entries s x.slot)
      stamp := s.q.stamp + 1 }
    conf := match weak.getLast? with
      | some w => { s.conf with weakRec := [w.1, w.2, c.op, c.seq.toNat, c.qid] }
      | none => s.conf
    free := s.free + 1 }
  if dead then { t with red := ({ t.red with aborted := t.red.aborted.filter (· != k) }).ended k } else t

/-- Whether the entries of a command fit the table (R287). -/
def ittFits (s : State) (n : Nat) : Bool := decide (s.q.itt.length + n ≤ Config.ittEntries)

/-- Admits or refuses one ready command. -/
def admitOne (s : State) (x : QRes) (c : Cmd) : State :=
  match verdict s x c (c.chain != 0) with
  | some k => refuse s x c k
  | none => if ittFits s (c.entries s x.slot).length then acceptCmd s x c else s

/-- Admits or refuses a `CHAIN` pair together (R107, R108, R285): what refuses one rejects the other. The consumer is judged with its producer's
reserves and allocations taken (R162, R438). -/
def admitPair (s : State) (x : QRes) (p c : Cmd) : State :=
  let cc := (s.conf.job p.job).cores.length
  let bad := chainBadPair p c cc || c.stage == .refused
  let ownP := verdict s x p false
  let t := if ownP.isNone then acceptCmd s x p else s
  let ownC := if c.stage = .refused then some (⟨0x7E, 0, 0⟩ : Cond) else verdict t x c false
  let vP := if bad || ownC.isSome then verdict s x p true else ownP
  let vC := if bad || ownP.isSome then verdict t x c true else ownC
  match vP with
  | some k =>
    let t := refuse s x p k
    if c.stage = .refused then t else refuse t x c (vC.getD ⟨0x22, 6, 0⟩)
  | none =>
    if ittFits s ((p.entries s x.slot).length + (c.entries s x.slot).length) then acceptCmd (acceptCmd s x p) x c else s

/-- `ADMISSION` for job `j`: one ready command. -/
def admissionStep (s : State) (j : Nat) : State :=
  if !admissionOpen s || !keeperUp s || s.flt.lost then s
  else match nextQueue s j with
    | none => s
    | some x => match readyIn s x with
      | none => s
      | some c =>
        if c.chain = 1 then
          match ((queueCmds s x.qid).dropWhile (fun d => !d.same c)).drop 1 with
          | d :: _ => admitPair s x c d
          | [] => s
        else admitOne s x c

/-- A ready command is admitted after checks 2 to 7, entering its ranges into the in-flight tile table (R285-R289). -/
def execAdmission (j : Nat) (s : State) : Host.Outcome State Fault Refusal := if j < 8 then .next (admissionStep s j) else noUnit

end Sys2Proof.Machine
end

