-- ==== Sys2Proof/Machine/Sharing.lean ====
section
/-!
DEFINITION. Slices, overrun and job switches (R303-R311), and the accounts they charge (R313, R315).
-/
namespace Sys2Proof.Machine

/-! ## Accounts (Table 12.3) -/

/-- The account of a client. -/
def Accts.of (a : Accts) (client : Nat) : Account := lookupD Account.zero a.list client

/-- An account changed. -/
def Accts.upd (a : Accts) (client : Nat) (f : Account → Account) : Accts :=
  { a with list := assocSet Account.zero a.list client (f (a.of client)) }

/-- The idle account's number in the account window (Table 17.8). -/
def idleAccount : Nat := 65536

/-- Saturating 64-bit sum (R313). -/
def sat64 (a b : Nat) : Nat := satTo (2 ^ 64 - 1) (a + b)

/-- The sum of two accounts, field by field. -/
def Account.add (a b : Account) : Account :=
  ⟨sat64 a.cwaves b.cwaves, sat64 a.cns b.cns, sat64 a.xns b.xns, sat64 a.rbytes b.rbytes, sat64 a.wbytes b.wbytes,
   sat64 a.energy b.energy, sat64 a.overrun b.overrun, satTo (2 ^ 32 - 1) (a.cmds + b.cmds)⟩

/-- The client of a reply to a packet that was never read, and of a save with no command before it: none is charged. -/
def noClient : Nat := 65537

/-- Charges a client; the energy enters the total too (Table 17.8). -/
def charge (s : State) (client : Nat) (d : Account) : State :=
  { s with accts := { s.accts.upd client (fun a => a.add d) with total := sat64 s.accts.total d.energy } }

/-! ## Slices (R303, R307) -/

/-- The context word `OVERRUN` of a queue that is not resident is set in memory, of a resident one in its slot. -/
def setOverrun (s : State) (q v : Nat) : State :=
  match s.q.find q with
  | some _ => { s with q := s.q.updCtx q (fun c => { c with overrun := v }) }
  | none => { s with mem := s.mem.dieStores s.extent [.bytes (ctxAddr s.q q + 112) (leBytes 8 v)] }

/-- `OVERRUN` of a queue. -/
def overrunOf (s : State) (q : Nat) : Nat :=
  match s.q.find q with
  | some x => x.ctx.overrun
  | none => (memCtx s q).overrun

/-- The queues of a job whose `OVERRUN` may differ from 0, ascending: resident ones, and those whose context in memory lists a byte there. -/
def owingQueues (s : State) (j : Nat) : List Nat :=
  let far := s.mem.cells.filterMap (fun c =>
    if s.q.baseValid ∧ s.q.base ≤ c.1 ∧ 112 ≤ (c.1 - s.q.base) % 512 ∧ (c.1 - s.q.base) % 512 < 120 then some ((c.1 - s.q.base) / 512) else none)
  sortBy (fun a b => decide (a ≤ b)) (((s.q.res.map (·.qid) ++ far).eraseDups).filter (fun q =>
    decide (q < Config.queueCount) && jobOfQueue s q == j && overrunOf s q != 0))

/-- Repays `d` waves from the queues' `OVERRUN` fields in order. -/
def repay : List Nat → State → Nat → State
  | [], s, _ => s
  | q :: r, s, d => if d = 0 then s else let t := Nat.min d (overrunOf s q); repay r (setOverrun s q (overrunOf s q - t)) (d - t)

/-- A job's slice starts: a new `SLICE` takes effect, the clock starts at what the debt takes off, and the queues' `OVERRUN` fields fall by
as much (R307, Table 12.1). -/
def sliceStart (s : State) (j : Nat) : State :=
  let b := s.conf.job j
  let sl := b.sliceNext.getD b.slice
  let d := Nat.min sl b.debt
  let t := { s with conf := s.conf.updJob j (fun b => { b with slice := sl, sliceNext := none, clock := d, debt := b.debt - d, expiredBy := none }) }
  if d = 0 then t else repay (owingQueues t j) t d

/-! ## Saving (R308, R309, R311) -/

/-- A copy into the die's memory; what lies outside is dropped. -/
def Memory.dieCopyFrom (m : Memory) (ext : Nat) (src : Memory) (a dst n : Nat) : Memory := m.copyFrom src a dst (Nat.min n (ext - dst))

/-- The core part of a save area: scratchpad, accumulator store and cell planes by rank (Table 12.2). -/
def saveCores (s : State) (addr : Nat) : List (Nat × Nat) → Memory → Memory
  | [], m => m
  | (l, k) :: r, m =>
    let p := s.pcores.getD ((storageOf s.pcores l).getD l) PCore.reset
    let a := addr + 65536 + 3735552 * k
    saveCores s addr r (((m.dieCopyFrom s.extent p.scratch 0 a Config.scratchBytes).dieCopyFrom s.extent p.acc 0 (a + 1572864) Config.accBytes).dieCopyFrom
      s.extent p.planes 0 (a + 3670016) Config.planeBytes)

/-- Writes a job's save area: a header whose layout the manual does not give (free bytes, log 29), the cores, the partition. -/
def writeArea (s : State) (j addr : Nat) : Memory :=
  let b := s.conf.job j
  let cc := b.cores.length
  let m := saveCores s addr b.cores.zipIdx (s.mem.dieHavoc s.extent s.free addr 65536)
  m.dieCopyFrom s.extent s.cstore (b.pbase * 1048576) (addr + 65536 + 3735552 * cc) (b.psize * 1048576)

/-- Evicts every resident queue of a job. The pending queues that this lets in come in when the save is over: until then the slots serve the
restore. -/
def evictJob (s : State) (j : Nat) : State := (s.q.res.filter (fun x => x.ctx.job == j)).foldl evict s

/-- The storage that a save reads and a restore writes (Table 12.2): array, first byte, bytes. Cell planes have no check bits. -/
def saveSpans (s : State) (j : Nat) : List (Storage × Nat × Nat) :=
  let b := s.conf.job j
  (b.cores.filterMap (storageOf s.pcores)).flatMap (fun p => [(.scratch p, 0, Config.scratchBytes), (.acc p, 0, Config.accBytes)]) ++
    [(.central, b.pbase * 1048576, b.psize * 1048576)]

/-- Charges the client of a save, where a command has replied before it (R315). -/
def chargeSave (s : State) (client : Nat) (d : Account) : State := if client = noClient then s else charge s client d

/-- Saves job `j` to an area and makes it inactive until job `k` is restored, or, with none, until the Keeper selects one (R311); what SH_SWITCH and
SH_FORCED count. A word that cannot be corrected leaves a fault record (R357). -/
def saveJob (s : State) (j : Nat) (k : Option Nat) (addr size : Nat) (counts : Nat × Nat) : State :=
  let s := { s with conf := (s.conf.bumpShare 0 counts.1).bumpShare 1 counts.2 }
  let b := s.conf.job j
  let qs := s.q.res.filter (fun x => x.ctx.job == j) ++ s.q.kept.filter (fun x => x.ctx.job == j)
  let t := (saveSpans s j).foldl (fun t x => readThrough t x.1 x.2.1 x.2.2) (evictJob s j)
  let m := writeArea t j addr
  let n := saveBytes b
  let image : SavedImage := ⟨addr, size, crc64 (dieBytes m t.extent addr n), qs, b.clock, b.debt⟩
  let u := { t with
    mem := m
    conf := t.conf.updJob j (fun b => { b with active := false, saving := true, incoming := k, image := some image, counted := counts, saveClient := b.lastClient })
    free := t.free + 1 }
  chargeSave u b.lastClient { Account.zero with wbytes := n }

/-! ## Switching (R304-R307) -/

/-- A job has a ready command: one that could be admitted or started were the job active, or an unread packet of a queue that its save
evicted. -/
def hasReady (s : State) (j : Nat) : Bool :=
  let t := { s with conf := s.conf.updJob j (fun b => { b with active := true, saving := false }) }
  let out := match (s.conf.job j).image with
    | some im => (im.qs.filter (fun x => (s.q.find x.qid).isNone)).map (fun x => outQueue s x.qid)
    | none => []
  ((s.q.res.filter (fun x => x.ctx.job == j)) ++ out).any (fun x => (readyIn t x).isSome) || s.q.cmds.any (fun c => c.job == j && c.stage == .admitted) ||
    out.any (fun y => y.ctx.state == .on && decide (unread y ≠ 0))

/-- The job of the placement that follows `j`: the next one above it with a ready command, wrapping from 7 to 0 (R306). -/
def nextJob (s : State) (j : Nat) : Option Nat :=
  ((List.range 7).map (fun k => (j + 1 + k) % 8)).find? (fun k =>
    (s.conf.job k).enabled && samePlacement (s.conf.job k) (s.conf.job j) && hasReady s k)

/-- The job that the Keeper selects after a save of `j` (R311): the next one with a ready command, itself last; alone in its placement, itself. -/
def selectJob (s : State) (j : Nat) : Option Nat :=
  (nextJob s j).or (if !sharesPlacement s j || hasReady s j then some j else none)

/-- A job has a command that has started and not replied, a `CHAIN` pair counting as one (R107); `but` is one queue's command that does not count (a `SAVE`, R311). -/
def jobBusy (s : State) (j : Nat) (but : Cmd → Bool) : Bool :=
  s.q.cmds.any (fun c => c.job == j && !but c && (c.stage == .started || c.stage == .ended || chainHalf s c))

/-- A job holds a collective that has not replied (R305). -/
def holdsCollective (s : State) (j : Nat) : Bool :=
  s.q.cmds.any (fun c => c.job == j && (isCollective c.op || c.op == 0x63) && c.inFlight)

/-- A queue of the job has an open group. -/
def groupsOpen (s : State) (j : Nat) : Bool :=
  s.q.res.any (fun x => x.ctx.job == j && x.groupOpen) || s.q.groups.any (fun q => jobOfQueue s q == j)

/-- Waves by which the clock exceeds `SLICE`. -/
def Job.ovr (b : Job) : Nat := if b.slice = 0 then 0 else b.clock - b.slice

/-- The overrun of a finished slice: debt of the job, `OVERRUN` of the queue whose reply expired it, and a charge to that command's client
(R307). -/
def bookOverrun (s : State) (j : Nat) : State :=
  let b := s.conf.job j
  let n := b.ovr
  let t := { s with conf := s.conf.updJob j (fun b => { b with debt := b.debt + n }) }
  match b.expiredBy with
  | some (q, client) => charge (setOverrun t q ((overrunOf t q + n) % 2 ^ 64)) client { Account.zero with overrun := n }
  | none => t

/-- A switch from `j` to `k`, or a new slice of `j` where its save area is too small (R308). -/
def switchJob (s : State) (j k : Nat) (forced : Bool) : State :=
  let b := s.conf.job j
  if b.saveSize < saveBytes b then sliceStart { s with conf := s.conf.bumpShare 2 1 } j
  else saveJob s j (some k) b.saveBase b.saveSize (1, b2n forced)

/-- Whether a job is ready to switch (R304, R305). A `DAYMARK` capture is one step, so no switch falls into it (R365). -/
def switchReady (s : State) (j : Nat) : Bool :=
  let b := s.conf.job j
  b.active && !b.saving && sliceExpired s j && !jobBusy s j (fun _ => false) && !holdsCollective s j &&
    (!groupsOpen s j || decide (b.glim < b.ovr))

/-- `JOB_SWITCH` of job `j`, if it is ready (R306). -/
def jobSwitch (s : State) (j : Nat) : State :=
  if switchReady s j then
    let forced := groupsOpen s j
    let t := bookOverrun s j
    match nextJob t j with
    | some k => switchJob t j k forced
    | none => sliceStart t j
  else s

/-- Each job that is ready to switch does, whatever made it so: a reply of its own, a job that came into its placement, a lower `GLIM`. -/
def switchJobs (s : State) : State := (List.range 8).foldl jobSwitch s

/-! ## Restoring (R310) -/

/-- The cores of a job read back from its area, each by the core that now holds the logical ID (R8). -/
def restoreCores (mem : Memory) (addr : Nat) : List (Nat × Nat) → List PCore → List PCore
  | [], pc => pc
  | (l, k) :: r, pc =>
    let a := addr + 65536 + 3735552 * k
    restoreCores mem addr r (match storageOf pc l with
      | some p => pc.modify p (fun c => { c with
          scratch := c.scratch.copyFrom mem a 0 Config.scratchBytes
          acc := c.acc.copyFrom mem (a + 1572864) 0 Config.accBytes
          planes := c.planes.copyFrom mem (a + 3670016) 0 Config.planeBytes })
      | none => pc)

/-- A job becomes the active one of its placement, its evicted queues come back in, or wait for a slot as the save kept them, and its slice starts. -/
def activateJob (s : State) (j : Nat) : State :=
  let qs := match (s.conf.job j).image with
    | some im => im.qs
    | none => []
  let t := { s with conf := s.conf.updJob j (fun b => { b with active := true }) }
  let u := qs.foldl (fun t x => bringIn t x.qid) t
  let wait := qs.filter (fun x => (u.q.find x.qid).isNone && !u.q.kept.any (fun y => y.qid == x.qid))
  sliceStart (servePending { u with
    q := { u.q with kept := u.q.kept ++ wait }
    conf := u.conf.updJob j (fun b => { b with image := none }) }) j

/-- The save of job `o` is over: its time is counted and charged to its client (R315). -/
def switchOver (s : State) (o saveNs restoreNs : Nat) : State :=
  let c := (s.conf.updJob o (fun b => { b with saving := false, incoming := none, counted := (0, 0) })).bumpShare 5 (saveNs + restoreNs)
  chargeSave { s with conf := c } (s.conf.job o).saveClient { Account.zero with xns := saveNs }

/-- A restore is refused: the incoming job stays inactive, and job `o` starts a new slice (R310). -/
def refuseRestore (t : State) (o : Nat) : State := activateJob { t with conf := t.conf.bumpShare 3 1, irq := t.irq.raise irqFault } o

/-- `CONTEXT_RESTORE` of job `j`, when a save waits for it and no page fault halts the access to an area (R143). The check of the area is the CRC-64 of
its bytes against that of the save. What is written takes the place of the words that held errors (R339). Where the job chosen has lost its placement
since, the one saved goes on (DESIGN CHOICE, log 30). -/
def restoreStep (s : State) (j saveNs restoreNs : Nat) : State :=
  match (List.range 8).find? (fun o => keeperRuns s && !s.tender.ctlHeld (.restore j) && (s.conf.job o).saving &&
    ((s.conf.job o).incoming.or (selectJob s o)) == some j && !s.tender.ctlHeld (.save o)) with
  | none => s
  | some o =>
    let t := switchOver s o saveNs restoreNs
    let t := if (s.conf.job o).incoming.isNone && o != j then { t with conf := t.conf.bumpShare 0 1 } else t
    let b := s.conf.job j
    if !b.enabled || (o != j && !samePlacement b (s.conf.job o)) then activateJob t o
    else match b.image with
    | none => activateJob t j
    | some im =>
      if crc64 (dieBytes s.mem s.extent im.addr (saveBytes b)) = im.crc then
        let u := { t with
          pcores := restoreCores t.mem im.addr b.cores.zipIdx t.pcores
          cstore := t.cstore.copyFrom t.mem (im.addr + 65536 + 3735552 * b.cores.length) (b.pbase * 1048576) (b.psize * 1048576)
          conf := t.conf.updJob j (fun b => { b with debt := im.debt, oweBytes := saveBytes b, oweNs := restoreNs }) }
        activateJob ((saveSpans u j).foldl (fun u x => refreshed u x.1 x.2.1 x.2.2) u) j
      else refuseRestore t o

/-- When a save has completed, the incoming job's area is checked and its cores, partition and queues are restored (R310). -/
def execContextRestore (j saveNs restoreNs : Nat) (s : State) : Host.Outcome State Fault Refusal :=
  if j < 8 then .next (restoreStep s j saveNs restoreNs) else noUnit

end Sys2Proof.Machine
end

