-- ==== Sys2Proof/Machine/Barrier.lean ====
section
/-!
DEFINITION. All-core barriers and the staged configuration (R128, R300, R420).
-/
namespace Sys2Proof.Machine

/-- The configuration word of a staged item (R420): 0, or one above the job. -/
def StagedItem.word (x : StagedItem) : Nat := if 0x30 ≤ x.item then x.index + 1 else 0

/-- A `BARRIER` that waits for an all-core barrier. -/
def Cmd.waitsAllCore (c : Cmd) : Bool := c.op == 0x50 && c.stage == .started && c.pb 0 0

/-- Whether a staged item can take effect (R300). -/
def StagedItem.free (x : StagedItem) (s : State) : Bool :=
  if 0x30 ≤ x.item then
    (s.conf.job x.index).image.isNone && !s.q.cmds.any (fun c => c.job == x.index && c.inFlight)
  else if x.item = 1 then s.hash.holder.isNone
  else !s.q.cmds.any (fun c => (isCollective c.op || c.op == 0x63) && c.inFlight)

/-- Whether every staged item of a word can take effect. -/
def wordFree (s : State) (w : Nat) : Bool := (s.conf.staged.filter (fun x => x.word == w)).all (fun x => x.free s)

/-- What an all-core barrier does: whole words of staged items take effect in the order staged, the drain request is cleared, and the
commands that wait for it end (R291, R300, R301). The slice of a job that it makes active starts (R303). -/
def allCoreBarrier (s : State) : State :=
  if !keeperRuns s then s else
  let now := s.conf.staged.filter (fun x => wordFree s x.word)
  let rest := s.conf.staged.filter (fun x => !wordFree s x.word)
  let conf := { (s.conf.result now).settle with staged := rest, drain := false }
  servePending ((newActive s.conf conf).foldl sliceStart { s with
    conf := conf
    q := { s.q with cmds := s.q.cmds.map (fun c => if c.waitsAllCore then { c with stage := .ended } else c) } })

/-- Every logical core is idle between commands (R128). -/
def allIdle (s : State) : Bool :=
  s.lcores.all (fun x => x.run == .idle) && !s.q.cmds.any (fun c => isCoreOp c.op && c.stage == .started)

/-- Idle cores are an all-core barrier for as long as they stay idle: what waits for one takes effect at once (R128). -/
def applyIfIdle (s : State) : State := if allIdle s && (s.conf.drain || !s.conf.staged.isEmpty) then allCoreBarrier s else s

/-- Staged configuration takes effect at the all-core barrier that idle cores are. -/
def execStagedConfigApply (s : State) : Host.Outcome State Fault Refusal := .next (if allIdle s then switchJobs (allCoreBarrier s) else s)

end Sys2Proof.Machine
end

