-- ==== Sys2Proof/Machine/Completion.lean ====
section
/-!
DEFINITION. COMMAND_COMPLETION (R277, R278, R282): the reply of the first command of a queue that has ended, and what follows it: amax slots
(R50), norm accumulators (R261), the exception record (R54), accounts (R313), the slice clock (R303), halting (R284), the queue's state
(Table 11.9) and the switch of its job (R306).
-/
namespace Sys2Proof.Machine

/-! ## The reply (Table 11.5) -/

/-- `FIRST` of `OK` and `EMPTY`: the NaN index, otherwise the infinity index (R54). -/
def okFirst (c : Cmd) : Nat :=
  match c.exc with
  | some e => (e.nan.or e.inf).getD noIndex
  | none => noIndex

/-- Status code, `FIRST` and `COUNT` of a command that was refused or has ended. -/
def statusOf (c : Cmd) : Cond :=
  if c.skip then ⟨0, noIndex, 0⟩
  else match c.refusal with
    | some k => k
    | none => match topCond c.conds with
      | some k => if k.code = 0x01 then ⟨0x01, okFirst c, k.count⟩ else k
      | none => match c.result with
        | some r => ⟨0, r.1.toNat, r.2.toNat⟩
        | none => ⟨0, okFirst c, if c.op = 0x52 then c.trip else 0⟩

/-- Whether a command took effect: neither refused nor skipped. -/
def Cmd.took (c : Cmd) : Bool := c.refusal.isNone && !c.skip

/-- Commands of whose reads from memory a part depends on what the manual does not fix: how often an expansion or a unit reads a tensor, a list or a
table (log 74). -/
def readsOpen (op : Nat) : Bool :=
  isProduct op || isLayer op || op == 0x30 || op == 0x31 || op == 0x32 || op == 0x38 || op == 0x40 || op == 0x48 || op == 0x61 || op == 0x62 || op == 0x63

/-- Commands of whose writes to memory a part does: spilled lookups, column pairs, areas. -/
def writesOpen (c : Cmd) : Bool := c.op == 0x30 || c.op == 0x32 || c.op == 0x61 || c.op == 0x62 || c.colsMem

/-- Commands whose checks read tables of their own behind the packet: lists, items, areas, headers. -/
def checksRead (op : Nat) : Bool :=
  op == 0x70 || op == 0x49 || op == 0x32 || op == 0x31 || op == 0x58 || op == 0x60 || op == 0x62 || op == 0x63

/-- Bytes that were read from memory for a command that did not run: none for a packet that was never read, its descriptor table (or a part of it, if a
check of the packet refused it), and what the checks of its own tables have read, which depends on their order and is open (log 74). -/
def refusedReads (c : Cmd) (m : Meas) : Nat :=
  if c.client = noClient then 0
  else if checksRead c.op then m.rbytes
  else if (statusOf c).code = 0x7E then m.rbytes % (c.rd + 1)
  else c.rd

/-- The measurements that belong to a command. Its bytes are those that it has read and written, and what is open of them; a skipped one has none
(Table 11.5). -/
def measOf (c : Cmd) (m : Meas) : Meas :=
  let core := isCoreOp c.op && c.took
  { waves := if core then m.waves else 0
    coreWaves := if core then m.coreWaves else 0
    coreNs := if core then m.coreNs else 0
    unitNs := if c.took && !core then m.unitNs else 0
    keeperNs := if c.took && !core then m.keeperNs else 0
    rbytes := if c.skip then 0 else if c.took then c.rd + (if readsOpen c.op then m.rbytes else 0) else refusedReads c m
    wbytes := if c.took then c.wr + (if writesOpen c then m.wbytes else 0) else 0 }

/-- The 256 bits of a reply. -/
def replyWord (c : Cmd) (m : Meas) : Nat :=
  let k := statusOf c
  c.seq.toNat + k.code * 2 ^ 32 + b2n c.infF * 2 ^ 40 + b2n c.nanF * 2 ^ 41 + b2n c.loopb * 2 ^ 42 + b2n c.skip * 2 ^ 43 +
  b2n (c.took && c.spillCs + c.spillMem != 0) * 2 ^ 44 + b2n c.weak * 2 ^ 45 + m.waves % 2 ^ 40 * 2 ^ 48 +
  cdiv m.rbytes 16 % 2 ^ 36 * 2 ^ 88 + cdiv m.wbytes 16 % 2 ^ 36 * 2 ^ 124 + satTo 16777215 (c.energy / 100000).floor.toNat * 2 ^ 160 +
  k.first % 2 ^ 40 * 2 ^ 184 + satTo (2 ^ 32 - 1) k.count * 2 ^ 224

/-! ## The queue after a reply -/

/-- The exception record of a command (Table 11.8a, offset 80). -/
def excWord (c : Cmd) : BitVec 128 :=
  match c.exc with
  | some e => BitVec.ofNat 128 (e.inf.getD 0 % 2 ^ 40 + e.nan.getD 0 % 2 ^ 40 * 2 ^ 40 + b2n e.inf.isSome * 2 ^ 80 + b2n e.nan.isSome * 2 ^ 81 +
      e.outn % 4 * 2 ^ 82 + c.seq.toNat * 2 ^ 96)
  | none => BitVec.ofNat 128 (c.seq.toNat * 2 ^ 96)

/-- Opcodes that the Keeper runs itself (Table 11.2); they write no tensor. -/
def isKeeperOp (op : Nat) : Bool :=
  op == 0x50 || op == 0x51 || op == 0x52 || op == 0x53 || op == 0x59 || op == 0x60 || op == 0x61 || op == 0x62 || op == 0x70 || op == 0x7F

/-- The norm group that a command names: products and `GPAIR` dW, layer commands, `XGRAD` dW; 0 for none. -/
def Cmd.normGroup (c : Cmd) : Nat :=
  if isProduct c.op then c.pf 0 1 4 else if isLayer c.op then c.pf 1 10 4 else if c.op = 0x31 then c.pf 0 39 4 else 0

/-- A fold added into accumulator `g` (1 to 15), with the accumulator as left operand (R261). -/
def foldInto (acc : List Pair) (g : Nat) (leaves : List Pair) : List Pair :=
  if g = 0 ∨ leaves = [] then acc else acc.modify (g - 1) (fun p => pairAdd p (ftree pairAdd Pair.zero leaves))

/-- The norm accumulators after a command. A `RUNP` may feed every group: its pairs lie group by group, each in rank order. -/
def normsAfter (acc : List Pair) (c : Cmd) (cc : Nat) : List Pair :=
  if c.op = 0x58 then
    (List.range 15).foldl (fun a g =>
      let l := (c.normLeaves.drop (g * cc)).take cc
      if l.all (· == Pair.zero) then a else foldInto a (g + 1) l) acc
  else foldInto acc c.normGroup c.normLeaves

/-- Whether the reply of a command is the last one that its packet gets, so that `DONESEQ` passes it (R295). -/
def Cmd.finalRun (c : Cmd) (x : QRes) : Bool := !c.loopb || !x.ctx.loopActive || c.iter + 1 == bodyRuns x

/-- The queue after the reply of `c`: reply ring, `DONESEQ`, records and accumulators, its group, and the end of a `LOOP`. -/
def QRes.replied (x : QRes) (c : Cmd) (cc : Nat) : QRes :=
  let size := 2 ^ x.ctx.plog2
  let endLoop := c.loopb && c.lastBody && x.ctx.loopActive
  { x with
    groupOpen := x.groupOpen && !c.gend
    conds := if c.took then c.conds else []
    loopPos := if endLoop then 0 else x.loopPos
    judged := if endLoop then [] else x.judged
    ctx := { x.ctx with
      pwr := (x.ctx.pwr + 1) % size
      doneSeq := if c.finalRun x then c.seq else x.ctx.doneSeq
      exc := if c.took && !isKeeperOp c.op then excWord c else x.ctx.exc
      norm := if c.took then normsAfter x.ctx.norm c cc else x.ctx.norm
      head := if endLoop then (x.ctx.loopBody + bodyLen x) % 2 ^ x.ctx.rlog2 else x.ctx.head
      loopActive := x.ctx.loopActive && !endLoop } }

/-! ## Halting and queue states (R283, R284) -/

/-- Whether a cancel has given a command its outcome (R283). -/
def Cmd.cancelled (c : Cmd) : Bool := c.refusal.any (fun k => k.code == 0x31)

/-- The commands behind the last admitted or cancelled one of a queue. -/
def trailing (cs : List Cmd) : List Cmd := (cs.reverse.takeWhile (fun c => !c.inFlight && !c.cancelled)).reverse

/-- The queue whose trailing packets `d :: ds` go back into the ring. -/
def QRes.rewind (x : QRes) (d : Cmd) (ds : List Cmd) : QRes :=
  let back := ((d :: ds).filter (·.adv)).length
  let pos := (d.ring + 2 ^ x.ctx.rlog2 - x.ctx.loopBody) % 2 ^ x.ctx.rlog2
  let inLoop := d.loopb && x.ctx.loopActive
  { x with
    loopPos := if inLoop then pos else x.loopPos
    judged := if inLoop && d.iter == 0 then x.judged.filter (fun k => decide (k.1 < pos)) else x.judged
    chainLeft := if d.chain = 1 then 2 else if d.chain = 2 then 1 else 0
    ctx := { x.ctx with
      head := if inLoop then x.ctx.head else d.ring
      loopIter := if inLoop then d.iter else x.ctx.loopIter
      nextSeq := x.ctx.nextSeq - BitVec.ofNat 32 back } }

/-- `DRAINING`, for a queue that is not `OFF`. -/
def QState.drain (s : QState) : QState := if s = .off then .off else .draining

/-- Moves a queue to `DRAINING` after an error reply under `HALTERR`; what no check has admitted stays in the ring (R284). -/
def haltQueue (s : State) (q : Nat) : State :=
  let cs := queueCmds s q
  let n := cs.length - (trailing cs).length
  let r := { s.q with
    cmds := s.q.cmds.filter (fun d : Cmd => d.qid != q) ++ cs.take n }
  match trailing cs with
  | d :: ds => { s with q := r.upd q (fun x => let y := x.rewind d ds; { y with ctx := { y.ctx with state := y.ctx.state.drain } }) }
  | [] => { s with q := r.upd q (fun x => { x with ctx := { x.ctx with state := x.ctx.state.drain } }) }

/-- `DRAINING` and `PENDING_ON` end once no admitted command of the queue is left without a reply (R283). -/
def QRes.settle (x : QRes) (busy : Bool) : QRes :=
  if busy then x
  else match x.ctx.state with
    | .draining => { x with ctx := { x.ctx with state := .off } }
    | .pendingOn => { x with ctx := { x.ctx with state := .on } }
    | _ => x

/-- Settles the state of queue `q`. -/
def settleQueue (s : State) (q : Nat) : State :=
  let busy := (queueCmds s q).any (·.inFlight)
  { s with q := s.q.upd q (fun x => x.settle busy) }

/-- The pending queues that a queue no longer in use lets in (R280); those that wait for credit wait on (R302). -/
def serveIdle (s : State) : State := (pendOrder s).foldl (fun t q => if t.q.short.contains q then t else bringIn t q) s

/-! ## The command leaves -/

/-- The slice clock of a job after a reply (R303), and the queue that expired it. -/
def Job.tick (b : Job) (c : Cmd) (m : Meas) : Job :=
  let n := if isCoreOp c.op then m.waves else m.keeperNs * 8 / 5
  let clock := b.clock + n
  { b with
    clock := clock
    lastClient := c.client
    expiredBy := if b.slice ≠ 0 ∧ b.slice ≤ clock ∧ b.expiredBy = none then some (c.qid, c.client) else b.expiredBy }

/-- What a reply adds to its client's account (R313). -/
def replyCharge (c : Cmd) (m : Meas) : Account :=
  ⟨m.coreWaves, m.coreNs, m.unitNs + c.owedNs, m.rbytes + c.owedR, m.wbytes, ((c.energy + c.owedE) / 100).floor.toNat, 0, 1⟩

/-- The effects of a completed command before its queue and job settle. -/
def leave (s : State) (x : QRes) (c : Cmd) (m : Meas) : State :=
  let cc := (s.conf.job c.job).cores.length
  let t := { s with
    mem := if c.mute then s.mem else s.mem.dieStores s.extent [.bytes (x.ctx.pbase + 32 * x.ctx.pwr) (leBytes 32 (replyWord c m))]
    amax := c.amaxOut.foldl (fun a o => a.setSlot o.1 ((a.slot o.1).update c.step o.2)) s.amax
    irq := if c.irq && !c.mute then s.irq.complete x.ctx.irqv else s.irq
    conf := if c.client = noClient then s.conf else s.conf.updJob c.job (fun b => b.tick c m)
    q := { s.q.upd c.qid (fun y => y.replied c cc) with
      cmds := s.q.cmds.eraseP (fun d => d.same c)
      itt := s.q.itt.filter (fun e => !e.isOf c) } }
  if c.client = noClient then t else charge t c.client (replyCharge c m)

/-- Whether a `CHAIN` producer waits for a consumer that is a program: the pair runs as one command (R107, log 41). -/
def chainOpen (s : State) (c : Cmd) : Bool :=
  c.chain == 1 && s.q.cmds.any (fun d => d.qid == c.qid && d.chain == 2 && d.op == 0x58 && (d.stage == .admitted || d.stage == .started))

/-- The first command of a queue, if it has been refused or has ended with every transfer of it answered (R168), and the reply ring has a free entry.
A `SAVE` replies when its save is complete (R311). -/
def completable (s : State) (x : QRes) : Option Cmd :=
  match queueCmds s x.qid with
  | c :: _ =>
    let size := 2 ^ x.ctx.plog2
    if (c.stage == .refused || c.stage == .ended) && !chainOpen s c && !s.tender.open.any (fun y => y.isOf c && y.skind != 6) &&
      !(c.op == 0x60 && s.tender.ctlHeld (.save c.job)) && decide ((x.ctx.pwr + size - x.ctx.prd) % size < size - 1) then some c else none
  | [] => none

/-- The reply of command `c` of queue `x` is written, and the queue goes on. -/
def replyOut (s : State) (x : QRes) (c : Cmd) (meas : Meas) : State :=
  let code := (statusOf c).code
  let t := leave s x c (measOf c meas)
  settleQueue (if x.ctx.halterr && (isRefusal code || fromOob code) then haltQueue t x.qid else t) x.qid

end Sys2Proof.Machine
end

