-- ==== Sys2Proof/Machine/Stop.lean ====
section
/-!
DEFINITION. Ending a command before its work is done (R168, R231, R259, R283, R357), what the programs of a `RUNP` hand over when it ends (R44,
R49, R54, R131, R177), and reads that a command consumes (R357).
-/
namespace Sys2Proof.Machine

/-! ## Programs of a command -/

/-- Program `i`: of logical core i for i < 64, the CHAIN consumer's of core i - 64 above. -/
def State.prog (s : State) (i : Nat) : LCore := s.lcores.getD i LCore.reset

/-- A program changed. -/
def State.updProg (s : State) (i : Nat) (f : LCore → LCore) : State := { s with lcores := s.lcores.modify i f }

/-- Whether a program belongs to a command. -/
def LCore.isOf (x : LCore) (c : Cmd) : Bool := x.run != .idle && x.qid == c.qid && x.seq == c.seq

/-- The indices of the programs of a command, by core rank. -/
def progsOf (s : State) (c : Cmd) : List Nat :=
  (s.conf.job c.job).cores.flatMap (fun l => [l, 64 + l].filter (fun i => (s.prog i).isOf c))

/-- The `RUNP` that program `i` runs for. -/
def progCmd (s : State) (i : Nat) : Option Cmd := s.q.cmds.find? (fun d => d.op == 0x58 && d.stage == .started && (s.prog i).isOf d)

/-! ## What the programs hand over -/

/-- Amax measurements of a core joined into a command's, by tensor ID (R49). -/
def joinAmax (acc : List (Nat × F32)) : List (Nat × F32) → List (Nat × F32)
  | [] => acc
  | (t, v) :: r =>
    joinAmax (if acc.any (fun a => a.1 == t) then acc.map (fun a => if a.1 = t ∧ a.2.toNat < v.toNat then (t, v) else a) else acc ++ [(t, v)]) r

/-- Sum of optional (first, count) figures in order; the first one stays. -/
def joinFirst (l : List (Option (Nat × Nat))) : Option (Nat × Nat) :=
  l.foldl (fun m x => match m, x with
    | some a, some b => some (a.1, a.2 + b.2)
    | none, y => y
    | a, none => a) none

/-- The conditions of a command with every `OOB` in one: the first offending position stays, the counts add up. -/
def mergeOob (ks : List Cond) : List Cond :=
  match joinFirst (ks.map (fun k => if k.code = 0x10 then some (k.first, k.count) else none)) with
  | some o => ks.filter (fun k => k.code != 0x10) ++ [⟨0x10, o.1, o.2⟩]
  | none => ks

/-- What the programs of a `RUNP` give its command: norm pairs group by group in rank order, amax, exception figures, and the conditions
`CLAIMED` and `OOB`. The first offending position of generators is an instruction address, of explicit claims an index (R131, R177). -/
def Cmd.harvest (c : Cmd) (xs : List LCore) : Cmd :=
  let inf := xs.foldl (fun m x => minOpt m x.regs.infIdx) none
  let nan := xs.foldl (fun m x => minOpt m x.regs.nanIdx) none
  let cl := xs.filterMap (·.claimed)
  let low := cl.foldl (fun m x => minOpt m (some x.1)) none
  let oob := joinFirst (xs.map (·.oob) ++ xs.map (·.claimOob))
  { c with
    normLeaves := (List.range 15).flatMap (fun g => xs.map (fun x => x.regs.norms.getD g Pair.zero))
    amaxOut := xs.foldl (fun a x => joinAmax a x.regs.amax) c.amaxOut
    infF := inf.isSome
    nanF := nan.isSome
    exc := if inf.isSome || nan.isSome then some ⟨0, inf, nan⟩ else none
    conds := mergeOob (c.conds ++ (match oob with | some o => [⟨0x10, o.1, o.2⟩] | none => []) ++
      (match low with | some i => [⟨0x02, i, (cl.map (·.2)).sum⟩] | none => [])) }

/-! ## Units stopped for a command -/

/-- A feeder, and a link, with those of its slices only that are kept. -/
def Feeder.keep (f : Feeder) (k : Slice → Bool) : Feeder := { f with queue := f.queue.filter k, backlog := f.backlog.filter k }
def keepLink (k : Slice → Bool) (l : List LinkSlot) : List LinkSlot := l.filter (fun x => k x.slice)

/-- An array without the slices of work: the ramp stays where it is, and ballast that has been handed out is still injected in the slots of all 16
feeders (R79). -/
def ArrayState.emptied (a : ArrayState) : ArrayState :=
  { a with
    rowF := a.rowF.map (fun f => f.keep (·.ballast))
    colF := a.colF.map (fun f => f.keep (·.ballast))
    rowL := a.rowL.map (keepLink (·.ballast))
    colL := a.colL.map (keepLink (·.ballast))
    planes := [.empty, .empty]
    bands := List.replicate 2 (List.replicate 8 none)
    applied := []
    chunks := [[], []] }

/-- Whether a program has work on a plane: a tile, a preload queued or done, or a drain. -/
def LCore.keepsPlane (y : LCore) (p : Nat) : Bool :=
  y.preSet.getD p false || y.tileIds.getD p 0 != 0 || y.preloads.any (·.plane == p) || y.drains.any (·.plane == p)

/-- Whether a preload under way of a program has written a cell of a plane. -/
def LCore.loadedCell (y : LCore) (p r q : Nat) : Bool := y.preloads.any (fun d => d.plane == p && decide ((if d.col then q else r) < d.next))

/-- Whether a cell holds what a tile of the program that ends has left: those with an even number are of the core's first program, those with an
odd one of its `CHAIN` consumer. `y` is the program that goes on. -/
def ArrayState.orphan (a : ArrayState) (odd : Nat) (y : LCore) (p r q : Nat) : Bool :=
  (((a.bands.getD p []).getD (r / 4) none).map (· % 2 == odd)).getD false && !y.loadedCell p r q

/-- A plane that the program going on keeps and that holds no tile of it yet. -/
def LCore.planeLeft (y : LCore) (p : Nat) (v : PlaneState) : PlaneState :=
  match v with
  | .filling => if y.preloads.any (·.plane == p) then .loading else .empty
  | .draining => if y.drains.any (·.plane == p) then .draining else if y.preloads.any (·.plane == p) then .loading else .empty
  | v => v

/-- An array without one program's slices and tiles. A plane on which the program going on has no work is empty; what that program has preloaded or
begun stays. -/
def ArrayState.without (a : ArrayState) (odd : Nat) (y : LCore) : ArrayState :=
  let mine := fun (t : Nat) => t % 2 == odd
  let left := fun (x : Slice) => x.ballast || !mine x.tile
  let bands := a.bands.map (fun b => b.map (fun t => t.filter (fun t => !mine t)))
  let busy := fun (p : Nat) => (bands.getD p []).any Option.isSome
  { a with
    rowF := a.rowF.map (fun f => f.keep left)
    colF := a.colF.map (fun f => f.keep left)
    rowL := a.rowL.map (keepLink left)
    colL := a.colL.map (keepLink left)
    planes := a.planes.zipIdx.map (fun p => if busy p.2 then p.1 else if y.keepsPlane p.2 then y.planeLeft p.2 p.1 else .empty)
    bands := bands
    applied := a.applied.filter (fun t => !mine t.1)
    chunks := a.chunks.zipIdx.map (fun k =>
      if busy k.2 || y.keepsPlane k.2 then k.1.filter (fun e => !a.orphan odd y k.2 (e.cell / 32) (e.cell % 32)) else []) }

/-- The arrays and cell planes that serve logical core `l` give up their work. -/
def clearArrays (pc : List PCore) (l : Nat) : List PCore :=
  match storageOf pc l with
  | some p => pc.modify p (fun x => { x with planes := .empty, arrays := x.arrays.map ArrayState.emptied })
  | none => pc

/-- The cells of plane `p` of array `n` when program parity `odd` ends and `y` goes on: +0 where nothing of `y` is or where a tile of the other stood. -/
def ArrayState.sweep (a : ArrayState) (odd : Nat) (y : LCore) (n p : Nat) (m : Memory) : Memory :=
  if ((a.without odd y).bands.getD p []).any Option.isSome || y.keepsPlane p then
    (positions 32 32).foldl (fun m e => if a.orphan odd y p e.1 e.2 then m.clear (((2 * n + p) * 1024 + 32 * e.1 + e.2) * 8) 8 else m) m
  else m.clear ((2 * n + p) * 8192) 8192

/-- They give up the work of program `i` only, since the core's other program `y` goes on (R133). -/
def clearProgram (pc : List PCore) (i : Nat) (y : LCore) : List PCore :=
  match storageOf pc (i % 64) with
  | some p => pc.modify p (fun x =>
      { x with
        arrays := x.arrays.map (·.without (i / 64) y)
        planes := (positions 4 2).foldl (fun m k => (x.arrays.getD k.1 ArrayState.reset).sweep (i / 64) y k.1 k.2 m) x.planes })
  | none => pc

/-- A program that stops: nothing of it is left to do. What read-back shows of it stays. -/
def LCore.stopped (x : LCore) : LCore :=
  { x with run := .idle, wait := 0, sends := [], recvs := [], drains := [], preloads := [], tlds := [], held := [], barAt := none, barHeld := none, taken := [], markPend := none,
           log := [], prevLog := [] }

/-- Whether the other program of the core of program `i` is at work. -/
def otherRuns (s : State) (i : Nat) : Bool := let x := s.prog ((i + 64) % 128); x.run != .idle && x.run != .halted

/-- Programs, arrays, streams and chain rings of a command stop; a write in flight completes, another one is discarded (R357). -/
def stopPrograms (s : State) (c : Cmd) : State :=
  let is := progsOf s c
  let t := { s with
    lcores := is.foldl (fun ls i => ls.modify i LCore.stopped) s.lcores
    pcores := is.foldl (fun pc i => if otherRuns s i then clearProgram pc i (s.prog ((i + 64) % 128)) else clearArrays pc (i % 64)) s.pcores
    rings := if c.chain = 2 then s.rings.filter (fun r => !(s.conf.job c.job).cores.contains r.1) else s.rings
    q := s.q.upd c.qid (fun x => { x with cnt := x.cnt.bump 0 3 (discarded s.tender c) }) }
  setTender t (s.tender.release c)

/-- The collective of a command stops on this engine: the abort goes along every tree edge and its number counts as completed (R259). -/
def stopCollective (s : State) (c : Cmd) : State :=
  if isCollective c.op ∨ c.op = 0x63 then
    let k := cseqOf s c
    let live := s.red.colls.any (fun x => x.qid == c.qid && x.seq == c.seq)
    if k = 0 then s
    else if c.stage = .read ∨ c.stage = .admitted ∨ live = true ∨ isParityUser c = true then
      let r := sendAbort s k none
      { s with
        red := { r with colls := r.colls.filter (fun x => !(x.qid == c.qid && x.seq == c.seq)) }.ended k
        q := s.q.upd c.qid (fun x => { x with cnt := x.cnt.bump 4 4 1 }) }
    else s
  else s

/-- A cancelled fold of a pool: what it has folded by then is in memory, the counts of the owners in the header, and the flag is set, also where the
flush of an `EMBG` without `MDEFER` has cleared it (R231, R234, R235). -/
def cutMerge (s : State) (c : Cmd) : State :=
  let pool := c.pf 2 0 48
  let tab := parseDesc (dieLe s.mem s.extent pool 64)
  let st := mergePart s pool
  { s with
    mem := st.mem.dieStores s.extent [poolFlag pool (bf (dieLe s.mem s.extent (pool + 64) 8) 1 7) true]
    hash := ⟨none, []⟩
    q := (s.q.updCmd (fun d => d.same c) (fun d => d.addMeter tab.tid (touchedMeter s.extent tab st.mem st.touched))).upd c.qid (fun x => { x with
      cnt := x.cnt.bumps [(3, 4, st.merged), (1, 2, st.foreign)] })
    free := s.free + 1
    conf := { s.conf with jobs := setPool s.conf.jobs c.job pool true } }

/-- A cancelled `EMBG` behind its accumulate phase completes the flush and leaves the pool open (R231). -/
def cutFlush (s : State) (c : Cmd) : State :=
  let tab := c.d 0
  let ws := s.hash.ways.flatMap (fun w => segWrites s.extent tab w.row w.seg w.pairs)
  let pool := c.pf 2 0 48
  { s with
    mem := s.mem.dieStores s.extent (wrStores tab 1 ws ++ [poolFlag pool (s.conf.job c.job).cores.length true])
    hash := ⟨none, []⟩
    q := s.q.updCmd (fun d => d.same c) (fun d => d.addMeter tab.tid (ws.foldl (fun m w => m.add w.idx w.v) Meter.zero))
    conf := { s.conf with jobs := setPool s.conf.jobs c.job pool true } }

/-- The hash accumulator and the pool of an `EMBG` or `MERGE` that stops. A cancelled `EMBG` completes its flush if its accumulate phase is over, and
a fold stops where it is; otherwise the slots are invalidated and the pool is discarded (R231, R235). -/
def stopHash (s : State) (c : Cmd) (cancel : Bool) : State :=
  if (c.op = 0x30 ∨ c.op = 0x32) ∧ s.hash.holder = some (c.qid, c.seq) then
    if cancel = true ∧ (c.op = 0x32 ∨ c.units = 3) then cutMerge s c
    else if cancel = true ∧ c.units = 2 then cutFlush s c
    else { s with hash := ⟨none, []⟩ }
  else s

/-- Ends a command with a condition: its units stop, what its programs have measured stays with it. After a cancel or an aborted page fault what has
been fetched behind it goes too (R168); the consumer of a producer that ends so is to be cancelled (R109). -/
def endCommand (s : State) (c : Cmd) (k : Cond) : State :=
  let xs := (progsOf s c).map s.prog
  let cut := k.code == 0x30 || k.code == 0x31
  let t := stopHash (stopCollective (stopPrograms s c) c) c (k.code == 0x31)
  let t := if cut then dropAhead t c else t
  { t with
    mem := t.mem.dieStores t.extent (xstatStores s c k.code)
    q := (t.q.updCmd (fun d => d.same c) (fun d =>
      let e := if d.op = 0x58 ∧ d.stage = .started then d.harvest xs else d
      { e with stage := .ended, staged := [], conds := mergeOob (e.conds ++ [k]) })).upd c.qid (fun x =>
        let x := (if c.stage = .started then x else x.pair c).chainOver c
        if c.chain = 1 then { x with chainBad := x.chainBad || fromOob k.code } else x) }

/-- Lowest element index that a command which stops has not written, in its first output: of a fold pass and of a `LENS` or `PRUNE` by its units, of a `REDUCE` by the
segments that it has applied; every other
command writes all its elements in one step of the model, so index 0 of its first output before that step and none after it; none for a command without
outputs. -/
def unwritten (s : State) (c : Cmd) : Nat :=
  if c.stage = .ended then noIndex
  else if c.staged ≠ [] then firstFold c
  else if c.op = 0x40 ∨ c.op = 0x38 then firstUnwritten c
  else if c.op = 0x48 ∧ c.outs ≠ [] then ((s.red.colls.find? (fun x => x.qid == c.qid && x.seq == c.seq)).map (·.applied)).getD 0
  else match c.outs.head? with
    | some r => match c.role r with
      | some d => d.index 0 0 0
      | none => noIndex
    | none => noIndex

/-- Ends a command with `UNCORR` (R357). -/
def endUncorr (s : State) (c : Cmd) (n : Nat) : State := endCommand s c ⟨0x60, unwritten s c, n⟩

/-! ## The engine reserve (R358) -/

/-- A queue whose context image the engine cannot read: it is `OFF`, its commands end with `UNCORR` (R358). -/
def killQueue (s : State) (q : Nat) : State :=
  let t := (s.q.cmds.filter (fun c => c.qid == q && c.refusal.isNone)).foldl (fun t c => endUncorr t c 1) s
  { t with q := t.q.updCtx q (fun c => { c with state := .off }) }

/-- Whether a queue that is not resident has packets to read. -/
def hasWork (s : State) (q : Nat) : Bool :=
  let c := memCtx s q
  hasContext s q && c.state != .off && c.head != c.tail

/-- An uncorrectable word of the engine reserve (R358). Where accounts, pending bitmap and context images lie in it the manual does not say: what
the word belongs to is free (log 48). Each case leaves a record (R359). Of the queues of a bitmap word, one without work would be brought in and evicted again, so it is left out. -/
def reserveWord (s : State) (w : Storage × Nat) : State :=
  let n := (Config.sampled s.free 3).toNat
  let t := storageFault { s with free := s.free + 1 } 4 0 false w.1 w.2
  let rewritten := { t with flt := { t.flt with double := t.flt.double.erase w } }
  match n % 4 with
  | 0 => { rewritten with accts := { t.accts with list := assocSet Account.zero t.accts.list (n / 4 % 65537) Account.zero } }
  | 1 =>
    let qs := rangeFrom (64 * (n / 4 % 65536)) 64
    (qs.filter (fun q => (t.q.find q).isNone && hasWork t q)).foldl (fun u q => { u with q := u.q.setPend q }) rewritten
  | 2 => match t.q.res[n / 4 % Nat.max 1 t.q.res.length]? with
    | some x => killQueue t x.qid
    | none => t
  | _ => t

/-- The engine reads its reserve: whether it meets a word there that it cannot correct is free (log 48). -/
def reserveTouch (s : State) : State :=
  match s.flt.double.find? (fun e => e.1 == .central && decide (260046848 ≤ e.2)) with
  | none => s
  | some w =>
    let t := { s with free := s.free + 1 }
    if bit (Config.sampled s.free 13).toNat 0 then reserveWord t w else t

/-! ## Reads of a command -/

/-- Whether a read of a command's data can be served; a word that cannot be corrected writes its record and ends the command (R357). -/
def consume (s : State) (c : Cmd) (st : Storage) (a n : Nat) : State × Bool :=
  let bad := badWords s st a n
  if bad.isEmpty then (touchRead s st a n, true)
  else (endUncorr (bad.foldl (fun t w => storageFault t 4 3 false st w.2) s) c bad.length, false)

end Sys2Proof.Machine
end

