-- ==== Sys2Proof/Machine/Streams.lean ====
section
/-!
DEFINITION. The operand streams of a `RUNP` and their blocks (R145-R152), as the Tender and the cores share them, and the ports of transfers
(R155, R354).
-/
namespace Sys2Proof.Machine

/-! ## Streams -/

/-- Whether a stream is a command's. -/
def OStream.isOf (o : OStream) (c : Cmd) : Bool := o.qid == c.qid && o.seq == c.seq

/-- A stream as its first issue finds it. -/
def OStream.fresh (c : Cmd) (n : Nat) (b : Binding) : OStream := ⟨c.qid, c.seq, n, b, b.list, 0, 0, [], [], false, 0, [], 0, [], [], false⟩

/-- Stream `n` of a command; not yet begun, it stands at the start of its list. -/
def streamOf (t : Tender) (c : Cmd) (n : Nat) (b : Binding) : OStream :=
  (t.streams.find? (fun o => o.isOf c && o.num == n)).getD (OStream.fresh c n b)

/-- A stream put in the place of its former state. -/
def Tender.setStream (t : Tender) (o : OStream) : Tender :=
  { t with streams := t.streams.filter (fun x => !(x.qid == o.qid && x.seq == o.seq && x.num == o.num)) ++ [o] }

/-- The consumers of a stream. -/
def OStream.consumers (o : OStream) : List Nat := bitsOf o.bind.cons 64

/-- The next block a consumer takes. -/
def OStream.nextOf (o : OStream) (l : Nat) : Nat := lookupD 0 o.takes l

/-- The lowest block that some consumer has not taken (t of R151). -/
def OStream.lowest (o : OStream) : Nat := o.consumers.foldl (fun m l => Nat.min m (o.nextOf l)) o.nextBlock

/-- Whether a transfer serves a stream. -/
def Xfer.serves (x : Xfer) (o : OStream) : Bool := x.feeds o && !x.drop

/-- A stream is halted while a page fault of it stands, and until its transfer is out again (R165, R167). -/
def Tender.halted (t : Tender) (o : OStream) : Bool := (t.redo ++ (t.recs ++ t.waiting).map (·.xfer)).any (fun x => x.serves o)

/-- Whether a block lies complete in its slot. -/
def blockDone (t : Tender) (o : OStream) (b : SBlock) : Bool :=
  b.todo.isEmpty && !t.open.any (fun x => x.serves o && x.skind == 0 && x.block == b.num)

/-- A block leaves its slot once every consumer has taken it and completed a mark (R152). -/
def OStream.prune (o : OStream) : OStream :=
  { o with blocks := o.blocks.filter (fun b => !o.consumers.all (fun l => b.takers.contains l && b.marked.contains l)) }

/-- A block taken by core `l`. -/
def Tender.took (t : Tender) (o : OStream) (l num : Nat) : Tender :=
  t.setStream { o with
    takes := assocSet 0 o.takes l (Nat.max (o.nextOf l) (num + 1))
    since := o.since.filter (· != l)
    blocks := o.blocks.map (fun b => if b.num = num ∧ b.takers.contains l = false then { b with takers := b.takers ++ [l] } else b) }

/-! ## Ports -/

/-- The fabric port of a transfer: by address bits [16:14], and in place of a retired port the remaining one of number (address >> 17) mod r. -/
def portOf (s : State) (a : Nat) : Nat :=
  let k := a / 16384 % 8
  let left := (List.range 8).filter (fun j => s.flt.ports.getLsbD j)
  if s.flt.ports.getLsbD k then k else left.getD (a / 131072 % Nat.max 1 left.length) k

/-- The transfers on a retired port go to their new ones, in the order they have (R354). -/
def reassign (s : State) : State :=
  let f := fun (x : Xfer) => { x with port := portOf s x.addr }
  { s with tender := { s.tender with xfers := s.tender.xfers.map f } }

/-- A transfer starts at a 16-byte boundary, covers at least 16 bytes and crosses no 16 KiB boundary (R155, R424): address, length and bytes in front of
the `n` bytes from `a` that it is for. -/
def widen (a n : Nat) : Nat × Nat × Nat := (a / 16 * 16, Nat.max 16 (a % 16 + n), a % 16)

/-- Whether two ranges, each an address and a length, share a byte. -/
def rangesMeet (a n b m : Nat) : Bool := decide (a < b + m) && decide (b < a + n)

/-- Whether a transfer of `n` bytes from `a` may go out: its port has fewer than 1,024 in flight (R424), none in flight overlaps it, and of those that are
halted none with which it would have to keep an order (R425). -/
def xferClear (s : State) (a n : Nat) (write : Bool) : Bool :=
  decide ((s.tender.xfers.filter (fun y => y.port == portOf s a)).length < 1024) &&
  !s.tender.xfers.any (fun y => rangesMeet a n y.addr y.len) &&
  !(s.tender.redo ++ (s.tender.recs ++ s.tender.waiting).map (·.xfer)).any (fun y => (write || y.write) && y.skind != 6 && rangesMeet a n y.addr y.len)

/-- A transfer goes out on its port. -/
def sendXfer (s : State) (x : Xfer) : State :=
  { s with tender := { s.tender with xfers := s.tender.xfers ++ [{ x with port := portOf s x.addr }], last := x.qid } }

/-- A new transfer goes out. -/
def issueXfer (s : State) (x : Xfer) : State :=
  sendXfer { s with tender := { s.tender with nextId := s.tender.nextId + 1 } } { x with id := s.tender.nextId }

/-- A read for a command's stream: kind, core, block, offset in it, and the bytes wanted. -/
def readXfer (qid : Nat) (seq : BitVec 32) (stream skind core block num off a n : Nat) : Xfer :=
  let w := widen a n
  ⟨0, qid, seq, stream, skind, core, block, off, w.1, w.2.1, false, [], num, 0, w.2.2, n, false⟩

/-- A write for a command's drain stream: core, offset, number, and the bytes written from `a`, which the byte mask of its granules selects (R424). -/
def writeXfer (qid : Nat) (seq : BitVec 32) (core off num a : Nat) (data : List Byte) : Xfer :=
  let w := widen a data.length
  ⟨0, qid, seq, 0, 2, core, 0, off, w.1, w.2.1, true, data, num, 0, w.2.2, data.length, false⟩

end Sys2Proof.Machine
end

