-- ==== Sys2Proof/Machine/Cores.lean ====
section
/-!
DEFINITION. Core programs (05): fetching an instruction, what it may answer, the program counter with its loops, address generators and spaces
(R116), interlocks (R117), the replay log (R137, R138), and the scalar, branch and loop instructions of Table 5.3.
-/
namespace Sys2Proof.Machine

/-! ## Enabled programs -/

/-- Whether the units and the storage of a logical core can work: they exist, their domains are ON and no hold stops them (R389, R392, R396). -/
def coreUp (s : State) (l : Nat) : Bool :=
  match unitsOf s.pcores l, storageOf s.pcores l with
  | some u, some p => domOn s (u / 2) && !domHeld s u && domOn s (p / 2) && !domHeld s p
  | _, _ => false

/-- Whether program `i` may issue an instruction. -/
def progReady (s : State) (i : Nat) : Bool :=
  s.fw.state != .hung &&
  let x := s.prog i
  (x.run == .running || x.run == .replaying) && x.barAt.isNone && coreUp s (i % 64)

/-- Byte offset of instruction 0 in program memory (R113). -/
def imageBase (half : Nat) : Nat := if half = 2 then 32768 else 0

/-- The instruction word at a program's counter. -/
def fetchWord (s : State) (i : Nat) : Nat :=
  let x := s.prog i
  match storageOf s.pcores (i % 64) with
  | some p => (s.pcore p).pmem.le (imageBase x.half + 8 * x.regs.pc.toNat) 8
  | none => 0

/-- What an instruction answers: it is illegal (R115), it waits (kind of Table 17.11; 0 for an interlock), it is done and the next one follows,
it has issued and waits in its unit, it is done and the program goes on at an address, or its command has ended. -/
inductive IRes where
  | illegal
  | wait (kind : Nat)
  | go (t : State)
  | hold (t : State)
  | jump (t : State) (pc : Nat)
  | ovr (t : State)
  deriving DecidableEq, Repr

/-! ## Registers, program counter and loops -/

/-- Scalar register k; `S0` reads 0. -/
def LCore.reg (x : LCore) (k : Nat) : Word := if k = 0 then 0 else x.regs.sregs.getD k 0

/-- A write of scalar register k; `S0` keeps reading 0. -/
def LCore.setReg (x : LCore) (k : Nat) (v : Word) : LCore :=
  if k = 0 then x else { x with regs := { x.regs with sregs := x.regs.sregs.set k v } }

/-- The program goes on at address `pc`. -/
def LCore.goto (x : LCore) (pc : Nat) : LCore :=
  { x with wait := 0, regs := { x.regs with pc := BitVec.ofNat 13 pc, fin := decide (x.len ≤ pc) } }

/-- Ends of loop bodies at address `pc`, innermost loop first: the loops left, and where the program goes on. -/
def loopEnd (pc : Nat) : List Nat → List LoopCtr → List Nat × List LoopCtr × Nat
  | [], lcs => ([], lcs, pc + 1)
  | k :: r, lcs =>
    let c := lcs.getD k ⟨0, 0, 0, false⟩
    if c.fin.toNat = pc then
      if 1 < c.left.toNat then (k :: r, lcs.set k { c with left := c.left - 1 }, c.start.toNat)
      else loopEnd pc r (lcs.set k { c with left := 0, active := false })
    else (k :: r, lcs, pc + 1)

/-- The program counter after an instruction that does not branch. -/
def LCore.advance (x : LCore) : LCore :=
  let e := loopEnd x.regs.pc.toNat x.regs.stack x.regs.lcs
  ({ x with regs := { x.regs with stack := e.1, lcs := e.2.1 } }).goto e.2.2

/-- A replay whose log is exhausted goes on as a normal run (R138). -/
def LCore.settleReplay (x : LCore) : LCore := if x.run = .replaying ∧ x.prevLog = [] then { x with run := .running } else x

/-- Counts an illegal instruction (R115, R296). The counter and the record are the core's, whichever of its two programs it was: they stand in the
first one, as does every record of Table 17.12, space 0x06. -/
def badInstr (s : State) (i w : Nat) : State :=
  let x := s.prog i
  noteIll (s.updProg (i % 64) (fun y => { y with illCnt := satTo (2 ^ 64 - 1) (y.illCnt + 1), illWord := BitVec.ofNat 64 w, illAddr := some x.regs.pc }))
    0x04 (.core (i % 64)) (some x.qid) (BitVec.ofNat 64 w)

/-- The state after an answer; none where the program waits. -/
def afterInstr (s : State) (i w : Nat) (r : IRes) : Option State :=
  match r with
  | .illegal => some ((badInstr s i w).updProg i (fun x => x.advance.settleReplay))
  | .go t | .hold t => some (t.updProg i (fun x => x.advance.settleReplay))
  | .jump t pc => some (t.updProg i (fun x => (x.goto pc).settleReplay))
  | .ovr t => some t
  | .wait _ => none

/-- A program waits at its instruction; a wait is recorded when it is reported (R125). -/
def setWait (s : State) (i kind : Nat) : State := if kind = 0 then s else s.updProg i (fun x => { x with wait := kind })

/-- The answer of an instruction's row. -/
def onCore (l : Nat) (t : State) : Host.Outcome State Fault Refusal := if l < 64 then .next t else noUnit

/-- Bits [55:0] of an instruction that lie outside its named fields (high bit, low bit). -/
def rsvBits (w : Nat) (fields : List (Nat × Nat)) : Bool :=
  let named := fields.foldl (fun m f => m ||| ((2 ^ (f.1 + 1 - f.2) - 1) <<< f.2)) 0
  (w % 2 ^ 56) ||| named != named

/-- The immediate of an instruction, sign-extended. -/
def imm32 (w : Nat) : Word := BitVec.ofInt 64 (sext 32 (bf w 0 32))

/-! ## Address generators (R116) -/

/-- The address a generator yields. -/
def AddrGen.addr (g : AddrGen) : Int := g.base.toNat + g.i0 * g.st0.toInt + g.i1 * g.st1.toInt + g.i2 * g.st2.toInt

/-- An extent; 0 counts as 1. -/
def extentOf (e : BitVec 16) : Nat := if e = 0 then 1 else e.toNat

/-- The generator `n` uses later. A position at or beyond its extent steps as the last one does. -/
def AddrGen.adv (g : AddrGen) (n : Nat) : AddrGen :=
  if n = 0 then g
  else
    let a := extentOf g.ex0
    let b := extentOf g.ex1
    let c := extentOf g.ex2
    let t := Nat.min g.i0 (a - 1) + a * (Nat.min g.i1 (b - 1) + b * Nat.min g.i2 (c - 1)) + n
    { g with i0 := t % a, i1 := t / a % b, i2 := t / (a * b) % c }

/-- The addresses of the next `n` uses. -/
def AddrGen.take (g : AddrGen) (n : Nat) : List Int := (List.range n).map (fun k => (g.adv k).addr)

/-- Generator k of a program. -/
def LCore.ag (x : LCore) (k : Nat) : AddrGen := x.regs.ags.getD k AddrGen.reset

/-- Generator k advanced by n uses. -/
def LCore.useAg (x : LCore) (k n : Nat) : LCore := { x with regs := { x.regs with ags := x.regs.ags.modify k (·.adv n) } }

/-- Space of a generator: 0 scratchpad, 1 accumulator store, 2 central store, 3 memory. -/
def AddrGen.sp (g : AddrGen) : Nat := g.space.toNat

/-! ## Spaces -/

/-- Bytes of a space. -/
def spaceSize (s : State) (i sp : Nat) : Nat :=
  match sp with
  | 0 => Config.scratchBytes
  | 1 => Config.accBytes
  | 2 => (match progCmd s i with
    | some c => (s.conf.job c.job).psize * 1048576
    | none => 0)
  | _ => s.extent

/-- Base of the job's partition in the central store, in bytes. -/
def partBase (s : State) (c : Cmd) : Nat := (s.conf.job c.job).pbase * 1048576

/-- The storage array and the offset in it behind an address of a space; memory is none. -/
def spaceStorage (s : State) (i : Nat) (c : Cmd) (sp a : Nat) : Option (Storage × Nat) :=
  let p := (storageOf s.pcores (i % 64)).getD 0
  match sp with
  | 0 => some (.scratch p, a)
  | 1 => some (.acc p, a)
  | 2 => some (.central, partBase s c + a)
  | _ => none

/-- What a read of lines gives: the state (with what check bits did), the bytes, and whether the command goes on. -/
structure Rd where
  st : State
  data : List Byte
  ok : Bool
  deriving DecidableEq, Repr

/-- Reads pieces (address, length) of a space; a piece that lies partly outside reads as zero bytes (R177). -/
def readPieces (i : Nat) (c : Cmd) (sp : Nat) : List (Int × Nat) → State → Rd
  | [], s => ⟨s, [], true⟩
  | (a, n) :: r, s =>
    if inside (spaceSize s i sp) a n then
      match spaceStorage s i c sp a.toNat with
      | some (st, off) =>
        let k := consume s c st off n
        if k.2 then
          let x := readPieces i c sp r k.1
          { x with data := (storageMem s st).bytes off n ++ x.data }
        else ⟨k.1, [], false⟩
      | none =>
        let x := readPieces i c sp r s
        { x with data := dieBytes s.mem s.extent a.toNat n ++ x.data }
    else
      let x := readPieces i c sp r s
      { x with data := List.replicate n 0 ++ x.data }

/-- Writes pieces (address, bytes) of a space; a piece that lies partly outside is dropped (R177). -/
def writePieces (i : Nat) (c : Cmd) (sp : Nat) : List (Int × List Byte) → State → State
  | [], s => s
  | (a, bs) :: r, s =>
    if inside (spaceSize s i sp) a bs.length then
      match spaceStorage s i c sp a.toNat with
      | some (st, off) => writePieces i c sp r (storageWrite s st off bs)
      | none => writePieces i c sp r { s with mem := s.mem.dieStores s.extent [.bytes a.toNat bs] }
    else writePieces i c sp r s

/-- Pieces of `n` contiguous bytes at the boundaries of 128 B lines. -/
def linePieces : Nat → Int → Nat → List (Int × Nat)
  | 0, _, _ => []
  | f + 1, a, n =>
    if n = 0 then []
    else
      let k := Nat.min n (128 - (a % 128).toNat)
      (a, k) :: linePieces f (a + k) (n - k)

/-- The pieces of a contiguous operand. -/
def contiguous (a : Int) (n : Nat) : List (Int × Nat) := linePieces (n / 128 + 2) a n

/-- Bytes cut along pieces. -/
def cutBytes : List (Int × Nat) → List Byte → List (Int × List Byte)
  | [], _ => []
  | (a, n) :: r, bs => (a, bs.take n) :: cutBytes r (bs.drop n)

/-- How many pieces lie outside their space. -/
def outPieces (s : State) (i sp : Nat) (l : List (Int × Nat)) : Nat := (l.filter (fun x => !inside (spaceSize s i sp) x.1 x.2)).length

/-- Counts out-of-range lines of a program at its counter (R177). -/
def noteOob (s : State) (i n : Nat) : State :=
  if n = 0 then s
  else s.updProg i (fun x => { x with oob := match x.oob with
    | some o => some (o.1, o.2 + n)
    | none => some (x.regs.pc.toNat, n) })

/-! ## Interlocks (R117, R122, R135) -/

/-- A range of a space: space, first byte, byte after the last. -/
abbrev Span := Nat × Int × Int

/-- Whether two ranges share a byte. -/
def spansMeet (a b : Span) : Bool := a.1 == b.1 && decide (a.2.1 < b.2.2) && decide (b.2.1 < a.2.2)

/-- Bytes of one array row of 32 elements. -/
def rowLen32 (fmt : Nat) : Nat := 32 * eBytes fmt

/-- Range of an accumulator-store slot. -/
def slotSpan (k : Nat) : Span := (1, 32768 * k, 32768 * k + 32768)

/-- Ranges of rows by their addresses. -/
def rowSpans (sp n : Nat) (l : List Int) : List Span := l.map (fun a => (sp, a, a + (n : Int)))

/-- Range of `lines` lines from an address of the scratchpad. -/
def lineSpan (a : Int) (lines : Nat) : Span := (0, a, a + (128 * lines : Nat))

/-- What queued work of a program still reads, with its issue number. -/
def LCore.pendReads (x : LCore) : List (Nat × Span) :=
  x.sends.map (fun m => (m.ord, lineSpan m.addr m.lines)) ++
  x.drains.flatMap (fun d => (d.eaddrs.map (fun e => ((e.1, e.2, e.2 + (rowLen32 d.fmt : Int)) : Span))).map (fun k => (d.ord, k))) ++
  x.preloads.flatMap (fun d => (if d.src = 1 then [slotSpan d.slot] else rowSpans 2 (rowLen32 d.fmt) d.addrs).map (fun k => (d.ord, k))) ++
  x.held.flatMap (fun h => h.reads.map (fun k => (h.ord, k)))

/-- What `TLD` instructions that wait for their blocks still write. -/
def LCore.tldWrites (x : LCore) : List (Nat × Span) := x.tlds.flatMap (fun t => t.dst.map (fun p => (t.ord, (0, p.1, p.1 + (p.2 : Int)))))

/-- What queued work of a program still writes. -/
def LCore.pendWrites (x : LCore) : List (Nat × Span) :=
  x.tldWrites ++ x.recvs.map (fun m => (m.ord, lineSpan m.addr m.lines)) ++
  x.drains.flatMap (fun d => (if d.park then [slotSpan d.slot] else rowSpans 2 (rowLen32 d.fmt) d.addrs).map (fun k => (d.ord, k))) ++
  x.held.flatMap (fun h => h.writes.map (fun k => (h.ord, k)))

/-- Whether accesses must wait for queued work issued before `ord`; writes wait also for a `MARK` issued before it (R135). -/
def LCore.conflicts (x : LCore) (ord : Nat) (reads writes : List Span) : Bool :=
  (!writes.isEmpty && x.markPend.any (fun m => decide (m.ord < ord))) ||
  let rs := x.pendReads.filter (fun e => decide (e.1 < ord))
  let ws := x.pendWrites.filter (fun e => decide (e.1 < ord))
  reads.any (fun a => ws.any (fun e => spansMeet a e.2)) || writes.any (fun a => (rs ++ ws).any (fun e => spansMeet a e.2))

/-- Whether an instruction about to issue must wait. -/
def LCore.locked (x : LCore) (reads writes : List Span) : Bool := x.conflicts (x.issue + 1) reads writes

/-- Whether a page fault halts what a waiting `TLD` of program `i` waits for: its stream, or one of its own reads. -/
def tldHalted (s : State) (i : Nat) (c : Cmd) (t : TldJob) : Bool :=
  match c.binds[t.stream]? with
  | some b => s.tender.halted (streamOf s.tender c t.stream b)
  | none => (s.tender.redo ++ (s.tender.recs ++ s.tender.waiting).map (·.xfer)).any (fun x =>
      x.isOf c && x.stream == 8 && x.core == i % 64 && x.num == t.ord)

/-- Kind of a wait behind `TLD` instructions of program `i` (Table 17.11): 8 where a page fault halts one, 7 where one waits for its block, else an
interlock. -/
def blockKind (s : State) (i : Nat) (c : Cmd) (ts : List TldJob) : Nat := if ts.isEmpty then 0 else if ts.any (tldHalted s i c) then 8 else 7

/-- Kind of a wait for ranges that an instruction of program `i` touches, by the `TLD` instructions that are still to write them. -/
def lockKind (s : State) (i : Nat) (c : Cmd) (spans : List Span) : Nat :=
  blockKind s i c ((s.prog i).tlds.filter (fun t => t.dst.any (fun p => spans.any (fun a => spansMeet a (0, p.1, p.1 + (p.2 : Int))))))

/-- Ranges of pieces of a space. -/
def pieceSpans (sp : Nat) (l : List (Int × Nat)) : List Span := l.map (fun x => (sp, x.1, x.1 + x.2))

/-- Opcode of an instruction that waits in its unit. -/
def HeldInstr.op (h : HeldInstr) : Nat := bf h.word 56 8

/-- Whether an instruction of one of these opcodes, issued before the next one, waits in its unit. -/
def LCore.holds (x : LCore) (ops : List Nat) : Bool := x.held.any (fun h => ops.contains h.op)

/-- An instruction issues and waits in its unit (R117; DEDUCED, log 114): the program is behind it as `book` says. -/
def holdInstr (s : State) (i w : Nat) (reads writes : List Span) (book : LCore → LCore) : IRes :=
  let x := s.prog i
  let h : HeldInstr := ⟨x.issue + 1, w, x.regs, x.curPlane, x.tile, x.tileIds, x.tileWaves, x.taken, reads, writes⟩
  .hold (s.updProg i (fun y => { book y with issue := x.issue + 1, held := y.held ++ [h] }))

/-- A further instruction of a program is issued to a unit; its number. -/
def LCore.issued (x : LCore) : LCore := { x with issue := x.issue + 1 }

/-! ## The replay log (R137) -/

/-- Rank of a core in its job. -/
def rankIn (s : State) (c : Cmd) (l : Nat) : Nat := (s.conf.job c.job).cores.findIdx (· == l)

/-- Kind of an entry. -/
def LogEntry.kind : LogEntry → Nat
  | .recv _ _ _ _ _ => 0 | .swait => 1 | .result _ => 2 | .take _ _ _ => 3 | .send _ => 4 | .sig => 5 | .chput => 6 | .chrel => 7 | .bar => 8
  | .park _ _ => 9

/-- Whether a logged action belongs to an instruction behind the mark of issue number `n`: one issued before the mark can have completed after it. -/
def LogEntry.behind (e : LogEntry) (n : Nat) : Bool :=
  match e with
  | .send o | .recv o _ _ _ _ | .take o _ _ | .park o _ => decide (n < o)
  | _ => true

/-- Bytes of an entry: 16, and the data of a message (log 32). -/
def LogEntry.size : LogEntry → Nat
  | .recv _ _ _ _ d => 16 + d.length
  | _ => 16

/-- Bytes of a program's log: 64 KiB in the partition, then its part of the overflow region (R137). -/
def logRoom (s : State) (c : Cmd) : Nat := 65536 + c.pf 5 0 40 / Nat.max 1 (s.conf.job c.job).cores.length

/-- An entry enters the log of a program; one that finds no room is lost, and the program can no longer be replayed. -/
def LCore.record (x : LCore) (room : Nat) (e : LogEntry) : LCore :=
  if room < x.logBytes + e.size then { x with overflowed := true }
  else { x with log := x.log ++ [e], logBytes := x.logBytes + e.size }

/-- The next logged entry of a kind in a replay. -/
def LCore.logged (x : LCore) (k : Nat) : Option LogEntry := if x.run = .replaying then x.prevLog.find? (fun e => e.kind == k) else none

/-- The entry is used up. -/
def LCore.consume (x : LCore) (e : LogEntry) : LCore := { x with prevLog := x.prevLog.erase e }

/-- Bytes that an entry takes in the log store behind the first `at_` bytes of a program's log: 64 KiB in the partition, then the core's part of the
overflow region, dropped outside the memory. The form of an entry is not given, so the bytes are free (log 92). -/
def logBytesAt (s : State) (i : Nat) (c : Cmd) (at_ n : Nat) : State :=
  let x := s.prog i
  let near := Nat.min n (65536 - at_)
  let part := logRoom s c - 65536
  let far := c.pf 4 0 48 + rankIn s c (i % 64) * part + (at_ + near - 65536)
  { writeFree s .central 201 (partBase s c + x.logAt + at_) near with
    mem := if n = near then s.mem else s.mem.dieHavoc s.extent s.free far (n - near) }

/-- Records an action of program `i`. -/
def logAction (s : State) (i : Nat) (c : Cmd) (e : LogEntry) : State :=
  let x := s.prog i
  if logRoom s c < x.logBytes + e.size then s.updProg i (fun y => y.record (logRoom s c) e)
  else (logBytesAt s i c x.logBytes e.size).updProg i (fun y => y.record (logRoom s c) e)

/-! ## Scalar, branch and loop instructions -/

/-- Opcodes of Table 5.3. -/
def opcodes : List Nat :=
  [0x00, 0x01, 0x02, 0x03, 0x04, 0x05, 0x06, 0x08, 0x09, 0x0F, 0x10, 0x11, 0x20, 0x30, 0x31, 0x32, 0x40, 0x41, 0x42, 0x50, 0x51, 0x52, 0x60,
   0x70, 0x71, 0x72, 0x73, 0x80, 0x81, 0x82, 0x83]

/-- `NOP`, and the words with an undefined opcode, which are illegal and belong to no other row (log 33). -/
def nopInstr (s : State) (_i : Nat) (_c : Cmd) (w : Nat) : IRes := if bf w 56 8 ≠ 0 ∨ rsvBits w [] = true then .illegal else .go s

/-- `SALU` by FN on its two operands. -/
def salu (fn : Nat) (a b : Word) : Option Word :=
  let sh := (b &&& 63#64).toNat
  match fn with
  | 0x0 => some (a + b)
  | 0x1 => some (a - b)
  | 0x2 => some (a &&& b)
  | 0x3 => some (a ||| b)
  | 0x4 => some (a ^^^ b)
  | 0x5 => some (a <<< sh)
  | 0x6 => some (a >>> sh)
  | 0x7 => some (a.sshiftRight sh)
  | 0x8 => some (a * b)
  | 0x9 => some (if b.slt a then b else a)
  | 0xA => some (if a.slt b then b else a)
  | 0xB => some (if a = b then 1 else 0)
  | 0xC => some (if a.slt b then 1 else 0)
  | 0xD => some (if a.ult b then 1 else 0)
  | _ => none

/-- Operand of an instruction with an `I` bit: its immediate or a register. -/
def LCore.opnd (x : LCore) (isImm : Bool) (imm : Word) (r : Nat) : Word := if isImm then imm else x.reg r

/-- `SALU`. -/
def saluInstr (s : State) (i : Nat) (_c : Cmd) (w : Nat) : IRes :=
  let x := s.prog i
  if rsvBits w [(55, 36), (31, 0)] then .illegal
  else match salu (bf w 36 4) (x.reg (bf w 46 5)) (x.opnd (bit w 40) (imm32 w) (bf w 41 5)) with
    | some v => .go (s.updProg i (fun y => y.setReg (bf w 51 5) v))
    | none => .illegal

/-- `SLI`. -/
def sliInstr (s : State) (i : Nat) (_c : Cmd) (w : Nat) : IRes :=
  let d := bf w 51 5
  if rsvBits w [(55, 50), (31, 0)] then .illegal
  else .go (s.updProg i (fun y => y.setReg d (if bit w 50 then BitVec.ofNat 64 (bf w 0 32 * 2 ^ 32 + bf (y.reg d).toNat 0 32) else imm32 w)))

/-- `SLD`: from the scratchpad or the central store. -/
def sldInstr (s : State) (i : Nat) (c : Cmd) (w : Nat) : IRes :=
  let x := s.prog i
  let k := bf w 47 4
  let g := x.ag k
  let ps := [(g.addr, 8)]
  if rsvBits w [(55, 47)] || (g.sp != 0 && g.sp != 2) then .illegal
  else if x.locked (pieceSpans g.sp ps) [] then .wait (lockKind s i c (pieceSpans g.sp ps))
  else
    let r := readPieces i c g.sp ps s
    if r.ok then .go ((noteOob r.st i (outPieces s i g.sp ps)).updProg i (fun y => (y.setReg (bf w 51 5) (BitVec.ofNat 64 (ofLe r.data))).useAg k 1))
    else .ovr r.st

/-- `SST`. -/
def sstInstr (s : State) (i : Nat) (c : Cmd) (w : Nat) : IRes :=
  let x := s.prog i
  let k := bf w 47 4
  let g := x.ag k
  let ps := [(g.addr, 8)]
  if rsvBits w [(55, 47)] || (g.sp != 0 && g.sp != 2) then .illegal
  else if x.locked [] (pieceSpans g.sp ps) then .wait (lockKind s i c (pieceSpans g.sp ps))
  else .go ((noteOob (writePieces i c g.sp [(g.addr, leBytes 8 (x.reg (bf w 51 5)).toNat)] s) i (outPieces s i g.sp ps)).updProg i (fun y => y.useAg k 1))

/-- A field of a generator set (Table 5.4); none for an undefined field or a space that does not exist. -/
def AddrGen.setField (g : AddrGen) (fld : Nat) (v : Word) (isImm : Bool) : Option AddrGen :=
  let n := v.toNat
  match fld with
  | 0 => some { g with base := BitVec.ofNat 48 (if isImm then bf n 0 32 else n) }
  | 1 => if 4 ≤ bf n 0 3 then none else some { g with space := BitVec.ofNat 3 n }
  | 2 => some { g with st0 := BitVec.ofNat 32 n }
  | 3 => some { g with ex0 := BitVec.ofNat 16 n }
  | 4 => some { g with st1 := BitVec.ofNat 32 n }
  | 5 => some { g with ex1 := BitVec.ofNat 16 n }
  | 6 => some { g with st2 := BitVec.ofNat 32 n }
  | 7 => some { g with ex2 := BitVec.ofNat 16 n }
  | 8 => some { g with i0 := 0, i1 := 0, i2 := 0 }
  | _ => none

/-- `AGS`. -/
def agsInstr (s : State) (i : Nat) (_c : Cmd) (w : Nat) : IRes :=
  let x := s.prog i
  let k := bf w 52 4
  if rsvBits w [(55, 43), (40, 40), (31, 0)] then .illegal
  else match (x.ag k).setField (bf w 48 4) (x.opnd (bit w 40) (imm32 w) (bf w 43 5)) (bit w 40) with
    | some g => .go (s.updProg i (fun y => { y with regs := { y.regs with ags := y.regs.ags.set k g } }))
    | none => .illegal

/-- `AGA`. -/
def agaInstr (s : State) (i : Nat) (_c : Cmd) (w : Nat) : IRes :=
  let x := s.prog i
  if rsvBits w [(55, 52), (47, 43), (40, 40), (31, 0)] then .illegal
  else .go (s.updProg i (fun y => y.useAg (bf w 52 4) (if bit w 40 then bf w 0 32 else bf (x.reg (bf w 43 5)).toNat 0 32)))

/-- Condition of a branch; none for an illegal code. -/
def brCond (cc : Nat) (a : Word) : Option Bool :=
  match cc with
  | 0 => some true
  | 1 => some (a == 0)
  | 2 => some (a != 0)
  | 3 => some a.msb
  | 4 => some (!a.msb)
  | _ => none

/-- `BR`. -/
def brInstr (s : State) (i : Nat) (_c : Cmd) (w : Nat) : IRes :=
  if rsvBits w [(55, 48), (12, 0)] then .illegal
  else match brCond (bf w 48 3) ((s.prog i).reg (bf w 51 5)) with
    | some true => .jump s (bf w 0 13)
    | some false => .go s
    | none => .illegal

/-- `LOOP`. A loop started again becomes the innermost one. -/
def loopInstr (s : State) (i : Nat) (_c : Cmd) (w : Nat) : IRes :=
  let x := s.prog i
  let k := bf w 53 3
  let n := if bit w 47 then bf w 0 32 else bf (x.reg (bf w 48 5)).toNat 0 32
  let fin := bf w 32 13
  let next := x.regs.pc.toNat + 1
  if rsvBits w [(55, 47), (44, 0)] then .illegal
  else if n = 0 then .jump s (fin + 1)
  else .jump (s.updProg i (fun y => { y with regs := { y.regs with
      lcs := y.regs.lcs.set k ⟨BitVec.ofNat 32 n, BitVec.ofNat 13 fin, BitVec.ofNat 13 next, true⟩
      stack := k :: y.regs.stack.filter (· != k) } })) next

/-! ## `TLD` from a stream (R117, R146, R149) -/

/-- A Tender counter of a queue (Table 6.8). -/
def countTnd (s : State) (q i n : Nat) : State := { s with q := s.q.upd q (fun x => { x with cnt := x.cnt.bump 0 i n }) }

/-- What a `TLD` from a stream finds: the block to take, the end of the stream, or nothing yet. -/
inductive Take where
  | block (b : SBlock) (logged : Option LogEntry)
  | ended
  | later
  deriving DecidableEq, Repr

/-- The next block of stream `n` for the `TLD` of issue number `ord` of program `i`; in a replay the one that the log names for it (R137, R146, R149). -/
def takeOf (s : State) (i ord : Nat) (o : OStream) : Take :=
  let x := s.prog i
  let e := if x.run = .replaying then x.prevLog.find? (fun e => match e with | .take n k _ => n == ord && k == o.num | _ => false) else none
  let n := match e with
    | some (.take _ _ b) => b
    | _ => o.nextOf (i % 64)
  if o.dead then .later
  else match o.blocks.find? (fun b => b.num == n) with
  | some b => if blockDone s.tender o b then .block b e else .later
  | none => if o.ended && decide (o.nextBlock ≤ n) then .ended else .later

/-- A `TLD` from a stream takes its block, if it is there and nothing queued before it has still to touch its lines; none where it waits. A take
behind the end of the stream and a wrong line count are counted. -/
def takeBlock (s : State) (i : Nat) (c : Cmd) (b : Binding) (t : TldJob) : Option State :=
  let o := streamOf s.tender c t.stream b
  let l := i % 64
  let ill := fun (s : State) (blk : Nat) => noteIll s 0x08 (.core l) (some c.qid) (BitVec.ofNat 64 (t.stream + blk % 2 ^ 32 * 2 ^ 32))
  if (s.prog i).conflicts t.ord [] (pieceSpans 0 t.dst) then none
  else match takeOf s i t.ord o with
    | .later => none
    | .ended => some (ill s (o.nextOf l))
    | .block k e =>
      let m := Nat.min t.lines k.lines
      let dst := t.dst.take m
      let u := writePieces i c 0 (cutBytes dst (k.data.bytes 0 (128 * m))) s
      let u := noteOob { u with tender := s.tender.took o l k.num } i (outPieces s i 0 dst)
      let u := if t.lines = k.lines then u else ill u k.num
      some (match e with
        | some e => u.updProg i (fun y => y.consume e)
        | none => logAction u i c (.take t.ord t.stream k.num))

/-- A `TLD` from memory (stream 8) writes its lines when all its reads have been answered; lines outside the memory are 0. -/
def takeRead (s : State) (i : Nat) (c : Cmd) (t : TldJob) : Option State :=
  if (s.prog i).conflicts t.ord [] (pieceSpans 0 t.dst) ||
    (s.tender.open ++ s.tender.outq).any (fun x => x.isOf c && !x.drop && x.stream == 8 && x.core == i % 64 && x.num == t.ord) then none
  else some (noteOob (writePieces i c 0 (cutBytes t.dst (t.data.bytes 0 (128 * t.lines))) s) i (outPieces s i 0 t.dst))

/-- The waiting `TLD` instructions of program `i`, oldest first: those of a stream take their blocks in order. -/
def settleTldList (i : Nat) (c : Cmd) : List TldJob → List Nat → State → State
  | [], _, s => s
  | t :: r, held, s =>
    match if held.contains t.stream then none else if t.stream = 8 then takeRead s i c t else (c.binds[t.stream]?).bind (fun b => takeBlock s i c b t) with
    | some u => settleTldList i c r held (u.updProg i (fun y => { y with tlds := y.tlds.filter (fun e => e.ord != t.ord) }))
    | none => settleTldList i c r (if t.stream = 8 then held else t.stream :: held) s

/-- The waiting `TLD` instructions of a program that can go on do so. -/
def settleTlds (s : State) (i : Nat) : State :=
  match progCmd s i with
  | some c => settleTldList i c (s.prog i).tlds [] s
  | none => s

/-- The same for every program of a command. -/
def settleTldsOf (s : State) (c : Cmd) : State := (progsOf s c).foldl settleTlds s

/-! ## The end of a program (R114) -/

/-- The writes of a command that the fabric has not accepted. -/
def Tender.writesOf (t : Tender) (c : Cmd) : List Xfer :=
  (t.open ++ t.outq).filter (fun x => x.isOf c && x.write)

/-- The `RUNP` of a program ends when all its programs have halted, their drains are done and their writes accepted (R84, R114). -/
def settleRunp (s : State) (c : Cmd) : State :=
  let s := settleTldsOf s c
  let xs := (progsOf s c).map s.prog
  if xs.all (fun x => x.run == .halted && x.drains.isEmpty && x.tlds.isEmpty && x.held.isEmpty) && (s.tender.writesOf c).isEmpty then
    let after := chainFailed s c
    let t := stopPrograms s c
    let t := if after then dropAhead t c else t
    let bad := fun (d : Cmd) => d.conds.any (fun k => fromOob k.code)
    { t with q := (t.q.updCmd (fun d => d.same c) (fun d =>
        let e := d.harvest xs
        { e with stage := .ended, conds := if after then e.conds ++ [⟨0x31, 0, 0⟩] else e.conds })).upd c.qid (fun x =>
      (if c.chain = 1 then { x with chainBad := bad (c.harvest xs) } else x).chainOver c) }
  else s

/-- A stretch between marks ends in program `i`: the core's largest one is kept (R140). -/
def noteStretch (s : State) (i : Nat) : State :=
  let n := (s.prog i).stretch
  (s.updProg (i % 64) (fun y => { y with markGap := Nat.max y.markGap n })).updProg i (fun y => { y with stretch := 0 })

/-- The core's part of the command has ended; the stretch since its last mark ends with it. -/
def haltProg (s : State) (i : Nat) (c : Cmd) : State :=
  settleRunp ((noteStretch s i).updProg i (fun x => { x with run := .halted, wait := 0 })) c

/-- `HALT`. -/
def haltInstr (s : State) (i : Nat) (c : Cmd) (w : Nat) : IRes := if rsvBits w [] then .illegal else .ovr (haltProg s i c)

/-- `PROGRAM_END`: the counter of a program of core `l` has reached the image length (R114). -/
def programEndStep (s : State) (l : Nat) : State :=
  match [l, 64 + l].find? (fun i => progReady s i && (s.prog i).regs.fin) with
  | some i => match progCmd s i with
    | some c => haltProg (noteIll s 0x05 (.core l) (some c.qid) (BitVec.ofNat 64 (s.prog i).len)) i c
    | none => s
  | none => s

/-! ## The row of an instruction -/

/-- Whether an instruction needs the central store while a hold stops that (R392): a scalar access or a copy there. -/
def storeWaits (s : State) (i w : Nat) : Bool :=
  domHeld s 68 &&
    (((bf w 56 8 == 0x03 || bf w 56 8 == 0x04) && ((s.prog i).ag (bf w 47 4)).sp == 2) ||
     ((bf w 56 8 == 0x10 || bf w 56 8 == 0x11) && [bf w 52 4, bf w 48 4].any (fun k => ((s.prog i).ag k).sp == 2)))

/-- An enabled program's answer to a row: none where the program cannot issue or stands at another opcode. -/
def answer (s : State) (i : Nat) (ok : Nat → Bool) (f : State → Nat → Cmd → Nat → IRes) : Option (Nat × IRes) :=
  if progReady s i && !(s.prog i).regs.fin then
    match progCmd s i with
    | some c =>
      let w := fetchWord s i
      if ok (bf w 56 8) then some (w, if storeWaits s i w then .wait 0 else f s i c w) else none
    | none => none
  else none

/-- The program as an instruction in its unit finds it: registers, tile and slots as they were, and nothing issued behind it. -/
def LCore.asHeld (x : LCore) (h : HeldInstr) : LCore :=
  { x with
    regs := { h.regs with flags := x.regs.flags }
    issue := h.ord - 1
    curPlane := h.cur
    tile := h.tile
    tileIds := h.tileIds
    tileWaves := h.tileWaves
    taken := h.taken
    held := x.held.filter (fun e => decide (e.ord < h.ord))
    markPend := x.markPend.filter (fun m => decide (m.ord < h.ord)) }

/-- The program behind the effect of that instruction, which left `y`: what it had at its issue stays as it is now in `x`. -/
def LCore.afterHeld (y x : LCore) (h : HeldInstr) : LCore :=
  { y with
    regs := { x.regs with flags := y.regs.flags }
    issue := x.issue
    curPlane := x.curPlane
    tile := x.tile
    tileIds := x.tileIds
    tileWaves := x.tileWaves
    tileShapes := x.tileShapes
    preSet := x.preSet
    atChunk := x.atChunk
    stretch := x.stretch
    taken := x.taken
    held := x.held.filter (fun e => e.ord != h.ord)
    markPend := x.markPend }

/-- The oldest instruction of a row's opcodes that waits in its unit takes effect once its interlocks let it; the program may have gone on or halted
meanwhile. -/
def unitStep (s : State) (i : Nat) (ok : Nat → Bool) (f : State → Nat → Cmd → Nat → IRes) : State × Bool :=
  let x := s.prog i
  match progCmd s i, x.held.find? (fun h => ok h.op) with
  | some c, some h =>
    if coreUp s (i % 64) && x.run != .fenced then
      let t := s.updProg i (fun y => y.asHeld h)
      match if storeWaits t i h.word then .wait 0 else f t i c h.word with
      | .go u =>
        let v := u.updProg i (fun y => y.afterHeld x h)
        (if x.run = .halted then settleRunp v c else v, true)
      | .ovr u => (u, true)
      | _ => (s, false)
    else (s, false)
  | _, _ => (s, false)

/-- A program's part in a row: what it leaves, and whether it went on. -/
def progStep (s : State) (i : Nat) (ok : Nat → Bool) (f : State → Nat → Cmd → Nat → IRes) : State × Bool :=
  let u := unitStep s i ok f
  if u.2 then u
  else match answer s i ok f with
    | some (_, .wait k) => (setWait s i k, false)
    | some (w, r) => ((afterInstr s i w r).getD s, true)
    | none => (s, false)

/-- The row of an instruction on logical core `l`: the core's program, or its second one where the first cannot go on. -/
def instrStep (s : State) (l : Nat) (ok : Nat → Bool) (f : State → Nat → Cmd → Nat → IRes) : State :=
  let a := progStep s l ok f
  if a.2 then a.1 else (progStep a.1 (64 + l) ok f).1

def execNopInstruction (l : Nat) (s : State) : Host.Outcome State Fault Refusal :=
  onCore l (instrStep s l (fun op => op == 0 || !opcodes.contains op) nopInstr)

def execSalu (l : Nat) (s : State) : Host.Outcome State Fault Refusal := onCore l (instrStep s l (· == 0x01) saluInstr)

def execSli (l : Nat) (s : State) : Host.Outcome State Fault Refusal := onCore l (instrStep s l (· == 0x02) sliInstr)

def execSld (l : Nat) (s : State) : Host.Outcome State Fault Refusal := onCore l (instrStep s l (· == 0x03) sldInstr)

def execSst (l : Nat) (s : State) : Host.Outcome State Fault Refusal := onCore l (instrStep s l (· == 0x04) sstInstr)

def execAgs (l : Nat) (s : State) : Host.Outcome State Fault Refusal := onCore l (instrStep s l (· == 0x05) agsInstr)

def execAga (l : Nat) (s : State) : Host.Outcome State Fault Refusal := onCore l (instrStep s l (· == 0x06) agaInstr)

def execBr (l : Nat) (s : State) : Host.Outcome State Fault Refusal := onCore l (instrStep s l (· == 0x08) brInstr)

def execLoopInstruction (l : Nat) (s : State) : Host.Outcome State Fault Refusal := onCore l (instrStep s l (· == 0x09) loopInstr)

def execHalt (l : Nat) (s : State) : Host.Outcome State Fault Refusal := onCore l (instrStep s l (· == 0x0F) haltInstr)

def execProgramEnd (l : Nat) (s : State) : Host.Outcome State Fault Refusal := onCore l (programEndStep s l)

end Sys2Proof.Machine
end

