-- ==== Sys2Proof/Machine/Waves.lean ====
section
/-!
DEFINITION. The instructions of the arrays (Table 5.3): `WB` with the operand slices of the core stage (R62, R83, R183-R185, R249), `PLD`, `PDR`
and `PEW`. The steps that follow them are in Arrays.lean.
-/
namespace Sys2Proof.Machine

/-! ## Panels (Tables 7.3, 7.4) -/

/-- Lanes of the row and of the column operand. -/
def panelLanes (shape : Nat) : Nat × Nat :=
  match shape with
  | 0 => (32, 128)
  | 1 => (64, 64)
  | 2 => (128, 32)
  | _ => (128, 128)

/-- First row lane and first column lane of array `a`. -/
def laneBase (shape a : Nat) : Nat × Nat :=
  match shape with
  | 0 => (0, 32 * a)
  | 1 => (a / 2 * 32, a % 2 * 32)
  | 2 => (32 * a, 0)
  | _ => (32 * a, 32 * a)

/-- Arrays served by the broadcast transfer of a row slice and of a column slice of array `a`; 0 for a private port (Table 3.2). The column slices of
`T64x64` travel as paired transfers of private ports, of which R67 says that they do not couple arrays: each array's feeders take theirs on their own
(DESIGN CHOICE, log 88). -/
def bcastMask (shape a : Nat) : Nat × Nat :=
  match shape with
  | 0 => (15, 0)
  | 1 => (if a < 2 then 3 else 12, 0)
  | 2 => (0, 15)
  | _ => (0, 0)

/-- Element formats that an array operand may have (R21). -/
def operandFmt (f : Nat) : Bool := decide (f ≤ 4)

/-- Whether a panel of `lanes` lanes and `kk` values a wave is held K-inner (`some true`) or K-outer (`some false`), by `ST0` (Table 7.4). -/
def panelLayout (st0 : BitVec 32) (b lanes kk : Nat) : Option Bool :=
  if st0.toInt = (kk * b / 8 : Nat) then some true
  else if st0.toInt = (lanes * kk * b / 8 : Nat) then some false
  else none

/-- The pieces of the slice block of one wave that starts at `a`. -/
def panelPieces (inner : Bool) (b lanes kk : Nat) (a : Int) : List (Int × Nat) :=
  if inner then (List.range lanes).map (fun l => (a + (128 * l : Nat), kk * b / 8))
  else (List.range kk).flatMap (fun k => contiguous (a + (k * (lanes * b / 8) : Nat)) (lanes * b / 8))

/-- Element `n` of packed elements of `b` bits (R24). -/
def packedElem (b : Nat) (bs : List Byte) (n : Nat) : Nat :=
  if b = 4 then (let v := (bs.getD (n / 2) 0).toNat; if n % 2 = 0 then v % 16 else v / 16)
  else ofLe ((bs.drop (n * (b / 8))).take (b / 8))

/-- Value k of lane l in a slice block. -/
def panelElem (inner : Bool) (b lanes kk : Nat) (bs : List Byte) (l k : Nat) : Nat := packedElem b bs (if inner then l * kk + k else k * lanes + l)

/-- Address of the block-scale byte of lane `l` at wave position `p` (R185). -/
def scaleAddr (inner : Bool) (b lanes : Nat) (st0 a : Int) (p l : Nat) : Int :=
  let e := 1024 / b
  if inner then
    let q := p % 128
    a - (q / (e / 4) * lanes * 128 : Nat) - (q % (e / 4) : Nat) * st0 + (512 / e * lanes * 128 + 16 * l + q / 8 : Nat)
  else a + (8 - (p % 8 : Nat) : Int) * st0 + l

/-- Address of the metadata byte of lane `l` for the wave at `a` in a compressed slab (R249): the slab's lines, then one byte a lane and wave. -/
def metaAddr (b lanes : Nat) (a : Int) (l : Nat) : Int :=
  let e := 1024 / b
  let off := (a % 128).toNat
  a - (off : Int) + (lanes * 128 + l * (e / 4) + off / (b / 2) : Nat)

/-! ## One operand of one wave -/

/-- What reading an operand of a wave gives: the state, values by lane, lines out of range, groups of metadata with more than two positions,
whether the command goes on. -/
structure PanelRd where
  st : State
  lanes : List (List (Nat × Num))
  oob : Nat
  ovr : Nat
  ok : Bool
  deriving DecidableEq, Repr

/-- Reads a dense operand: `kk` values a lane; with `bs` each times its block scale (R23, R185). -/
def readDense (s : State) (i : Nat) (c : Cmd) (f lanes kk : Nat) (st0 a : Int) (inner bs : Bool) (p : Nat) : PanelRd :=
  let b := fmtWidth f
  let ps := panelPieces inner b lanes kk a
  let r := readPieces i c 0 ps s
  let sps : List (Int × Nat) := if bs then (List.range lanes).map (fun l => (scaleAddr inner b lanes st0 a p l, 1)) else []
  if r.ok then
    let q := readPieces i c 0 sps r.st
    let sb := fun l => if bs then (q.data.getD l 127).toNat else 127
    ⟨q.st, (List.range lanes).map (fun l => (List.range kk).map (fun k => (k, scaled f 0 (sb l) (panelElem inner b lanes kk r.data l k)))),
     outPieces s i 0 ps + outPieces s i 0 sps, 0, q.ok⟩
  else ⟨r.st, [], 0, 0, false⟩

/-- Reads a compressed column operand: four kept values a lane with their positions among eight logical K indices (R83, R247-R249). -/
def readCompressed (s : State) (i : Nat) (c : Cmd) (f lanes : Nat) (a : Int) : PanelRd :=
  let b := fmtWidth f
  let ps := panelPieces true b lanes 4 a
  let r := readPieces i c 0 ps s
  let mps : List (Int × Nat) := (List.range lanes).map (fun l => (metaAddr b lanes a l, 1))
  if r.ok then
    let q := readPieces i c 0 mps r.st
    let mask := fun l g => let v := (q.data.getD l 0).toNat; if g = 0 then v % 16 else v / 16
    let lane := fun l => (List.range 2).flatMap (fun g => (keptOf (mask l g)).zipIdx.map (fun x =>
      (4 * g + x.1, scaled f 0 127 (panelElem true b lanes 4 r.data l (2 * g + x.2)))))
    ⟨q.st, (List.range lanes).map lane, outPieces s i 0 ps + outPieces s i 0 mps,
     ((List.range lanes).flatMap (fun l => (List.range 2).filter (fun g => 2 < (bitsOf (mask l g) 4).length))).length, q.ok⟩
  else ⟨r.st, [], 0, 0, false⟩

/-! ## WB -/

/-- The fields of a `WB`. -/
structure WbOp where
  shape : Nat
  plane : Nat
  first : Bool
  agr : Nat
  agc : Nat
  fr : Nat
  fc : Nat
  cmp : Bool
  bs : Bool
  n : Nat
  ko : Nat
  deriving DecidableEq, Repr

/-- Decodes a `WB` with the register values that its fields name. -/
def wbOf (x : LCore) (w : Nat) : WbOp :=
  ⟨bf w 53 3, bf w 52 1, bit w 51, bf w 47 4, bf w 43 4, bf w 39 4, bf w 35 4, bit w 34, bit w 33,
   if bit w 26 then bf w 0 15 else bf (x.reg (bf w 27 5)).toNat 0 15, bf (x.reg (bf w 21 5)).toNat 0 32⟩

/-- K indices of a row operand's wave. -/
def WbOp.kRow (o : WbOp) : Nat := if o.cmp then 8 else 4

/-- Whether the row operand is the second operand, which carries block scales: the one that is not BF16 or FP16, else the column (R21). -/
def WbOp.rowSecond (o : WbOp) : Bool := decide (2 ≤ o.fr) && decide (o.fc < 2)

/-- Chunk length in waves (R118). -/
def WbOp.chunk (o : WbOp) : Nat := if o.cmp then 8192 else 16384

/-- Layouts of the two operands. -/
def WbOp.layouts (o : WbOp) (x : LCore) : Option Bool × Option Bool :=
  let ls := panelLanes o.shape
  (panelLayout (x.ag o.agr).st0 (fmtWidth o.fr) ls.1 o.kRow,
   match panelLayout (x.ag o.agc).st0 (fmtWidth o.fc) ls.2 4 with
   | some false => if o.cmp then none else some false
   | y => y)

/-- The tile's shape and formats that every block of it must repeat. -/
def WbOp.note (o : WbOp) (plane : Nat) : PlaneNote := (plane, o.shape, o.fr, o.fc, o.cmp, o.bs)

/-- Whether a `WB` is illegal (Table 5.3, R115, R116, R118, R183, R185, R249). One with `FIRST` = 0 and no tile in progress is taken as illegal
(DESIGN CHOICE, log 89). -/
def WbOp.illegal (o : WbOp) (x : LCore) : Bool :=
  decide (4 < o.shape) || o.n == 0 || decide (16384 < o.n) || (x.ag o.agr).sp != 0 || (x.ag o.agc).sp != 0 || !operandFmt o.fr ||
  !operandFmt o.fc || (o.bs && o.cmp) || (o.cmp && o.shape == 4) || (o.layouts x).1.isNone ||
  (o.layouts x).2.isNone || (!o.first && x.tile != some (o.note x.curPlane))

/-- The addresses of the two operands in `n` waves; one generator named for both is used twice a wave, row first. -/
def WbOp.addrs (o : WbOp) (x : LCore) : List (Int × Int) :=
  if o.agr = o.agc then (List.range o.n).map (fun k => (((x.ag o.agr).adv (2 * k)).addr, ((x.ag o.agr).adv (2 * k + 1)).addr))
  else ((x.ag o.agr).take o.n).zip ((x.ag o.agc).take o.n)

/-- The generators after the block. -/
def WbOp.used (o : WbOp) (x : LCore) : LCore := if o.agr = o.agc then x.useAg o.agr (2 * o.n) else (x.useAg o.agr o.n).useAg o.agc o.n

/-- The ranges that one wave at position `p` reads: the slice blocks of both operands, block-scale bytes and metadata bytes. -/
def WbOp.spans (o : WbOp) (x : LCore) (p : Nat) (a : Int × Int) : List Span :=
  let ls := panelLanes o.shape
  let y := o.layouts x
  let sc := fun (f lanes : Nat) (st0 at_ : Int) (inner : Bool) => (List.range lanes).map (fun l => (scaleAddr inner (fmtWidth f) lanes st0 at_ p l, 1))
  pieceSpans 0 (panelPieces (y.1.getD true) (fmtWidth o.fr) ls.1 o.kRow a.1 ++ panelPieces (y.2.getD true) (fmtWidth o.fc) ls.2 4 a.2 ++
    (if o.bs then
      (if o.rowSecond then sc o.fr ls.1 (x.ag o.agr).st0.toInt a.1 (y.1.getD true) else sc o.fc ls.2 (x.ag o.agc).st0.toInt a.2 (y.2.getD true)) else []) ++
    (if o.cmp then (List.range ls.2).map (fun l => (metaAddr (fmtWidth o.fc) ls.2 a.2 l, 1)) else []))

/-- Whether every value of a list is a zero, and whether one is infinite or NaN (R244). -/
def allZero (l : List (List (Nat × Num))) : Bool := l.all (fun v => v.all (fun e => e.2.isZero))
def anySpecial (l : List (List (Nat × Num))) : Bool := l.any (fun v => v.any (fun e => !e.2.finite))

/-- The rows 4f to 4f + 3 of an array's lanes. -/
def laneSlice (ls : List (List (Nat × Num))) (base f : Nat) : List (List (Nat × Num)) := (ls.drop (base + 4 * f)).take 4

/-- Puts the slices of one wave behind the others in the feeders of array `a`. -/
def ArrayState.queueWave (A : ArrayState) (o : WbOp) (a plane tile ord kpos : Nat) (rows cols : List (List (Nat × Num))) : ArrayState :=
  let lb := laneBase o.shape a
  let bm := bcastMask o.shape a
  let r := (rows.drop lb.1).take 32
  let k := (cols.drop lb.2).take 32
  let zero := (allZero r && !anySpecial k) || (allZero k && !anySpecial r)
  let mk := fun (ls : List (List (Nat × Num))) (m f : Nat) => (⟨plane, tile, ord, kpos, o.chunk, false, m, none, zero, laneSlice ls 0 f⟩ : Slice)
  { A with
    rowF := A.rowF.zipIdx.map (fun f => { f.1 with backlog := f.1.backlog ++ [mk r bm.1 f.2] })
    colF := A.colF.zipIdx.map (fun f => { f.1 with backlog := f.1.backlog ++ [mk k bm.2 f.2] }) }

/-- Reads and queues the waves of a block: position, plane, tile and issue number; lines out of range and groups over as they add up. -/
def wbWaves (i : Nat) (c : Cmd) (o : WbOp) (x : LCore) (plane tile ord : Nat) :
    List (Int × Int) → Nat → State → Nat → Option Nat × Nat → State × Nat × (Option Nat × Nat) × Bool
  | [], _, s, oob, ovr => (s, oob, ovr, true)
  | (ar, ac) :: rest, p, s, oob, ovr =>
    let ls := panelLanes o.shape
    let y := o.layouts x
    let r := readDense s i c o.fr ls.1 o.kRow (x.ag o.agr).st0.toInt ar (y.1.getD true) (o.bs && o.rowSecond) p
    if r.ok then
      let k := if o.cmp then readCompressed r.st i c o.fc ls.2 ac
        else readDense r.st i c o.fc ls.2 4 (x.ag o.agc).st0.toInt ac (y.2.getD true) (o.bs && !o.rowSecond) p
      if k.ok then
        let t := match storageOf s.pcores (i % 64) with
          | some u => k.st.updCore u (fun pc => { pc with arrays := pc.arrays.zipIdx.map (fun A => A.1.queueWave o A.2 plane tile ord p r.lanes k.lanes) })
          | none => k.st
        wbWaves i c o x plane tile ord rest (p + 1) t (oob + r.oob + k.oob)
          (if k.ovr = 0 then ovr else (minOpt ovr.1 (some (2 * p)), ovr.2 + k.ovr))
      else (k.st, oob, ovr, false)
    else (r.st, oob, ovr, false)

/-- A `GROUP_OVER` condition with further groups: the first position stays, the counts add up. -/
def addGroupOver (ks : List Cond) (first n : Nat) : List Cond :=
  if ks.any (fun k => k.code == 0x11) then ks.map (fun k => if k.code = 0x11 then { k with count := k.count + n } else k)
  else ks ++ [⟨0x11, first, n⟩]

/-- Adds a `GROUP_OVER` of a program to its command (R248; the first position is 2p of the first wave at position p, log 34). -/
def noteGroupOver (s : State) (c : Cmd) (ovr : Option Nat × Nat) : State :=
  if ovr.2 = 0 then s
  else
    let Q := s.q.updCmd (fun d => d.same c) (fun d => { d with conds := addGroupOver d.conds (ovr.1.getD 0) ovr.2 })
    { s with q := Q.upd c.qid (fun y => { y with cnt := y.cnt.bump 3 8 ovr.2 }) }

/-- The program after a block: the tile in progress on its plane. -/
def LCore.startedBlock (x : LCore) (o : WbOp) (plane tile : Nat) : LCore :=
  { o.used x with
    issue := x.issue + 1
    curPlane := plane
    tile := some (o.note plane)
    tileIds := x.tileIds.set plane tile
    tileWaves := x.tileWaves.set plane ((if o.first then 0 else x.tileWaves.getD plane 0) + o.n)
    tileShapes := x.tileShapes.set plane o.shape
    preSet := x.preSet.set plane false
    atChunk := x.atChunk.set plane ((o.ko + o.n) % o.chunk == 0)
    stretch := x.stretch + o.n }

/-- `WB`: its slices enter the feeders of the four arrays (R118). A tile's number tells the program that started it: even the core's own, odd
its CHAIN consumer's. A block that continues a tile takes the plane of the block before it. -/
def wbInstr (s : State) (i : Nat) (c : Cmd) (w : Nat) : IRes :=
  let x := s.prog i
  let o := wbOf x w
  let plane := if o.first then o.plane else x.curPlane
  let ord := x.issue + 1
  let tile := if o.first then 2 * ord + i / 64 else x.tileIds.getD plane 0
  let ads := o.addrs x
  if rsvBits w [(55, 33), (31, 21), (14, 0)] || o.illegal x then .illegal
  else if x.holds [0x20] || x.held.any (fun h => h.op == 0x32 && bf h.word 55 1 == plane) ||
    ads.zipIdx.any (fun a => x.locked (o.spans x (o.ko + a.2) a.1) []) then
    holdInstr s i w (ads.zipIdx.flatMap (fun a => o.spans x (o.ko + a.2) a.1)) [] (fun y => y.startedBlock o plane tile)
  else
    let r := wbWaves i c o x plane tile ord ads o.ko s 0 (none, 0)
    if r.2.2.2 then .go (noteGroupOver ((noteOob r.1 i r.2.1).updProg i (fun y => y.startedBlock o plane tile)) c r.2.2.1)
    else .ovr r.1

/-! ## Planes -/

/-- Offset of the pair of row r, column q in plane p of array a (log 15). -/
def cellAddr (a p r q : Nat) : Nat := ((2 * a + p) * 1024 + 32 * r + q) * 8

/-- Plane state of array `a`, plane `p` set. -/
def ArrayState.setPlane (A : ArrayState) (p : Nat) (v : PlaneState) : ArrayState := { A with planes := A.planes.set p v }

/-- The four arrays behind program `i` changed. -/
def updArrays (s : State) (i : Nat) (f : ArrayState → ArrayState) : State :=
  match storageOf s.pcores (i % 64) with
  | some u => s.updCore u (fun pc => { pc with arrays := pc.arrays.map f })
  | none => s

/-- The array `a` behind program `i`. -/
def arrayOf (s : State) (i a : Nat) : ArrayState :=
  match storageOf s.pcores (i % 64) with
  | some u => (s.pcore u).arrays.getD a ArrayState.reset
  | none => ArrayState.reset

/-- Waves of a tile that every array has applied. -/
def tileApplied (s : State) (i tile : Nat) : Nat :=
  (List.range 4).foldl (fun m a => Nat.min m (lookupD 0 (arrayOf s i a).applied tile)) (2 ^ 40)

/-- Formats of a preload. -/
def preloadFmt (f : Nat) : Bool := decide (f ≤ 4) || f == 8 || f == 9

/-- `PLD`: a preload is queued; its rows follow as `PRELOAD_ROW`. The scale applies to formats that have one (Table 2.1). -/
def pldInstr (s : State) (i : Nat) (_c : Cmd) (w : Nat) : IRes :=
  let x := s.prog i
  let src := bf w 52 2
  let k := bf w 42 4
  let f := bf w 38 4
  let p := bf w 55 1
  if rsvBits w [(55, 30)] || src == 3 || (src == 2 && ((x.ag k).sp != 2 || !preloadFmt f)) then .illegal
  else
    let addrs := if src = 2 then (x.ag k).take 128 else []
    let ps := addrs.flatMap (fun a => contiguous a (if f = 4 then 16 else rowLen32 f))
    let job : PreJob := ⟨p, x.issue + 1, bit w 54, src, bf w 46 6, addrs, f, if 1 ≤ f ∧ f ≤ 4 then sext 8 (bf w 30 8) else 0, 0⟩
    .go (updArrays ((noteOob s i (outPieces s i 2 ps)).updProg i (fun y => { (if src = 2 then y.useAg k 128 else y) with
        issue := x.issue + 1, preloads := y.preloads ++ [job], preSet := y.preSet.set p (src != 0) })) i
      (fun A => if A.planes.getD p .empty = .empty ∨ A.planes.getD p .empty = .ready then A.setPlane p .loading else A))

/-- A plane of an array enters `DRAINING` when cube (7, 7) has applied the last wave of its tile and a drain of it is queued (R71). -/
def settlePlanes (s : State) (i : Nat) : State :=
  (s.prog i).drains.foldl (fun t d => if d.tile ≠ 0 then
    updArrays t i (fun A => if d.need ≤ lookupD 0 A.applied d.tile ∧ A.planes.getD d.plane .empty = .filling then A.setPlane d.plane .draining else A) else t) s

/-- Formats of a drain (R21). -/
def drainFmt (f : Nat) : Bool := f == 0 || f == 1 || f == 8 || f == 9

/-- `PDR`: a drain or park is queued; its rows follow as `DRAIN_ROW`. With `SCL` the FP16 scale is that of the slot as
R51 leaves it at the program's first such `PDR` that names the slot. `EPI`, `AMX` and `NG` do not apply to one that parks, and the operand of an epilogue
may lie in the scratchpad or the central store (DESIGN CHOICE, log 110). -/
def pdrInstr (s : State) (i : Nat) (c : Cmd) (w : Nat) : IRes :=
  let x := s.prog i
  let p := bf w 55 1
  let dst := bf w 52 2
  let k := bf w 42 4
  let f := bf w 38 4
  let tid := bf w 16 16
  let epi := if dst = 1 then bf w 14 2 else 0
  let ge := x.ag (bf w 10 4)
  let idx := (x.reg (bf w 5 5)).toNat
  let shape := x.tileShapes.getD p 0
  let rows := if shape = 4 then 32 else 128
  let scl := dst == 1 && bit w 4 && f == 1
  if rsvBits w [(55, 4)] || decide (1 < dst) || bf w 14 2 == 3 || (dst == 1 && ((x.ag k).sp != 2 || !drainFmt f)) ||
    (epi != 0 && ge.sp != 0 && ge.sp != 2) then .illegal
  else
    let addrs := if dst = 1 then (x.ag k).take rows else []
    let eaddrs := if epi = 0 then [] else (ge.take rows).map (fun a => (ge.sp, a))
    let oob := outPieces s i 2 (addrs.flatMap (fun a => contiguous a (rowLen32 f))) +
      outPieces s i ge.sp (eaddrs.flatMap (fun e => contiguous e.2 (rowLen32 f)))
    let tids := if scl && !c.scales.any (fun x => x.1 == tid) then [tid] else []
    let ts := takeScales s c tids
    let job : DrainJob := {
      plane := p, tile := x.tileIds.getD p 0, need := x.tileWaves.getD p 0, ord := x.issue + 1, pc := x.regs.pc, col := bit w 54
      park := dst == 0, slot := bf w 46 6, shape := shape, addrs := addrs, fmt := f, sr := bit w 37, ng := bf w 33 4
      amx := bit w 32, tid := tid, epi := epi, eaddrs := eaddrs, index0 := bf idx 0 40, rowLen := bf idx 40 24
      t := if scl then lookupD 0 (c.takeScales ts.amax tids).scales tid else 0, seed := c.seed, step := c.step, next := 0, held := [], heldCk := [], seen := [] }
    .go (settlePlanes ((noteOob ts i oob).updProg i (fun y =>
      let z := if dst = 1 then y.useAg k rows else y
      let z := if epi = 0 then z else z.useAg (bf w 10 4) rows
      { z with
        issue := x.issue + 1
        drains := z.drains ++ [job]
        tileIds := z.tileIds.set p 0
        tileWaves := z.tileWaves.set p 0
        preSet := z.preSet.set p false
        tile := match z.tile with
          | some n => if n.1 = p then none else some n
          | none => none })) i)

/-- One element of `PEW` (R82). -/
def pewOne (eop : Nat) (v : Pair) (a : F32) : Pair := normalise (if eop = 0 then fusedAdd v a else fusedMul v a)

/-- Operands of one array row of a `PEW`: 32 values, or one for the row. -/
def pewRow (eop : Nat) (bs : List Byte) (q : Nat) : F32 := BitVec.ofNat 32 (ofLe ((bs.drop (if eop = 2 then 0 else 4 * q)).take 4))

/-- Applies the operation to the plane, row by row; the operand rows come in the order row i of A0 to A3 (log 35). -/
def pewRows (eop p : Nat) : List (Nat × List Byte) → Memory → Memory
  | [], m => m
  | (n, bs) :: r, m =>
    pewRows eop p r ((List.range 32).foldl (fun m q =>
      let a := cellAddr (n % 4) p (n / 4) q
      m.writePair a (pewOne eop (m.pair a) (pewRow eop bs q))) m)

/-- The chunk results of a plane whose registers an element-wise operation has changed: the registers count again at the drain. -/
def liveChunks (cs : List ChunkRes) : List ChunkRes := cs.map (fun e => { e with live := true })

/-- The program behind a `PEW` on plane `p` with operand generator `k`. -/
def LCore.pewed (x : LCore) (p k : Nat) : LCore :=
  { x.useAg k 128 with
    issue := x.issue + 1
    atChunk := x.atChunk.set p false
    tile := x.tile.filter (fun n => n.1 != p)
    preSet := x.preSet.modify p (fun v => v || x.tileIds.getD p 0 == 0) }

/-- Whether a `PEW` on plane `p` must wait for work on the plane issued before it: drains, preloads, an earlier `PEW`, the waves of its tile. -/
def pewWaits (s : State) (i p : Nat) : Bool :=
  let x := s.prog i
  x.drains.any (fun d => d.plane == p && decide (d.ord ≤ x.issue)) || x.preloads.any (fun d => d.plane == p && decide (d.ord ≤ x.issue)) ||
  x.held.any (fun h => h.op == 0x32 && bf h.word 55 1 == p) ||
  (x.tileIds.getD p 0 != 0 && decide (tileApplied s i (x.tileIds.getD p 0) < x.tileWaves.getD p 0))

/-- `PEW`: element-wise work on a plane that is `READY` or between tiles; it waits for the waves, drains and preloads issued before it. A tile in
progress on the plane is complete with it, so that it never meets a plane in `FILLING` (DESIGN CHOICE, log 91). -/
def pewInstr (s : State) (i : Nat) (c : Cmd) (w : Nat) : IRes :=
  let x := s.prog i
  let p := bf w 55 1
  let eop := bf w 53 2
  let k := bf w 49 4
  let g := x.ag k
  let n := if eop = 2 then 4 else 128
  let addrs := g.take 128
  let ps := addrs.flatMap (fun a => contiguous a n)
  if rsvBits w [(55, 49)] || eop == 3 || g.sp != 0 then .illegal
  else if x.locked (pieceSpans 0 ps) [] || pewWaits s i p then holdInstr s i w (pieceSpans 0 ps) [] (fun y => y.pewed p k)
  else
    let r := readPieces i c 0 ps s
    if r.ok then
      let rows := (List.range 128).map (fun j => (j, (r.data.drop (j * n)).take n))
      let t := match storageOf s.pcores (i % 64) with
        | some u => r.st.updCore u (fun pc => { pc with
            planes := pewRows eop p rows pc.planes
            arrays := pc.arrays.map (fun A => { A with
              cnt := bump A.cnt 7 1024
              chunks := A.chunks.modify p liveChunks
              planes := A.planes.modify p (fun v => if v = .empty then .ready else v) }) })
        | none => r.st
      .go ((noteOob t i (outPieces s i 0 ps)).updProg i (fun y => y.pewed p k))
    else .ovr r.st

def execWb (l : Nat) (s : State) : Host.Outcome State Fault Refusal := onCore l (instrStep s l (· == 0x20) wbInstr)

def execPld (l : Nat) (s : State) : Host.Outcome State Fault Refusal := onCore l (instrStep s l (· == 0x30) pldInstr)

def execPdr (l : Nat) (s : State) : Host.Outcome State Fault Refusal := onCore l (instrStep s l (· == 0x31) pdrInstr)

def execPew (l : Nat) (s : State) : Host.Outcome State Fault Refusal := onCore l (instrStep s l (· == 0x32) pewInstr)

end Sys2Proof.Machine
end

