-- ==== Sys2Proof/Machine/Arrays.lean ====
section
/-!
DEFINITION. The arrays at work (03): SLICE_INJECT with feeders, broadcast transfers and the activity ramp (R62-R67, R77-R80), CUBE_WAVE (R59-R61,
R66, R73, R83, R118, R244), DRAIN_ROW (R40-R44, R71, R74, R119) and PRELOAD_ROW (R33, R72).
-/
namespace Sys2Proof.Machine

/-! ## Feeders and links -/

/-- Feeder `f` of one side of an array. -/
def ArrayState.feeder (A : ArrayState) (col : Bool) (f : Nat) : Feeder := if col then A.colF.getD f Feeder.reset else A.rowF.getD f Feeder.reset

/-- A feeder changed. -/
def ArrayState.updFeeder (A : ArrayState) (col : Bool) (f : Nat) (g : Feeder → Feeder) : ArrayState :=
  if col then { A with colF := A.colF.modify f g } else { A with rowF := A.rowF.modify f g }

/-- Whether a feeder's queue of 8 has room (R65). -/
def Feeder.room (F : Feeder) : Bool := decide (F.queue.length < 8)

/-- Whether the next slice of a feeder may enter its queue: a broadcast slice enters every feeder it serves at once (R62, R67). -/
def mayEnter (As : List ArrayState) (col : Bool) (f : Nat) (F : Feeder) : Bool :=
  match F.backlog with
  | [] => false
  | x :: _ => F.room && (bitsOf x.bcast 4).all (fun b =>
      let G := (As.getD b ArrayState.reset).feeder col f
      G.room && (match G.backlog with
        | y :: _ => y.ord == x.ord && y.kpos == x.kpos && y.bcast == x.bcast && !y.ballast
        | [] => false))

/-- One transfer from the scratchpad into feeder `f` of every array that can take one. -/
def refillOnce (As : List ArrayState) (col : Bool) (f : Nat) : List ArrayState :=
  As.map (fun A => if mayEnter As col f (A.feeder col f) then
    A.updFeeder col f (fun F => { F with queue := F.queue ++ F.backlog.take 1, backlog := F.backlog.drop 1 }) else A)

/-- The queues of feeder `f` filled as far as they go. -/
def refill (As : List ArrayState) (col : Bool) (f : Nat) : List ArrayState := (List.range 8).foldl (fun As _ => refillOnce As col f) As

/-- The link that a feeder injects into: of cube (f, 0), or of cube (0, f). -/
def ArrayState.firstLink (A : ArrayState) (col : Bool) (f : Nat) : List LinkSlot := if col then A.colL.getD f [] else A.rowL.getD (8 * f) []

/-- A slice put into the first link of a feeder. -/
def ArrayState.pushLink (A : ArrayState) (col : Bool) (f : Nat) (x : Slice) : ArrayState :=
  if col then { A with colL := A.colL.modify f (· ++ [⟨x, false⟩]) } else { A with rowL := A.rowL.modify (8 * f) (· ++ [⟨x, false⟩]) }

/-- The first slice of a link that has not gone on. -/
def nextFwd (l : List LinkSlot) : Option Slice := (l.find? (fun x => !x.fwd)).map (·.slice)

/-- That slice marked as gone on. -/
def markFwd (l : List LinkSlot) : List LinkSlot := modifyFirst (fun x => !x.fwd) (fun x => { x with fwd := true }) l

/-- Forwards over one link from cube `k` to cube `k + d` if the receiving link has room for one of its 4 slices (R61, R65). -/
def forwardLink (ls : List (List LinkSlot)) (k d : Nat) : List (List LinkSlot) :=
  match nextFwd (ls.getD k []) with
  | some x => if (ls.getD (k + d) []).length < 4 then (ls.modify k markFwd).modify (k + d) (· ++ [⟨x, false⟩]) else ls
  | none => ls

/-- One pass over all links of an array, row links to the right and column links downwards. -/
def ArrayState.forwardOnce (A : ArrayState) : ArrayState :=
  { A with
    rowL := (List.range 64).foldl (fun ls k => if k % 8 < 7 then forwardLink ls k 1 else ls) A.rowL
    colL := (List.range 64).foldl (fun ls k => if k / 8 < 7 then forwardLink ls k 8 else ls) A.colL }

/-- Every slice forwarded as far as the links have room. -/
def ArrayState.forward (A : ArrayState) : ArrayState := (List.range 32).foldl (fun A _ => A.forwardOnce) A

/-! ## The activity ramp (R77-R80) -/

/-- The masks of Table 3.8. -/
def rampMasks : List Nat := [0x01, 0x11, 0x15, 0x55, 0x57, 0x77, 0x7F, 0xFF]

/-- Whether slot `n` of the start ramp, or of the stop ramp, is open. -/
def startOpen (n : Nat) : Bool := bit (rampMasks.getD (n / 6) 0) (n % 8)
def stopOpen (n : Nat) : Bool := bit (rampMasks.getD (7 - n / 6) 0) (n % 8)

/-- The ramp after slot `n` of a start, or of a stop. -/
def startNext (n : Nat) : Ramp := if n + 1 < 48 then .start (n + 1) else .opened
def stopNext (n : Nat) : Ramp := if n + 1 < 48 then .stop (n + 1) else .idle

/-- The ramp of a feeder set. -/
def ArrayState.setRamp (A : ArrayState) (col : Bool) (f : Nat) (r : Ramp) : ArrayState := A.updFeeder col f (fun F => { F with ramp := r })

/-- Injects the head of a feeder's queue, if the first link has room. A slice of a zero wave waits until it is decided whether the array skips the
wave (R244). -/
def ArrayState.inject (A : ArrayState) (col : Bool) (f : Nat) (next : Ramp) : ArrayState :=
  match (A.feeder col f).queue with
  | x :: r => if (A.firstLink col f).length < 4 ∧ x.zero = false then
      ((A.updFeeder col f (fun F => { F with queue := r, ramp := next })).pushLink col f x).forward else A
  | [] => A

/-- A ballast slice (R79). -/
def ballastSlice : Slice := ⟨0, 0, 0, 0, 0, true, 0, none, false, []⟩

/-- `x` put before the last `n` slices of a feeder, or those `n` slices' first one changed. -/
def Feeder.insertBefore (F : Feeder) (n : Nat) (x : Slice) : Feeder :=
  let l := F.queue ++ F.backlog
  let k := l.length - n
  if k < F.queue.length then { F with queue := F.queue.take k ++ [x] ++ F.queue.drop k }
  else { F with backlog := F.backlog.take (k - F.queue.length) ++ [x] ++ F.backlog.drop (k - F.queue.length) }

/-- The first of the last `n` slices of a feeder resumes a start ramp at slot `t`. -/
def Feeder.resumeAt (F : Feeder) (n t : Nat) : Feeder :=
  let k := F.queue.length + F.backlog.length - n
  let set := fun (x : Slice) => { x with slot := some t }
  if k < F.queue.length then { F with queue := F.queue.modify k set } else { F with backlog := F.backlog.modify (k - F.queue.length) set }

/-- Whether a feeder is column feeder 0, whose ramp decides what all feeders of the array inject. -/
def isLead (col : Bool) (f : Nat) : Bool := col && f == 0

/-- The other feeders of an array changed. -/
def ArrayState.updOthers (A : ArrayState) (g : Feeder → Feeder) : ArrayState :=
  { A with rowF := A.rowF.map g, colF := A.colF.zipIdx.map (fun F => if F.2 = 0 then F.1 else g F.1) }

/-- An injection slot in slot `n` of a start ramp: a closed one passes, an open one injects or holds (R77). -/
def ArrayState.startSlot (A : ArrayState) (col : Bool) (f n : Nat) : ArrayState :=
  if startOpen n then A.inject col f (startNext n)
  else { A.setRamp col f (startNext n) with cnt := if isLead col f then bump A.cnt 5 1 else A.cnt }

/-- Slot `n` of a stop ramp at column feeder 0: in an open slot it injects ballast and hands a ballast slice to the 15 others, the one of slot 0 with
that number (R79); a closed one passes without injection (Table 3.4). -/
def ArrayState.leadStop (A : ArrayState) (n : Nat) : ArrayState :=
  let F := A.feeder true 0
  let left := F.queue.length + F.backlog.length
  if !stopOpen n then { A.setRamp true 0 (stopNext n) with cnt := bump A.cnt 5 1 }
  else if (A.firstLink true 0).length < 4 then
    let B := ((A.setRamp true 0 (stopNext n)).updOthers (fun G => G.insertBefore left { ballastSlice with slot := if n = 0 then some 0 else none })).pushLink true 0 ballastSlice
    { B.forward with cnt := bump A.cnt 6 1 }
  else A

/-- One injection slot of column feeder 0. Work that has reached the array ends a stop ramp with its window, be it still on its way through the
feed; the slot count then holds until the first slice has come (R80). -/
def ArrayState.leadSlot (A : ArrayState) : ArrayState :=
  let F := A.feeder true 0
  let work := !F.queue.isEmpty
  let done := F.queue.isEmpty && F.backlog.isEmpty
  match F.ramp with
  | .idle => if work then A.startSlot true 0 0 else A
  | .start n => if work then A.startSlot true 0 n else if done then A.leadStop 0 else A
  | .opened => if work then A.inject true 0 .opened else if done then A.leadStop 0 else A
  | .stop n =>
    if !done && n % 6 == 0 && n != 0 then
      let t := 6 * (7 - (n / 6 - 1))
      let left := F.queue.length + F.backlog.length
      (A.updOthers (fun G => G.resumeAt left t)).startSlot true 0 t
    else A.leadStop n

/-- Whether column feeder 0 has passed slot `n` of the stop ramp. -/
def ArrayState.leadPast (A : ArrayState) (n : Nat) : Bool :=
  match (A.feeder true 0).ramp with
  | .stop m => decide (n < m)
  | _ => true

/-- One slot of a stop ramp at another feeder, after column feeder 0 has passed it: in an open one it injects the ballast that that feeder has handed
out. -/
def ArrayState.followStop (A : ArrayState) (col : Bool) (f n : Nat) : ArrayState :=
  if !A.leadPast n then A
  else if stopOpen n then (if ((A.feeder col f).queue.head?.map (·.ballast)).getD false then A.inject col f (stopNext n) else A)
  else A.setRamp col f (stopNext n)

/-- One injection slot of another feeder: masks and slot counts are those of column feeder 0 (R77). -/
def ArrayState.followSlot (A : ArrayState) (col : Bool) (f : Nat) : ArrayState :=
  let F := A.feeder col f
  match F.queue.head?, F.ramp with
  | none, .stop n => A.followStop col f n
  | none, _ => A
  | some x, r =>
    if x.ballast then (match r with
      | .stop n => A.followStop col f (if x.slot = some 0 then 0 else n)
      | _ => A.followStop col f 0)
    else match r with
      | .idle => A.startSlot col f (x.slot.getD 0)
      | .start n => A.startSlot col f n
      | .opened => A.inject col f .opened
      | .stop n => (match x.slot with
        | some t => A.startSlot col f t
        | none => A.followStop col f n)

/-- Rows of a plane still to come in a row-wise or column-wise pass that stands at row `next`: whether rows up to 4r + 3 are done. -/
def bandDone (col : Bool) (next r : Nat) : Bool := !col && decide (4 * r + 4 ≤ next)

/-- Whether the cell rows of cube row `r` are ready for a tile (R73): they hold it already, or they are free of an earlier tile and no drain or
preload of the plane issued before the tile has still to pass them. A wave behind a `MARK` that notes its tile waits for the mark (R136). -/
def rowsReady (x : LCore) (A : ArrayState) (sl : Slice) (r : Nat) : Bool :=
  !(x.markPend.any (fun m => decide (m.ord < sl.ord) && m.planes.any (fun e => e.2.1 == sl.tile))) &&
  match (A.bands.getD sl.plane []).getD r none with
  | some t => t == sl.tile
  | none =>
    !x.drains.any (fun d => d.plane == sl.plane && decide (d.ord < sl.ord) && !bandDone d.col d.next r) &&
    !x.preloads.any (fun d => d.plane == sl.plane && decide (d.ord < sl.ord) && !bandDone d.col d.next r)

/-- The chunk result of a cell. -/
def chunkOf (cs : List ChunkRes) (cell : Nat) : Option ChunkRes := cs.find? (fun c => c.cell == cell)

/-- A cell's chunk result set. -/
def setChunk (cs : List ChunkRes) (c : ChunkRes) : List ChunkRes := c :: cs.filter (fun x => x.cell != c.cell)

/-- Closes a chunk of a cell at position `pos`: its normalised pair joins the fold, its register restarts from (+0, +0) (R35, R136). -/
def closeCell (m : Memory) (addr cell pos : Nat) (cs : List ChunkRes) : Memory × List ChunkRes :=
  let r := normalise (m.pair addr)
  (m.writePair addr Pair.zero, setChunk cs (match chunkOf cs cell with
    | some e => ⟨cell, pos, pairAdd e.pair r, false⟩
    | none => ⟨cell, pos, r, false⟩))

/-- Whether a chunk closes before a wave at position `pos`: a non-zero multiple of the chunk length that has not closed it yet (R118). -/
def closesBefore (cs : List ChunkRes) (cell pos chunkAt : Nat) : Bool :=
  pos != 0 && pos % chunkAt == 0 && !(match chunkOf cs cell with | some e => e.pos == pos && !e.live | none => false)

/-- Whether a cell of the plane holds -0 in S or c (R244). -/
def minusZero (m : Memory) (a plane : Nat) : Bool :=
  (positions 32 32).any (fun p => let x := m.pair (cellAddr a plane p.1 p.2); x.s == 0x80000000#32 || x.c == 0x80000000#32)

/-- Whether two slices are of one wave. -/
def Slice.sameWave (x y : Slice) : Bool := x.tile == y.tile && x.ord == y.ord && x.kpos == y.kpos && !x.ballast && !y.ballast

/-- The 16 feeders of an array changed. -/
def ArrayState.allFeeders (A : ArrayState) (g : Feeder → Feeder) : ArrayState := { A with rowF := A.rowF.map g, colF := A.colF.map g }

/-- The zero wave at which an array stands: it heads every feeder, every earlier wave is applied, and its cell rows are ready (log 93). -/
def zeroHead (x : Nat → LCore) (A : ArrayState) : Option Slice :=
  match (A.feeder true 0).queue.head? with
  | some y =>
    if y.zero && (A.rowF ++ A.colF).all (fun F => (F.queue.head?.map (·.sameWave y)).getD false) &&
      (A.rowL ++ A.colL).all (·.isEmpty) && (List.range 8).all (rowsReady (x y.tile) A y) then some y else none
  | none => none

/-- Closes of a cell at a skipped wave, which leaves its pair alone. -/
def skipCell (a : Nat) (y : Slice) (st : Memory × List ChunkRes) (p : Nat × Nat) : Memory × List ChunkRes :=
  let cell := 32 * p.1 + p.2
  let addr := cellAddr a y.plane p.1 p.2
  let st := if closesBefore st.2 cell y.kpos y.chunkAt then closeCell st.1 addr cell y.kpos st.2 else st
  if (y.kpos + 1) % y.chunkAt = 0 then closeCell st.1 addr cell (y.kpos + 1) st.2 else st

/-- The array behind a zero wave that it skips: its feeders drop the slices, the wave counts as applied. -/
def ArrayState.skipWave (A : ArrayState) (y : Slice) (chunks : List ChunkRes) : ArrayState :=
  let B := A.allFeeders (fun F => { F with queue := F.queue.drop 1 })
  { B with
    bands := B.bands.set y.plane (List.replicate 8 (some y.tile))
    planes := B.planes.set y.plane .filling
    chunks := B.chunks.set y.plane chunks
    applied := assocSet 0 B.applied y.tile (lookupD 0 B.applied y.tile + 1) }

/-- A zero wave at which an array stands is skipped, unless a cell of its plane holds -0: then it passes the feeders as any other wave (R244). -/
def skipStep (s : State) (p l arr : Nat) (y : Slice) : State :=
  let pc := s.pcore p
  if minusZero pc.planes arr y.plane then
    s.updCore p (fun pc => { pc with arrays := pc.arrays.modify arr (fun A =>
      A.allFeeders (fun F => { F with queue := F.queue.modify 0 (fun x => { x with zero := false }) })) })
  else
    let i := l + 64 * (y.tile % 2)
    let w := (positions 32 32).foldl (skipCell arr y) (pc.planes, (pc.arrays.getD arr ArrayState.reset).chunks.getD y.plane [])
    let t := s.updCore p (fun pc => { pc with planes := w.1, arrays := pc.arrays.modify arr (fun A => A.skipWave y w.2) })
    settlePlanes { t with q := t.q.upd (s.prog i).qid (fun z => { z with cnt := z.cnt.bump 3 7 1 }) } i

/-- `SLICE_INJECT`: one injection slot of a feeder. -/
def sliceStep (s : State) (l arr : Nat) (col : Bool) (f : Nat) : State :=
  match storageOf s.pcores l with
  | none => s
  | some p =>
    if coreUp s l then
      let t := s.updCore p (fun pc => { pc with arrays := refill pc.arrays col f })
      match zeroHead (fun n => s.prog (l + 64 * (n % 2))) ((t.pcore p).arrays.getD arr ArrayState.reset) with
      | some y => skipStep t p l arr y
      | none => t.updCore p (fun pc => { pc with arrays := pc.arrays.modify arr (fun A => if isLead col f then A.leadSlot else A.followSlot col f) })
    else s

/-- A feeder injects a slice in an open ramp slot, or ballast after its work (R77-R80). -/
def execSliceInject (l arr : Nat) (col : Bool) (f : Nat) (s : State) : Host.Outcome State Fault Refusal :=
  if l < 64 ∧ arr < 4 ∧ f < 8 then .next (sliceStep s l arr col f) else noUnit

/-! ## CUBE_WAVE -/

/-- The slice at the head of an input link that the cube may consume: it has gone on, or the cube is the last of its row or column (R60). -/
def linkHead (l : List LinkSlot) (edge : Bool) : Option Slice :=
  match l with
  | x :: _ => if x.fwd || edge then some x.slice else none
  | [] => none

/-- q of a cell: the exact sum of the products of equal K positions; a compressed column has at most four (R26, R83). -/
def cellSum (row col : List (Nat × Num)) : Num :=
  let ps := col.filterMap (fun k => (row.find? (fun y => y.1 == k.1)).map (fun y => y.2.mul k.2))
  Num.sum (ps ++ List.replicate (4 - ps.length) (.zero false))

/-- One cell in one wave. -/
def cellWave (a plane r c : Nat) (rs cs : Slice) (st : Memory × List ChunkRes) (ij : Nat × Nat) : Memory × List ChunkRes :=
  let cell := 32 * (4 * r + ij.1) + 4 * c + ij.2
  let addr := cellAddr a plane (4 * r + ij.1) (4 * c + ij.2)
  let st := if closesBefore st.2 cell rs.kpos rs.chunkAt then closeCell st.1 addr cell rs.kpos st.2 else st
  let m := st.1.writePair addr (waveUpdate (st.1.pair addr) (cellSum (rs.lanes.getD ij.1 []) (cs.lanes.getD ij.2 [])))
  let cs := st.2.map (fun e => if e.cell = cell then { e with live := true } else e)
  if (rs.kpos + 1) % rs.chunkAt = 0 then closeCell m addr cell (rs.kpos + 1) cs else (m, cs)

/-- Both head slices leave the cube's links. -/
def ArrayState.popLinks (A : ArrayState) (k : Nat) : ArrayState :=
  { A with rowL := A.rowL.modify k (·.drop 1), colL := A.colL.modify k (·.drop 1) }

/-- The array after cube (r, c) has fired on a real pair of slices. -/
def ArrayState.fired (A : ArrayState) (k : Nat) (x : Slice) (chunks : List ChunkRes) : ArrayState :=
  let B := A.popLinks k
  { B with
    bands := B.bands.modify x.plane (fun b => b.set (k / 8) (some x.tile))
    planes := B.planes.modify x.plane (fun v => if v = .draining then v else .filling)
    chunks := B.chunks.set x.plane chunks
    applied := if k = 63 then assocSet 0 B.applied x.tile (lookupD 0 B.applied x.tile + 1) else B.applied }

/-- The stalls of an array (Table 3.4) since it last counted: how long its waves waited is a matter of time, so the counts are free (log 95). -/
def ArrayState.stalled (A : ArrayState) (ctr tag : Nat) (ks : List Nat) : ArrayState :=
  { A with cnt := ks.foldl (fun l k => bump l k (Config.sampled ctr (1024 + 8 * tag + k)).toNat) A.cnt }

/-- One wave of cube (r, c) of array `arr`. -/
def cubeStep (s : State) (l arr r c : Nat) : State :=
  match storageOf s.pcores l with
  | none => s
  | some p =>
    let A := (s.pcore p).arrays.getD arr ArrayState.reset
    let k := 8 * r + c
    match linkHead (A.rowL.getD k []) (c == 7), linkHead (A.colL.getD k []) (r == 7) with
    | some x, some y =>
      let i := l + 64 * (x.tile % 2)
      if !coreUp s l || x.ballast != y.ballast then s
      else if x.ballast then s.updCore p (fun pc => { pc with arrays := pc.arrays.modify arr (fun A => (A.popLinks k).forward) })
      else if rowsReady (s.prog i) A x r then
        let w := (positions 4 4).foldl (cellWave arr x.plane r c x y) ((s.pcore p).planes, A.chunks.getD x.plane [])
        let stall := fun (A : ArrayState) => if k = 0 then A.stalled s.free arr [0, 1, 2, 3] else A
        let t := s.updCore p (fun pc => { pc with planes := w.1, arrays := pc.arrays.modify arr (fun A => stall (A.fired k x w.2).forward) })
        settlePlanes { t with free := t.free + 1 } i
      else s
    | _, _ => s

/-- A cube fires a wave (R60). -/
def execCubeWave (l arr r c : Nat) (s : State) : Host.Outcome State Fault Refusal :=
  if l < 64 ∧ arr < 4 ∧ r < 8 ∧ c < 8 then .next (cubeStep s l arr r c) else noUnit

/-! ## DRAIN_ROW -/

/-- Row and column in its array of the pair at position `q` of drained row `n`. -/
def drainCell (col : Bool) (n q : Nat) : Nat × Nat := if col then (q, n) else (n, q)

/-- The pair of a cell with its closed chunks (R35). -/
def foldedCell (m : Memory) (cs : List ChunkRes) (a p r q : Nat) : Pair :=
  let reg := normalise (m.pair (cellAddr a p r q))
  match chunkOf cs (32 * r + q) with
  | some e => if e.live then pairAdd e.pair reg else e.pair
  | none => reg

/-- Row and column of an array's element in the core tile (Table 2.3); the problems of a `Q32` follow each other in rows (log 36). -/
def tilePos (shape a r q : Nat) : Nat × Nat :=
  match shape with
  | 0 => (r, 32 * a + q)
  | 1 => (a / 2 * 32 + r, a % 2 * 32 + q)
  | 2 => (32 * a + r, q)
  | 3 => (32 * a + r, q)
  | _ => (r, q)

/-- Element index of an element of the core tile (R119), 64 bits. -/
def DrainJob.index (d : DrainJob) (a r q : Nat) : Nat :=
  let ij := tilePos d.shape a r q
  (d.index0 + ij.1 * d.rowLen + ij.2) % 2 ^ 64

/-- The rows that a drain reads in one event: per array, or one combined row in the split-K form (R38). -/
def DrainJob.rowOf (d : DrainJob) (m : Memory) (cs : Nat → List ChunkRes) (a : Nat) : List Pair :=
  (List.range 32).map (fun q =>
    let rc := drainCell d.col d.next q
    let at_ := fun a => foldedCell m (cs a) a d.plane rc.1 rc.2
    if d.shape = 4 then pairAdd (pairAdd (at_ 0) (at_ 1)) (pairAdd (at_ 2) (at_ 3)) else at_ a)

/-- What a program measures of one written value (R44, R49, R54). -/
def LCore.measure (x : LCore) (d : DrainJob) (idx : Nat) (v : F32) : LCore :=
  let m := Meter.zero.add idx v
  { x with regs := { x.regs with
      amax := if d.amx then joinAmax x.regs.amax [(d.tid, m.amax)] else x.regs.amax
      infIdx := minOpt x.regs.infIdx (m.inf.map (· % 2 ^ 40))
      nanIdx := minOpt x.regs.nanIdx (m.nan.map (· % 2 ^ 40)) } }

/-- One row of a drain of array `a`: epilogue, conversion, measurement and store (steps 2 to 5 of Table 2.4). Elements outside the partition
are dropped and measured nowhere (R176); with `AMX` the slot takes part also where none is left. -/
def drainOne (i : Nat) (c : Cmd) (d : DrainJob) (a : Nat) (row : List Pair) (opnd : List Byte) (s : State) : State :=
  let k := if d.shape = 4 then d.next else 4 * d.next + a
  let addr := d.addrs.getD k 0
  let eb := eBytes d.fmt
  let ws := row.zipIdx.map (fun e =>
    let rc := drainCell d.col d.next e.2
    let idx := d.index a rc.1 rc.2
    let o := ofLe ((opnd.drop (eb * e.2)).take eb)
    let ov : F32 := if d.fmt = 9 then pairVal ⟨BitVec.ofNat 32 o, BitVec.ofNat 32 (o / 2 ^ 32)⟩ else cvt32 ((fmtOf d.fmt).decode o)
    let raw := convert d.fmt d.t (if d.sr then some (draw d.seed d.step d.tid idx 0) else none) (epilogue d.epi ov e.1)
    (addr + (eb * e.2 : Nat), idx, raw, written d.fmt d.t 127 raw))
  let kept := ws.filter (fun w => inside (spaceSize s i 2) w.1 eb)
  let t := writePieces i c 2 (cutBytes (contiguous addr (32 * eb)) (ws.flatMap (fun w => leBytes eb w.2.2.1))) s
  t.updProg i (fun x => kept.foldl (fun x w => x.measure d w.2.1 w.2.2.2)
    { x with regs := { x.regs with amax := if d.amx then joinAmax x.regs.amax [(d.tid, 0)] else x.regs.amax }, drains := x.drains.map (fun e => if e.ord = d.ord then { e with seen := e.seen ++ (if d.ng = 0 then [] else kept.map (fun w => (w.2.1, w.2.2.2))) } else e) })

/-- The chunk results of a plane without those of row (or column) `n`. -/
def dropChunks (col : Bool) (n : Nat) (cs : List ChunkRes) : List ChunkRes :=
  cs.filter (fun e => if col then e.cell % 32 != n else e.cell / 32 != n)

/-- The bands of a plane once row (or column) `n` has passed: a band of which every row has passed holds no tile that was there before. -/
def dropBand (old : Nat → Bool) (col : Bool) (n : Nat) (b : List (Option Nat)) : List (Option Nat) :=
  let gone := fun (x : Option Nat) => x.filter (fun t => !old t)
  if n = 31 then b.map gone else if !col && n % 4 == 3 then b.modify (n / 4) gone else b

/-- A plane when its last row has been read: the next tile may fill it already, or its preload follows the drain (R70, R72). -/
def ArrayState.afterDrain (A : ArrayState) (p : Nat) (loading : Bool) : PlaneState :=
  if (A.bands.getD p []).any (·.isSome) then .filling else if loading then .loading else .empty

/-- Clears the drained row or column in every array: pairs, chunk results and, when a band's rows are all read, its tile. -/
def clearRow (s : State) (i : Nat) (d : DrainJob) : State :=
  let loading := [i % 64, 64 + i % 64].any (fun j => (s.prog j).preloads.any (fun e => e.plane == d.plane && e.next != 0))
  match storageOf s.pcores (i % 64) with
  | none => s
  | some u => s.updCore u (fun pc => { pc with
      planes := (positions 4 32).foldl (fun m p =>
        let rc := drainCell d.col d.next p.2
        m.writePair (cellAddr p.1 d.plane rc.1 rc.2) Pair.zero) pc.planes
      arrays := pc.arrays.map (fun A =>
        let B := { A with
          chunks := A.chunks.modify d.plane (dropChunks d.col d.next)
          bands := A.bands.modify d.plane (dropBand (· == d.tile) d.col d.next) }
        B.setPlane d.plane (if d.next = 31 then B.afterDrain d.plane loading else .draining)) })

/-- Whether a `PEW` on a plane issued before `ord` waits in its unit. -/
def LCore.pewHeld (x : LCore) (p ord : Nat) : Bool := x.held.any (fun h => h.op == 0x32 && bf h.word 55 1 == p && decide (h.ord < ord))

/-- Whether a drain may read its next row: its tile is complete in all arrays, earlier preloads of the plane are done, and earlier queued work
has taken or written what the row reads and writes. A park replaces its slot with its last row (R137). -/
def DrainJob.ready (d : DrainJob) (s : State) (i : Nat) : Bool :=
  let x := s.prog i
  let k := if d.shape = 4 then [d.next] else (List.range 4).map (4 * d.next + ·)
  let rs : List Span := k.filterMap (fun n => (d.eaddrs[n]?).map (fun e => (e.1, e.2, e.2 + (rowLen32 d.fmt : Int))))
  let ws : List Span := if d.park then (if d.next = 31 then [slotSpan d.slot] else [])
    else k.filterMap (fun n => (d.addrs[n]?).map (fun a => (2, a, a + (rowLen32 d.fmt : Int))))
  (d.tile == 0 || decide (d.need ≤ tileApplied s i d.tile)) && !x.markPend.any (fun m => decide (m.ord < d.ord)) &&
  !x.pewHeld d.plane d.ord && !(domHeld s 68 && (!d.park || d.eaddrs.any (·.1 == 2))) &&
  !x.preloads.any (fun e => e.plane == d.plane && decide (e.ord < d.ord)) && !x.drains.any (fun e => e.plane == d.plane && decide (e.ord < d.ord)) &&
  !x.conflicts d.ord rs ws

/-- The drain that takes the drain path next: one in progress, else the first that may read a row (R71). -/
def nextDrain (s : State) (i : Nat) : Option DrainJob :=
  match (s.prog i).drains.find? (fun d => d.next != 0) with
  | some d => if d.ready s i then some d else none
  | none => (s.prog i).drains.find? (fun d => d.ready s i)

/-- A drain is gone; its norm group takes the written values in ascending element index (R44). -/
def LCore.drained (x : LCore) (d : DrainJob) : LCore :=
  let seen := sortBy (fun a b => decide (a.1 ≤ b.1)) (((x.drains.find? (fun e => e.ord == d.ord)).map (fun e => e.seen)).getD [])
  let norms := x.regs.norms.modify (d.ng - 1) (fun p => seen.foldl (fun p v => normAdd p v.2) p)
  { x with
    drains := x.drains.filter (fun e => e.ord != d.ord)
    regs := if d.ng = 0 ∨ d.park = true then x.regs else { x.regs with norms := norms } }

/-- The row after a row; after the last one the drain is gone, the norm group takes the tile in ascending index (R44), and the tile's waves are
forgotten. -/
def finishRow (s : State) (i : Nat) (c : Cmd) (d : DrainJob) : State :=
  if d.next = 31 then
    let t := updArrays s i (fun A => { A with applied := A.applied.filter (fun e => e.1 != d.tile) })
    let u := t.updProg i (fun x => x.drained d)
    settleRunp u c
  else s.updProg i (fun x => { x with drains := x.drains.map (fun e => if e.ord = d.ord then { e with next := e.next + 1 } else e) })

/-- The registers of one row of a park, normalised; chunk results do not enter them, since the drain steps do not apply (R74). -/
def DrainJob.parkRowOf (d : DrainJob) (m : Memory) (a : Nat) : List Pair :=
  (List.range 32).map (fun q => let rc := drainCell d.col d.next q; normalise (m.pair (cellAddr a d.plane rc.1 rc.2)))

/-- The chunk results of that row, by position in the slot. -/
def DrainJob.parkChunks (d : DrainJob) (cs : List ChunkRes) : List ChunkRes :=
  (List.range 32).filterMap (fun q =>
    let rc := drainCell d.col d.next q
    (chunkOf cs (32 * rc.1 + rc.2)).map (fun e => { e with cell := 32 * d.next + q }))

/-- The chunk results kept with the tile in accumulator slot `k`, by array, replaced. -/
def PCore.setParked (pc : PCore) (k : Nat) (l : List (Nat × ChunkRes)) : PCore :=
  { pc with parked := pc.parked.filter (fun e => e.1 != k) ++
      ((List.range 4).map (fun a => (k, a, (l.filter (fun e => e.1 == a)).map (·.2)))).filter (fun e => !e.2.2.isEmpty) }

/-- One row of a park: the normalised pairs are kept until the last row, which replaces the slot in one step; in a replay a logged park is not
performed again (R74, R137, R138). The tile's chunk results stay apart from its pairs and go with the slot (DESIGN CHOICE, log 87). -/
def parkRow (s : State) (i : Nat) (c : Cmd) (d : DrainJob) (u : Nat) : State :=
  let pc := s.pcore u
  let rows := (List.range 4).map (d.parkRowOf pc.planes)
  let news := rows.zipIdx.flatMap (fun a => a.1.zipIdx.map (fun e => (a.2 * 8192 + (32 * d.next + e.2) * 8, e.1)))
  let cks := (List.range 4).flatMap (fun a => (d.parkChunks ((pc.arrays.getD a ArrayState.reset).chunks.getD d.plane [])).map (fun e => (a, e)))
  let t := s.updProg i (fun x => { x with drains := x.drains.map (fun e =>
    if e.ord = d.ord then { e with held := e.held ++ news, heldCk := e.heldCk ++ cks } else e) })
  if d.next = 31 then
    if (t.prog i).run == .replaying && (t.prog i).prevLog.contains (.park d.ord d.slot) then t.updProg i (fun x => x.consume (.park d.ord d.slot))
    else
      let v := writePieces i c 1 ((d.held ++ news).map (fun h => (((32768 * d.slot + h.1 : Nat) : Int), pairBytes h.2))) t
      logAction (v.updCore u (fun pc => pc.setParked d.slot (d.heldCk ++ cks))) i c (.park d.ord d.slot)
  else t

/-- One row of a drain of program `i`. -/
def drainRowOf (s : State) (i : Nat) (c : Cmd) (d : DrainJob) : State :=
  match storageOf s.pcores (i % 64) with
  | none => s
  | some u =>
    let pc := s.pcore u
    let cs := fun a => (pc.arrays.getD a ArrayState.reset).chunks.getD d.plane []
    let s := { s.updCore u (fun pc => { pc with arrays := pc.arrays.zipIdx.map (fun x => x.1.stalled s.free (8 + x.2) [4]) }) with free := s.free + 1 }
    if d.park then finishRow (clearRow (parkRow s i c d u) i d) i c d
    else
      let as_ := if d.shape = 4 then [0] else List.range 4
      let es : List (Nat × Int) := as_.filterMap (fun a => d.eaddrs[if d.shape = 4 then d.next else 4 * d.next + a]?)
      let ps := es.flatMap (fun e => contiguous e.2 (rowLen32 d.fmt))
      let r := readPieces i c ((es.head?.map (·.1)).getD 0) ps s
      if r.ok then
        let t := as_.foldl (fun t a => drainOne i c d a (d.rowOf pc.planes cs a) ((r.data.drop (rowLen32 d.fmt * a)).take (rowLen32 d.fmt)) t) r.st
        finishRow (clearRow t i d) i c d
      else r.st

/-- The drain of the core's program, or of its CHAIN consumer's: the one already under way first. -/
def drainStep (s : State) (l : Nat) : State :=
  if coreUp s l then
    let both := [l, 64 + l].filterMap (fun i => match progCmd s i, nextDrain s i with
      | some c, some d => some (i, c, d)
      | _, _ => none)
    match (both.find? (fun x => x.2.2.next != 0)).or both.head? with
    | some (i, c, d) =>
      if [l, 64 + l].any (fun j => j != i && (s.prog j).drains.any (fun e => e.next != 0)) then s else drainRowOf s i c d
    | none => s
  else s

/-- The drain reads and clears one row or column of a complete plane, of every array (R71). -/
def execDrainRow (l : Nat) (s : State) : Host.Outcome State Fault Refusal := onCore l (drainStep s l)

/-! ## PRELOAD_ROW -/

/-- Bytes of a source row of 32 elements. -/
def PreJob.rowBytes (d : PreJob) : Nat := if d.src = 1 then 256 else if d.fmt = 4 then 16 else rowLen32 d.fmt

/-- The source rows of one event, by array. -/
def PreJob.pieces (d : PreJob) : List (Int × Nat) :=
  match d.src with
  | 0 => []
  | 1 => (List.range 4).map (fun a => (((32768 * d.slot + 8192 * a + 256 * d.next : Nat) : Int), 256))
  | _ => (List.range 4).flatMap (fun a => contiguous (d.addrs.getD (4 * d.next + a) 0) d.rowBytes)

/-- Space of the source. -/
def PreJob.sp (d : PreJob) : Nat := if d.src = 1 then 1 else 2

/-- An element of a source row as a pair (R33): a pair with its bits, any other as (cvt32, +0). -/
def PreJob.elem (d : PreJob) (bs : List Byte) (q : Nat) : Pair :=
  if d.src = 0 then Pair.zero
  else if d.src = 1 ∨ d.fmt = 9 then
    let v := ofLe ((bs.drop (8 * q)).take 8)
    ⟨BitVec.ofNat 32 v, BitVec.ofNat 32 (v / 2 ^ 32)⟩
  else ⟨cvt32 (scaled d.fmt d.t 127 (packedElem (fmtWidth d.fmt) bs q)), 0⟩

/-- Whether the next row may be preloaded: it has been read by every earlier drain, the waves of an earlier tile are applied, and its source is
what earlier work has left there (R72). -/
def PreJob.ready (d : PreJob) (s : State) (i : Nat) : Bool :=
  let x := s.prog i
  !x.drains.any (fun e => e.plane == d.plane && decide (e.ord < d.ord) && !(e.col == d.col && decide (d.next < e.next))) &&
  !x.preloads.any (fun e => e.plane == d.plane && decide (e.ord < d.ord)) && !x.pewHeld d.plane d.ord && !(domHeld s 68 && d.src == 2) &&
  (x.tileIds.getD d.plane 0 == 0 || decide (2 * d.ord < x.tileIds.getD d.plane 0) ||
    decide (x.tileWaves.getD d.plane 0 ≤ tileApplied s i (x.tileIds.getD d.plane 0))) &&
  !x.conflicts d.ord (pieceSpans d.sp d.pieces) []

/-- The chunk results of a parked tile that come back with the row, by cell (log 87). -/
def PreJob.unparked (d : PreJob) (cs : List ChunkRes) : List ChunkRes :=
  (cs.filter (fun e => e.cell / 32 == d.next)).map (fun e => let rc := drainCell d.col d.next (e.cell % 32); { e with cell := 32 * rc.1 + rc.2 })

/-- The preloads of a program after one row of `d`. -/
def rowLoaded (d : PreJob) (l : List PreJob) : List PreJob :=
  if d.next = 31 then l.filter (fun e => e.ord != d.ord) else l.map (fun e => if e.ord = d.ord then { e with next := e.next + 1 } else e)

/-- One row of a preload. -/
def preloadRowOf (s : State) (i : Nat) (c : Cmd) (d : PreJob) : State :=
  let r := readPieces i c d.sp d.pieces s
  if !r.ok then r.st
  else match storageOf s.pcores (i % 64) with
    | none => r.st
    | some u =>
      let n := d.rowBytes
      let back := fun (a : Nat) => if d.src = 1 then d.unparked (lookupD [] ((((s.pcore u).parked.filter (fun e => e.1 == d.slot)).map (·.2))) a) else []
      let t := r.st.updCore u (fun pc => { pc with
        planes := (positions 4 32).foldl (fun m p =>
          let rc := drainCell d.col d.next p.2
          m.writePair (cellAddr p.1 d.plane rc.1 rc.2) (d.elem ((r.data.drop (n * p.1)).take n) p.2)) pc.planes
        arrays := pc.arrays.zipIdx.map (fun x =>
          let A := x.1
          { A with
            chunks := A.chunks.modify d.plane (fun cs => dropChunks d.col d.next cs ++ back x.2)
            bands := A.bands.modify d.plane (dropBand (fun t => decide (t / 2 < d.ord)) d.col d.next)
            planes := A.planes.modify d.plane (fun v =>
              if v = .draining then v
              else if (A.bands.getD d.plane []).any (·.isSome) then .filling
              else if d.next = 31 then (if d.src = 0 then .empty else .ready) else .loading) }) })
      t.updProg i (fun x => { x with preloads := rowLoaded d x.preloads })

/-- The preload of the core's program, or of its CHAIN consumer's, that may write a row. -/
def preloadStep (s : State) (l : Nat) : State :=
  if coreUp s l then
    match [l, 64 + l].findSome? (fun i => match progCmd s i, (s.prog i).preloads.find? (fun d => d.ready s i) with
      | some c, some d => some (i, c, d)
      | _, _ => none) with
    | some (i, c, d) => preloadRowOf s i c d
    | none => s
  else s

/-- One row or column of a plane is preloaded in every array (R72). -/
def execPreloadRow (l : Nat) (s : State) : Host.Outcome State Fault Refusal := onCore l (preloadStep s l)

end Sys2Proof.Machine
end

