-- ==== Sys2Proof/Machine/Access.lean ====
section
/-!
DEFINITION. Who may write and read registers (R407-R409) and the ignored illegal sequences of register accesses.
-/
namespace Sys2Proof.Machine

/-- A register access that has no effect: source 0x0E, with offset, master identity and direction (R407, R409). -/
def regIll (s : State) (mid : Mid) (off : Nat) (write : Bool) : State :=
  noteIll s 0x0E .none none (BitVec.ofNat 64 (off % 2 ^ 24 + mid.toNat * 2 ^ 24 + b2n write * 2 ^ 30))

/-- Master identities that may read registers (R409). -/
def mayRead (mid : Mid) : Bool := decide (mid.toNat ≤ 0x28)

/-- The host agents 0x00 and 0x01 (Table 13.2), and the queue masters 0x01 to 0x1F of the doorbell registers. -/
def isHost (mid : Mid) : Bool := decide (mid.toNat ≤ 1)
def isQueueMaster (mid : Mid) : Bool := decide (1 ≤ mid.toNat) && decide (mid.toNat ≤ 0x1F)

/-- The masters of the debug registers: 0x01 and 0x28. -/
def isDebug (mid : Mid) : Bool := mid.toNat == 1 || mid.toNat == 0x28

/-- Whether an access comes from the instrument network while its domain 39 is not `ON` (R433). -/
def netOff (s : State) (mid : Mid) : Bool := mid.toNat == 0x28 && !domOn s 39

/-- A write at an offset, with the effect `t`, unless it comes from the instrument network while that is not powered (R433). -/
def netWrite (s : State) (mid : Mid) (off : Nat) (t : State) : State := if netOff s mid then regIll s mid off true else t

/-- Code of the firmware state (Table 13.15). -/
def FwState.code : FwState → Nat
  | .rom => 0 | .wait => 1 | .load => 2 | .verify => 3 | .run => 4 | .fail => 5 | .hung => 6

/-- A firmware access that has no effect: source 0x0C, with the value written and `STATE` in the top bits (Table 13.12, log 38). -/
def fwIll (s : State) (v : Word) : State :=
  noteIll s 0x0C .none none (BitVec.ofNat 64 (bf v.toNat 0 61 + s.fw.state.code * 2 ^ 61))

/-- A power or reset access that has no effect: source 0x0D, with domain number and value written (log 38); 63 stands for no domain. -/
def powerIll (s : State) (d : Nat) (v : Word) : State := noteIll s 0x0D .none none (BitVec.ofNat 64 (bf v.toNat 0 58 + d % 64 * 2 ^ 58))

/-- A write by a master that may make it has the effect `t`; any other is an ignored illegal sequence (R409). -/
def writeBy (s : State) (ok : Bool) (mid : Mid) (off : Nat) (t : State) : State := if ok then t else regIll s mid off true

end Sys2Proof.Machine
end

