-- ==== Sys2Proof/Machine/QueueCtl.lean ====
section
/-!
DEFINITION. The queue doorbell and queue control (R280-R283, R333, R411): `GX_QBELL` and `GX_QCTL`.
-/
namespace Sys2Proof.Machine

/-- Offsets of GX_QBELL and GX_QCTL. -/
def qbellOff : Nat := 0x3000
def qctlOff : Nat := 0x3008

/-! ## Contexts, resident or in memory -/

/-- The context of a queue as it stands. -/
def ctxOf (s : State) (q : Nat) : QCtx :=
  match s.q.find q with
  | some x => x.ctx
  | none => memCtx s q

/-- One field of a context changed: in its slot, or in memory by the bytes `n` at `off`. -/
def putCtx (s : State) (q : Nat) (f : QCtx → QCtx) (off n : Nat) : State :=
  match s.q.find q with
  | some _ => { s with q := s.q.updCtx q f }
  | none => { s with mem := s.mem.dieStores s.extent [.bytes (ctxAddr s.q q + off) (((f (memCtx s q)).bytes.drop off).take n)] }

/-- An ignored illegal sequence of a queue: engine-wide, and in the queue's context wherever it lies. -/
def illCtx (s : State) (src q : Nat) (v : Word) : State :=
  let t := illQueue s src q v
  match s.q.find q with
  | some _ => t
  | none => putCtx t q (fun c => c.noteIll src (.queue q) v) 56 24

/-- Queue number of a `GX_QBELL` or `GX_QCTL` value. -/
def qidOf (v : Word) : Nat := bf v.toNat 0 22

/-- A write of `GX_QBELL` or `GX_QCTL` that names no queue the engine may act on: from another master, before firmware runs, or without a
context table. -/
def noQueueWrite (s : State) (mid : Mid) : Bool := !isQueueMaster mid || !admissionOpen s

/-! ## Doorbell (R281) -/

/-- A packet bell on a queue that has been brought in or stays pending. -/
def packetBell (s : State) (q : Nat) (v : Word) : State :=
  let c := ctxOf s q
  let i := bf v.toNat 32 16
  let size := 2 ^ c.rlog2
  let n := (i + size - c.head) % size
  if c.state = .off ∨ size ≤ i ∨ n < (c.tail + size - c.head) % size then illCtx s 0x02 q v
  else putCtx s q (fun c => { c with tail := i }) 18 2

/-- A reply bell. -/
def replyBell (s : State) (q : Nat) (v : Word) : State :=
  let c := ctxOf s q
  let i := bf v.toNat 32 16
  let size := 2 ^ c.plog2
  if c.state = .off ∨ size ≤ i ∨ (c.pwr + size - c.prd) % size < (i + size - c.prd) % size then illCtx s 0x02 q v
  else putCtx s q (fun c => { c with prd := i }) 22 2

/-- A write of `GX_QBELL`. -/
def bellWrite (s : State) (mid : Mid) (v : Word) : State :=
  let q := qidOf v
  if noQueueWrite s mid then noteIll s 0x02 .none none v
  else if !hasContext s q then noteIll s 0x02 (.queue q) none v
  else
    let t := bringIn (reserveTouch s) q
    if bit v.toNat 63 then replyBell t q v else packetBell t q v

/-- Packets are posted. -/
def execQbellPackets (mid : Mid) (v : Word) (s : State) : Host.Outcome State Fault Refusal :=
  .next (netWrite s mid qbellOff (bellWrite s mid (v &&& ~~~(1#64 <<< 63))))

/-- Replies are consumed. -/
def execQbellReplies (mid : Mid) (v : Word) (s : State) : Host.Outcome State Fault Refusal :=
  .next (netWrite s mid qbellOff (bellWrite s mid (v ||| (1#64 <<< 63))))

/-! ## Actions (R283, Table 11.9) -/

/-- The state of a queue set. -/
def putState (s : State) (q : Nat) (st : QState) : State := putCtx s q (fun c => { c with state := st }) 32 8

/-- Enable: an `OFF` queue whose context is legal; one that drains goes on afterwards. The context table locks (R411). -/
def enableQueue (s : State) (q : Nat) (v : Word) : State :=
  let c := ctxOf s q
  match c.state with
  | .off =>
    if c.legal then (let t := putState s q .on; { t with q := { t.q with baseLock := true } }) else illCtx s 0x03 q v
  | .draining => let t := putState s q .pendingOn; { t with q := { t.q with baseLock := true } }
  | _ => s

/-- Disable. -/
def disableQueue (s : State) (q : Nat) : State :=
  match (ctxOf s q).state with
  | .on | .pendingOn =>
    match s.q.find q with
    | some _ => settleQueue (putState s q .draining) q
    | none => putState s q (if s.q.cmds.any (fun c => c.qid == q && c.inFlight) then .draining else .off)
  | _ => s

/-- The iteration in progress of a queue's `LOOP`: the latest one with an admitted body packet, else the earliest one with a body packet
without a reply, else the one being read. -/
def currentIter (x : QRes) (cs : List Cmd) : Nat :=
  let body := cs.filter (·.loopb)
  let run := body.filter (·.inFlight)
  if run.isEmpty then body.foldl (fun m c => Nat.min m c.iter) x.ctx.loopIter else run.foldl (fun m c => Nat.max m c.iter) 0

/-- The ring entries of a queue that have not been read and get a reply in a cancel, with whether they are body packets. -/
def unreadEntries (x : QRes) (cur : Nat) : List (Nat × Bool) :=
  let size := 2 ^ x.ctx.rlog2
  let from_ := if x.ctx.loopActive then (x.ctx.loopBody + bodyLen x) % size else x.ctx.head
  let body := if x.ctx.loopActive && x.ctx.loopIter == cur then
    (rangeFrom x.loopPos (bodyLen x - x.loopPos)).map (fun p => ((x.ctx.loopBody + p) % size, true)) else []
  body ++ (List.range ((x.ctx.tail + size - from_) % size)).map (fun k => ((from_ + k) % size, false))

/-- Whether the packet of a body position was read in an earlier iteration with `IRQ` set, and its CRC held (R282). -/
def bodyIrq (s : State) (x : QRes) (e : Nat) : Bool :=
  let pos := (e + 2 ^ x.ctx.rlog2 - x.ctx.loopBody) % 2 ^ x.ctx.rlog2
  bit (dieLe s.mem s.extent (x.ctx.rbase + pkBytes x.ctx.pkfmt * e) 8) 16 && !x.judged.any (fun k => k.1 == pos && k.2.first % 256 == 1)

/-- The `CANCELLED` replies of packets that were not read: each has the expected `SEQ` and no interrupt; a body packet of a later iteration has advanced
`NEXTSEQ` before, and its `SEQ` and `IRQ` are those of its ring entry, as it was read. -/
def unreadCmds (s : State) (x : QRes) (cur : Nat) : List (Nat × Bool) → BitVec 32 → List Cmd × BitVec 32
  | [], seq => ([], seq)
  | (e, body) :: r, seq =>
    let again := body && cur != 0
    let own := if again then BitVec.ofNat 32 (dieLe s.mem s.extent (x.ctx.rbase + pkBytes x.ctx.pkfmt * e + 4) 4) else seq
    let c := { cmdOf s x e 0 with seq := own, irq := again && bodyIrq s x e, stage := .refused, refusal := some ⟨0x31, 0, 0⟩, client := noClient, loopb := body, iter := cur }
    let k := unreadCmds s x cur r (if again then seq else seq + 1)
    (c :: k.1, k.2)

/-- A command gets its outcome from a cancel: one that was only read does not run, and the abort of a collective counts; one that a check has refused
behind the last admitted one (`late`), or that belongs to a `LOOP` body, replies `CANCELLED` as well; an admitted one ends with `CANCELLED`, also one that
has ended and has not replied yet. -/
def cancelCmd (late : Bool) (s : State) (c : Cmd) : State :=
  let out := fun (t : State) => { t with q := t.q.updCmd (fun d => d.same c) (fun d => { d with stage := .refused, refusal := some ⟨0x31, 0, 0⟩ }) }
  match c.stage with
  | .read =>
    let n := b2n (isCollective c.op || c.op == 0x63)
    let t := out s
    refuseCollective { t with q := t.q.upd c.qid (fun x => { x with cnt := x.cnt.bump 4 4 n }) } c
  | .refused => if late || c.loopb then out s else s
  | .admitted | .started => endCommand s c ⟨0x31, 0, 0⟩
  | .ended => if c.skip then s else { s with q := s.q.updCmd (fun d => d.same c) (fun d => { d with conds := mergeOob (d.conds ++ [⟨0x31, 0, 0⟩]) }) }

/-- The queue after a cancel: all its packets are taken, no `LOOP` or `CHAIN` goes on, and it drains. -/
def QRes.cancelled (x : QRes) (seq : BitVec 32) : QRes :=
  { x with
    loopPos := 0
    judged := []
    chainLeft := 0
    ctx := { x.ctx with head := x.ctx.tail, nextSeq := seq, loopActive := false, state := x.ctx.state.drain } }

/-- The page-fault records of the reads of a queue's next packet are freed (R168). -/
def Tender.freePacket (t : Tender) (q : Nat) : Tender :=
  let keep := fun (r : PfRec) => r.ctl != some (.ring q) && r.ctl != some (.tables q)
  ({ t with recs := t.recs.filter keep, waiting := t.waiting.filter keep }).fill

/-- Cancel (R283) of a queue in its slot. -/
def cancelIn (s : State) (q : Nat) : State :=
  match s.q.find q with
  | none => s
  | some x =>
    if x.ctx.state = .off then s
    else
      let cs := queueCmds s q
      let cur := currentIter x cs
      let new := unreadCmds s x cur (unreadEntries x cur) x.ctx.nextSeq
      let t := { s with q := { s.q with cmds := s.q.cmds.filter (fun c : Cmd => !(c.qid == q && c.loopb && decide (cur < c.iter))) } }
      let t := setTender t (t.tender.freePacket q)
      let all := queueCmds t q
      let u := (trailing all).foldl (cancelCmd true) ((all.take (all.length - (trailing all).length)).foldl (cancelCmd false) t)
      settleQueue { u with q := { u.q.upd q (fun y => y.cancelled new.2) with cmds := u.q.cmds ++ new.1 } } q

/-- Cancel (R283); one of a queue that waits for a slot acts on its context in memory. -/
def cancelQueue (s : State) (q : Nat) : State := onOut s q (fun t => cancelIn t q)

/-- Evict and write back: not while the queue is in use. -/
def evictQueue (s : State) (q : Nat) (v : Word) : State :=
  match s.q.find q with
  | none => s
  | some x => if inUse s.q x then illCtx s 0x03 q v else if s.tender.ctlHeld (.context q) then s else servePending (evict s x)

/-- A write of `GX_QCTL`. -/
def qctlWrite (s : State) (mid : Mid) (v : Word) : State :=
  let q := qidOf v
  let act := bf v.toNat 24 3
  if noQueueWrite s mid then noteIll s 0x03 .none none v
  else if hasContext s q = false then noteIll s 0x03 (.queue q) none v
  else if act = 0 ∨ 6 ≤ act then illCtx s 0x03 q v
  else
    let s := reserveTouch s
    let t := if act = 4 then s else bringIn s q
    match act with
    | 1 => enableQueue t q v
    | 2 => disableQueue t q
    | 3 => cancelQueue t q
    | 4 => evictQueue t q v
    | _ => t

/-- The value of an action's write. -/
def withAct (v : Word) (act : Nat) : Word := (v &&& ~~~(7#64 <<< 24)) ||| BitVec.ofNat 64 (act * 2 ^ 24)

/-- `GX_QCTL` enable. -/
def execQueueEnable (mid : Mid) (v : Word) (s : State) : Host.Outcome State Fault Refusal :=
  .next (netWrite s mid qctlOff (qctlWrite s mid (withAct v 1)))

/-- `GX_QCTL` disable. -/
def execQueueDisable (mid : Mid) (v : Word) (s : State) : Host.Outcome State Fault Refusal :=
  .next (netWrite s mid qctlOff (qctlWrite s mid (withAct v 2)))

/-- `GX_QCTL` cancel. -/
def execQueueCancel (mid : Mid) (v : Word) (s : State) : Host.Outcome State Fault Refusal :=
  .next (netWrite s mid qctlOff (qctlWrite s mid (withAct v 3)))

/-- `GX_QCTL` evict and write back. -/
def execQueueEvict (mid : Mid) (v : Word) (s : State) : Host.Outcome State Fault Refusal :=
  .next (netWrite s mid qctlOff (qctlWrite s mid (withAct v 4)))

/-- `GX_QCTL` bring in. -/
def execQueueBringIn (mid : Mid) (v : Word) (s : State) : Host.Outcome State Fault Refusal :=
  .next (netWrite s mid qctlOff (qctlWrite s mid (withAct v 5)))

end Sys2Proof.Machine
end

