-- ==== Sys2Proof/Machine/Keeper.lean ====
section
/-!
DEFINITION. The Keeper's own commands (11, 12): `BARRIER`, `FENCE`, `LOOP`, `WAITQ` with its poll, `CHAIN`, `CFG` and `NOP`.
-/
namespace Sys2Proof.Machine

/-- Starts the next command of opcode `op` in queue `q` with `f`, if the row is enabled. -/
def startOp (s : State) (q op : Nat) (f : State → Cmd → State) : State :=
  match startable s q op with
  | some c => f (beginCmd s c) c
  | none => s

/-- A command changed. -/
def State.updCmd (s : State) (c : Cmd) (f : Cmd → Cmd) : State := { s with q := s.q.updCmd (fun d => d.same c) f }

/-- A command ends and leaves its reply to be written. -/
def endWith (s : State) (c : Cmd) (ks : List Cond) : State := s.updCmd c (fun d => { d with stage := .ended, conds := d.conds ++ ks })

/-- A command has started and waits. -/
def waitStarted (s : State) (c : Cmd) : State := s.updCmd c (fun d => { d with stage := .started })

/-- The started command of an opcode in a queue. -/
def runningOp (s : State) (q op : Nat) : Option Cmd := s.q.cmds.find? (fun c => c.qid == q && c.op == op && c.stage == .started)

/-! ## NOP, CHAIN -/

/-- `NOP` (R276). -/
def execNop (q : Nat) (s : State) : Host.Outcome State Fault Refusal := onQueue q (startOp s q 0x7F (fun t c => endWith t c []))

/-- `CHAIN` (R107): what it declares has entered its pair when the packet was read; the pair is admitted and runs by its own rows. -/
def execChain (q : Nat) (s : State) : Host.Outcome State Fault Refusal := onQueue q (startOp s q 0x59 (fun t c => endWith t c []))

/-! ## BARRIER (R291) -/

/-- Whether every earlier command of the queue has replied. -/
def isFirst (s : State) (c : Cmd) : Bool := (queueCmds s c.qid).head?.any (fun d => d.same c)

/-- `BARRIER` of queue `q`: with `ALLC` it ends with the next all-core barrier, at once where every core is idle. -/
def barrierOp (s : State) (q : Nat) : State :=
  match startable s q 0x50 with
  | none => s
  | some c =>
    if !isFirst s c then s
    else if !c.pb 0 0 then endWith (beginCmd s c) c []
    else
      let t := waitStarted (beginCmd s c) c
      if allIdle t then allCoreBarrier t else t

/-- `BARRIER`. -/
def execBarrier (q : Nat) (s : State) : Host.Outcome State Fault Refusal := onQueue q (barrierOp s q)

/-! ## FENCE (R290) -/

/-- Whether a queue's `DONESEQ` has reached a number: their difference modulo 2^32 is below 2^31. -/
def seqReached (done seq : BitVec 32) : Bool := decide ((done - seq).toNat < 2 ^ 31)

/-- The queues and numbers that a `FENCE` waits for. -/
def fenceEntries (c : Cmd) : List (Nat × BitVec 32) :=
  (List.range 8).filterMap (fun k => if c.pb k 22 then some (c.pf k 0 22, BitVec.ofNat 32 (c.pf k 32 32)) else none)

/-- Whether a `FENCE` completes. -/
def fenceMet (s : State) (c : Cmd) : Bool := (fenceEntries c).all (fun e => seqReached (ctxOf s e.1).doneSeq e.2)

/-- The queues that a `FENCE` names are brought in when it starts (R280). -/
def fenceStart (s : State) (c : Cmd) : State :=
  ((fenceEntries c).filter (fun e => hasContext s e.1)).foldl (fun t e => bringIn t e.1) s

/-- A started `FENCE` looks at its entries. -/
def fenceCheck (s : State) (c : Cmd) : State := if !keeperRuns s then s else if fenceMet s c then endWith s c [] else waitStarted s c

/-- `FENCE` of queue `q`: it starts, or looks again. -/
def fenceOp (s : State) (q : Nat) : State :=
  match runningOp s q 0x51 with
  | some c => fenceCheck s c
  | none => startOp s q 0x51 (fun t c => fenceCheck (fenceStart t c) c)

/-- `FENCE`. -/
def execFence (q : Nat) (s : State) : Host.Outcome State Fault Refusal := onQueue q (fenceOp s q)

/-! ## WAITQ (R292) -/

/-- Whether the word of a `WAITQ` satisfies its comparison. -/
def waitqMet (s : State) (c : Cmd) : Bool :=
  let w := dieLe s.mem s.extent (c.pf 0 0 48) 8
  if c.pb 2 0 then w == c.p 1 else decide (c.p 1 ≤ w)

/-- A started `WAITQ` reads its word, which is charged to it (R292), unless a page fault halts the access (R143). -/
def waitqCheck (s : State) (c : Cmd) : State := if !keeperRuns s || s.tender.cmdHeld c.qid c.seq then s else 
  let t := s.updCmd c (fun d => { d with rd := d.rd + 8 })
  if waitqMet s c then endWith t c [] else waitStarted t c

/-- The poll of a `WAITQ` that waits. -/
def waitqPollStep (s : State) (q : Nat) : State :=
  match runningOp s q 0x53 with
  | some c => waitqCheck s c
  | none => s

/-- `WAITQ`: it starts and reads its word once. -/
def execWaitq (q : Nat) (s : State) : Host.Outcome State Fault Refusal := onQueue q (startOp s q 0x53 waitqCheck)

/-- `WAITQ_POLL`. -/
def execWaitqPoll (q : Nat) (s : State) : Host.Outcome State Fault Refusal := onQueue q (waitqPollStep s q)

/-! ## LOOP (R294, R295) -/

/-- The queue that runs the body behind its `LOOP` `t` times. -/
def QRes.looping (x : QRes) (c : Cmd) (t colls : Nat) : QRes :=
  { x with
    loopPos := 0
    judged := []
    loopColl := colls
    loopStep := c.pb 0 54
    ctx := { x.ctx with loopBody := x.ctx.head, loopBodyM1 := c.pf 0 48 6, loopT := t, loopIter := 0, loopActive := true } }

/-- The trip word is read, the body is set up and the `LOOP` ends. -/
def loopOp (s : State) (c : Cmd) : State :=
  match s.q.find c.qid with
  | none => s
  | some x =>
    let w := dieLe s.mem s.extent (c.pf 0 0 48) 4
    let t := Nat.min w (c.pf 1 0 32)
    let colls := ((bodyOps s x (c.pf 0 48 6 + 1)).filter (fun o => isCollective o || o == 0x63)).length
    let u := (endWith s c (if c.pf 1 0 32 < w then [⟨0x10, w, 1⟩] else [])).updCmd c (fun d => { d with trip := t, rd := d.rd + 4 })
    { u with q := u.q.upd c.qid (fun y => y.looping c t colls) }

/-- `LOOP`. -/
def execLoop (q : Nat) (s : State) : Host.Outcome State Fault Refusal := onQueue q (startOp s q 0x52 loopOp)

/-! ## CFG (R275, R298-R300, R370, R439) -/

/-- The bytes of a queue item in a context: offset and length. -/
def itemBytes (item : Nat) : Nat × Nat := if item = 0x12 then (40, 6) else if item = 0x13 then (48, 3) else (32, 2)

/-- An item of one queue: at once where the queue runs nothing but this `CFG`, in place of an earlier one that still waits; else at its next command
boundary. -/
def applyQueueItem (s : State) (c : Cmd) (x : CfgItem) : State :=
  let e : QItem := (x.item, x.value)
  if s.q.cmds.any (fun d => d.qid == x.qid && (d.stage == .started || d.stage == .ended) && !d.same c) then
    { s with q := s.q.upd x.qid (fun y => { y with items := y.items ++ [e] }) }
  else
    let t := putCtx s x.qid (fun k => k.applyItem e) (itemBytes x.item).1 (itemBytes x.item).2
    { t with q := { t.q.upd x.qid (fun y => { y with items := y.items.filter (fun i => i.1 != x.item) }) with
        waitItems := t.q.waitItems.filter (fun i => !(i.1 == x.qid && i.2.1 == x.item)) } }

/-- One item of a table, applied or staged. -/
def applyCfgItem (s : State) (c : Cmd) (x : CfgItem) : State :=
  let onJob := fun (f : Job → Job) => { s with conf := s.conf.updJob x.index f }
  if isStaged x.item then { s with conf := { s.conf with staged := s.conf.staged ++ [⟨x.item, x.index, x.value⟩] } }
  else if isQueueItem x.item then applyQueueItem s c x
  else match x.item with
    | 0x04 => { s with conf := { s.conf with seeds := assocSet 0 s.conf.seeds x.index (BitVec.ofNat 64 x.value) } }
    | 0x05 => { s with
        amax := s.amax.setSlot x.index { s.amax.slot x.index with m := BitVec.ofNat 3 x.value }
        q := s.q.keepMargin x.index (s.amax.slot x.index).m }
    | 0x06 => { s with red := { s.red with lastCseq := x.value, doneAhead := [] } }
    | 0x20 => { s with conf := { s.conf with dieTags := s.conf.dieTags.set x.index x.value } }
    | 0x21 => { s with conf := { s.conf with stackTags := s.conf.stackTags.set x.index x.value } }
    | 0x32 => onJob (fun b => { b with sliceNext := some x.value })
    | 0x33 => onJob (fun b => { b with glim := x.value })
    | 0x34 => onJob (fun b => { b with saveBase := x.value })
    | 0x35 => onJob (fun b => { b with saveSize := x.value })
    | 0x37 => { s with accts := s.accts.upd x.index (fun _ => Account.zero) }
    | 0x3F => { s with conf := { s.conf with drain := x.value == 1 } }
    | _ => s

/-- Whether a table may take effect now: the placements that result are legal (R298), and no collective is admitted where it sets the last
`CSEQ` (Table 11.4). -/
def cfgWhole (s : State) (items : List CfgItem) : Bool :=
  ((s.conf.result s.conf.staged).result (stagedOf items)).placed &&
  !(items.any (fun x => x.item == 6) && s.q.cmds.any (fun d => (isCollective d.op || d.op == 0x63) && d.inFlight))

/-- The refusal of a `CFG` that may not take effect; in a `LOOP` body it is judged once (R295). -/
def cfgVerdict (s : State) (x : QRes) (c : Cmd) (items : List CfgItem) : Option Cond :=
  if c.loopb && c.iter != 0 then (x.judged.find? (fun k => k.1 == bodyPos x c)).map (·.2)
  else ((itemsFault s c).or (if cfgWhole s items then none else some 0xFFFF)).map (fun off =>
    ⟨0x7E, (⟨0x0D, 0xFF, off⟩ : Why).first, satTo (2 ^ 32 - 1) (x.ctx.illCnt + 1)⟩)

/-- `CFG` of queue `q`: all items or none. While every core is idle, what it staged takes effect at once (R128). -/
def cfgOp (s : State) (q : Nat) : State :=
  match startable s q 0x70, s.q.find q with
  | some c, some x =>
    let items := cfgItems s c
    match cfgVerdict s x c items with
    | some k => refuse s x c k
    | none =>
      let t := (endWith (items.foldl (fun t e => applyCfgItem t c e) (beginCmd s c)) c []).updCmd c (fun d => { d with rd := d.rd + 16 * items.length })
      if allIdle t then allCoreBarrier t else t
  | _, _ => s

/-- `CFG`. -/
def execCfg (q : Nat) (s : State) : Host.Outcome State Fault Refusal := onQueue q (cfgOp s q)

end Sys2Proof.Machine
end

