-- ==== Sys2Proof/Machine/Collective.lean ====
section
/-!
DEFINITION. The reduction port and the collective commands (10): wire elements, leaves, the tree, `REDUCE`, `GNORM`, `AMAX` and `PARITY` (15),
segments and aborts. What this engine sends is kept in `Red.sent` and `Red.sentAborts`.
-/
namespace Sys2Proof.Machine

/-! ## Operations (R255, Table 10.3) -/

/-- The operation of a collective: `ROP`; pairs for `GNORM`, `MAX` for `AMAX`, `XOR` for `PARITY`. -/
def Cmd.rop (c : Cmd) : Nat := if c.op = 0x48 then c.pf 0 0 4 else if c.op = 0x49 then 1 else if c.op = 0x4A then 2 else 6

/-- A pair as a wire element, and back. -/
def pairBits (p : Pair) : Nat := p.s.toNat + p.c.toNat * 2 ^ 32
def bitsPair (w : Nat) : Pair := ⟨BitVec.ofNat 32 w, BitVec.ofNat 32 (w / 2 ^ 32)⟩

/-- `combine`, the lower positions on the left. -/
def combineOp (rop a b : Nat) : Nat :=
  let x : F32 := BitVec.ofNat 32 a
  let y : F32 := BitVec.ofNat 32 b
  match rop with
  | 0 => (add32 x y).toNat
  | 1 => pairBits (pairAdd (bitsPair a) (bitsPair b))
  | 2 => (max32 x y).toNat
  | 3 => (min32 x y).toNat
  | 4 => a &&& b
  | 5 => a ||| b
  | _ => a ^^^ b

/-- The identity leaf; all ones in the width of the widest wire element, of which a narrower one keeps its low bytes. -/
def identityOf (rop : Nat) : Nat :=
  match rop with
  | 2 => 0xFF800000
  | 3 => 0x7F800000
  | 4 => 2 ^ 64 - 1
  | _ => 0

/-! ## Wire elements of a REDUCE -/

/-- The descriptor that gives the shape: `SRC`, else `DST`. -/
def redShape (c : Cmd) : Option Desc := (c.role .src).or (c.role .dst)

/-- Wire elements per row: a byte each for FP4 under a bitwise operation, else an element each. -/
def redWidth (c : Cmd) (d : Desc) : Nat := if d.fmt = 4 ∧ 4 ≤ c.rop then cdiv d.cols 2 else d.cols

/-- Bytes of a wire element on the way up; of a bitwise operation 0 at an engine without a descriptor, which takes what its children send. -/
def upBytes (c : Cmd) : Nat :=
  match c.rop with
  | 0 | 2 | 3 => 4
  | 1 => 8
  | _ => if c.op = 0x48 then ((redShape c).map (fun d => eBytes d.fmt)).getD 0 else 1

/-- Bytes of a result element on the way down, from the heads of all positions: the `DST` that some of them carries. -/
def downBytes (c : Cmd) (heads : List SegHead) : Nat :=
  if c.op = 0x48 then ((heads.findSome? (·.dst)).map (fun d => eBytes d.1)).getD 1 else if c.op = 0x63 then 1 else 4

/-- Item, row and column of wire element k. -/
def redPos (c : Cmd) (d : Desc) (k : Nat) : Nat × Nat × Nat :=
  let w := redWidth c d
  let col := k % w
  (k / w / d.rows, k / w % d.rows, if d.fmt = 4 ∧ 4 ≤ c.rop then 2 * col else col)

/-- The stored byte of two FP4 elements, out of range the `FILL` of both. -/
def fp4Byte (s : State) (d : Desc) (nb2 i r col : Nat) : Nat :=
  if d.oob s.extent nb2 i r col then d.fill % 16 * 17 else (s.mem.read (d.addr nb2 i r col).toNat).toNat

/-- A source element on the wire (Table 10.3). -/
def redLeafElem (s : State) (c : Cmd) (d : Desc) (k : Nat) : Nat :=
  let p := redPos c d k
  let nb2 := c.lnb2
  match c.rop with
  | 0 | 2 | 3 => (d.f32 s.mem s.extent nb2 p.1 p.2.1 p.2.2).toNat
  | 1 => pairBits (d.pair s.mem s.extent nb2 p.1 p.2.1 p.2.2)
  | _ => if d.fmt = 4 then fp4Byte s d nb2 p.1 p.2.1 p.2.2 else d.raw s.mem s.extent nb2 p.1 p.2.1 p.2.2

/-- The leaf of a `REDUCE`: its source, the identity where it has none, nothing where it has no descriptor either. -/
def redLeaf (s : State) (c : Cmd) : List Nat :=
  match redShape c with
  | none => []
  | some d =>
    let n := c.lnb1 * c.lnb2 * d.rows * redWidth c d
    if (c.role .src).isSome then (List.range n).map (redLeafElem s c d) else List.replicate n (identityOf c.rop % 2 ^ (8 * upBytes c))

/-! ## Leaf of a GNORM (R262) and of an AMAX (R264) -/

/-- The queues whose accumulators a `GNORM` names, in the order of its list as check 1 read it. -/
def leafQueues (c : Cmd) : List Nat := c.leaves.filterMap (fun w => if bf w 0 2 = 0 then some (bf w 6 22) else none)

/-- Queues brought in one after the other, each read before the next comes (R262), and whether every one could be. -/
def bringAll : List Nat → State → State × Bool
  | [], s => (s, true)
  | q :: r, s =>
    let t := bringIn s q
    if (t.q.find q).isSome then bringAll r t else (t, false)

/-- An accumulator of a resident queue, replaced. -/
def setNorm (s : State) (q g : Nat) (p : Pair) : State := { s with q := s.q.updCtx q (fun k => { k with norm := k.norm.set g p }) }

/-- The pair of one entry: its queue is brought in, and under `GCLR` the accumulator is reset once it has been read. -/
def leafPair (c : Cmd) (s : State) (w : Nat) : State × Pair :=
  if bf w 0 2 = 0 then
    let t := bringIn s (bf w 6 22)
    let g := bf w 2 4 - 1
    match t.q.find (bf w 6 22) with
    | some x => (if c.pb 0 11 then setNorm t x.qid g Pair.zero else t, x.ctx.norm.getD g Pair.zero)
    | none => (t, Pair.zero)
  else
    (s, ftree pairAdd Pair.zero ((List.range (bf w 112 16)).map (fun k => bitsPair (dieLe s.mem s.extent (bf w 64 48 + 8 * k) 8))))

/-- The pairs of a leaf list, read in order. -/
def leafPairs (c : Cmd) : List Nat → State → State × List Pair
  | [], s => (s, [])
  | w :: r, s =>
    let x := leafPair c s w
    let y := leafPairs c r x.1
    (y.1, x.2 :: y.2)

/-- The accumulators among a leaf list that `GCLR` resets, with what was read of them. -/
def leafSaved (c : Cmd) (ps : List Pair) : List (Nat × Nat × Pair) :=
  if c.pb 0 11 then (c.leaves.zip ps).filterMap (fun e => if bf e.1 0 2 = 0 then some (bf e.1 6 22, bf e.1 2 4 - 1, e.2) else none) else []

/-- A `GNORM` that ends without writing anything leaves the accumulators that it read as they were, with what has come in since (R258). -/
def restoreNorms (s : State) (l : List (Nat × Nat × Pair)) : State :=
  l.foldr (fun e t =>
    let now := (ctxOf t e.1).norm.getD e.2.1 Pair.zero
    let p := if now = Pair.zero then e.2.2 else pairAdd e.2.2 now
    putCtx t e.1 (fun k => { k with norm := k.norm.set e.2.1 p }) (128 + 8 * e.2.1) 8) s

/-- The head entry of a slot where its step is the command's, else +0. -/
def amaxLeaf (x : AmaxSlot) (step : Nat) : F32 :=
  if x.headStep.toNat = step ∧ x.written = true ∧ x.evalid.getLsbD x.headPtr.toNat = true then x.entries.getD x.headPtr.toNat 0 else 0

/-! ## PARITY (R373-R378) -/

/-- Multiplication by 2 in GF(2^8) with polynomial 0x11D. -/
def gfTwice (a : Nat) : Nat := if 128 ≤ a then (2 * a) ^^^ 0x11D else 2 * a

/-- Product in GF(2^8); the fuel counts the bits of `b` still to go. -/
def gfMulFrom : Nat → Nat → Nat → Nat
  | 0, _, _ => 0
  | n + 1, a, b => (if b % 2 = 1 then a else 0) ^^^ gfMulFrom n (gfTwice a) (b / 2)
def gfMul (a b : Nat) : Nat := gfMulFrom 8 a b

/-- The power g^n of the generator 2. -/
def gfPow : Nat → Nat
  | 0 => 1
  | n + 1 => gfTwice (gfPow n)

/-- Inverse: the 254th power. -/
def gfPower (a : Nat) : Nat → Nat
  | 0 => 1
  | n + 1 => gfMul a (gfPower a n)
def gfInv (a : Nat) : Nat := gfPower a 254

/-- One series of wire bytes of an entry: P or Q of an encode, or a lost shard (0 the first, 1 the second). -/
structure Series where
  g : Group
  lane : Nat
  deriving DecidableEq, Repr

/-- The series of a `PARITY`, entries in table order. -/
def seriesOf (s : State) (c : Cmd) : List Series :=
  (List.range (c.pf 1 0 16)).flatMap (fun i =>
    let g := groupAt s c i
    (List.range g.dests.length).map (fun k => ⟨g, k⟩))

/-- Destination of a series: position and address. -/
def Series.dest (x : Series) : Nat × Nat := x.g.dests.getD x.lane (8, 0)

/-- Coefficient of data index i, of the P holder and of the Q holder (R373, Table 15.7). -/
def Series.coefs (x : Series) (i : Nat) : Nat × Nat × Nat :=
  let g := x.g
  if !g.rebuild then (if x.lane = 0 then 1 else gfPow i, 0, 0)
  else if g.lbv then
    let a := gfPow g.la
    let b := gfPow g.lb
    let inv := gfInv (a ^^^ b)
    let o := if x.lane = 0 then b else a
    (gfMul (o ^^^ gfPow i) inv, gfMul o inv, inv)
  else if g.plost then (gfMul (gfPow i) (gfInv (gfPow g.la)), 0, gfInv (gfPow g.la))
  else (1, 1, 0)

/-- The bytes that position p adds to a series. -/
def Series.leaf (x : Series) (s : State) (p : Nat) : List Nat :=
  let g := x.g
  let shard := fun a (k : Nat) => if k = 0 then List.replicate g.slen 0 else (dieBytes s.mem s.extent a g.slen).map (fun b => gfMul b.toNat k)
  let i := g.data.findIdx (· == p)
  let lost := g.rebuild && (i == g.la || (g.lbv && i == g.lb))
  if bit g.dmask p then (if lost then List.replicate g.slen 0 else shard g.saddr (x.coefs i).1)
  else if g.rebuild ∧ p = g.hp then shard g.paddr (x.coefs 0).2.1
  else if g.rebuild ∧ g.pkind = 2 ∧ p = g.hq then shard g.qaddr (x.coefs 0).2.2
  else List.replicate g.slen 0

/-- The series that holds wire byte k, with the byte's offset in it. -/
def seriesAt : List Series → Nat → Option (Series × Nat)
  | [], _ => none
  | x :: r, k => if k < x.g.slen then some (x, k) else seriesAt r (k - x.g.slen)

/-- The 64 bytes of a parity stamp (R376; their places are a choice, log 42): group, kind, lane, data mask, `CSEQ`, `STEP`, `WEAK`, CRC-64. -/
def stampBytes (c : Cmd) (cseq : Nat) (x : Series) (crc : Nat) : List Byte :=
  leBytes 1 x.g.gid ++ leBytes 1 x.g.pkind ++ leBytes 1 x.lane ++ leBytes 1 x.g.dmask ++ leBytes 4 cseq ++ leBytes 6 c.step ++ leBytes 2 (b2n c.weak) ++
  leBytes 8 crc ++ List.replicate 40 0

/-- Shard bytes that an engine supplies to a `PARITY`. -/
def shardBytes (s : State) (c : Cmd) (p : Nat) : Nat :=
  ((List.range (c.pf 1 0 16)).map (fun i => let g := groupAt s c i; (g.reads p).length * g.slen)).sum

/-! ## Positions below (R251) -/

/-- First position and size of the subtree at position p; `fuel` bounds the depth. -/
def treeSpan (p : Nat) : Nat → Nat → Nat → Nat × Nat
  | 0, lo, n => (lo, n)
  | fuel + 1, lo, n =>
    let m := lo + n / 2
    if p = m ∨ n ≤ 1 then (lo, n) else if p < m then treeSpan p fuel lo (m - lo) else treeSpan p fuel (m + 1) (lo + n - 1 - m)

/-- Subtree behind a child link of position p. -/
def childSpan (n p : Nat) (l : RedLink) : Nat × Nat :=
  let x := treeSpan p 8 0 n
  if l = .cl then (x.1, p - x.1) else (p + 1, x.1 + x.2 - 1 - p)

/-- Whether some position of [lo, lo + n) receives result element k: under `ROOT` the root alone, under `SHARD` the rows' owners (R256), of a
`PARITY` the holder or the rebuilt position (R376, R378). -/
def wants (s : State) (c : Cmd) (lo n k : Nat) : Bool :=
  if c.op = 0x48 then
    match c.pf 0 4 2 with
    | 0 => decide (lo ≤ s.conf.npos / 2 ∧ s.conf.npos / 2 < lo + n)
    | 1 => true
    | _ => match redShape c with
      | some d =>
        let r := (redPos c d k).2.1
        n != 0 && decide ((share lo d.rows s.conf.npos).1 ≤ r) && decide (r < (share (lo + n - 1) d.rows s.conf.npos).2)
      | none => false
  else if c.op = 0x63 then
    match seriesAt (seriesOf s c) k with
    | some x => decide (lo ≤ x.1.dest.1 ∧ x.1.dest.1 < lo + n)
    | none => false
  else true

/-! ## Segments -/

/-- First wire elements of the shards of a `PARITY`: no segment holds bytes of two (R375). -/
def shardCuts (s : State) (c : Cmd) : List Nat :=
  if c.op = 0x63 then ((seriesOf s c).foldl (fun (a : List Nat × Nat) x => (a.1 ++ [a.2], a.2 + x.g.slen)) ([], 0)).1 else []

/-- Numbered elements cut into runs of consecutive numbers of at most `m`, and before each of `cuts`. -/
def runsOf (m : Nat) (cuts : List Nat) : List (Nat × Nat) → List (Nat × List Nat) → List (Nat × List Nat)
  | [], acc => acc
  | (k, v) :: r, acc =>
    runsOf m cuts r (match acc.getLast? with
      | some (o, l) => if o + l.length = k ∧ l.length < m ∧ cuts.contains k = false then acc.dropLast ++ [(o, l ++ [v])] else acc ++ [(k, [v])]
      | none => [(k, [v])])

/-- Segments of numbered elements of `bytes` bytes each; with `fin` the last one says so, and there is one even without elements. -/
def segmentsOf (cseq bytes : Nat) (cuts : List Nat) (es : List (Nat × Nat)) (fin : Bool) (heads : List SegHead) : List Segment :=
  let rs := runsOf (32768 / Nat.max 1 bytes) cuts es []
  let rs := if rs.isEmpty && fin then [(0, [])] else rs
  rs.zipIdx.map (fun x => ⟨cseq, x.1.1, bytes, x.1.2, fin && x.2 + 1 == rs.length, if x.2 = 0 then heads else []⟩)

/-- Sends segments on a link. -/
def sendOn (s : State) (l : RedLink) (segs : List Segment) : State := { s with red := { s.red with sent := s.red.sent ++ segs.map (fun g => (l, g)) } }

/-- The collective of a command, changed. -/
def Red.updColl (r : Red) (cseq : Nat) (f : Coll → Coll) : Red := { r with colls := r.colls.map (fun x => if x.cseq = cseq then f x else x) }

/-- A queue's reduction counters. -/
def countRed (s : State) (c : Cmd) (l : List (Nat × Nat)) : State :=
  { s with q := s.q.upd c.qid (fun x => { x with cnt := x.cnt.bumps (l.map (fun e => (4, e.1, e.2))) }) }

/-- The child links that carry tree edges, with the subtrees behind them. -/
def childLinks (s : State) (p : Nat) : List (RedLink × Nat × Nat) :=
  ((treeLinks s).filter (· != .up)).map (fun l => (l, childSpan s.conf.npos p l))

/-! ## Digests (R258) -/

/-- What the digest of this engine's collective covers. Equal parameters stand for equal digests. -/
def digestOf (s : State) (c : Cmd) (cseq : Nat) : List Nat :=
  [c.op, cseq, s.conf.npos] ++
    (if c.op = 0x48 then [c.rop, c.pf 0 4 2, c.pf 0 7 1, c.lnb1, c.lnb2, if 4 ≤ c.rop then ((redShape c).map (·.fmt)).getD 16 else 16]
     else if c.op = 0x49 then [c.p 2]
     else if c.op = 0x4A then [c.pf 0 0 32, c.step]
     else c.pf 1 0 16 :: (dieBytes s.mem s.extent (c.pf 0 0 48) (64 + 64 * c.pf 1 0 16)).map (·.toNat) ++ c.tags)

/-- The head of this engine's first segment. -/
def headOf (s : State) (c : Cmd) (cseq : Nat) : SegHead where
  digest := digestOf s c cseq
  dims := if c.op = 0x48 then (redShape c).map (fun d => (d.rows, d.cols)) else none
  dst := if c.op = 0x48 then (c.role .dst).map (fun d => (d.fmt, twos 8 d.t, d.sclslot, d.tid)) else none

/-- Two digests agree; an engine without a descriptor does not know the stored format of a bitwise operation, and its 16 fits every format. -/
def digestAgrees (a b : List Nat) : Bool :=
  a == b || (a.length == b.length && a.getD 0 0 == 0x48 && a.dropLast == b.dropLast && decide (4 ≤ a.getD 3 0) && (a.getLastD 0 == 16 || b.getLastD 0 == 16))

/-- Whether the parts that are there agree. -/
def allEq {α : Type} [DecidableEq α] (l : List α) : Bool := l.all (fun x => l.all (fun y => decide (x = y)))

/-- Whether the heads of all positions match. -/
def headsMatch (hs : List SegHead) : Bool :=
  hs.all (fun a => hs.all (fun b => digestAgrees a.digest b.digest)) && allEq (hs.filterMap (·.dims)) && allEq (hs.filterMap (·.dst))

/-! ## Results -/

/-- The result elements from combined ones, at the root: numbers with values on the way down (R255, R263). -/
def rootResult (s : State) (c : Cmd) (es : List (Nat × Nat)) : List (Nat × Nat) :=
  if c.op = 0x49 then
    match es with
    | (_, w) :: _ =>
      let p := bitsPair w
      let norm := sqrt32 (add32 p.s p.c)
      let den := add32 norm (BitVec.ofNat 32 (c.pf 2 32 32))
      let quo := if den &&& 0x7FFFFFFF#32 = 0 then 0x7F800000#32 else div32 (BitVec.ofNat 32 (c.pf 2 0 32)) den
      let coef := min32 0x3F800000#32 quo
      [(0, norm.toNat), (1, coef.toNat), (2, p.s.toNat), (3, p.c.toNat)]
    | [] => []
  else if c.op = 0x48 ∧ c.rop < 4 then
    match c.role .dst with
    | some d =>
      let o := outMode s c d c.lnb2 (c.pb 0 7)
      es.map (fun e =>
        let x := redPos c d e.1
        (e.1, if c.rop = 1 then (writeOne d o ⟨x.1, x.2.1, x.2.2, bitsPair e.2⟩).raw
          else convertNum d.fmt o.t (o.drawAt d.tid (d.index x.1 x.2.1 x.2.2)) (val (BitVec.ofNat 32 e.2))))
    | none => es
  else es

/-- The elements of a `DST` that a result element holds: row, column, encoding. -/
def redElems (c : Cmd) (d : Desc) (k v : Nat) : List (Nat × Nat × Nat × Nat) :=
  let x := redPos c d k
  if d.fmt = 4 ∧ 4 ≤ c.rop then
    (x.1, x.2.1, x.2.2, v % 16) :: (if x.2.2 + 1 < d.cols then [(x.1, x.2.1, x.2.2 + 1, v / 16)] else [])
  else [(x.1, x.2.1, x.2.2, v)]

/-- Result elements of a `REDUCE` written at this engine. -/
def applyReduce (s : State) (c : Cmd) (d : Desc) (es : List (Nat × Nat)) : State :=
  let nb2 := c.lnb2
  let t := outScale c d
  let kept := es.filter (fun e => let x := redPos c d e.1; !d.oob s.extent nb2 x.1 x.2.1 x.2.2)
  let ms := (kept.flatMap (fun e => redElems c d e.1 e.2)).foldl (fun (m : Meter) x =>
    m.add (d.index x.1 x.2.1 x.2.2.1) (written d.fmt t (if 4 ≤ c.rop then d.scale s.mem s.extent x.2.1 x.2.2.1 else 127) x.2.2.2)) Meter.zero
  let ws := kept.map (fun e =>
    let x := redPos c d e.1
    Store.bytes (d.addr nb2 x.1 x.2.1 x.2.2).toNat (leBytes (eBytes d.fmt) e.2))
  { s with
    mem := s.mem.dieStores s.extent ws
    q := s.q.updCmd (fun e => e.same c) (fun e => { e.addMeter d.tid ms with wr := e.wr + storeBytes s.extent ws }) }

/-- One byte of a `PARITY` at its destination, and the stamp behind the last one of P or Q. -/
def applyParity (s : State) (c : Cmd) (e : Nat × Nat) : State :=
  match seriesAt (seriesOf s c) e.1 with
  | none => s
  | some (x, o) =>
    let a := x.dest.2
    let t := { s.updCmd c (fun d => { d with wr := d.wr + 1 }) with mem := s.mem.dieStores s.extent [.bytes (a + o) [BitVec.ofNat 8 e.2]] }
    if o + 1 = x.g.slen ∧ x.g.rebuild = false then
      { t.updCmd c (fun d => { d with wr := d.wr + 64 }) with mem := t.mem.dieStores t.extent [.bytes (a + x.g.slen) (stampBytes c (cseqOf s c) x (crc64 (dieBytes t.mem t.extent a x.g.slen)))] }
    else t

/-- Result elements take effect at this engine. A `REDUCE` that writes none here still measures its `DST` as +0 (R49, R50). -/
def applyResult (s : State) (c : Cmd) (es : List (Nat × Nat)) : State :=
  if es.isEmpty && c.op != 0x48 then s
  else match c.op with
    | 0x48 => (match c.role .dst with
      | some d => applyReduce s c d es
      | none => s)
    | 0x49 =>
      let v := fun (k : Nat) => BitVec.ofNat 32 (lookupD 0 es k)
      { s.updCmd c (fun d => { d with result := some (v 0, v 1), nanF := isNan (v 0), infF := v 0 == 0x7F800000#32, wr := d.wr + 16 }) with
        mem := s.mem.dieStores s.extent [.bytes (c.pf 3 0 48) ((List.range 4).flatMap (fun k => leBytes 4 (lookupD 0 es k)))] }
    | 0x4A => s.updCmd c (fun d => { d with amaxOut := d.amaxOut ++ es.map (fun e => (c.pf 0 0 16 + e.1, BitVec.ofNat 32 e.2)) })
    | _ => es.foldl (fun t e => applyParity t c e) s

/-- The `OOB` condition of a `REDUCE`: its own reads, and the elements it would write (R260); in place each element counts once (R176). -/
def redConds (s : State) (c : Cmd) (p : Nat) : List Cond :=
  if c.op ≠ 0x48 then []
  else
    let n := c.lnb1 * c.lnb2
    let w := fun (d : Desc) (i r col : Nat) => wants s c p 1 ((i * d.rows + r) * redWidth c d + if d.fmt = 4 ∧ 4 ≤ c.rop then col / 2 else col)
    oobCond (0, none) (((c.role .src).map (fun d => [d.oobCount s.extent c.lnb2 n (fun _ _ _ => true)])).getD [] ++
      (if c.role .src = c.role .dst then [] else ((c.role .dst).map (fun d => [d.oobCount s.extent c.lnb2 n (w d)])).getD []))

/-- The collective has ended on this engine as it should. -/
def collDone (s : State) (c : Cmd) (p cseq : Nat) : State :=
  let t := endWith s c (redConds s c p)
  { t with red := { t.red with colls := t.red.colls.filter (fun x => x.cseq != cseq) }.ended cseq }

/-- The collective has ended with `ADMIT` reason 0x0E: nothing was written (R258). -/
def collMismatch (s : State) (c : Cmd) (cseq : Nat) : State :=
  let t := (restoreNorms s (s.red.colls.flatMap (fun k => if k.cseq = cseq then k.saved else []))).updCmd c (fun d => { d with stage := .refused, refusal := some ⟨0x22, 0x0E, 0⟩ })
  { t with red := { t.red with colls := t.red.colls.filter (fun x => x.cseq != cseq) }.ended cseq }

/-! ## The node (R254) -/

/-- How many elements a child has delivered; none where no bound remains. -/
def childReach (there done : Bool) (n : Nat) : Option Nat := if there && !done then some n else none

/-- Elements that can be combined now, and whether they are the last. -/
def reachOf (k : Coll) (hasL hasR : Bool) : Nat × Bool :=
  let l := [childReach hasL k.lDone k.fromL.length, childReach hasR k.rDone k.fromR.length, if k.shaped then some k.own.length else none]
  match l.foldl minOpt none with
  | some n => (n, k.shaped && n == k.own.length)
  | none => (Nat.max k.fromL.length k.fromR.length, true)

/-- Element k of (L ⊕ own) ⊕ R, an absent child skipped and a child without an element there at the identity. -/
def combinedAt (k : Coll) (rop ident : Nat) (hasL hasR : Bool) (i : Nat) : Nat :=
  let o := k.own.getD i ident
  let l := if hasL then combineOp rop (k.fromL.getD i ident) o else o
  if hasR then combineOp rop l (k.fromR.getD i ident) else l

/-- Result elements go down to the children that receive them; with `fin` a last segment reaches every child. -/
def sendDown (s : State) (c : Cmd) (p cseq bytes : Nat) (es : List (Nat × Nat)) (fin : Bool) (heads : List SegHead) : State :=
  (childLinks s p).foldl (fun t l =>
    sendOn t l.1 (segmentsOf cseq bytes (shardCuts s c) (es.filter (fun e => wants s c l.2.1 l.2.2 e.1)) fin heads)) s

/-- The node goes on with what it has: a node below the root sends up, the root makes the result, writes its part and sends the rest down. -/
def pumpColl (s : State) (c : Cmd) (k : Coll) : State :=
  match treeOf s, position s with
  | some (l, r, up), some p =>
    let hasL := l.isSome
    let hasR := r.isSome
    let heads := k.head :: (k.headsL ++ k.headsR)
    let n := reachOf k hasL hasR
    if (hasL && k.headsL.isEmpty) || (hasR && k.headsR.isEmpty) || k.upDone then s
    else if up.isNone && k.sentUp == 0 && !headsMatch heads then collMismatch (sendDown s c p k.cseq (downBytes c heads) [] true heads) c k.cseq
    else if n.1 ≤ k.sentUp ∧ n.2 = false then s
    else
      let es := (rangeFrom k.sentUp (n.1 - k.sentUp)).map (fun i => (i, combinedAt k c.rop (identityOf c.rop) hasL hasR i % 2 ^ (8 * k.wire)))
      let first := if k.sentUp = 0 then heads else []
      let segs := segmentsOf k.cseq k.wire (shardCuts s c) es n.2 first
      let t := { s with red := s.red.updColl k.cseq (fun x => { x with sentUp := n.1, upDone := n.2, applied := if up.isNone then n.1 else x.applied }) }
      let t := countRed t c [(2, if hasL || hasR then segs.length else 0)]
      match up with
      | some _ => countRed (sendOn t .up segs) c [(0, es.length * k.wire)]
      | none =>
        let rs := rootResult t c es
        let u := applyResult t c (rs.filter (fun e => wants s c p 1 e.1))
        let v := sendDown u c p k.cseq (downBytes c heads) rs n.2 []
        if n.2 then collDone v c p k.cseq else v
  | _, _ => s

/-- A segment from a child. -/
def fromChild (s : State) (c : Cmd) (k : Coll) (l : RedLink) (g : Segment) : State :=
  let k' := { k with retries := 0, wire := Nat.max k.wire g.bytes }
  let k' := if l = .cl then { k' with fromL := k.fromL ++ g.elems, lDone := g.last, headsL := if k.headsL = [] then g.heads else k.headsL }
    else { k' with fromR := k.fromR ++ g.elems, rDone := g.last, headsR := if k.headsR = [] then g.heads else k.headsR }
  pumpColl { s with red := s.red.updColl k.cseq (fun _ => k') } c k'

/-- A segment of the result: it takes effect here and goes on unchanged. One whose heads disagree is the root's finding of a mismatch. -/
def fromParent (s : State) (c : Cmd) (k : Coll) (g : Segment) : State :=
  match position s with
  | none => s
  | some p =>
    let es := g.elems.zipIdx.map (fun x => (g.offset + x.2, x.1))
    let t := countRed s c [(1, g.elems.length * g.bytes)]
    let t := { t with red := t.red.updColl k.cseq (fun x => { x with retries := 0, applied := g.offset + g.elems.length }) }
    if !headsMatch g.heads then collMismatch (sendDown t c p k.cseq g.bytes [] true g.heads) c k.cseq
    else
      let u := applyResult t c (es.filter (fun e => wants s c p 1 e.1))
      let v := sendDown u c p k.cseq g.bytes es g.last []
      if g.last then collDone v c p k.cseq else v

/-- The started command of a collective. -/
def collCmd (s : State) (k : Coll) : Option Cmd := s.q.cmds.find? (fun c => c.qid == k.qid && c.seq == k.seq && c.op == k.op && c.stage == .started)

/-- A segment that has arrived, for the collective in progress with its number. -/
def takeSegment (s : State) (l : RedLink) (g : Segment) : State :=
  match s.red.colls.find? (fun k => k.cseq == g.cseq) with
  | none => s
  | some k => match collCmd s k with
    | none => s
    | some c => if l = .up then fromParent s c k g else fromChild s c k l g

/-! ## Starting -/

/-- Number of a reduction link among `UP`, `CL`, `CR`. -/
def redNum : RedLink → Nat
  | .up => 0 | .cl => 1 | .cr => 2

/-- Whether a reduction link is in service. -/
def linkUp (s : State) (l : RedLink) : Bool := s.flt.rlinks.getLsbD (redNum l)

/-- The collective of a command, its leaf read. -/
def collOf (s : State) (c : Cmd) : State × Coll :=
  let cseq := cseqOf s c
  let x : State × List Nat × List (Nat × Nat × Pair) := match c.op with
    | 0x48 => (s, redLeaf s c, [])
    | 0x49 => let y := leafPairs c c.leaves s; (y.1, [pairBits (ftree pairAdd Pair.zero y.2)], leafSaved c y.2)
    | 0x4A => (s, (List.range (c.pf 0 16 16 + 1)).map (fun k => (amaxLeaf (s.amax.slot (c.pf 0 0 16 + k)) c.step).toNat), [])
    | _ => (s, (seriesOf s c).flatMap (fun y => y.leaf s ((position s).getD 8)), [])
  (x.1, ⟨cseq, c.qid, c.seq, c.op, c.op != 0x48 || (redShape c).isSome, headOf s c cseq, [], [], x.2.1, [], [], false, false, 0, false, 0,
    upBytes c, 0, x.2.2⟩)

/-- Bytes of a shard at `a` that lie in operand-stream slots of a command: as many as the in-flight ranges that it reads have in common with the shard; of
a `RUNP` no more than its blocks hold. What a standard command of the cores holds in slots its expansion decides (R141). -/
def slotOverlap (s : State) (d : Cmd) (a n : Nat) : Nat :=
  let common := ((s.q.itt.filter (fun e => e.isOf d && e.kind != 0)).map (fun e => Nat.min e.hi (a + n) - Nat.max e.lo a)).sum
  if d.op = 0x58 then
    Nat.min common ((s.tender.streams.filter (fun o => o.qid == d.qid && o.seq == d.seq)).map (fun o => (o.blocks.map (·.got)).sum)).sum
  else common

/-- Bytes of the shards that a `PARITY` reads which commands of its job hold in operand-stream slots: it finds no more than these there (R375). -/
def heldSlotBytes (s : State) (c : Cmd) (p : Nat) : Nat :=
  let ds := s.q.cmds.filter (fun d => d.job == c.job && isCoreOp d.op && d.stage == .started)
  ((List.range (c.pf 1 0 16)).map (fun i => let g := groupAt s c i
    ((g.reads p).map (fun a => (ds.map (fun d => slotOverlap s d a g.slen)).sum)).sum)).sum

/-- What a collective reads of memory for its leaf: the source of a `REDUCE`, the pair ranges of a `GNORM` and its list. -/
def leafReads (c : Cmd) : Nat :=
  if c.op = 0x48 then ((c.role .src).map (fun d => d.bytes (c.lnb1 * c.lnb2))).getD 0
  else if c.op = 0x49 then (c.leaves.map (fun w => 16 + if bf w 0 2 = 1 then 8 * bf w 112 16 else 0)).sum
  else 0

/-- What a `PARITY` reads of its shards: what lies in operand slots of its job may be taken from there, the rest is filled from memory; how much
of it is taken is free (R375). The central stage folds it in units of 4 KiB, as long as those of other users (DESIGN CHOICE, log 80). -/
def countTaps (s : State) (c : Cmd) : State :=
  let p := (position s).getD 8
  let n := shardBytes s c p
  let tap := (Config.sampled s.free 6).toNat % (Nat.min n (heldSlotBytes s c p) + 1)
  let t := s.updCmd c (fun d => { d with rd := d.rd + (n - tap), foldUnits := cdiv n 4096 })
  { t with q := t.q.upd c.qid (fun x => { x with cnt := x.cnt.bumps [(5, 0, tap), (5, 1, n - tap)] }), free := s.free + 1 }

/-- The segments that came before their collective started. -/
def takeEarly (s : State) (cseq : Nat) : State :=
  let now := s.red.early.filter (fun e => e.2.cseq == cseq)
  now.foldl (fun t e => takeSegment t e.1 e.2) { s with red := { s.red with early := s.red.early.filter (fun e => e.2.cseq != cseq) } }

/-- The leaf of a collective enters the tree; over a failed link it ends at once (R355). -/
def collEnter (s : State) (c : Cmd) : State :=
  if !(treeLinks s).all (linkUp s) then endUncorr s c 1
  else
    let x := collOf s c
    let u := countRed { x.1 with red := { x.1.red with colls := x.1.red.colls ++ [x.2] }, free := x.1.free + 1 } c [(3, (Config.sampled x.1.free 7).toNat)]
    takeEarly (pumpColl u c x.2) x.2.cseq

/-- A collective starts. Its leaf enters the tree at once, that of a `PARITY` when the central stage has folded what this engine supplies (R186). -/
def collBegin (s : State) (c : Cmd) : State :=
  let b := beginCmd s c
  if !(treeLinks s).all (linkUp s) then endUncorr b c 1
  else
    let tids := slotTids (c.role .dst).toList
    let t := waitStarted (takeScales b c tids) c
    let c := c.takeScales t.amax tids
    if c.op = 0x63 then
      let t := countTaps t c
      if shardBytes s c ((position s).getD 8) = 0 then collEnter t c else t
    else
      let t := t.updCmd c (fun d => { d with rd := d.rd + leafReads c })
      collEnter { t with q := t.q.upd c.qid (fun x => { x with cnt := x.cnt.bumps (expansionCounts t) }) } c

/-- The row of a collective: it starts once its predecessor has completed here; a `GNORM` waits while a queue that it names
cannot be brought in. -/
def collStart (s : State) (q op : Nat) : State :=
  match startable s q op with
  | none => s
  | some c =>
    if cseqOf s c ≠ (s.red.lastCseq + 1) % 2 ^ 32 then s
    else
      let t := bringAll (leafQueues c) s
      if op = 0x49 ∧ t.2 = false then t.1 else collBegin s c

/-- `REDUCE` (R256). -/
def execReduce (q : Nat) (s : State) : Host.Outcome State Fault Refusal := onQueue q (collStart s q 0x48)

/-- `GNORM` (R262). -/
def execGnorm (q : Nat) (s : State) : Host.Outcome State Fault Refusal := onQueue q (collStart s q 0x49)

/-- `AMAX` (R264). -/
def execAmax (q : Nat) (s : State) : Host.Outcome State Fault Refusal := onQueue q (collStart s q 0x4A)

/-- `PARITY` (R373). -/
def execParity (q : Nat) (s : State) : Host.Outcome State Fault Refusal := onQueue q (collStart s q 0x63)

/-! ## Arrivals (R254, R259, R356) -/

/-- Whether the reduction port works on a link. -/
def portUp (s : State) (l : RedLink) : Bool := redPortUp s && linkUp s l && (treeLinks s).contains l

/-- Whether a number is still to come here. -/
def toCome (s : State) (cseq : Nat) : Bool :=
  decide ((cseq + 2 ^ 32 - s.red.lastCseq % 2 ^ 32 - 1) % 2 ^ 32 < 2 ^ 31) && !s.red.doneAhead.contains cseq

/-- Bytes that wait in the receive buffer of a link: of collectives still to start, and from a child what is not combined yet (Table 10.2). -/
def buffered (s : State) (l : RedLink) : Nat :=
  ((s.red.early.filter (fun e => e.1 == l)).map (fun e => e.2.elems.length * e.2.bytes)).sum +
  (s.red.colls.map (fun k => if l = .cl then (k.fromL.length - k.sentUp) * k.wire else if l = .cr then (k.fromR.length - k.sentUp) * k.wire else 0)).sum

/-- Whether a segment fits the receive buffer of 64 KiB; without the credit for it the other end does not send it. -/
def hasRoom (s : State) (l : RedLink) (g : Segment) : Bool := decide (buffered s l + g.elems.length * g.bytes ≤ 65536)

/-- A segment that the combine unit failed on is done again; 16 failures in a row end the command (R356). -/
def segmentError (s : State) (k : Coll) : State :=
  if k.retries = 15 then
    match collCmd s k with
    | some c => engineFault (endUncorr s c 1) 12 3 0 0
    | none => s
  else { s with red := s.red.updColl k.cseq (fun x => { x with retries := x.retries + 1 }) }

/-- `REDUCTION_SEGMENT`: `err` says that the combine unit detected an error in it. -/
def segmentStep (s : State) (l : RedLink) (g : Segment) (err : Bool) : State :=
  if !portUp s l || !hasRoom s l g then s
  else match s.red.colls.find? (fun k => k.cseq == g.cseq) with
    | some k => if err then segmentError s k else takeSegment s l g
    | none => if toCome s g.cseq && !s.red.aborted.contains g.cseq && !err then { s with red := { s.red with early := s.red.early ++ [(l, g)] } } else s

/-- `REDUCTION_SEGMENT`. -/
def execReductionSegment (l : RedLink) (g : Segment) (err : Bool) (s : State) : Host.Outcome State Fault Refusal := .next (segmentStep s l g err)

/-- The collective command with a number that has been admitted and has not ended. -/
def admittedColl (s : State) (cseq : Nat) : Option Cmd :=
  s.q.cmds.find? (fun c => (isCollective c.op || c.op == 0x63) && (c.stage == .admitted || c.stage == .started) && cseqOf s c == cseq)

/-- `COLLECTIVE_ABORT`: the abort goes on along the other tree edges; the collective ends with `CANCELLED`, at its admission if that is to
come. -/
def abortStep (s : State) (l : RedLink) (cseq : Nat) : State :=
  if !portUp s l || !toCome s cseq || s.red.aborted.contains cseq then s
  else
    let r := sendAbort s cseq (some l)
    let r := { r with
      colls := r.colls.filter (fun x => x.cseq != cseq)
      early := r.early.filter (fun e => e.2.cseq != cseq) }
    match admittedColl s cseq with
    | some c => endCommand (countRed { s with red := r.ended cseq } c [(4, 1)]) { c with stage := .started } ⟨0x31, 0, 0⟩
    | none => { s with red := { r with aborted := r.aborted ++ [cseq] } }

/-- `COLLECTIVE_ABORT`. -/
def execCollectiveAbort (l : RedLink) (cseq : Nat) (s : State) : Host.Outcome State Fault Refusal := .next (abortStep s l cseq)

end Sys2Proof.Machine
end

