-- ==== Sys2Proof/Machine/Domains.lean ====
section
/-!
DEFINITION. Switched power domains (16): rail requests (R430), targets and when they take effect (R395, R398), and power-ups one at a time
(R397). The rows are in Power.lean.
-/
namespace Sys2Proof.Machine

/-- Switched domain `d`. -/
def State.dom (s : State) (d : Nat) : PwrDom := s.power.doms.getD d (PwrDom.reset d)

/-- A domain changed. -/
def State.updDom (s : State) (d : Nat) (f : PwrDom → PwrDom) : State :=
  { s with power := { s.power with doms := s.power.doms.modify d f } }

/-- A request to the regulator: rail code and state (R430). Until it is acknowledged `VGOOD` is 0 (R400, R431). -/
def PwrDom.ask (x : PwrDom) (code st : Nat) : PwrDom := { x with vgood := false, req := some (code, st) }

/-- The power-up of a domain begins: its rail goes to `VREQ`. -/
def PwrDom.rise (x : PwrDom) : PwrDom :=
  { x with state := .up, held := false, wantUp := false, fromOff := x.state == PwrState.off }.ask x.vreq 2

/-- The power-down of a domain to OFF (0) or RETAIN (1) begins. `RETAIN` asks for 0.55 V, code 0 (R393); the code that goes with `OFF` is
`VREQ` (log 47). -/
def PwrDom.fall (x : PwrDom) (goal : Nat) : PwrDom :=
  { x with state := .down, held := false, goal := goal }.ask (if goal = 1 then 0 else x.vreq) goal

/-- Starts the pending power-up with the lowest number, unless one is in progress (R397) or boot has not read the fuses (Table 16.9). -/
def startUps (s : State) : State :=
  if (s.boot.booting && s.boot.phase == 0) || s.power.doms.any (fun x => x.state == .up) then s
  else match (List.range 40).find? (fun d => (s.dom d).wantUp) with
    | some d => s.updDom d PwrDom.rise
    | none => s

/-- A request for ON: a target, a Beacon or a spare wake (R398). -/
def PwrDom.wantOn (x : PwrDom) : PwrDom :=
  match x.state with
  | .off | .retain => { x with target := 2, held := false, wantUp := true }
  | .down => { x with target := 2, held := false, state := .pendingOn }
  | _ => { x with target := 2, held := false }

/-- Domain `d` is to go ON. -/
def requestOn (s : State) (d : Nat) : State := startUps (s.updDom d PwrDom.wantOn)

/-- Whether a physical core serves a logical ID in the rows of an enabled job. -/
def coreServes (s : State) (p : Nat) : Bool :=
  let x := s.pcores.getD p PCore.reset
  (x.pstate == .active || x.pstate == .host || x.pstate == .store) &&
    s.conf.jobs.any (fun j => j.enabled && j.cores.any (fun l => x.lidA == some l || x.lidB == some l))

/-- Whether MiB [a, b) of the central store are in use: a partition of an enabled job, the hash accumulator, or the engine reserve (R298). -/
def storeInUse (s : State) (a b : Nat) : Bool :=
  s.conf.jobs.any (fun j => j.enabled && decide (j.pbase < b) && decide (a < j.pbase + j.psize)) || decide (248 - hsizeMib s.conf.hsize < b)

/-- Whether domain `d` is idle, so that a target below ON can take effect (R395). An admitted command uses its domains until its reply. -/
def domIdle (s : State) (d : Nat) : Bool :=
  if d < 34 then !coreServes s (2 * d) && !coreServes s (2 * d + 1)
  else if d < 36 then !storeInUse s (128 * (d - 34)) (128 * (d - 33))
  else if d = 39 then !bit s.flt.fiCtl.toNat 0
  else !s.q.cmds.any (fun c => (c.stage == .admitted || c.stage == .started || c.stage == .ended) && (usedDomains s c).contains d)

/-- A target below ON reaches a domain. A power-up completes first, and so does one that boot has still to make; a domain that is OFF or goes there
stays (R395, R398, R404; log 47). -/
def PwrDom.lower (x : PwrDom) (t : Nat) (idle boot : Bool) : PwrDom :=
  let y := { x with target := t, wantUp := x.wantUp && boot }
  match x.state with
  | .on => if idle then y.fall t else { y with held := true }
  | .retain => if t = 1 then { y with held := false } else if idle then y.fall 0 else { y with held := true }
  | _ => { y with held := false }

/-- A target written to domain `d`. -/
def setTarget (s : State) (d t : Nat) : State :=
  if t = 2 then requestOn s d else startUps (s.updDom d (fun x => x.lower t (domIdle s d) s.boot.booting))

end Sys2Proof.Machine
end

