-- ==== Sys2Proof/Machine/Tender.lean ====
section
/-!
DEFINITION. The Tender (06): walking Light lists, issuing and answering the transfers of streams, `TLD` and `TST`, and the reports of waits.
-/
namespace Sys2Proof.Machine

/-! ## List entries (Table 6.2) -/

/-- A block entry: address, rows, bytes per row, stride, zero-map bit. A row of 0 bytes is rounded up to 16. -/
structure BlockEntry where
  addr : Nat
  rows : Nat
  bytes : Nat
  stride : Int
  zidx : Nat
  deriving DecidableEq, Repr

/-- The block that 256 bits name. -/
def parseEntry (w : Nat) : BlockEntry :=
  ⟨bf w 0 48, Nat.max 1 (bf w 64 16), Nat.max 16 (cdiv (bf w 80 16) 16 * 16), sext 32 (bf w 96 32), bf w 128 32⟩

/-- Lines of a block. -/
def BlockEntry.lines (e : BlockEntry) : Nat := cdiv (e.rows * e.bytes) 128

/-- Row `r`: its address. -/
def BlockEntry.row (e : BlockEntry) (r : Nat) : Int := e.addr + r * e.stride

/-- Cuts [a, a + n) at 16 KiB boundaries (R155): offset, address, length. -/
def cut16k : Nat → Nat → Nat → Nat → List (Nat × Nat × Nat)
  | 0, _, _, _ => []
  | f + 1, off, a, n =>
    if n = 0 then []
    else
      let k := Nat.min n (16384 - a % 16384)
      (off, a, k) :: cut16k f (off + k) (a + k) (n - k)

/-- Row lengths inside a slot of `limit` bytes. -/
def BlockEntry.rowLen (e : BlockEntry) (limit r : Nat) : Nat := Nat.min e.bytes (limit - r * e.bytes)

/-- The reads of a block, without rows outside the memory; a row that lies outside in part is outside (DESIGN CHOICE, log 105). -/
def BlockEntry.reads (e : BlockEntry) (ext limit : Nat) : List (Nat × Nat × Nat) :=
  (List.range e.rows).flatMap (fun r =>
    let n := e.rowLen limit r
    if inside ext (e.row r) n then cut16k 6 (r * e.bytes) (e.row r).toNat n else [])

/-- Rows of a block that lie outside the memory. -/
def BlockEntry.outRows (e : BlockEntry) (ext limit : Nat) : Nat :=
  ((List.range e.rows).filter (fun r => decide (0 < e.rowLen limit r) && !inside ext (e.row r) (e.rowLen limit r))).length

/-- Whether a row of a block overlaps an output of an earlier command of its queue (R159). -/
def BlockEntry.blocked (e : BlockEntry) (s : State) (c : Cmd) (limit : Nat) : Bool :=
  let ws := (ittBefore c s.q.itt).filter (fun a => a.qid == c.qid && a.writes)
  (List.range e.rows).any (fun r => ws.any (fun a => decide (e.row r < (a.hi : Int)) && decide ((a.lo : Int) < e.row r + (e.rowLen limit r : Nat))))

/-! ## Slots (R151, R163) -/

/-- Bytes of writes to memory of a core that have left it and that the fabric has not accepted. -/
def drainBytes (t : Tender) (c : Cmd) (l : Nat) : Nat := ((t.open.filter (fun x => x.isOf c && x.write && x.skind == 2 && x.core == l)).map (·.len)).sum

/-- Slots of 32 KiB that hold `n` bytes of a drain stream, and of them the borrowed ones: two are its reserve. -/
def drainSlots (n : Nat) : Nat × Nat := (cdiv n 32768, cdiv n 32768 - 2)

/-- Bytes of the slots that the streams of a job have borrowed. -/
def borrowedBytes (s : State) (j : Nat) : Nat :=
  (s.tender.streams.map (fun o =>
    if s.q.cmds.any (fun c => o.isOf c && c.job == j) then 128 * o.bind.slotLines * (o.blocks.filter (·.borrowed)).length else 0)).sum +
  ((s.q.cmds.filter (fun c => c.job == j && c.op == 0x58)).flatMap (fun c =>
    (s.conf.job j).cores.map (fun l => 32768 * (drainSlots (drainBytes s.tender c l)).2))).sum

/-- Whether the shared part of a partition has `n` bytes left. -/
def canBorrow (s : State) (j n : Nat) : Bool := decide (((borrowedBytes s j + n : Nat) : Int) ≤ partFree s j)

/-- Whether a stream of the job, named by queue, `SEQ` and number, has asked for a slot before the given one and still waits. -/
def askedBefore (s : State) (c : Cmd) (k : Nat × BitVec 32 × Nat) : Bool :=
  (s.tender.borrowers.takeWhile (fun b => b != k)).any (fun b => s.q.cmds.any (fun d => d.qid == b.1 && d.seq == b.2.1 && d.job == c.job))

/-- Whether a stream holds a slot for one more block, and whether that slot is borrowed: two are its reserve, others come from the free part
of the partition, in the order in which the streams have asked. -/
def slotFor (s : State) (c : Cmd) (o : OStream) : Option Bool :=
  if (o.blocks.filter (fun b => !b.borrowed)).length < 2 then some false
  else if canBorrow s c.job (128 * o.bind.slotLines) && !askedBefore s c (o.qid, o.seq, o.num) then some true
  else none

/-- The drain stream of a core among those that ask for slots. -/
def drainAsk (c : Cmd) (l : Nat) : Nat × BitVec 32 × Nat := (c.qid, c.seq, 8 + l)

/-- The slots that a drain stream has still to borrow for one more write. -/
def drainMore (s : State) (c : Cmd) (x : Xfer) : Nat :=
  let n := drainBytes s.tender c x.core
  (drainSlots (n + x.len)).2 - (drainSlots n).2

/-- Whether a drain stream has slots for one more write: its reserve, or borrowed ones in its turn (R163). -/
def drainRoom (s : State) (c : Cmd) (x : Xfer) : Bool :=
  drainMore s c x == 0 || (canBorrow s c.job (32768 * drainMore s c x) && !askedBefore s c (drainAsk c x.core))

/-! ## Transfers -/

/-- Transfers in flight that a queue may have (R156). -/
def maxOut (s : State) (q : Nat) : Nat := match s.q.find q with
  | some x => x.ctx.maxOutM1 + 1
  | none => 1

/-- Whether the limit of a queue leaves room for one more transfer. -/
def hasOut (s : State) (q : Nat) : Bool := decide ((s.tender.xfers.filter (fun x => x.qid == q)).length < maxOut s q)

/-- Whether a queue may issue a new one: those that it has resumed go first (R167). -/
def mayIssue (s : State) (q : Nat) : Bool := hasOut s q && !s.tender.redo.any (fun x => x.qid == q)

/-- The command that a transfer was made for; it has not replied yet. -/
def xferCmd (s : State) (x : Xfer) : Option Cmd :=
  s.q.cmds.find? (fun c => x.isOf c && (c.stage == .admitted || c.stage == .started || c.stage == .ended))

/-- Whether a held back transfer can go out: a page fault halts its drain stream or none, its slot is there, and nothing that it overlaps is under way. -/
def canGo (s : State) (x : Xfer) : Bool :=
  xferClear s x.addr x.len x.write &&
  (!x.write || (!(s.tender.recs ++ s.tender.waiting).any (fun r => r.xfer.write && r.xfer.skind == 2 && r.xfer.qid == x.qid && r.xfer.core == x.core) &&
    (match xferCmd s x with
      | some c => drainRoom s c x
      | none => true)))

/-- A condition of a command that goes on. -/
def addCond (s : State) (c : Cmd) (k : Cond) : State :=
  { s with q := s.q.updCmd (fun d => d.same c) (fun d => { d with conds := mergeOob (d.conds ++ [k]) }) }

/-! ## What a stream does next -/

/-- What a stream does next: a read of a block in its slot, the next block into a slot, a read of its list or zero map, a step of the walk to another
entry, its end, a request for a slot, the transfer of a standard command; or nothing. -/
inductive StreamAct where
  | none | read (b : SBlock) | place (e : BlockEntry) (zero bor : Bool) | fetch (skind addr : Nat) | move (addr : Nat) | close (bad : Bool) | want
  | single (x : Xfer)
  deriving DecidableEq, Repr

/-- Bytes of a window of `n` at `a`, if the last transfer brought them; bytes outside the memory read 0. -/
def windowBytes (s : State) (buf : Nat × List Byte) (a n : Nat) : Option (List Byte) :=
  if !inDie s.extent a n then some (dieBytes s.mem s.extent a n)
  else if buf.1 ≤ a ∧ a + n ≤ buf.1 + buf.2.length then some ((buf.2.drop (a - buf.1)).take n)
  else none

/-- The next block; `zero` is its zero-map bit. -/
def placeAct (s : State) (c : Cmd) (o : OStream) (e : BlockEntry) (zero : Bool) : StreamAct :=
  if o.lowest + 8 ≤ o.nextBlock then .none
  else if !zero && e.blocked s c (128 * o.bind.slotLines) then .none
  else match slotFor s c o with
    | some bor => .place e zero bor
    | none => if s.tender.borrowers.contains (o.qid, o.seq, o.num) then .none else .want

/-- A list or zero-map read from `a`, unless one is in flight. -/
def fetchAct (s : State) (o : OStream) (skind a : Nat) : StreamAct :=
  if s.tender.xfers.any (fun x => x.serves o && x.skind == skind) then .none else .fetch skind a

/-- The block entry at the walk's position: its zero-map bit first, where it has one (R158). -/
def blockAct (s : State) (c : Cmd) (o : OStream) (e : BlockEntry) : StreamAct :=
  if o.bind.zmap = 0 ∨ e.zidx = 0xFFFFFFFF then placeAct s c o e false
  else
    let a := o.bind.zmap + e.zidx / 8
    match windowBytes s (o.zAt, o.zBuf) a 1 with
    | some bs => placeAct s c o e (bit (ofLe bs) (e.zidx % 8))
    | none => fetchAct s o 4 (a / 16 * 16)

/-- One step of the walk of a stream's list (R144-R147). -/
def walkAct (s : State) (c : Cmd) (o : OStream) : StreamAct :=
  match windowBytes s (o.listAt, o.listBuf) o.entry 32 with
  | none => fetchAct s o 5 o.entry
  | some bs =>
    let w := ofLe bs
    match bf w 48 4 with
    | 0 => blockAct s c o (parseEntry w)
    | 1 => if bf w 0 48 % 32 = 0 then .move (bf w 0 48) else .close true
    | 2 => .close false
    | 3 => if o.consumers.all (fun l => o.nextOf l == o.nextBlock && o.since.contains l) then .move (o.entry + 32) else .none
    | _ => .close true

/-- What an operand stream of a `RUNP` does next. -/
def runpAct (s : State) (c : Cmd) (o : OStream) : StreamAct :=
  if s.tender.halted o || o.dead then .none
  else match o.blocks.find? (fun x => !x.todo.isEmpty) with
    | some x => .read x
    | none => if o.ended then .none else walkAct s c o

/-- The streams of a command by number: 0 to 7 operand streams, then drain, restage and hash-spill streams of the cores, then zero-map streams of the
operand streams: operand stream, `SKIND`, core. Behind them the reads of `TLD` instructions of the cores, which belong to no stream, and the control
accesses of its queue (log 96). -/
def streamKind (n : Nat) : Nat × Nat × Nat :=
  if n < 8 then (n, 0, 0)
  else if n < 72 then (0, 2, n - 8)
  else if n < 136 then (0, 1, n - 72)
  else if n < 200 then (0, 3, n - 136)
  else if n < 208 then ((n - 200) % 8, 4, 0)
  else if n < 272 then (8, 0, n - 208)
  else (0, 6, 0)

/-- The numbers of the streams of an operand stream, `SKIND` and core. -/
def streamNums (k : Nat × Nat × Nat) : List Nat := (List.range 208).filter (fun n => streamKind n == k)

/-- Whether a transfer is one of stream `n`. -/
def Xfer.ofStream (x : Xfer) (n : Nat) : Bool :=
  let k := streamKind n
  x.stream == k.1 && x.core == k.2.2 && (x.skind == k.2.1 || (k.2.1 == 0 && x.skind == 5))

/-- Where the transfers of a standard command's stream `n` lie: address and length. Of an operand stream the span of the input of that number in the
descriptor table; of the others the first output, the spill region, the pool and the zero map. -/
def standardSpan (s : State) (c : Cmd) (n : Nat) : Option (Nat × Nat) :=
  let k := streamKind n
  let of := fun (x : Option Rng) => x.map (fun r => (r.1.1.toNat, r.1.2.toNat - r.1.1.toNat))
  let coreOk := if isCoreOp c.op then (s.conf.job c.job).cores.contains k.2.2 else k.2.2 == 0
  match k.2.1 with
  | 0 => if c.stage = .admitted then (c.reads[k.1]?).map (fun r => ((c.roleSpan r).1.toNat, (c.roleSpan r).2.toNat - (c.roleSpan r).1.toNat)) else none
  | 4 => if c.stage = .admitted ∧ isProduct c.op = true ∧ c.pf 7 0 48 ≠ 0 ∧ c.pf 7 48 4 = k.1 then
      of (zmapRange 1 (c.pf 7 0 48) (c.d k.1) (c.nbs.1 * c.nbs.2)).head? else none
  | 2 => if c.stage = .ended ∧ coreOk = true then (c.outs.head?).map (fun r => ((c.roleSpan r).1.toNat, (c.roleSpan r).2.toNat - (c.roleSpan r).1.toNat)) else none
  | 1 => if c.stage = .ended ∧ coreOk = true ∧ isCoreOp c.op = true then
      of (regionRange c (if isLayer c.op then 6 else 2)).head? else none
  | _ => if (c.stage = .ended ∨ c.stage = .started) ∧ coreOk = true ∧ (c.op = 0x30 ∨ c.op = 0x32) then some (c.pf 2 0 48, c.pf 3 0 40) else none

/-- Whether [a, a + n) overlaps an output of an earlier command of the queue (R159). -/
def spanBlocked (s : State) (c : Cmd) (a n : Nat) : Bool :=
  (ittBefore c s.q.itt).any (fun e => e.qid == c.qid && e.writes && decide (a < e.hi) && decide (e.lo < a + n))

/-- The transfer at the head of stream `n` of a standard command. Blocks and lists of the streams that the Keeper builds are not given; the command reads
its inputs in one step once no transfer of it is outstanding, and replies when those behind it have been answered (log 40). -/
def standardAct (s : State) (c : Cmd) (n : Nat) : StreamAct :=
  let k := streamKind n
  match standardSpan s c n with
  | none => .none
  | some sp =>
    let a := sp.1
    let len := Nat.min (Nat.min (16384 - a % 16384) sp.2) (s.extent - a)
    if len = 0 ∨ s.tender.open.any (fun x => x.isOf c && x.ofStream n) = true ∨ (k.2.1 = 0 ∧ spanBlocked s c a len = true) then .none
    else if k.2.1 = 2 then .single { writeXfer c.qid c.seq k.2.2 0 0 a [] with stream := k.1, len := Nat.max 16 (a % 16 + len) }
    else .single (readXfer c.qid c.seq k.1 k.2.1 k.2.2 0 0 0 a len)

/-- What stream `n` of a command does next. -/
def nextAct (s : State) (c : Cmd) (n : Nat) : StreamAct :=
  if 208 ≤ n then .none
  else if c.op = 0x58 then (match c.binds[n]? with
    | some b => if c.stage = .ended then .none else runpAct s c (streamOf s.tender c n b)
    | none => .none)
  else standardAct s c n

/-! ## The order of transfers (R157) -/

/-- Whether a consumer waits for a block: a `TLD` of it has been issued and the block not taken. -/
def takeWaits (s : State) (c : Cmd) (o : OStream) (n : Nat) : Bool :=
  o.consumers.any (fun l => [l, 64 + l].any (fun i =>
    (s.prog i).isOf c && decide (o.nextOf l ≤ n ∧ n < o.nextOf l + ((s.prog i).tlds.filter (fun t => t.stream == o.num)).length)))

/-- The place of a block's transfers in the order of its queue. -/
def blockKey (s : State) (c : Cmd) (o : OStream) (n : Nat) : Nat := if takeWaits s c o n then 1 else 2 + (o.lowest + 8 - n)

/-- The place in the order of its queue of the transfer that a stream issues next; none where it issues none. -/
def actKey (s : State) (c : Cmd) (n : Nat) (a : StreamAct) : Option Nat :=
  let o := fun (b : Binding) => streamOf s.tender c n b
  match a, c.binds[n]? with
  | .read x, some b => some (blockKey s c (o b) x.num)
  | .place e zero _, some b => if zero || (e.reads s.extent (128 * b.slotLines)).isEmpty then none else some (blockKey s c (o b) (o b).nextBlock)
  | .fetch _ _, _ => some 11
  | .single x, _ => some (if x.skind = 0 then 2 else if x.skind = 4 then 11 else 0)
  | _, _ => none

/-- Whether a command has issued its last read (R159): a `RUNP` when the lists of its streams have ended and no read of a block is left. -/
def readsIssued (s : State) (d : Cmd) : Bool :=
  d.stage == .ended || d.stage == .refused ||
  (d.op == 0x58 && (List.range d.binds.length).all (fun n => s.tender.streams.any (fun o =>
    o.isOf d && o.num == n && o.ended && o.blocks.all (·.todo.isEmpty) && !s.tender.halted o)))

/-- Whether the Tender may fetch a stream of a command: its job is active (R308), and every earlier command of its queue has issued its last
read, or the stream is early (R159). -/
def mayFetch (s : State) (c : Cmd) (n : Nat) : Bool :=
  let early := if c.op = 0x58 then (match c.binds[n]? with
    | some b => b.early
    | none => false) else c.early
  (c.stage == .admitted || c.stage == .started || c.stage == .ended) && powered s c && jobRuns s c.job &&
    (early || (((s.q.cmds.filter (fun d => d.qid == c.qid)).takeWhile (fun d => !d.same c)).all (readsIssued s)))

/-- The places of the transfers that the streams of a queue's programs could issue. -/
def readyKeys (s : State) (q : Nat) : List Nat :=
  (s.q.cmds.filter (fun c => c.qid == q && c.op == 0x58)).flatMap (fun c => (List.range c.binds.length).filterMap (fun n =>
    if mayFetch s c n then actKey s c n (nextAct s c n) else none))

/-- A queue's distance from the one that issued last, in the round of queue numbers. -/
def roundOf (s : State) (q : Nat) : Nat := (q + Config.queueCount - s.tender.last % Config.queueCount - 1) % Config.queueCount

/-- Whether a queue has a transfer ready: a stream of a program, or a read or write that waits to go out. -/
def queueReady (s : State) (q : Nat) : Bool := !(readyKeys s q).isEmpty || s.tender.outq.any (fun x => x.qid == q && canGo s x)

/-- Whether a queue has the turn: no queue with a transfer ready has a higher priority, or the same one and comes first in the round. -/
def hasTurn (s : State) (x : QRes) : Bool :=
  s.q.res.all (fun y => y.qid == x.qid || !mayIssue s y.qid || !queueReady s y.qid || decide (y.ctx.prio < x.ctx.prio) ||
    (y.ctx.prio == x.ctx.prio && decide (roundOf s x.qid < roundOf s y.qid)))

/-! ## Transfers of programs on their way out -/

/-- Whether a queue has the turn; one that is not resident has none to wait for. -/
def queueTurn (s : State) (q : Nat) : Bool := match s.q.find q with
  | some x => hasTurn s x
  | none => true

/-- A drain stream whose write finds no slot asks for one (R163); one whose write goes out no longer does. -/
def askSlot (s : State) (x : Xfer) : State :=
  match if x.write then xferCmd s x else none with
  | some c =>
    if drainRoom s c x || s.tender.borrowers.contains (drainAsk c x.core) then s
    else { s with tender := { s.tender with borrowers := s.tender.borrowers ++ [drainAsk c x.core] } }
  | none => s
def noLongerAsks (s : State) (x : Xfer) : State :=
  if x.write then { s with tender := { s.tender with borrowers := s.tender.borrowers.filter (fun b => b != (x.qid, x.seq, 8 + x.core)) } } else s

/-- Resumed transfers of a queue go out as far as the limit lets them: what stays back. -/
def redoOut (q : Nat) : List Xfer → State → List Xfer × State
  | [], s => ([], s)
  | x :: r, s =>
    if x.qid = q ∧ hasOut s q = true then redoOut q r (sendXfer s x)
    else
      let k := redoOut q r s
      (x :: k.1, k.2)

/-- Transfers of programs that wait to go out, a queue's in their order as far as the limit, the turn of the queue and the slots let them and none before
one that it overlaps; what stays back, of which `left` has been seen. -/
def pumpOut (q : Nat) : List Xfer → List Xfer → State → List Xfer × State
  | [], _, s => ([], s)
  | x :: r, left, s =>
    if x.qid = q ∧ hasOut s q = true ∧ queueTurn s q = true ∧ canGo s x = true ∧ left.any (fun y => rangesMeet x.addr x.len y.addr y.len) = false then
      pumpOut q r left (sendXfer (noLongerAsks s x) x)
    else
      let k := pumpOut q r (left ++ [x]) (if x.qid = q then askSlot s x else s)
      (x :: k.1, k.2)

/-- The resumed and the waiting transfers of a queue are issued. -/
def pump (s : State) (q : Nat) : State :=
  if !fabricUp s then s
  else
    let a := redoOut q s.tender.redo s
    let t := { a.2 with tender := { a.2.tender with redo := a.1 } }
    if a.1.any (fun x => x.qid == q) then t
    else
      let b := pumpOut q t.tender.outq [] t
      { b.2 with tender := { b.2.tender with outq := b.1 } }

/-! ## TENDER_BLOCK_ISSUE -/

/-- The next read of a block that has one left. -/
def issueRead (s : State) (o : OStream) (b : SBlock) : State :=
  match b.todo with
  | [] => s
  | (off, a, n) :: r =>
    let p := { o with blocks := o.blocks.map (fun x => if x.num = b.num then { x with todo := r } else x) }
    issueXfer { s with tender := s.tender.setStream p } (readXfer o.qid o.seq o.num 0 0 b.num 0 off a n)

/-- The stream ends at its present entry; a wrong entry is counted (R144, R146). -/
def endStream (s : State) (o : OStream) (bad : Bool) : State :=
  let t := { s with tender := s.tender.setStream { o with ended := true } }
  if bad then noteIll t 0x07 (.queue o.qid) (some o.qid) (BitVec.ofNat 64 o.entry) else t

/-- A stream no longer waits for a slot. -/
def Tender.granted (t : Tender) (o : OStream) : Tender := { t with borrowers := t.borrowers.filter (fun b => b != (o.qid, o.seq, o.num)) }

/-- The next block enters a slot (R145, R148, R158). Of a row outside the memory `FIRST` is the number of its block, as of a truncated block (log 90). -/
def placeBlock (s : State) (c : Cmd) (o : OStream) (e : BlockEntry) (zero bor : Bool) : State :=
  let limit := 128 * o.bind.slotLines
  let todo := if zero then [] else e.reads s.extent limit
  let outs := if zero then 0 else e.outRows s.extent limit
  let b : SBlock := ⟨o.nextBlock, Nat.min e.lines o.bind.slotLines, .empty, todo, 0, [], [], bor⟩
  let p := { o with blocks := o.blocks ++ [b], nextBlock := o.nextBlock + 1, entry := o.entry + 32, entryIdx := o.entryIdx + 1 }
  let t := { s with tender := (s.tender.setStream p).granted o }
  let t := if todo.isEmpty then countTnd t o.qid 0 1 else t
  let t := if zero then countTnd t o.qid 1 1 else t
  let t := if outs = 0 then t else addCond t c ⟨0x10, o.nextBlock, outs⟩
  let t := if o.bind.slotLines < e.lines then addCond t c ⟨0x10, o.nextBlock, 1⟩ else t
  issueRead t p b

/-- What a stream of a `RUNP` does next is done. A list or zero-map read brings up to 4 KiB. -/
def perform (s : State) (c : Cmd) (o : OStream) (a : StreamAct) : State :=
  match a with
  | .none => s
  | .read b => issueRead s o b
  | .place e zero bor => placeBlock s c o e zero bor
  | .fetch k a =>
    issueXfer { s with tender := s.tender.setStream o }
      (readXfer o.qid o.seq o.num k 0 o.nextBlock o.entryIdx 0 a (Nat.min (4096 - a % 4096) (s.extent - a)))
  | .move a => { s with tender := s.tender.setStream { o with entry := a, entryIdx := o.entryIdx + 1 } }
  | .close bad => endStream s o bad
  | .want => { s with tender := { s.tender.setStream o with borrowers := s.tender.borrowers ++ [(o.qid, o.seq, o.num)] } }
  | .single x => issueXfer s x

/-- The first command of a queue whose stream `n` has something to do. -/
def issueCmd (s : State) (q n : Nat) : Option Cmd := s.q.cmds.find? (fun c => c.qid == q && mayFetch s c n && nextAct s c n != .none)

/-- Address, length and direction of the transfer of a step of a stream. -/
def actSpan (s : State) (c : Cmd) (n : Nat) (a : StreamAct) : Option (Nat × Nat × Bool) :=
  match a with
  | .read b => b.todo.head?.map (fun x => (x.2.1, x.2.2, false))
  | .place e zero _ => if zero then none else match c.binds[n]? with
    | some b => (e.reads s.extent (128 * b.slotLines)).head?.map (fun x => (x.2.1, x.2.2, false))
    | none => none
  | .fetch _ a => some (a, Nat.min (4096 - a % 4096) (s.extent - a), false)
  | .single x => some (x.addr, x.len, x.write)
  | _ => none

/-- Whether the transfer of a step may go out: the fabric takes it, and nothing that it overlaps is under way (R425). -/
def actClear (s : State) (c : Cmd) (n : Nat) (a : StreamAct) : Bool :=
  match actSpan s c n a with
  | some x => let w := widen x.1 x.2.1; fabricUp s && xferClear s w.1 w.2.1 x.2.2
  | none => true

/-- `TENDER_BLOCK_ISSUE`: what stream `n` of the first command of a queue does next; a transfer only when it is its turn (R157). Where the stream has
nothing to do, the transfers of the queue's programs that wait go out. -/
def tenderIssue (s : State) (q n : Nat) : State :=
  match issueCmd s q n, s.q.find q with
  | some c, some x =>
    let a := nextAct s c n
    let go := actClear s c n a && match actKey s c n a with
      | none => true
      | some k => mayIssue s q && hasTurn s x && (readyKeys s q).all (fun m => decide (k ≤ m))
    if !go then s
    else match c.binds[n]? with
      | some b => perform s c (streamOf s.tender c n b) a
      | none => perform s c (OStream.fresh c n ⟨0, 0, 0, 0, false⟩) a
  | _, _ => pump s q

/-- The Tender issues the next reads of a stream (R151, R155-R159). -/
def execTenderBlockIssue (q n : Nat) (s : State) : Host.Outcome State Fault Refusal := onQueue q (tenderIssue s q n)

/-! ## FABRIC_RESPONSE -/

/-- What a program waits for may have come: its `TLD` instructions and its end. -/
def settleCmd (s : State) (c : Cmd) : State := if c.op = 0x58 ∧ c.stage = .started then settleRunp s c else s

/-- The data of a read arrive for the `TLD` from memory that made it. -/
def tldArrives (s : State) (c : Cmd) (x : Xfer) (bs : List Byte) : State :=
  let f := fun (i : Nat) => if (s.prog i).isOf c then [i] else []
  ((f x.core) ++ f (64 + x.core)).foldl (fun t i => t.updProg i (fun y =>
    { y with tlds := y.tlds.map (fun e => if e.ord = x.num ∧ e.stream = 8 then { e with data := e.data.writeBytes x.off bs } else e) })) s

/-- The data of a read arrive: those of a dropped one are discarded (R168). -/
def readDone (s : State) (x : Xfer) : State :=
  let bs := dieBytes s.mem s.extent x.addr x.len
  let t := countTnd s x.qid 2 x.len
  let t := { t with q := t.q.updCmd (fun d => x.isOf d && d.op == 0x58) (fun d => { d with rd := d.rd + x.len }) }
  if x.drop then
    let u := countTnd t x.qid 3 x.len
    { u with tender := { u.tender with streams := u.tender.streams.filter (fun o => !(o.dead && x.feeds o && !u.tender.xfers.any (fun y => y.feeds o))) } }
  else
    let own := (bs.drop x.skip).take x.want
    let u := if x.stream = 8 then (match xferCmd t x with
        | some c => tldArrives t c x own
        | none => t)
      else match t.tender.streams.find? (fun o => x.serves o) with
        | none => t
        | some o =>
          if x.skind = 5 then { t with tender := t.tender.setStream { o with listAt := x.addr, listBuf := bs } }
          else if x.skind = 4 then { t with tender := t.tender.setStream { o with zAt := x.addr, zBuf := bs } }
          else
            let p := { o with blocks := o.blocks.map (fun b =>
              if b.num = x.block then { b with data := b.data.writeBytes x.off own, got := b.got + x.len } else b) }
            let u := { t with tender := t.tender.setStream p }
            match p.blocks.find? (fun b => b.num == x.block) with
            | some b => if blockDone u.tender p b then countTnd u x.qid 0 1 else u
            | none => u
    match xferCmd u x with
    | some c => settleCmd u c
    | none => u

/-- A write is accepted; it can have been the last that its command waited for. A standard command's data are in memory since its run (log 40). -/
def writeDone (s : State) (x : Xfer) : State :=
  let t := pump { s with mem := s.mem.dieStores s.extent [.bytes (x.addr + x.skip) x.data] } x.qid
  match xferCmd t x with
  | some c => settleCmd t c
  | none => t

/-- A translation fault halts the transfer's stream and enters a record, or waits for a free one (R165, R166). -/
def pageFault (s : State) (x : Xfer) : State :=
  let slot := match s.q.find x.qid with
    | some r => r.slot
    | none => 0
  let t := countTnd s x.qid 4 1
  setTender t ({ t.tender with waiting := t.tender.waiting ++ [(⟨x, slot, none⟩ : PfRec)] }).fill

/-- `FABRIC_RESPONSE` to a stream's transfer in flight. An uncorrectable read ends the command that it was made for (R357). A dropped transfer that
fails counts as completed without data (R168). -/
def fabricStep (s : State) (id : Nat) (code : FabricCode) : State :=
  match if fabricUp s then s.tender.xfers.find? (fun x => x.id == id) else none with
  | none => s
  | some x =>
    let t := { s with tender := { s.tender with xfers := s.tender.xfers.filter (fun y => y.id != id) } }
    match code with
    | .ok => if x.write then writeDone t x else pump (readDone t x) x.qid
    | .xlate => if x.drop then pump t x.qid else pageFault t x
    | .uncorr => if x.write then s else if x.drop then pump (readDone t x) x.qid else match xferCmd t x with
      | some c => endUncorr (countTnd t x.qid 2 x.len) c 1
      | none => t

/-! ## Watchdogs (R125, R164, R293, R368, R396) -/

/-- The watchdog limit of a queue in microseconds; 0 disables. -/
def queueLimit (s : State) (q : Nat) : Nat := match s.q.find q with
  | some x => x.ctx.wdog
  | none => 0

/-- The watchdog limit of a command: its own for a `RUNP`, else its queue's. -/
def wdogLimit (s : State) (c : Cmd) : Nat := if c.op = 0x58 then c.pf 6 0 32 else queueLimit s c.qid

/-- Whether an operand stream waits for a slot for its next block: it stands at a block entry in its window and no slot is free. -/
def slotWait (s : State) (c : Cmd) (o : OStream) : Bool :=
  !o.ended && o.blocks.all (fun b => b.todo.isEmpty) && decide (o.nextBlock < o.lowest + 8) && (slotFor s c o).isNone &&
    (match windowBytes s (o.listAt, o.listBuf) o.entry 32 with
      | some bs => bf (ofLe bs) 48 4 == 0
      | none => false)

/-- Whether a stream of a command waits for a slot, and how many it holds. -/
def streamWaits (s : State) (c : Cmd) (n : Nat) : Bool × Nat :=
  let k := streamKind n
  if 208 ≤ n then (false, 0)
  else match s.tender.streams.find? (fun o => o.isOf c && o.num == k.1) with
  | some o => if k.2.1 = 0 then (slotWait s c o, o.blocks.length)
      else if k.2.1 = 4 then (false, b2n (!o.zBuf.isEmpty) + b2n (s.tender.open.any (fun x => x.serves o && x.skind == 4)))
      else ((s.tender.outq.filter (fun x => x.isOf c && x.write && x.core == k.2.2)).any (fun x => !drainRoom s c x), (drainSlots (drainBytes s.tender c k.2.2)).1)
  | none => if k.2.1 = 2 then ((s.tender.outq.filter (fun x => x.isOf c && x.write && x.core == k.2.2)).any (fun x => !drainRoom s c x),
      (drainSlots (drainBytes s.tender c k.2.2)).1) else (false, 0)

/-- A report in the Tender's wait record. -/
def noteWait (s : State) (l : List Nat) : State := { s with tender := { s.tender with waitRec := l }, irq := s.irq.raise irqWdog }

/-- `STREAM_WATCHDOG`: stream `n` of a command of the queue has waited `us` for a slot, or one of its transfers has had no response for 1 ms (R424).
Control accesses in flight have no state of their own, so that one of them has had none is free (log 73). -/
def streamWdog (s : State) (q n us : Nat) : State :=
  let k := streamKind n
  let hit := fun (c : Cmd) => c.qid == q && (((streamWaits s c n).1 && wdogLimit s c != 0 && decide (wdogLimit s c < us)) ||
    (decide (1000 ≤ us) && (k.2.1 == 6 || s.tender.xfers.any (fun y => y.isOf c && y.ofStream n))))
  match s.q.cmds.find? hit, s.q.find q with
  | some c, some x => noteWait s [x.slot, k.1, k.2.1, k.2.2, 13, (streamWaits s c n).2, us]
  | _, _ => s

/-- A stream that waits for a slot past its command's limit is reported; it goes on waiting. -/
def execStreamWatchdog (q n us : Nat) (s : State) : Host.Outcome State Fault Refusal := onQueue q (streamWdog s q n us)

/-- The wait kind of a program (Table 17.11): a barrier, or what it has stopped at. -/
def LCore.waitKind (x : LCore) : Nat := if x.barAt.isSome then 3 else x.wait

/-- Kind of a wait in a unit: of an instruction that waits for ranges which `TLD` instructions are to write, or of those `TLD` themselves once the
program has halted. -/
def unitWait (s : State) (i : Nat) : Nat :=
  let x := s.prog i
  match progCmd s i with
  | some c => if x.run = .halted then blockKind s i c x.tlds else lockKind s i c (x.held.flatMap (fun h => h.reads ++ h.writes))
  | none => 0

/-- Kind of the wait of program `i` that a report names: what it has stopped at, else what its units wait for; 0 where nothing waits. -/
def waitOf (s : State) (i : Nat) : Nat :=
  let x := s.prog i
  if (x.run == .running || x.run == .replaying) && x.waitKind != 0 then x.waitKind
  else if x.run == .running || x.run == .replaying || x.run == .halted then unitWait s i else 0

/-- Wait kind of a command (R258, R293, R368, R396): power, reduce, queue, daymark; 0 where it does not wait. A `FENCE` or `BARRIER` waits from its
admission on, whatever its queue has still to do before it. -/
def cmdWait (s : State) (c : Cmd) : Nat :=
  if !powered s c then 10
  else if isCollective c.op || c.op == 0x63 then 9
  else if c.op == 0x50 || c.op == 0x51 || c.op == 0x53 then 11
  else if c.op == 0x62 then 12
  else 0

/-- The limit of a command's own wait: for power that of its queue, whatever the command (R396). -/
def cmdLimit (s : State) (c : Cmd) : Nat := if cmdWait s c = 10 then queueLimit s c.qid else wdogLimit s c

/-- The command of a queue whose wait is reported: of several that are late a free one, since each is (log 6). -/
def lateCmd (s : State) (q us : Nat) : Option Cmd :=
  match s.q.cmds.filter (fun c => c.qid == q && (c.stage == .admitted || c.stage == .started) && cmdWait s c != 0 && cmdLimit s c != 0 &&
    decide (cmdLimit s c < us)) with
  | [] => none
  | [c] => some c
  | l => l[(Config.sampled s.free 15).toNat % l.length]?

/-- `WAIT_WATCHDOG`: what has waited longer than its limit is recorded and goes on waiting. -/
def waitWdog (s : State) (w : Waiter) (us : Nat) : State :=
  let late := fun (c : Cmd) => wdogLimit s c != 0 && decide (wdogLimit s c < us)
  match w with
  | .core l =>
    match [l, 64 + l].find? (fun i => waitOf s i != 0 && (progCmd s i).any late) with
    | some i =>
      let x := s.prog i
      { s.updProg l (fun y => { y with waitUs := us, waitRec := waitOf s i, waitAddr := if x.barAt.isSome then x.barPc else if x.wait = 0 then ((x.held.head?.map (·.regs.pc)).getD x.regs.pc) else x.regs.pc }) with
        irq := s.irq.raise irqWdog }
    | none => s
  | .queue q =>
    match lateCmd s q us, s.q.find q with
    | some c, some x => { noteWait s [x.slot, 0, 0, 0, cmdWait s c, 0, us] with free := s.free + 1 }
    | _, _ => s

/-- A wait past its limit is reported. -/
def execWaitWatchdog (w : Waiter) (us : Nat) (s : State) : Host.Outcome State Fault Refusal :=
  match w with
  | .core l => if l < 64 then .next (waitWdog s w us) else noUnit
  | .queue q => onQueue q (waitWdog s w us)

/-! ## Transfers of programs -/

/-- The lines of `n` uses of a generator. -/
def linesAt (x : LCore) (k n : Nat) : List (Int × Nat) := ((x.ag k).take n).map (fun a => (a, 128))

/-- The transfers of a program's core that are not complete. -/
def coreXfers (s : State) (i : Nat) (c : Cmd) : List Xfer :=
  (s.tender.open ++ s.tender.outq).filter (fun x => x.isOf c && x.core == i % 64 && (x.write || x.stream == 8))

/-- Whether an access to memory must wait for transfers of the same core that are not complete (R117, R425): a read for writes, a write for both. -/
def memLocked (s : State) (i : Nat) (c : Cmd) (write : Bool) (l : List (Int × Nat)) : Bool :=
  ((coreXfers s i c).filter (fun x => x.write || write)).any (fun x =>
    l.any (fun p => decide (p.1 < ((x.addr + x.len : Nat) : Int)) && decide ((x.addr : Int) < p.1 + p.2)))

/-- Whether a core holds 16 incomplete `TLD` and `TST`, so that a further one waits (R117): `TLD` that wait for their data, `TST` with writes
that the fabric has not accepted, and those of both that wait in their units. -/
def movesFull (s : State) (l : Nat) : Bool :=
  let stores := ((s.tender.open ++ s.tender.outq).filter (fun x => x.write && x.skind == 2 && x.core == l && !x.drop)).map (·.num)
  let waits := fun (x : LCore) => x.tlds.length + (x.held.filter (fun h => h.op == 0x10 || h.op == 0x11)).length
  decide (16 ≤ stores.eraseDups.length + waits (s.prog l) + waits (s.prog (64 + l)))

/-- The transfers of lines at `l`, with the offset of each in all of them: those of a line that lies partly outside are dropped, one that crosses a
16 KiB boundary is two. -/
def lineXfers (s : State) (l : List (Int × Nat)) : List (Nat × Nat × Nat) :=
  l.zipIdx.flatMap (fun e =>
    if inside s.extent e.1.1 e.1.2 then (cut16k 3 0 e.1.1.toNat e.1.2).map (fun k => (128 * e.2 + k.1, k.2.1, k.2.2)) else [])

/-- Transfers of a program wait to go out, and go out as far as they can. -/
def queueXfers (s : State) (c : Cmd) (xs : List Xfer) : State :=
  let ys := xs.zipIdx.map (fun x => { x.1 with id := s.tender.nextId + x.2 })
  pump { s with tender := { s.tender with outq := s.tender.outq ++ ys, nextId := s.tender.nextId + ys.length } } c.qid

/-! ## TLD -/

/-- A `TLD` that waits for its data enters the list of its program, and goes on at once where they are there. -/
def postTld (s : State) (i kd : Nat) (t : TldJob) : State :=
  settleTlds (s.updProg i (fun y => { (y.useAg kd t.lines).issued with tlds := y.tlds ++ [t] })) i

/-- `TLD` from a stream: it takes its block now or later (R149). -/
def tldStream (s : State) (i : Nat) (c : Cmd) (kd n str : Nat) : IRes :=
  let x := s.prog i
  match c.binds[str]? with
  | none => .illegal
  | some b => if !bit b.cons (i % 64) then .illegal else .go (postTld s i kd ⟨x.issue + 1, str, n, linesAt x kd n, Memory.empty⟩)

/-- `TLD` from memory: its lines are read in transfers of no stream (log 96). -/
def tldMemory (s : State) (i : Nat) (c : Cmd) (kd ks n : Nat) : State :=
  let x := s.prog i
  let src := linesAt x ks n
  let t := noteOob (queueXfers s c ((lineXfers s src).map (fun k => { readXfer c.qid c.seq 8 0 (i % 64) 0 (x.issue + 1) k.1 k.2.1 k.2.2 with id := 0 })))
    i (outPieces s i 3 src)
  let u := t.updProg i (fun y => { (y.useAg ks n).issued with tlds := y.tlds ++ [⟨x.issue + 1, 8, n, linesAt x kd n, Memory.empty⟩] })
  settleTlds (u.updProg i (fun y => if kd = ks then y else y.useAg kd n)) i

/-- The generators behind a `TLD` from memory or the central store, and behind a `TST`. -/
def LCore.copied (x : LCore) (kd ks n : Nat) : LCore := if kd = ks then x.useAg ks n else (x.useAg ks n).useAg kd n

/-- `TLD`. -/
def tldInstr (s : State) (i : Nat) (c : Cmd) (w : Nat) : IRes :=
  let x := s.prog i
  let kd := bf w 52 4
  let ks := bf w 48 4
  let n := bf w 16 16
  let sp := (x.ag ks).sp
  let dst := linesAt x kd n
  let src := linesAt x ks n
  let strm := bit w 47
  if rsvBits w [(55, 44), (31, 16)] || n == 0 || decide (12288 < n) || (x.ag kd).sp != 0 || (!strm && sp != 2 && sp != 3) then .illegal
  else if movesFull s (i % 64) then .wait (blockKind s i c x.tlds)
  else if strm then tldStream s i c kd n (bf w 44 3)
  else if sp = 3 then
    if memLocked s i c false src || x.locked (pieceSpans 3 src) [] then holdInstr s i w (pieceSpans 3 src) (pieceSpans 0 dst) (fun y => y.copied kd ks n)
    else .go (tldMemory s i c kd ks n)
  else if x.locked (pieceSpans sp src) (pieceSpans 0 dst) then
    holdInstr s i w (pieceSpans sp src) (pieceSpans 0 dst) (fun y => y.copied kd ks n)
  else
    let r := readPieces i c sp src s
    if r.ok then
      .go ((noteOob (writePieces i c 0 (cutBytes dst r.data) r.st) i (outPieces s i sp src + outPieces s i 0 dst)).updProg i (fun y =>
        y.copied kd ks n))
    else .ovr r.st

/-- Lines are loaded into the scratchpad (R149). -/
def execTld (l : Nat) (s : State) : Host.Outcome State Fault Refusal := onCore l (instrStep s l (· == 0x10) tldInstr)

/-! ## TST -/

/-- Writes of lines to memory wait for the fabric; all writes of one `TST` carry the number of its first. -/
def queueLines (s : State) (i : Nat) (c : Cmd) (l : List (Int × List Byte)) : State :=
  let data := l.flatMap (·.2)
  queueXfers s c ((lineXfers s (l.map (fun p => (p.1, p.2.length)))).map (fun k =>
    writeXfer c.qid c.seq (i % 64) k.1 s.tender.nextId k.2.1 ((data.drop k.1).take k.2.2)))

/-- `TST`. -/
def tstInstr (s : State) (i : Nat) (c : Cmd) (w : Nat) : IRes :=
  let x := s.prog i
  let ks := bf w 52 4
  let kd := bf w 48 4
  let n := bf w 16 16
  let sp := (x.ag ks).sp
  let sq := (x.ag kd).sp
  let src := linesAt x ks n
  let dst := if ks = kd then src else linesAt x kd n
  if rsvBits w [(55, 48), (31, 16)] || (sp != 0 && sp != 2) || (sq != 2 && sq != 3) then .illegal
  else if movesFull s (i % 64) then .wait (blockKind s i c x.tlds)
  else if (sq == 3 && memLocked s i c true dst) || x.locked (pieceSpans sp src) (pieceSpans sq dst) then
    holdInstr s i w (pieceSpans sp src) (pieceSpans sq dst) (fun y => y.copied kd ks n)
  else
    let r := readPieces i c sp src s
    if r.ok then
      let out := cutBytes dst r.data
      let t := if sq = 2 then writePieces i c 2 out r.st else queueLines r.st i c out
      let t := if sq = 3 then { t with q := t.q.updCmd (fun d => d.same c) (fun d => { d with wr := d.wr + ((lineXfers s dst).map (·.2.2)).sum }) } else t
      .go ((noteOob t i (outPieces s i sp src + outPieces s i sq dst)).updProg i (fun y => y.copied kd ks n))
    else .ovr r.st

/-- Lines are copied to the central store or memory. -/
def execTst (l : Nat) (s : State) : Host.Outcome State Fault Refusal := onCore l (instrStep s l (· == 0x11) tstInstr)

end Sys2Proof.Machine
end

