-- ==== Sys2Proof/Machine/Marks.lean ====
section
/-!
DEFINITION. Restart marks (R135-R140) and the chain handoff between the programs of a `CHAIN` (R107, R133, R134).
-/
namespace Sys2Proof.Machine

/-! ## MARK -/

/-- Whether a plane stands at a chunk boundary with a tile that no drain of the program takes yet (R136). -/
def LCore.atBoundary (x : LCore) (p : Nat) : Bool := x.tileIds.getD p 0 != 0 && x.atChunk.getD p false

/-- Whether a `MARK` would lose a plane: a preload without a drain behind it, a preloaded start, or a tile in progress away from a chunk boundary (R136). -/
def LCore.losesPlane (x : LCore) (p : Nat) : Bool :=
  x.preSet.getD p false || x.preloads.any (fun d => d.plane == p && !x.drains.any (fun e => e.plane == p && decide (d.ord < e.ord))) ||
  (x.tileIds.getD p 0 != 0 && !x.atBoundary p)

/-- The mark record of a program as it stands, the counter behind the `MARK`. -/
def LCore.snapshot (x : LCore) (logLen : Nat) : MarkRec :=
  { ord := x.issue + 1
    logLen := logLen
    regs := x.advance.regs
    planes := ([0, 1].filter x.atBoundary).map (fun p => (p, x.tileIds.getD p 0, x.tileShapes.getD p 0, x.tileWaves.getD p 0))
    note := x.tile
    cur := x.curPlane
    taken := x.taken
    ovr := x.overflowed
    chunks := [] }

/-- `MARK`: the record is issued; its stretch ends. In a replay the entries not yet consumed count as behind the mark. -/
def markInstr (s : State) (i : Nat) (_c : Cmd) (w : Nat) : IRes :=
  let x := s.prog i
  if rsvBits w [] || x.losesPlane 0 || x.losesPlane 1 then .illegal
  else if x.markPend.isSome then .wait 0
  else
    let front := x.prevLog.foldl (fun l e => l.erase e) x.log
    .go ((noteStretch s i).updProg i (fun y => { y with
      issue := y.issue + 1
      markPend := some (y.snapshot front.length)
      log := front ++ y.prevLog
      overflowed := false }))

/-- Opcodes that a mark waits for: `TLD`, `TST`, and with the drains and copies that it waits for also what follows them alone, `SIG`, `CHPUT`, `CHREL`. -/
def marked : List Nat := [0x10, 0x11, 0x71, 0x81, 0x83]

/-- Whether a mark may complete: drains, writes and the waves of its planes before it are done (R135, R136). -/
def markReady (s : State) (i : Nat) (c : Cmd) (m : MarkRec) : Bool :=
  coreUp s (i % 64) && !domHeld s 68 && !(s.prog i).held.any (fun h => decide (h.ord < m.ord) && marked.contains h.op) &&
  !(s.prog i).tlds.any (fun t => decide (t.ord < m.ord)) && !(s.prog i).drains.any (fun d => decide (d.ord < m.ord)) &&
  !(s.tender.writesOf c).any (fun x => x.core == i % 64) && m.planes.all (fun p => decide (p.2.2.2 ≤ tileApplied s i p.2.1))

/-- The record as it enters the central store: with the accumulators that earlier drains have fed and the chunk results of its planes. -/
def completed (s : State) (i : Nat) (m : MarkRec) : MarkRec :=
  let r := (s.prog i).regs
  { m with
    regs := { m.regs with norms := r.norms, amax := r.amax, infIdx := r.infIdx, nanIdx := r.nanIdx }
    chunks := m.planes.flatMap (fun p => (List.range 4).map (fun a => (p.1, a, (arrayOf s i a).chunks.getD p.1 []))) }

/-- The blocks that core `l` has taken count as marked; their slots may become free (R152). -/
def Tender.markTaken (t : Tender) (c : Cmd) (l : Nat) : Tender :=
  let f := fun (b : SBlock) => if b.takers.contains l && !b.marked.contains l then { b with marked := b.marked ++ [l] } else b
  c.binds.zipIdx.foldl (fun t e =>
    if bit e.1.cons l then
      let o := streamOf t c e.2 e.1
      t.setStream ({ o with blocks := o.blocks.map f, since := if o.since.contains l then o.since else o.since ++ [l] }).prune
    else t) t

/-- The log behind a mark: what an instruction before it has done since its issue is not of the new stretch (R137). -/
def LCore.markDone (x : LCore) (m : MarkRec) : LCore :=
  let log := (x.log.drop m.logLen).filter (·.behind m.ord)
  { x with markPend := none, mark := m, log := log, logBytes := (log.map LogEntry.size).sum }

/-- `MARK_COMPLETE` of the core's program, or of its CHAIN consumer's: the 1 KiB record enters the partition, where the order of its fields is not
given, so its bytes there are free (log 92). -/
def markStep (s : State) (l : Nat) : State :=
  match [l, 64 + l].findSome? (fun i => match (s.prog i).markPend, progCmd s i with
    | some m, some c => if markReady s i c m then some (i, c, m) else none
    | _, _ => none) with
  | some (i, c, m) =>
    let t := (writeFree s .central 202 (partBase s c + (s.prog i).markAt) 1024).updProg i (fun x => x.markDone (completed s i m))
    { t with tender := t.tender.markTaken c l }
  | none => s

/-- A restart mark is issued. -/
def execMark (l : Nat) (s : State) : Host.Outcome State Fault Refusal := onCore l (instrStep s l (· == 0x73) markInstr)

/-- A mark completes. -/
def execMarkComplete (l : Nat) (s : State) : Host.Outcome State Fault Refusal := onCore l (markStep s l)

/-! ## Rings (R107, R133) -/

/-- The ring of core `l`. -/
def ringOf (s : State) (l : Nat) : ChainRing := lookupD ⟨[], [], [], 0⟩ s.rings l

/-- The ring of core `l` changed. -/
def updRing (s : State) (l : Nat) (f : ChainRing → ChainRing) : State :=
  { s with rings := s.rings.map (fun r => if r.1 = l then (l, f r.2) else r) }

/-- The other command of a `CHAIN`: a producer as it stood when it began, also after its reply; a consumer that has not replied. -/
def partner (s : State) (c : Cmd) : Option Cmd :=
  (if c.chain = 2 then (s.q.find c.qid).bind (·.producer) else none).or <| s.q.cmds.find? (fun d => d.qid == c.qid && d.chain == 3 - c.chain && d.ring == (if c.chain = 1 then (c.ring + 1) % 65536 else (c.ring + 65535) % 65536))

/-- The chained tensor: of a standard producer its main output, else the first input of a standard consumer, since a program names no output tensor
(DESIGN CHOICE, log 104). -/
def chainedDesc (p c : Cmd) : Desc × Nat :=
  if p.op ≠ 0x58 then
    let ro := p.roles.getD (mainOut p) .out
    (p.d (mainOut p), (p.roleNbs ro).1 * (p.roleNbs ro).2)
  else
    let ro := c.roles.headD .x
    (c.d 0, (c.roleNbs ro).1 * (c.roleNbs ro).2)

/-- The tiles of a chained tensor: item, tile row, tile column, in row-major order of tiles of `tr` rows and `tc` columns. -/
def gridTiles (d : Desc) (items tr tc : Nat) : List (Nat × Nat × Nat) :=
  (List.range items).flatMap (fun i => (positions (cdiv d.rows tr) (cdiv d.cols tc)).map (fun x => (i, x.1, x.2)))

/-- The elements of a tile that exist: row and column in the tensor, and the byte offset of each in a slot whose rows hold `tc` elements. -/
def slotElems (d : Desc) (tr tc : Nat) (x : Nat × Nat × Nat) : List (Nat × Nat × Nat) :=
  (positions tr tc).filterMap (fun e =>
    let r := x.2.1 * tr + e.1
    let k := x.2.2 * tc + e.2
    if r < d.rows ∧ k < d.cols then some (r, k, (e.1 * tc + e.2) * eBytes d.fmt) else none)

/-- Rows and columns of the tiles that a standard producer hands over: output tiles of a product, else 32 rows by 128 columns (log 71). -/
def chainTile (p : Cmd) : Nat × Nat :=
  if p.op = 0x10 ∨ p.op = 0x31 then (128, 32)
  else if isProduct p.op then
    let t := tileDims p.lp.shape
    if (prodOf p).tr then (t.2, t.1) else t
  else (32, 128)

/-- The tiles that core rank `k` passes on: those of its share. -/
def shareTiles (s : State) (p c : Cmd) (k : Nat) : List (Nat × Nat × Nat) :=
  let cc := (s.conf.job p.job).cores.length
  let d := chainedDesc p c
  let t := if p.op = 0x58 then (32, 128) else chainTile p
  (gridTiles d.1 d.2 t.1 t.2).filter (fun x =>
    if p.op = 0x58 then runpCovers p k cc (x.1 * d.1.rows + x.2.1 * t.1)
    else inShare k cc p.units' (p.unitsOf (p.roles.getD (mainOut p) .out) x.1 (x.2.1 * t.1) (x.2.2 * t.2)))

/-- A tile of a standard producer is written into the slot at `off` (partition offset): its bytes as the producer would have written them, and
zeros for an element outside the memory (log 71). -/
def fillSlot (s : State) (p c : Cmd) (off : Nat) (x : Nat × Nat × Nat) : State :=
  let d := (chainedDesc p c).1
  let t := chainTile p
  let nb2 := (p.roleNbs (p.roles.getD (mainOut p) .out)).2
  let view := match s.q.find p.qid with
    | some r => s.mem.dieStores s.extent r.chained
    | none => s.mem
  (slotElems d t.1 t.2 x).foldl (fun u e =>
    let a := d.addr nb2 x.1 e.1 e.2.1
    storageWrite u .central (partBase s c + off + e.2.2)
      (if inside s.extent a (eBytes d.fmt) then dieBytes view s.extent a.toNat (eBytes d.fmt) else List.replicate (eBytes d.fmt) 0)) s

/-- Tiles of a standard producer that wait move into free slots. -/
def refillRing (p c : Cmd) (l : Nat) : Nat → State → State
  | 0, s => s
  | n + 1, s =>
    let r := ringOf s l
    match r.free, r.backlog with
    | a :: fs, t :: ts =>
      match (shareTiles s p c (rankIn s c l))[t]? with
      | some x => refillRing p c l n (updRing (fillSlot s p c a x) l (fun r => { r with free := fs, full := r.full ++ [a], backlog := ts }))
      | none => s
    | _, _ => s

/-- The stores by which a published slot becomes the next tile of a standard consumer's input. -/
def slotStores (s : State) (p c : Cmd) (l off : Nat) : List Store :=
  let d := (chainedDesc p c).1
  let nb2 := (c.roleNbs (c.roles.headD .x)).2
  match (shareTiles s p c (rankIn s p l))[(ringOf s l).passed]? with
  | some x => ((slotElems d 32 128 x).filter (fun e => inside s.extent (d.addr nb2 x.1 e.1 e.2.1) (eBytes d.fmt))).map (fun e =>
      .bytes (d.addr nb2 x.1 e.1 e.2.1).toNat (s.cstore.bytes (partBase s p + off + e.2.2) (eBytes d.fmt)))
  | none => []

/-- Bytes of a ring slot. -/
def slotBytes (c : Cmd) : Nat := 4096 * chainElemBytes c

/-- A slot is published: to the ring of a consumer that is a program, or at once to a standard one (R107), which reads it there (R357).
With write-through a pair of two programs writes nothing: no descriptor says where its tiles lie in memory (DESIGN CHOICE, log 104). -/
def publish (s : State) (i : Nat) (p : Cmd) (off : Nat) : State :=
  let l := i % 64
  match partner s p with
  | some c =>
    if c.op = 0x58 then updRing s l (fun r => { r with full := r.full ++ [off] })
    else
      let k := if c.stage = .admitted then consume s c .central (partBase s p + off) (slotBytes p) else (s, false)
      let s := k.1
      let ws := if k.2 then slotStores s p c l off else []
      let t := { s with
        mem := if p.wt then s.mem.dieStores s.extent ws else s.mem
        q := s.q.upd p.qid (fun x => { x with chained := x.chained ++ ws }) }
      updRing t l (fun r => { r with free := r.free ++ [off], passed := r.passed + 1 })
  | none => updRing s l (fun r => { r with full := r.full ++ [off] })

/-! ## Instructions -/

/-- A program takes a slot: its offset goes to a register. -/
def LCore.takeSlot (x : LCore) (d off : Nat) : LCore := { x.setReg d (BitVec.ofNat 64 off) with taken := x.taken ++ [off] }

/-- `CHFREE`. It and `CHGET` are taken as illegal outside a producer and a consumer of a `CHAIN`, as `CHPUT` and `CHREL` are (DESIGN CHOICE, log 89). -/
def chfreeInstr (s : State) (i : Nat) (c : Cmd) (w : Nat) : IRes :=
  let x := s.prog i
  let d := bf w 46 5
  if rsvBits w [(50, 46)] || c.chain != 1 then .illegal
  else match x.logged 2 with
    | some (.result v) => .go (s.updProg i (fun y => (y.takeSlot d v.toNat).consume (.result v)))
    | _ => match (ringOf s (i % 64)).free with
      | [] => .wait 4
      | a :: r => .go (logAction ((updRing s (i % 64) (fun k => { k with free := r })).updProg i (fun y => y.takeSlot d a)) i c (.result (BitVec.ofNat 64 a)))

/-- `CHPUT`: it waits for the drains into its slot. -/
def chputInstr (s : State) (i : Nat) (c : Cmd) (w : Nat) : IRes :=
  let x := s.prog i
  match x.taken with
  | [] => .illegal
  | a :: r =>
    if rsvBits w [] || c.chain != 1 then .illegal
    else match x.logged 6 with
      | some e => .go (s.updProg i (fun y => { y.consume e with taken := r }))
      | none =>
        if x.holds [0x81] || x.locked [(2, (a : Int), (a : Int) + (slotBytes c : Nat))] [] then holdInstr s i w [] [] (fun y => { y with taken := r })
        else .go (logAction ((publish s i c a).updProg i (fun y => { y with taken := r })) i c .chput)

/-- `CHGET`. An empty ring whose producer has ended with a bad status ends the consumer (R109). -/
def chgetInstr (s : State) (i : Nat) (c : Cmd) (w : Nat) : IRes :=
  let x := s.prog i
  let d := bf w 46 5
  if rsvBits w [(50, 46)] || c.chain != 2 then .illegal
  else match x.logged 2 with
    | some (.result v) => .go (s.updProg i (fun y => (y.takeSlot d v.toNat).consume (.result v)))
    | _ => match (ringOf s (i % 64)).full with
      | a :: r => .go (logAction ((updRing s (i % 64) (fun k => { k with full := r })).updProg i (fun y => y.takeSlot d a)) i c (.result (BitVec.ofNat 64 a)))
      | [] => if (s.q.find c.qid).any (·.chainBad) then .ovr (endCommand s c ⟨0x31, 0, 0⟩) else .wait 5

/-- `CHREL`: the slot is free again; a standard producer's next tile enters it. -/
def chrelInstr (s : State) (i : Nat) (c : Cmd) (w : Nat) : IRes :=
  let x := s.prog i
  match x.taken with
  | [] => .illegal
  | a :: r =>
    if rsvBits w [] || c.chain != 2 then .illegal
    else match x.logged 7 with
      | some e => .go (s.updProg i (fun y => { y.consume e with taken := r }))
      | none =>
        if x.holds [0x83] || x.pendReads.any (fun e => decide (e.1 ≤ x.issue) && spansMeet e.2 (2, (a : Int), (a : Int) + (slotBytes c : Nat))) then
          holdInstr s i w [] [] (fun y => { y with taken := r })
        else
          let t := logAction ((updRing s (i % 64) (fun k => { k with free := k.free ++ [a] })).updProg i (fun y => { y with taken := r })) i c .chrel
          .go (match partner t c with
            | some p => if p.op = 0x58 then t else refillRing p c (i % 64) 64 t
            | none => t)

/-- A producer takes a free slot. -/
def execChfree (l : Nat) (s : State) : Host.Outcome State Fault Refusal := onCore l (instrStep s l (· == 0x80) chfreeInstr)

/-- A producer publishes a slot. -/
def execChput (l : Nat) (s : State) : Host.Outcome State Fault Refusal := onCore l (instrStep s l (· == 0x81) chputInstr)

/-- A consumer takes a published slot. -/
def execChget (l : Nat) (s : State) : Host.Outcome State Fault Refusal := onCore l (instrStep s l (· == 0x82) chgetInstr)

/-- A consumer frees a slot. -/
def execChrel (l : Nat) (s : State) : Host.Outcome State Fault Refusal := onCore l (instrStep s l (· == 0x83) chrelInstr)

end Sys2Proof.Machine
end

