-- ==== Sys2Proof/Machine/Programs.lean ====
section
/-!
DEFINITION. The start of a `RUNP` (R107, R110-R114, R129): the image enters program memory, registers, argument block, counters and chain rings
are set, and a program runs on every core of the job.
-/
namespace Sys2Proof.Machine

/-- The partition offset at which the engine places `n` bytes: a free line inside the partition (log 31). -/
def allocAt (s : State) (j n k : Nat) : Nat :=
  128 * (Config.place (s.free + k) % (((s.conf.job j).psize * 1048576 - n) / 128 + 1))

/-- The half of program memory that an image of `len` instructions takes, where `used` is in use (R113). -/
def halfFor (len used : Nat) : Nat := if 4096 < len then 3 else if used = 1 then 2 else 1

/-- Registers at program start (Table 5.1): rank, core count, logical ID, argument offset, step. -/
def CoreRegs.start (rank cc l arg step entry len : Nat) : CoreRegs :=
  { CoreRegs.reset with
    sregs := [0, BitVec.ofNat 64 rank, BitVec.ofNat 64 cc, BitVec.ofNat 64 l, BitVec.ofNat 64 arg, BitVec.ofNat 64 step] ++ List.replicate 26 0
    pc := BitVec.ofNat 13 entry
    fin := decide (len ≤ entry) }

/-- The program of a command on logical core `l` at its start; the core's counts and records of earlier programs stay. -/
def LCore.launch (old : LCore) (c : Cmd) (l rank cc arg half log mk : Nat) : LCore :=
  let len := c.pf 1 0 14
  let r := CoreRegs.start rank cc l arg c.step (c.pf 1 16 13) len
  { LCore.reset with
    regs := r, run := .running, len := len, half := half, qid := c.qid, seq := c.seq
    mark := { MarkRec.reset with regs := r }
    markGap := old.markGap, illCnt := old.illCnt, illWord := old.illWord, illAddr := old.illAddr, waitAddr := old.waitAddr
    waitRec := old.waitRec, waitUs := old.waitUs, logAt := log, markAt := mk }

/-- The image of a `RUNP` copied into the program memory that serves core `l`. -/
def loadImage (mem : Memory) (c : Cmd) (l half : Nat) (pc : List PCore) : List PCore :=
  match storageOf pc l with
  | some p => pc.modify p (fun x => { x with pmem := x.pmem.copyFrom mem (c.pf 0 0 48) (if half = 2 then 32768 else 0) (8 * c.pf 1 0 14) })
  | none => pc

/-- One core of a starting `RUNP`: `i` is the index of its program. -/
def launchCore (c : Cmd) (cc arg off log mk : Nat) (s : State) (x : Nat × Nat) : State :=
  let i := off + x.1
  let half := halfFor (c.pf 1 0 14) (s.prog x.1).half
  let pc := if off = 0 then clearArrays s.pcores x.1 else s.pcores
  { s.updProg i (fun p => p.launch c x.1 x.2 cc arg half (log + 65536 * x.2) (mk + 1024 * x.2)) with pcores := loadImage s.mem c x.1 half pc }

/-- A counter table entry takes effect (R129). -/
def WorkCtr.declare (k : WorkCtr) (w : Nat) : WorkCtr := ⟨bf w 0 32, bf w 32 21, k.epoch + 1, []⟩

/-- The counters of a job after a `RUNP` has declared its own. -/
def declareCtrs (s : State) (c : Cmd) (l : List WorkCtr) : List WorkCtr :=
  (List.range (c.pf 3 48 5)).foldl (fun l k => l.modify k (fun x => x.declare (dieLe s.mem s.extent (c.pf 3 0 48 + 8 * k) 8))) l

/-- Empty rings of a `CHAIN`, one per core of its job: slot `n` of rank `k` lies behind those of the ranks before it. -/
def freshRings (s : State) (p : Cmd) (base : Nat) : List (Nat × ChainRing) :=
  (s.conf.job p.job).cores.zipIdx.map (fun x =>
    (x.1, ⟨(List.range p.ring2).map (fun n => base + (x.2 * p.ring2 + n) * slotBytes p), [], [], 0⟩))

/-- The rings that a starting `RUNP` of a `CHAIN` needs: a producer's; or those of a consumer whose producer has no program, filled with what
it produced (R107), which is nothing where it ended before its run (R109). -/
def setRings (s : State) (c : Cmd) : State :=
  let mine := fun (p : Cmd) (t : State) =>
    let n := p.ring2 * (s.conf.job c.job).cores.length * slotBytes p
    { t with rings := t.rings.filter (fun r => !(s.conf.job c.job).cores.contains r.1) ++ freshRings t p (allocAt s c.job n 1) }
  if c.chain = 1 then mine c s
  else if c.chain = 2 then
    match partner s c with
    | some p =>
      if p.op = 0x58 then s
      else (s.conf.job c.job).cores.zipIdx.foldl (fun t x =>
        refillRing p c x.1 p.ring2 (updRing t x.1 (fun r => { r with backlog := if (s.q.find c.qid).any (·.chainMade) then List.range (shareTiles s p c x.2).length else [] }))) (mine p s)
    | none => s
  else s

/-- A `RUNP` starts. A `CHAIN` consumer whose producer's programs still run gets the second program of each core. -/
def runpStart (s : State) (c : Cmd) : State :=
  let b := s.conf.job c.job
  let cc := b.cores.length
  let off := if c.chain = 2 ∧ s.q.cmds.any (fun d => d.qid == c.qid && d.chain == 1 && d.op == 0x58 && d.stage == .started) = true then 64 else 0
  let n := c.pf 1 32 9
  let arg := allocAt s c.job n 0
  let t := storageWrite s .central (b.pbase * 1048576 + arg) (dieBytes s.mem s.extent (c.pf 2 0 48) n)
  let u := setRings t c
  let v := b.cores.zipIdx.foldl (launchCore c cc arg off (allocAt s c.job (65536 * cc) 2) (allocAt s c.job (1024 * cc) 3)) u
  waitStarted { v with
    conf := v.conf.updJob c.job (fun j => { j with ctrs := declareCtrs s c j.ctrs })
    free := v.free + 4
    q := v.q.updCmd (fun d => d.same c) (fun d => { d with rd := d.rd + 8 * c.pf 1 0 14 + n + 8 * c.pf 3 48 5 }) } c

/-- `RUNP`. -/
def execRunp (q : Nat) (s : State) : Host.Outcome State Fault Refusal := onQueue q (startOp s q 0x58 runpStart)

end Sys2Proof.Machine
end

