-- ==== Sys2Proof/Machine/Retire.lean ====
section
/-!
DEFINITION. Retirement of a physical core (R344-R348): fencing and force-release of the programs it serves (R349, R350), and where its logical
IDs go. It is used by check events, by the self-test at a power-up (R394) and at boot (R405).
-/
namespace Sys2Proof.Machine

/-! ## The grid (R8, R345) -/

/-- Physical row and column of a core: spare 64 + k stands at the east end of row 2k. -/
def gridPos (p : Nat) : Nat × Nat := if p < 64 then (p / 8, p % 8) else (2 * (p - 64), 8)

/-- The core at a place of the grid. -/
def coreAt (y x : Nat) : Option Nat := if x < 8 then some (8 * y + x) else if x = 8 ∧ y % 2 = 0 then some (64 + y / 2) else none

/-- The row neighbours of a core, west before east. -/
def rowNeighbours (p : Nat) : List Nat :=
  let g := gridPos p
  (if 0 < g.2 then (coreAt g.1 (g.2 - 1)).toList else []) ++ (coreAt g.1 (g.2 + 1)).toList

/-- The logical IDs that a physical core serves with its units or its storage. -/
def idsOf (s : State) (p : Nat) : List Nat := (s.pcore p).lidA.toList ++ (s.pcore p).lidB.toList

/-- The free spare with the lowest number. -/
def freeSpare (s : State) : Option Nat := s.pcores.findIdx? (fun x => x.pstate == .spare)

/-! ## Records -/

/-- A record about core `p`: kind, action, logical ID. -/
def coreFault (s : State) (kind action p : Nat) (l : Option Nat) : State := noteFault s ⟨kind, false, action, p, l, 0, 0, 0, lifeNow s p⟩

/-! ## Fencing and force-release (R349-R351) -/

/-- A program whose core is fenced. What it has posted or queued since its last mark is gone and is done again in the replay; its arrival at a barrier stands; a mark in progress is
lost, so the previous record and the whole log behind it count (R351). -/
def LCore.fence (x : LCore) : LCore :=
  { x with
    run := .fenced, wait := 0, sends := x.sends.filter (fun m => decide (m.ord ≤ x.mark.ord)), recvs := x.recvs.filter (fun m => decide (m.ord ≤ x.mark.ord))
    drains := [], preloads := [], tlds := [], held := x.held.filter (fun h => decide (h.ord ≤ x.mark.ord)), barAt := none, barHeld := x.barAt.or x.barHeld
    overflowed := x.overflowed || x.markPend.any (·.ovr)
    markPend := none }

/-- The programs of logical core `l` that run or have halted in a command that still runs. -/
def liveProgs (s : State) (l : Nat) : List Nat := [l, 64 + l].filter (fun i => (s.prog i).run != .idle && (progCmd s i).isSome)

/-- The programs of logical core `l` are fenced: their arrays are cleared, their transfers that the fabric has not got are discarded, and the data of
reads that `TLD` instructions wait for are not taken. -/
def fenceId (s : State) (l : Nat) : State :=
  let is := liveProgs s l
  let cs := is.filterMap (progCmd s)
  if is.isEmpty then s
  else
    { s with
      lcores := is.foldl (fun ls i => ls.modify i LCore.fence) s.lcores
      pcores := clearArrays s.pcores l
      tender := { s.tender with
        outq := s.tender.outq.filter (fun x => !(x.core == l && cs.any (fun c => x.isOf c)))
        xfers := s.tender.xfers.map (fun x => if x.stream = 8 ∧ x.core = l ∧ cs.any (fun c => x.isOf c) = true then { x with drop := true } else x) } }

/-- Logical core `l` waits for its replay; `src` is the core whose storage is to be copied first, 68 for none. A copy still owed stays owed. -/
def oweReplay (s : State) (l src : Nat) : State :=
  if (liveProgs s l).isEmpty then s
  else if s.flt.replays.any (fun r => r.1 == l && r.2 != 68) then s
  else { s with flt := { s.flt with replays := s.flt.replays.filter (fun r => r.1 != l) ++ [(l, src)] } }

/-- A recovery in a command's reply: the lowest logical ID, and how many (Table 11.6). -/
def Cmd.recovered (c : Cmd) (code l : Nat) : Cmd :=
  match c.conds.find? (fun k => k.code == code) with
  | some k => { c with conds := c.conds.map (fun x => if x.code = code then ⟨code, Nat.min k.first l, k.count + 1⟩ else x) }
  | none => { c with conds := c.conds ++ [⟨code, l, 1⟩] }

/-- Whether core work of a command on logical core `l` meets an event: its program there lives, or it is a standard command between its start
and its reply (log 46). -/
def Cmd.worksOn (c : Cmd) (s : State) (l : Nat) : Bool :=
  isCoreOp c.op && (s.conf.job c.job).cores.contains l && c.refusal.isNone &&
    (if c.op = 0x58 then c.stage == .started && (liveProgs s l).any (fun i => (s.prog i).isOf c) else c.stage == .started || c.stage == .ended)

/-- The commands that work on logical core `l` report a recovery. -/
def noteRecovery (s : State) (code l : Nat) : State :=
  { s with q := { s.q with cmds := s.q.cmds.map (fun c => if c.worksOn s l then c.recovered code l else c) } }

/-! ## Where a logical ID goes -/

/-- Retire reset: arrays idle, planes clear, links and feeders empty; counters and storage stay (R77, R403, Table 16.8). -/
def PCore.idle (x : PCore) : PCore := { x with planes := .empty, arrays := x.arrays.map (fun a => { ArrayState.reset with cnt := a.cnt }) }

/-- A core that serves nothing any more. -/
def PCore.retire (x : PCore) : PCore := { x.idle with pstate := .retired, lidA := none, lidB := none, partner := none }

/-- A logical ID that no core can serve: what works on it ends with `UNCORR` (R347), and with `LOST` no command starts any more. -/
def loseId (s : State) (p l : Nat) : State :=
  let ended := s.q.cmds.filter (fun c => c.worksOn s l)
  let t := coreFault s 11 (if ended.isEmpty then 0 else 3) p (some l)
  let u := ended.foldl (fun t c => endUncorr t c 1) t
  { u with flt := { u.flt with lost := true }, irq := u.irq.raise irqFatal }

/-- The ID whose storage lies in `p` passes on: to the lowest free spare, with a copy if its command runs (R345, R352); else `p` becomes the
`STORE` of an `ACTIVE` row neighbour if its storage passes the self-test (R346); else the ID is lost (R347). A spare whose domain sleeps is
woken (R399). -/
def passId (s : State) (p l : Nat) (storageOk : Bool) : State :=
  match freeSpare s with
  | some k =>
    let t := (s.updCore p PCore.retire).updCore k (fun x => { x.idle with pstate := .active, lidA := some l, lidB := none, partner := none })
    let u := oweReplay t l p
    if domOn u (k / 2) then u else requestOn u (k / 2)
  | none =>
    match if storageOk then (rowNeighbours p).find? (fun h => (s.pcore h).pstate == .active) else none with
    | some h =>
      let t := (s.updCore p (fun x => { x.idle with pstate := .store, lidA := some l, lidB := none, partner := some h })).updCore h
        (fun x => { x with pstate := .host, lidB := some l, partner := some p })
      oweReplay (coreFault t 10 2 p (some l)) l 68
    | none => loseId (s.updCore p PCore.retire) p l

/-- Core `p` is retired: what it serves is fenced, its logical IDs pass on, each on its own; an ID in a `STORE` moves with its storage. -/
def retireCore (s : State) (p : Nat) (storageOk : Bool) : State :=
  let x := s.pcore p
  let ids := idsOf s p
  let t := ids.foldl (fun t l => noteRecovery t 0x51 l) s
  let u := coreFault (ids.foldl fenceId t) 9 2 p x.lidA
  match x.pstate, x.lidA with
  | .host, some l =>
    let v := passId (u.updCore p (fun x => { x.idle with pstate := .retired, lidB := none, partner := none })) p l storageOk
    match x.lidB, x.partner with
    | some m, some q => passId v q m true
    | _, _ => v
  | .store, some l =>
    let v := match x.partner with
      | some h => u.updCore h (fun y => { y with pstate := .active, lidB := none, partner := none })
      | none => u
    passId v p l storageOk
  | .active, some l => passId u p l storageOk
  | _, _ => u.updCore p PCore.retire

end Sys2Proof.Machine
end

