-- ==== Sys2Proof/Machine/Faults.lean ====
section
/-!
DEFINITION. Faults (14): check events with retry and retirement (R342-R347), replay (R138), check bits of storage with write-back and scrub
(R338, R339, R358), frames on links and their failure (R340, R341, R354, R355), fault records (R359), the retirement seed (R348) and injection
(R360).
-/
namespace Sys2Proof.Machine

/-! ## CHECK_EVENT -/

/-- Kind of a check in a fault record. -/
def checkCode : CheckKind → Nat
  | .residue => 1 | .adderParity => 2 | .controlParity => 3

/-- Whether a kept stamp lies in the window of an event (R342). -/
def inWindow (life : Nat) : Option Nat → Bool
  | some t => decide (life - t < 1000000000)
  | none => false

/-- Whether an event of core `x` at `life` is permanent: both kept stamps are valid and the older one lies in the window. -/
def PCore.permanent (x : PCore) (life : Nat) : Bool := x.stamp0.isSome && x.stamp1.isSome && inWindow life x.stamp0

/-- The stamps after a transient event. -/
def PCore.stampEvent (x : PCore) (life : Nat) : PCore := { x with stamp0 := x.stamp1, stamp1 := some life, life := life }

/-- Whether physical core `p` can report an event: it works, a `STORE` with its planes and program memory only (Table 14.2). -/
def canReport (s : State) (p unit : Nat) : Bool :=
  domOn s (p / 2) && (match (s.pcore p).pstate with
    | .retired => false
    | .store => unit == 5
    | _ => true)

/-- The image of a `RUNP` comes back into the program memory of logical core `l` (R337). -/
def reloadImage (s : State) (l : Nat) : State :=
  { s with pcores := (liveProgs s l).foldl (fun pc i => match progCmd s i with
      | some c => loadImage s.mem c l (s.prog i).half pc
      | none => pc) s.pcores }

/-- The record of an event. -/
def eventRec (s : State) (p kind action unit : Nat) (loc : Word) (life : Nat) (inj : Bool) : FltRec :=
  let x := s.pcore p
  ⟨kind, inj, action, p, x.lidA, unit, 1 + b2n (inWindow life x.stamp0) + b2n (inWindow life x.stamp1), loc, life⟩

/-- An event on core `p` at `life` life waves; one that does not count leaves the stamps and is transient (R360). -/
def coreEvent (s : State) (p kind unit : Nat) (loc : Word) (life : Nat) (storageOk inj count : Bool) : State :=
  let perm := count && (s.pcore p).permanent life
  let ids := idsOf s p
  let r := eventRec s p kind (if perm then 2 else 1) unit loc life inj
  let t := s.updCore p (fun x => if !perm && count then x.stampEvent life else { x with life := life })
  if !keeperRuns s then { t with lcores := (ids.flatMap (liveProgs s)).foldl (fun ls i => ls.modify i LCore.fence) t.lcores }
  else
    let u := noteFault (if kind = 3 then ids.foldl reloadImage t else t) r
    if perm then retireCore u p storageOk
    else ids.foldl (fun v l => oweReplay (fenceId (noteRecovery v 0x50 l) l) l 68) u

/-- `CHECK_EVENT`. Life waves never fall (R342). -/
def checkStep (s : State) (p : Nat) (kind : CheckKind) (unit : Nat) (loc : Word) (life : Nat) (storageOk : Bool) : State :=
  if canReport s p unit then coreEvent s p (checkCode kind) unit loc (Nat.max life (s.pcore p).life % 2 ^ 48) storageOk false true else s

/-- A check finds a wrong result (R335-R337, R342-R347). -/
def execCheckEvent (p : Nat) (kind : CheckKind) (unit : Nat) (loc : Word) (life : Nat) (storageOk : Bool) (s : State) :
    Host.Outcome State Fault Refusal :=
  if p < 68 then .next (checkStep s p kind unit loc life storageOk) else noUnit

/-! ## REPLAY_START (R138) -/

/-- A program goes back to its last completed mark. Signal flags live in the barrier network and stay as they are (R350). -/
def LCore.rewindTo (x : LCore) : LCore :=
  let m := x.mark
  let put := fun (l : List Nat) (f : Nat × Nat × Nat × Nat → Nat) => m.planes.foldl (fun l e => l.set e.1 (f e)) l
  ({ x with
    run := .replaying
    issue := m.ord
    prevLog := x.log.filter (·.behind m.ord)
    regs := { m.regs with flags := x.regs.flags }
    taken := m.taken
    curPlane := m.cur
    tile := m.note
    tileIds := put [0, 0] (fun e => e.2.1)
    tileShapes := put [0, 0] (fun e => e.2.2.1)
    tileWaves := put [0, 0] (fun e => e.2.2.2)
    preSet := [false, false]
    atChunk := m.planes.foldl (fun l e => l.set e.1 true) [false, false]
    stretch := 0 } : LCore).settleReplay

/-- The planes that the mark record notes at a chunk boundary are `FILLING` again, registers zero, chunk results as recorded (R136). -/
def ArrayState.resume (A : ArrayState) (m : MarkRec) (a : Nat) : ArrayState :=
  m.planes.foldl (fun A e =>
    { A with
      planes := A.planes.set e.1 .filling
      bands := A.bands.set e.1 (List.replicate 8 (some e.2.1))
      applied := assocSet 0 A.applied e.2.1 e.2.2.2
      chunks := A.chunks.set e.1 (match m.chunks.find? (fun k => k.1 == e.1 && k.2.1 == a) with
        | some k => k.2.2
        | none => []) }) A

/-- Program `i` resumes. -/
def resumeProg (s : State) (i : Nat) : State :=
  let m := (s.prog i).mark
  let t := s.updProg i LCore.rewindTo
  match storageOf s.pcores (i % 64) with
  | some p => t.updCore p (fun x => { x with arrays := x.arrays.zipIdx.map (fun A => A.1.resume m A.2) })
  | none => t

/-- The words of a core's storage that cannot be read. -/
def lostWords (s : State) (p : Nat) : List (Storage × Nat) := s.flt.double.filter (fun e => e.1 == .scratch p || e.1 == .acc p)

/-- Scratchpad, accumulator store and program memory of core `src` copied to core `p` (R345). -/
def copyCore (s : State) (src p : Nat) : State :=
  let x := s.pcore src
  let t := touchRead (touchRead s (.scratch src) 0 Config.scratchBytes) (.acc src) 0 Config.accBytes
  refreshed (refreshed (t.updCore p (fun y => { y with scratch := x.scratch, acc := x.acc, pmem := x.pmem })) (.scratch p) 0 Config.scratchBytes)
    (.acc p) 0 Config.accBytes

/-- Whether the mark record of program `i` and its log can be read from the central store (R135, R137); an uncorrectable word there ends the
command (R357). -/
def readMark (s : State) (i : Nat) (c : Cmd) : State × Bool :=
  let x := s.prog i
  let k := if x.mark.ord = 0 then (s, true) else consume s c .central (partBase s c + x.markAt) 1024
  if k.2 then consume k.1 c .central (partBase s c + x.logAt) (Nat.min x.logBytes 65536) else k

/-- The programs that a replay of logical core `l` resumes: fenced ones; one whose log overflowed ends its command (R138). -/
def resumeAll (s : State) (l : Nat) : State :=
  (liveProgs s l).foldl (fun t i => match progCmd t i with
    | some c =>
      if (t.prog i).run != .fenced then t
      else if (t.prog i).overflowed then endUncorr t c 1
      else
        let k := readMark t i c
        if k.2 then resumeProg k.1 i else k.1
    | none => t) s

/-- `REPLAY_START` of logical core `l`. Where a cancel has won nothing is left to replay (R352). -/
def replayStep (s : State) (l : Nat) : State :=
  match s.flt.replays.find? (fun r => r.1 == l) with
  | none => s
  | some (_, src) =>
    let t := { s with flt := { s.flt with replays := s.flt.replays.filter (fun r => r.1 != l) } }
    let live := (liveProgs s l).filter (fun i => (s.prog i).run == .fenced)
    if live.isEmpty then t
    else if !keeperRuns s || !coreUp s l || domHeld s 68 then s
    else if src = 68 then resumeAll t l
    else
      let bad := lostWords s src
      let gone := domState s (src / 2) == .off
      if bad.isEmpty && !gone then
        if domOn s (src / 2) then resumeAll (copyCore t src ((storageOf s.pcores l).getD 0)) l else s
      else
        let u := bad.foldl (fun t w => storageFault t 4 3 false w.1 w.2) t
        (live.filterMap (progCmd s)).foldl (fun t c => endUncorr t c (Nat.max 1 bad.length)) u

/-- The replay of a logical core starts. -/
def execReplayStart (l : Nat) (s : State) : Host.Outcome State Fault Refusal := onCore l (replayStep s l)

/-! ## ECC_WRITEBACK, SCRUB -/

/-- A corrected word reaches its bank again. -/
def writebackStep (s : State) (st : Storage) (addr : Nat) : State :=
  let hit := wordsIn s.flt.wback st addr 1
  { s with flt := { s.flt with
      wback := s.flt.wback.filter (fun e => !hit.contains e)
      single := s.flt.single.filter (fun e => !hit.contains e) } }

/-- The word at `addr` is written back (R338). -/
def execEccWriteback (st : Storage) (addr : Nat) (s : State) : Host.Outcome State Fault Refusal :=
  match st with
  | .scratch p => if p < 68 ∧ addr < Config.scratchBytes then .next (writebackStep s st addr) else noUnit
  | .acc p => if p < 68 ∧ addr < Config.accBytes then .next (writebackStep s st addr) else noUnit
  | .central => if addr < Config.centralBytes then .next (writebackStep s st addr) else noUnit

/-- Switched domain of a word of a storage array. -/
def wordDomain (st : Storage) (a : Nat) : Nat :=
  match st with
  | .scratch p => p / 2
  | .acc p => p / 2
  | .central => if a < 134217728 then 34 else 35

/-- `SCRUB` of a storage array: correctable words are counted and corrected, the others are recorded and stay (R339). -/
def scrubStep (s : State) (st : Storage) : State :=
  let mine := fun (e : Storage × Nat) => e.1 == st && domOn s (wordDomain st e.2)
  let ones := s.flt.single.filter mine
  let twos := s.flt.double.filter mine
  let t := countCe s st ones.length
  let u := { t with flt := { t.flt with
    single := t.flt.single.filter (fun e => !mine e), wback := t.flt.wback.filter (fun e => !mine e) } }
  twos.foldl (fun v w =>
    let v := storageFault v 5 0 false st w.2
    if st = .central ∧ 260046848 ≤ w.2 then reserveWord v w else v) u

/-- A storage array is scrubbed. -/
def execScrub (st : Storage) (s : State) : Host.Outcome State Fault Refusal :=
  match st with
  | .scratch p => if p < 68 then .next (scrubStep s st) else noUnit
  | .acc p => if p < 68 then .next (scrubStep s st) else noUnit
  | .central => .next (scrubStep s st)

/-! ## Links -/

/-- A link with frames as it stands. -/
def linkOf (s : State) (k : FrameLink) : LinkSt := (s.flt.links.find? (fun x => x.id == k)).getD ⟨k, 0, false, 0, 0⟩

/-- A link replaced. -/
def setLink (s : State) (x : LinkSt) : State := { s with flt := { s.flt with links := s.flt.links.filter (fun y => y.id != x.id) ++ [x] } }

/-- Switched domain of a link's hardware. -/
def linkDomain : FrameLink → Nat
  | .mesh p _ => p / 2
  | .couple p _ => p / 2
  | .fabric _ => 36
  | .reduction _ => 38

/-- Timing domain of a link. -/
def linkTiming : FrameLink → Nat
  | .mesh p _ => p
  | .couple p _ => p
  | .fabric _ => 72
  | .reduction _ => 74

/-- Link kind and number of a record's `LOC`: the number is the direction, side, port or link; `PCORE` names the core (log 38). -/
def linkLoc : FrameLink → Nat
  | .mesh _ d => 4 * d
  | .couple _ d => 1 + 4 * d
  | .fabric k => 2 + 4 * k
  | .reduction l => 3 + 4 * l

/-- A record about a link; `ACTION` is 2 where a port is retired, 3 where a command ends (Table 14.5). -/
def linkFault (s : State) (kind action : Nat) (inj : Bool) (k : FrameLink) : State :=
  match k with
  | .mesh p _ => noteFault s ⟨kind, inj, action, p, (s.pcore p).lidA, 7, 0, BitVec.ofNat 64 (linkLoc k), lifeNow s p⟩
  | .couple p _ => noteFault s ⟨kind, inj, action, p, (s.pcore p).lidA, 7, 0, BitVec.ofNat 64 (linkLoc k), lifeNow s p⟩
  | _ => noteFault s ⟨kind, inj, action, 0x7F, none, 7, 0, BitVec.ofNat 64 (linkLoc k), keeperUs s⟩

/-- No logical ID or memory can be reached any more: `LOST` (R347, R354). -/
def setLost (s : State) : State := { s with flt := { s.flt with lost := true }, irq := s.irq.raise irqFatal }

/-- Fabric port `k` is retired, and its transfers go to the ports that are left, in their order; with none left the engine is lost (R354). -/
def retirePort (s : State) (k : Nat) : State :=
  let ports := s.flt.ports &&& ~~~(1#8 <<< k)
  let t := linkFault (reassign { s with flt := { s.flt with ports := ports } }) 7 2 false (.fabric k)
  if ports = 0 then setLost t else t

/-- Link of the reduction port by its number. -/
def redLinkOf (l : Nat) : RedLink := if l = 0 then .up else if l = 1 then .cl else .cr

/-- Reduction link `l` fails: the collective in progress over it ends (R355). -/
def failRedLink (s : State) (l : Nat) : State :=
  let hit := if (treeLinks s).contains (redLinkOf l) then s.red.colls.filterMap (fun x =>
    s.q.cmds.find? (fun c => c.qid == x.qid && c.seq == x.seq && c.stage == .started)) else []
  let t := linkFault { s with flt := { s.flt with rlinks := s.flt.rlinks &&& ~~~(1#3 <<< l) } } 8 (if hit.isEmpty then 0 else 3) false (.reduction l)
  hit.foldl (fun t c => endUncorr t c 1) t

/-- What the failure of a link brings (R341). -/
def failLink (s : State) (k : FrameLink) : State :=
  match k with
  | .fabric j => retirePort s j
  | .reduction l => failRedLink s l
  | _ => linkFault s 6 0 false k

/-- A failed attempt of a frame: a retry, and with the 16th in a row the link fails. `count`: the attempt counts towards that. -/
def failedAttempt (s : State) (k : FrameLink) (count : Bool) : State :=
  let x := linkOf s k
  let n := x.attempts + b2n count
  let y := { x with retry := ctr48 x.retry 1, attempts := n, failed := decide (16 ≤ n) }
  let t := setLink s y
  if 16 ≤ n then failLink t k else t

/-- The core in direction `d` of another: north, east, south, west (Table 14.7). -/
def meshNeighbour (p d : Nat) : Option Nat :=
  let g := gridPos p
  match d with
  | 0 => if 0 < g.1 then coreAt (g.1 - 1) g.2 else none
  | 1 => coreAt g.1 (g.2 + 1)
  | 2 => if g.1 < 7 then coreAt (g.1 + 1) g.2 else none
  | _ => if 0 < g.2 then coreAt g.1 (g.2 - 1) else none

/-- Whether the cores at both ends of a link take part in it: a retired one's links are closed, and of one that only lends its storage the mesh links
(R349, R346). -/
def linkOpen (s : State) (k : FrameLink) : Bool :=
  let joins := fun (p : Nat) => (s.pcore p).pstate != .retired
  match k with
  | .mesh p d => (p :: (meshNeighbour p d).toList).all (fun q => joins q && (s.pcore q).pstate != .store)
  | .couple p d => (p :: (meshNeighbour p (if d = 0 then 3 else 1)).toList).all joins
  | _ => true

/-- Whether frames move on a link. -/
def linkWorks (s : State) (k : FrameLink) : Bool := !(linkOf s k).failed && linkOpen s k && domOn s (linkDomain k) && !domHeld s (linkTiming k)

/-- Whether a link exists. -/
def linkExists : FrameLink → Bool
  | .mesh p d => decide (p < 68) && decide (d < 4)
  | .couple p d => decide (p < 68) && decide (d < 2)
  | .fabric k => decide (k < 8)
  | .reduction l => decide (l < 3)

/-- The link that an injection names, if it is one. -/
def fiLink (s : State) : Option FrameLink :=
  let t := s.flt.fiTgt.toNat
  let k := match bf t 0 3 with
    | 0 => some (FrameLink.mesh (bf t 3 7) (bf t 10 3))
    | 1 => some (FrameLink.fabric (bf t 10 3))
    | 2 => some (FrameLink.reduction (bf t 10 3))
    | _ => none
  k.filter linkExists

/-- A frame on the link that an armed injection names counts towards its interval (R360). -/
def countFrame (s : State) (k : FrameLink) : State :=
  if bit s.flt.fiCtl.toNat 0 && fiLink s == some k then { s with flt := { s.flt with fiSince := s.flt.fiSince + 1 } } else s

/-- A frame reaches its receiver: in sequence and intact it is accepted, otherwise discarded and asked for again. A frame with an unexpected
number is not the one that the attempts are counted of (log 49). -/
def frameStep (s : State) (k : FrameLink) (seqno : Nat) (crcOk : Bool) : State :=
  if !linkWorks s k then s
  else
    let s := countFrame s k
    let x := linkOf s k
    if crcOk && seqno == x.expect then setLink s { x with expect := x.expect + 1, attempts := 0 }
    else failedAttempt s k (!crcOk)

/-- A frame arrives. -/
def execLinkFrameReceive (k : FrameLink) (seqno : Nat) (crcOk : Bool) (s : State) : Host.Outcome State Fault Refusal :=
  if linkExists k then .next (frameStep s k seqno crcOk) else noUnit

/-- No acknowledgement came: the frame goes out again. -/
def execFrameResendTimeout (k : FrameLink) (s : State) : Host.Outcome State Fault Refusal :=
  if linkExists k then .next (if linkWorks s k then failedAttempt s k true else s) else noUnit

/-! ## FLT_POP, RET_SEED_WRITE -/

/-- Offset of GX_FLT_CTL. -/
def fltCtlOff : Nat := 0x5018

/-- A write of GX_FLT_CTL. -/
def fltCtlWrite (s : State) (mid : Mid) (v : Word) : State :=
  writeBy s (isHost mid) mid fltCtlOff (match s.flt.recs with
    | [] => regIll s mid fltCtlOff true
    | _ :: r => if bit v.toNat 0 then { s with flt := { s.flt with recs := r } } else s)

/-- The head record is freed. -/
def execFltPop (mid : Mid) (s : State) : Host.Outcome State Fault Refusal := .next (fltCtlWrite s mid 1)

/-- Offsets of GX_RET_SEED0 and GX_RET_SEED1. -/
def retSeedOff (hi : Bool) : Nat := if hi then 0x5030 else 0x5028

/-- A write of GX_RET_SEED0 or GX_RET_SEED1, RWL registers: past `WAIT` they are locked, which has the source of R408 (log 111). -/
def retSeed (s : State) (mid : Mid) (hi : Bool) (v : Word) : State :=
  if mid.toNat = 1 ∧ s.fw.state = .wait then
    { s with flt := if hi then { s.flt with seed1 := BitVec.ofNat 4 v.toNat } else { s.flt with seed0 := v } }
  else if mid.toNat = 1 ∧ s.fw.state ≠ .rom then regIll s mid (retSeedOff hi) true
  else fwIll s v

/-- The retirement seed is written (R348). -/
def execRetSeedWrite (mid : Mid) (hi : Bool) (v : Word) (s : State) : Host.Outcome State Fault Refusal :=
  .next (netWrite s mid (retSeedOff hi) (retSeed s mid hi v))

/-! ## Injection (R360, Table 14.7) -/

/-- Offsets of the injection registers. -/
def fiCtlOff : Nat := 0x5100
def fiTgtOff : Nat := 0x5108
def fiAddrOff : Nat := 0x5110

/-- Whether a master may write the injection registers now. -/
def fiOpen (s : State) (mid : Mid) : Bool := isDebug mid && domOn s 39

/-- A write of GX_FI_CTL. Armed with `COUNT` 0 there is nothing to do, and `ARM` clears. -/
def fiCtlWrite (s : State) (mid : Mid) (v : Word) : State :=
  let n := v.toNat
  let arm := bit n 0
  let mode := bf n 1 3
  if !fiOpen s mid || (arm && (mode == 0 || mode == 7)) then regIll s mid fiCtlOff true
  else
    let kept := bf n 1 4 * 2 + bf n 16 48 * 2 ^ 16
    { s with flt := { s.flt with
      fiCtl := BitVec.ofNat 64 (kept + b2n (arm && bf n 16 16 != 0))
      fiDone := if arm then 0 else s.flt.fiDone
      fiSince := if arm then 0 else s.flt.fiSince } }

/-- GX_FI_CTL is written with `ARM` set. -/
def execFiArm (mid : Mid) (v : Word) (s : State) : Host.Outcome State Fault Refusal := .next (fiCtlWrite s mid (v ||| 1#64))

/-- The word that an injection names, if it is one. -/
def fiWord (s : State) : Option (Storage × Nat) :=
  let t := s.flt.fiTgt.toNat
  let p := bf t 3 7
  let a := bf s.flt.fiAddr.toNat 0 48 / 8 * 8
  let st := match bf t 10 3 with
    | 0 => some (Storage.scratch p, decide (p < 68) && decide (a < Config.scratchBytes))
    | 1 => some (Storage.acc p, decide (p < 68) && decide (a < Config.accBytes))
    | 2 => some (Storage.central, decide (a < Config.centralBytes))
    | _ => none
  match st with
  | some (st, true) => if bf t 0 3 = 4 then some (st, a) else none
  | _ => none

/-- Kind code of the record of an injection that is neither an event nor a failure: free (log 50). -/
def freeKind (s : State) : Nat := (Config.sampled s.free 4).toNat % 16

/-- One injection done; with the last one `ARM` clears. -/
def fiCount (s : State) : State :=
  let n := s.flt.fiDone + 1
  { s with
    flt := { s.flt with fiDone := n, fiSince := 0, fiCtl := if bf s.flt.fiCtl.toNat 16 16 ≤ n then s.flt.fiCtl &&& ~~~1#64 else s.flt.fiCtl }
    free := s.free + 1 }

/-- An armed injection acts on its target: a frame (modes 1 to 3), a cube (4), or a word at its next write (5, 6). A mode that does not fit the
target has nothing to act on. Between two injections on a link `INTERVAL` frames pass; the waves between two on a cube or a word no row tells of, and
the row stands for the next one that is due (log 50). -/
def injectStep (s : State) : State :=
  let n := s.flt.fiCtl.toNat
  let mode := bf n 1 3
  let count := !bit n 4
  let t := s.flt.fiTgt.toNat
  let p := bf t 3 7
  if !bit n 0 || !domOn s 39 then s
  else if mode = 4 then
    if bf t 0 3 = 3 ∧ p < 68 ∧ canReport s p 0 = true ∧ bf t 10 3 < 4 then
      let f := (Config.sampled s.free 5).toNat
      let loc := BitVec.ofNat 64 (bf t 10 2 + bf t 13 6 * 4 + f % 16 * 256)
      fiCount (coreEvent s p 1 0 loc (lifeNow s p) (bit f 4) true count)
    else s
  else if mode ≤ 3 then
    match fiLink s with
    | some k => if linkWorks s k && (s.flt.fiDone == 0 || decide (bf n 32 32 ≤ s.flt.fiSince)) then fiCount (failedAttempt (linkFault s (freeKind s) 0 true k) k count) else s
    | none => s
  else match fiWord s with
    | some w =>
      if domOn s (wordDomain w.1 w.2) then
        let u := storageFault s (freeKind s) 0 true w.1 w.2
        fiCount { u with flt := { u.flt with flips := u.flt.flips ++ [(w.1, w.2, mode == 6)] } }
      else s
    | none => s

/-- The fault records that enter between two states, as caused by an injection: failures and retirements that follow from it too (R359). -/
def injected (s t : State) : State :=
  let n := s.flt.recs.length
  { t with flt := { t.flt with recs := t.flt.recs.take n ++ (t.flt.recs.drop n).map (fun r => { r with inj := true }) } }

/-- `INJECTION`. -/
def execInjection (s : State) : Host.Outcome State Fault Refusal := .next (injected s (injectStep s))

end Sys2Proof.Machine
end

