-- ==== Sys2Proof/Machine/Mailbox.lean ====
section
/-!
DEFINITION. Mailboxes (13): bindings and the lock (R320-R322), the actions of a channel (R323-R325), the Fog timer (R327), and the interrupt and
wake lines (R326, R428).
-/
namespace Sys2Proof.Machine

/-! ## Access -/

/-- Register numbers of a channel in a record: the data words 0-7, then those of Table 13.3 in its order, then the lock (log 53). -/
def mbBellReg : Nat := 8
def mbAckReg : Nat := 9
def mbStatReg : Nat := 10
def mbCtlReg : Nat := 11
def mbBindReg : Nat := 12
def mbLockReg : Nat := 13

/-- A mailbox access that has no effect: source 0x0B (Table 13.12). -/
def mbIll (s : State) (mid : Mid) (ch reg : Nat) (v : Word) : State :=
  noteIll s 0x0B .none none (BitVec.ofNat 64 (ch % 64 + mid.toNat * 2 ^ 6 + reg % 16 * 2 ^ 12 + v.toNat * 2 ^ 16))

/-- Offsets of the registers of channel `ch` by their number, and of the lock (Table 17.2). -/
def mbOff (ch reg : Nat) : Nat := if reg = mbLockReg then 0x18000 else 0x10000 + 0x200 * ch + 8 * reg

/-- Channel `ch`. -/
def State.chan (s : State) (ch : Nat) : Chan := s.mail.chans.getD ch Chan.reset

/-- A channel changed. -/
def updChan (s : State) (ch : Nat) (f : Chan → Chan) : State := { s with mail := { s.mail with chans := s.mail.chans.modify ch f } }

/-- Master identities that are assigned (Table 13.2). -/
def assigned (mid : Mid) : Bool := decide (mid.toNat ≤ 0x28)

/-- The sender and the receiver of a bound channel. -/
def Chan.isSender (x : Chan) (mid : Mid) : Bool := x.valid && assigned mid && mid == x.snd
def Chan.isReceiver (x : Chan) (mid : Mid) : Bool := x.valid && assigned mid && mid == x.rcv

/-- A write by the sender, or by the receiver; any other is ignored and counted (R321, R322). -/
def mbSend (s : State) (mid : Mid) (ch reg : Nat) (v : Word) (f : State → State) : State :=
  if (s.chan ch).isSender mid then f s else mbIll s mid ch reg v
def mbReceive (s : State) (mid : Mid) (ch reg : Nat) (v : Word) (f : State → State) : State :=
  if (s.chan ch).isReceiver mid then f s else mbIll s mid ch reg v

/-! ## Actions (Table 13.10) -/

/-- A collision, where the channel is full. -/
def Chan.collide (x : Chan) : Chan := if x.full then { x with coll := true, colls := satTo 65535 (x.colls + 1) } else x

/-- A data word. -/
def mbData (s : State) (mid : Mid) (ch w : Nat) (v : Word) : State :=
  mbSend s mid ch w v (fun s => updChan s ch (fun x => { x.collide with data := x.data.set w v }))

/-- A ring. The timer starts from 0; `TMO` 0 is no timeout. -/
def Chan.ring (x : Chan) (beacon : Bool) : Chan :=
  { x.collide with full := true, rings := x.rings + 1, lastBcn := beacon, timer := x.tmo != 0 }

/-- A Bell or Beacon. A Beacon requests its domain and waits until it is ON; with `WDOM` 0x3F it acts as a Bell (R325). -/
def mbRing (s : State) (mid : Mid) (ch : Nat) (v : Word) : State :=
  mbSend s mid ch mbBellReg v (fun s =>
    let b := bit v.toNat 0
    let d := (s.chan ch).wdom
    let t := updChan s ch (fun x => x.ring b)
    if b && decide (d < 40) then
      if domOn s d then requestOn t d else updChan (requestOn t d) ch (fun x => { x with wakePend := true })
    else t)

/-- The receiver empties a full channel. -/
def Chan.empty (x : Chan) : Chan := { x with full := false, coll := false, timer := false, emptied := true }

/-- A write of GX_MB_ACK. The Keeper, MID 0x00, empties only while it runs (R333). -/
def mbAck (s : State) (mid : Mid) (ch : Nat) (v : Word) : State :=
  mbReceive s mid ch mbAckReg v (fun s =>
    if !bit v.toNat 0 || (mid.toNat == 0 && !keeperRuns s) then s else if (s.chan ch).full then updChan s ch Chan.empty else mbIll s mid ch mbAckReg v)

/-- The timer reaches `TMO`. -/
def fogStep (s : State) (ch : Nat) : State :=
  if (s.chan ch).timer then updChan s ch (fun x => { x with fog := true, timer := false }) else s

/-- A write that also touches a field of the other side: that part is dropped and counted (R322). -/
def mbForeign (s : State) (mid : Mid) (ch reg : Nat) (v : Word) (foreign : Bool) : State := if foreign then mbIll s mid ch reg v else s

/-- A write of GX_MB_CTL: each side sets its own enables, the others stay; a value that would change one of those is a write of it (log 53). -/
def mbCtl (s : State) (mid : Mid) (ch : Nat) (v : Word) : State :=
  let n := v.toNat
  let x := s.chan ch
  if x.isReceiver mid then
    mbForeign (updChan s ch (fun x => { x with rie := bit n 0, cie := bit n 1 })) mid ch mbCtlReg v (bit n 2 != x.eie || bit n 3 != x.fie)
  else if x.isSender mid then
    mbForeign (updChan s ch (fun x => { x with eie := bit n 2, fie := bit n 3 })) mid ch mbCtlReg v (bit n 0 != x.rie || bit n 1 != x.cie)
  else mbIll s mid ch mbCtlReg v

/-- A write of GX_MB_STAT: each side clears its own flags (Table 13.6); a 1 for a flag of the other side is counted (R322). -/
def mbStat (s : State) (mid : Mid) (ch : Nat) (v : Word) : State :=
  let n := v.toNat
  let x := s.chan ch
  if x.isReceiver mid then
    mbForeign (updChan s ch (fun x => { x with coll := x.coll && !bit n 1 })) mid ch mbStatReg v (bit n 2 || bit n 3)
  else if x.isSender mid then
    mbForeign (updChan s ch (fun x => { x with fog := x.fog && !bit n 2, emptied := x.emptied && !bit n 3 })) mid ch mbStatReg v (bit n 1)
  else mbIll s mid ch mbStatReg v

/-! ## Binding (R320) -/

/-- The channel that a binding makes: everything else is clear. -/
def bindChan (v : Word) : Chan :=
  let n := v.toNat
  { Chan.reset with snd := BitVec.ofNat 6 n, rcv := BitVec.ofNat 6 (n / 2 ^ 8), wdom := bf n 16 6, tmo := bf n 24 24, valid := bit n 63 }

/-- Whether the fields of a binding are legal (Table 13.8). -/
def bindLegal (v : Word) : Bool :=
  let c := bindChan v
  c.snd != c.rcv && (decide (c.wdom < 40) || c.wdom == 63)

/-- A write of GX_MB_BIND, an RWL register: locked, it has the source of R408 (log 111). -/
def mbBindWrite (s : State) (mid : Mid) (ch : Nat) (v : Word) : State :=
  if mid.toNat = 1 ∧ s.mail.lock = true then regIll s mid (mbOff ch mbBindReg) true
  else if mid.toNat = 1 ∧ bindLegal v = true then updChan s ch (fun _ => bindChan v)
  else mbIll s mid ch mbBindReg v

/-- A write of GX_MB_LOCK. -/
def mbLockWrite (s : State) (mid : Mid) (v : Word) : State :=
  if mid.toNat = 1 ∧ s.mail.lock = false then { s with mail := { s.mail with lock := bit v.toNat 0 } } else mbIll s mid 0 mbLockReg v

/-! ## Rows -/

/-- The answer of a channel's row. -/
def onChan (ch : Nat) (t : State) : Host.Outcome State Fault Refusal := if ch < 64 then .next t else noUnit

def execMbDataWrite (mid : Mid) (ch w : Nat) (v : Word) (s : State) : Host.Outcome State Fault Refusal :=
  if w < 8 then onChan ch (netWrite s mid (mbOff ch w) (mbData s mid ch w v)) else noUnit

def execMbBell (mid : Mid) (ch : Nat) (s : State) : Host.Outcome State Fault Refusal :=
  onChan ch (netWrite s mid (mbOff ch mbBellReg) (mbRing s mid ch 0))

def execMbBeacon (mid : Mid) (ch : Nat) (s : State) : Host.Outcome State Fault Refusal :=
  onChan ch (netWrite s mid (mbOff ch mbBellReg) (mbRing s mid ch 1))

def execMbEmpty (mid : Mid) (ch : Nat) (s : State) : Host.Outcome State Fault Refusal :=
  onChan ch (netWrite s mid (mbOff ch mbAckReg) (mbAck s mid ch 1))

def execMbFogTimeout (ch : Nat) (s : State) : Host.Outcome State Fault Refusal := onChan ch (fogStep s ch)

def execMbCtlWrite (mid : Mid) (ch : Nat) (v : Word) (s : State) : Host.Outcome State Fault Refusal :=
  onChan ch (netWrite s mid (mbOff ch mbCtlReg) (mbCtl s mid ch v))

def execMbBind (mid : Mid) (ch : Nat) (v : Word) (s : State) : Host.Outcome State Fault Refusal :=
  onChan ch (netWrite s mid (mbOff ch mbBindReg) (mbBindWrite s mid ch v))

def execMbLock (mid : Mid) (s : State) : Host.Outcome State Fault Refusal :=
  .next (netWrite s mid (mbOff 0 mbLockReg) (mbLockWrite s mid 1))

/-! ## Lines (R325, R326, R428) -/

/-- Whether a channel's receiver has a ring or collision interrupt, its sender an empty or Fog interrupt. A Beacon's ring waits for its domain. -/
def Chan.receiverIrq (x : Chan) : Bool := (x.full && x.rie && !(x.wakePend && x.lastBcn)) || (x.coll && x.cie)
def Chan.senderIrq (x : Chan) : Bool := (x.emptied && x.eie) || (x.fog && x.fie)

/-- Whether a channel raises an interrupt for a master. -/
def Chan.raises (x : Chan) (mid : Mid) : Bool := (x.isReceiver mid && x.receiverIrq) || (x.isSender mid && x.senderIrq)

/-- The channels whose interrupt for a master is raised. -/
def mbRaised (s : State) (mid : Mid) : List Nat := (List.range 64).filter (fun c => (s.chan c).raises mid)

/-- The mailbox interrupt line of a master: its own Keeper's stays inside the engine (Table 18.3). -/
def mbLine (s : State) (mid : Mid) : Bool := mid.toNat != 0 && mid.toNat != 0x20 + s.fuses.die && !(mbRaised s mid).isEmpty

/-- The vector of that line. -/
def mbVector (s : State) (mid : Mid) : Option Nat := (mbRaised s mid).head?

/-- `WAKE_OUT`. -/
def wakeLine (s : State) : Bool := s.mail.chans.any (·.wakePend)

end Sys2Proof.Machine
end

