-- ==== Sys2Proof/Machine/Power.lean ====
section
/-!
DEFINITION. Power (16, 18): targets and rail requests of GX_PWR_DOM (R395, R400), transitions (R393, R394, R397, R398), regulator answers (R431),
current samples and energy (R316, R432), holds (R392) and clocks (R389).
-/
namespace Sys2Proof.Machine

/-! ## GX_PWR_DOM -/

/-- Rail request of a domain set; one that is ON passes a change on at once (R400), and so does one that rises from RETAIN, whose rail is to be at
`VREQ` before it is ON (R394). -/
def PwrDom.setVreq (x : PwrDom) (v : Nat) : PwrDom :=
  if x.vreq = v then x
  else if x.state = .on ∨ (x.state = .up ∧ x.fromOff = false) then { x with vreq := v }.ask v 2 else { x with vreq := v }

/-- The value that a write of one field of GX_PWR_DOM alone stands for. -/
def pwrValue (target vreq : Nat) : Word := BitVec.ofNat 64 (target % 4 + vreq % 64 * 2 ^ 8)

/-- Offset of GX_PWR_DOM of domain `d`. -/
def pwrDomOff (d : Nat) : Nat := 0x6000 + 8 * d

/-- A write of GX_PWR_DOM of domain `d` (Table 16.6). -/
def pwrDomWrite (s : State) (mid : Mid) (d : Nat) (v : Word) : State :=
  let t := bf v.toNat 0 2
  let r := bf v.toNat 8 6
  if !isHost mid || t == 3 || (d == 39 && t == 1) || decide (60 < r) then powerIll s d v
  else setTarget (s.updDom d (fun x => x.setVreq r)) d t

/-- The answer of a domain's row. -/
def onDomain (d : Nat) (t : State) : Host.Outcome State Fault Refusal := if d < 40 then .next t else noUnit

/-- `TARGET` is written, `VREQ` as it stands. -/
def execPowerTargetWrite (mid : Mid) (d : Nat) (target : BitVec 2) (s : State) : Host.Outcome State Fault Refusal :=
  onDomain d (netWrite s mid (pwrDomOff d) (pwrDomWrite s mid d (pwrValue target.toNat (s.dom d).vreq)))

/-- `VREQ` is written, `TARGET` as it stands. -/
def execVreqWrite (mid : Mid) (d : Nat) (v : BitVec 6) (s : State) : Host.Outcome State Fault Refusal :=
  onDomain d (netWrite s mid (pwrDomOff d) (pwrDomWrite s mid d (pwrValue (s.dom d).target v.toNat)))

/-- A held target takes effect once the domain is idle (R395). -/
def heldStep (s : State) (d : Nat) : State :=
  if (s.dom d).held && domIdle s d then setTarget s d (s.dom d).target else s

def execHeldTargetApply (d : Nat) (s : State) : Host.Outcome State Fault Refusal := onDomain d (heldStep s d)

/-! ## Transitions -/

/-- The physical cores of a domain. -/
def domCores (d : Nat) : List Nat := if d < 34 then [2 * d, 2 * d + 1] else []

/-- Storage words with errors, without those of a domain. -/
def dropWords (d : Nat) (l : List (Storage × Nat)) : List (Storage × Nat) := l.filter (fun e => wordDomain e.1 e.2 != d)

/-- Every storage word of a domain is zero with valid check bits, its arrays are idle (R394; what it held went with the supply, R393). -/
def clearDomain (s : State) (d : Nat) : State :=
  { s with
    pcores := (domCores d).foldl (fun pc p => pc.modify p (fun x => { x with
      scratch := .empty, acc := .empty, planes := .empty, pmem := .empty, arrays := List.replicate 4 ArrayState.reset })) s.pcores
    cstore := if d = 34 then s.cstore.clear 0 134217728 else if d = 35 then s.cstore.clear 134217728 134217728 else s.cstore
    flt := { s.flt with single := dropWords d s.flt.single, double := dropWords d s.flt.double, wback := dropWords d s.flt.wback } }

/-- A domain that is OFF has lost all its contents (R393): of a pair's cores also what their chunk results and counters were, of the Tender its
streams and wait record, of the reduction port the segments it has buffered. -/
def loseDomain (s : State) (d : Nat) : State :=
  let t := clearDomain s d
  let u := { t with
    pcores := (domCores d).foldl (fun pc p => pc.modify p (fun x => { x with
      ceScratch := 0, ceAcc := 0, parked := [], share := List.replicate 16 0 })) t.pcores }
  match d with
  | 36 => { u with tender := { u.tender with streams := [], borrowers := [], waitRec := [] } }
  | 38 => { u with red := { u.red with early := [] } }
  | _ => u

/-- Cores that failed a self-test are retired; those that are already stay as they are. -/
def retireFailed (s : State) (ps storageBad : List Nat) : State :=
  ps.foldl (fun t p => if (t.pcore p).pstate = .retired then t else retireCore t p (!storageBad.contains p)) s

/-- Reduction links that failed training (R421, R426). -/
def failTraining (s : State) (ls : List Nat) : State :=
  ls.foldl (fun t l => if l < 3 ∧ (linkOf t (.reduction l)).failed = false then
    failRedLink (setLink t { linkOf t (.reduction l) with failed := true }) l else t) s

/-- A domain that is ON wakes the channels that wait for it (R325). -/
def wakeChannels (s : State) (d : Nat) : State :=
  { s with mail := { s.mail with chans := s.mail.chans.map (fun x => if x.wdom = d then { x with wakePend := false } else x) } }

/-- The domain is ON at the rail of `VREQ`. -/
def PwrDom.arrive (x : PwrDom) : PwrDom :=
  let y := { x with state := .on }
  if x.req = some (x.vreq, 2) then y else y.ask x.vreq 2

/-- Boot has powered up all its domains: the ROM waits for an image (Table 16.9). -/
def bootPowered (s : State) : State :=
  if s.boot.booting ∧ s.boot.phase = 1 ∧ (List.range 39).all (fun d => !(s.dom d).wantUp && domState s d != .up) = true then
    { s with boot := { s.boot with booting := false, phase := 2 }, fw := { s.fw with state := .wait } }
  else s

/-- A power-up completes. Outside boot one from OFF clears the storage and tests the cores, and the reduction port trains its links. -/
def poweredUp (s : State) (d : Nat) (failedCores storageBad failedLinks : List Nat) : State :=
  let x := s.dom d
  let t := flushAborts (wakeChannels (s.updDom d PwrDom.arrive) d)
  let u := if x.fromOff && !s.boot.booting then
      retireFailed (clearDomain t d) ((domCores d).filter (fun p => failedCores.contains p)) storageBad else t
  let v := if d = 38 ∧ x.fromOff = true then failTraining u failedLinks else u
  let w := if x.target = 2 then v else setTarget v d x.target
  bootPowered (startUps w)

/-- A power-down completes: the goal is reached, and what was asked for meanwhile follows (R398). -/
def poweredDown (s : State) (d : Nat) : State :=
  let x := s.dom d
  let goal := if x.goal = 1 then PwrState.retain else PwrState.off
  let t := if goal = .off then loseDomain s d else s
  if x.state = .pendingOn then startUps (t.updDom d (fun x => { x with state := goal, wantUp := true }))
  else setTarget (t.updDom d (fun x => { x with state := goal })) d x.target

/-- The ROM reads the fuses; then boot asks for the domains 0 to 38 (R404), or stops with an unclean read (R406). -/
def readFuses (s : State) : State :=
  if s.fuses.clean then
    startUps { s with
      boot := { s.boot with phase := 1 }
      power := { s.power with doms := s.power.doms.zipIdx.map (fun x => if x.2 < 39 then { x.1 with wantUp := true } else x.1) } }
  else
    { s with
      boot := { s.boot with phase := 6, erru := 8, booting := false }
      irq := (s.irq.raise irqFatal).raise irqBoot }

/-- Whether the rail of a domain that rises is where it has to be for the power-up to complete: from RETAIN at `VREQ` (R394). -/
def PwrDom.railUp (x : PwrDom) : Bool := x.fromOff || x.vgood

/-- `POWER_TRANSITION_DONE` of domain `d`. The first power-up of a boot has the fuse read before it (log 11). -/
def transitionStep (s : State) (d : Nat) (failedCores storageBad failedLinks : List Nat) : State :=
  let t := if s.boot.booting ∧ s.boot.phase = 0 ∧ d = 0 then readFuses s else s
  match domState t d with
  | .up => if (t.dom d).railUp then poweredUp t d failedCores storageBad failedLinks else t
  | .down => poweredDown t d
  | .pendingOn => poweredDown t d
  | _ => t

def execPowerTransitionDone (d : Nat) (failedCores storageBad failedLinks : List Nat) (s : State) : Host.Outcome State Fault Refusal :=
  onDomain d (transitionStep s d failedCores storageBad failedLinks)

/-- An acknowledge counts if its code is that of the latest request (R431). -/
def ackStep (s : State) (d : Nat) (code : Nat) : State :=
  match (s.dom d).req with
  | some (c, _) => if c = code then s.updDom d (fun x => { x with vgood := true, vack := code }) else s
  | none => s

def execRegulatorAck (d : Nat) (code : BitVec 6) (s : State) : Host.Outcome State Fault Refusal := onDomain d (ackStep s d code.toNat)

/-! ## Samples and energy (R316, R432) -/

def execCurrentSample (d : Nat) (tenMa : BitVec 16) (s : State) : Host.Outcome State Fault Refusal :=
  onDomain d { s with accts := { s.accts with samples := assocSet 0 s.accts.samples d tenMa.toNat } }

/-- Current of an island in an interval, in units of 10 mA, from the latest samples. What part of a sample belongs to one of two islands of a domain, and
the current of the always-on ones, are free (log 56). -/
def islandCurrent (s : State) (dom : Nat) : Nat :=
  let at_ := fun (d : Nat) => lookupD 0 s.accts.samples d
  let part := fun (d : Nat) => (Config.sampled s.free 8).toNat % (at_ d + 1)
  if dom < 68 then part (dom / 2)
  else match dom with
    | 68 => at_ 34 + at_ 35
    | 69 => part 36
    | 70 => at_ 37
    | 72 => part 36
    | 74 => at_ 38
    | _ => (Config.sampled s.free 9).toNat % 65536

/-- Energy into an account, in units of 10 pJ; the idle account keeps what is below 1 nJ. -/
def chargeIdle (s : State) (e : Nat) : State :=
  let n := s.accts.idleRest + e
  charge { s with accts := { s.accts with idleRest := n % 100 } } idleAccount { Account.zero with energy := n / 100 }

/-- One share of an interval: exact for a command until its reply. -/
def giveShare (s : State) (x : EnergyTo × Rat) : State :=
  match x.1 with
  | .client c => charge s (c % 65536) { Account.zero with energy := (x.2 / 100).floor.toNat }
  | .save j => chargeSave s (s.conf.job j).saveClient { Account.zero with energy := (x.2 / 100).floor.toNat }
  | .restore j => { s with conf := s.conf.updJob j (fun b => { b with oweEnergy := b.oweEnergy + x.2 }) }
  | .command k => { s with q := { s.q with cmds := s.q.cmds.modify k (fun c => { c with energy := c.energy + x.2 }) } }

/-- The jobs whose commands run on a core island. -/
def islandJobs (s : State) (dom : Nat) : List Nat :=
  (List.range 8).filter (fun j => ((s.conf.job j).active || (s.conf.job j).saving) && (s.conf.job j).cores.any (fun l => unitsOf s.pcores l == some dom))

/-- Whether a share of an island's interval names somebody (R315, R316). On a core island: a started command of a job of that core that runs on cores,
or, for ballast, the client of that job's last command (R79). Elsewhere: a command, whose packet, prefetch or run moved bytes. On either: the save of a
job that waits to be switched, and the restore of a job. -/
def shareNamed (s : State) (dom : Nat) (x : EnergyTo × Nat) : Bool :=
  let jobs := islandJobs s dom
  match x.1 with
  | .client c => decide (dom < 68) && jobs.any (fun j => (s.conf.job j).lastClient == c && c != noClient)
  | .command k => (s.q.cmds[k]?).any (fun c =>
      if dom < 68 then isCoreOp c.op && (c.stage == .started || c.stage == .ended) && jobs.contains c.job else true)
  | .save j => (s.conf.job j).saving && (s.conf.job j).saveClient != noClient
  | .restore j => (s.conf.job j).oweBytes != 0

/-- `ENERGY_INTERVAL` of timing domain `dom` at `mv` millivolts: in proportion to the weights, and to the idle account where there are none or the
domain is the Keeper or the control boundary. -/
def energyStep (s : State) (dom mv : Nat) (shares : List (EnergyTo × Nat)) : State :=
  let e := islandCurrent s dom * mv
  let to_ := shares.filter (shareNamed s dom)
  let w := (to_.map (·.2)).sum
  let t := if dom = 71 ∨ dom = 73 ∨ w = 0 then chargeIdle s e
    else to_.foldl (fun t x => giveShare t (x.1, (e : Rat) * x.2 / w)) s
  { t with free := s.free + 1 }

def execEnergyInterval (dom mv : Nat) (shares : List (EnergyTo × Nat)) (s : State) : Host.Outcome State Fault Refusal :=
  if dom < 75 then .next (energyStep s dom mv shares) else noUnit

/-! ## Holds (R392) and clocks (R389) -/

/-- Switched domains that supply a timing domain; the Keeper's is always on. -/
def suppliesOf (dom : Nat) : List Nat :=
  if dom < 68 then [dom / 2]
  else match dom with
    | 68 => [34, 35]
    | 69 => [36]
    | 70 => [37]
    | _ => []

/-- Whether a timing domain monitors rail and temperature now: it is self-timed and supplied. -/
def monitors (s : State) (dom : Nat) : Bool := decide (dom < 72) && (dom == 71 || (suppliesOf dom).any (domOn s))

/-- A hold is counted in the domains concerned and raises the power interrupt. -/
def countHold (s : State) (dom : Nat) (f : PwrDom → PwrDom) : State :=
  let t := (suppliesOf dom).foldl (fun t d => t.updDom d f) s
  { t with irq := t.irq.raise irqPower }

/-- The rail falls below 0.52 V. -/
def uvHold (s : State) (dom : Nat) : State :=
  if monitors s dom && !s.power.uv.contains dom then
    countHold { s with power := { s.power with uv := s.power.uv ++ [dom] } } dom (fun x => { x with uvcnt := satTo 65535 (x.uvcnt + 1) })
  else s

/-- What has waited at a crossing goes on once nothing holds it: aborts of collectives, and queues that wait for their contexts (R280, R389). -/
def released (s : State) : State := serveIdle (flushAborts s)

/-- The rail is at 0.54 V or more again. -/
def uvRelease (s : State) (dom : Nat) : State := released { s with power := { s.power with uv := s.power.uv.filter (· != dom) } }

/-- The temperature rises above 110 °C. -/
def thHold (s : State) (dom tempC : Nat) : State :=
  if monitors s dom && decide (110 < tempC) && !s.power.th.contains dom then
    countHold { s with power := { s.power with th := s.power.th ++ [dom] } } dom (fun x => { x with thcnt := satTo 65535 (x.thcnt + 1) })
  else s

/-- The temperature falls to 100 °C or below. -/
def thRelease (s : State) (dom tempC : Nat) : State :=
  if tempC ≤ 100 then released { s with power := { s.power with th := s.power.th.filter (· != dom) } } else s

/-- Whether a domain has a clock from the host (Table 16.2). -/
def clocked (dom : Nat) : Bool := dom == 72 || dom == 73 || dom == 74

/-- A boundary clock stops; the crossings of its domain hold. -/
def stopClock (s : State) (dom : Nat) : State :=
  if clocked dom && !s.power.stopped.contains dom then { s with power := { s.power with stopped := s.power.stopped ++ [dom] } } else s

/-- The clock returns. -/
def resumeClock (s : State) (dom : Nat) : State := released { s with power := { s.power with stopped := s.power.stopped.filter (· != dom) } }

/-- The answer of a timing domain's row. -/
def onTiming (dom : Nat) (t : State) : Host.Outcome State Fault Refusal := if dom < 75 then .next t else noUnit

def execUndervoltageHold (dom : Nat) (s : State) : Host.Outcome State Fault Refusal := onTiming dom (uvHold s dom)

def execUndervoltageRelease (dom : Nat) (s : State) : Host.Outcome State Fault Refusal := onTiming dom (uvRelease s dom)

def execThermalHold (dom tempC : Nat) (s : State) : Host.Outcome State Fault Refusal := onTiming dom (thHold s dom tempC)

def execThermalRelease (dom tempC : Nat) (s : State) : Host.Outcome State Fault Refusal := onTiming dom (thRelease s dom tempC)

def execClockStop (dom : Nat) (s : State) : Host.Outcome State Fault Refusal := onTiming dom (stopClock s dom)

def execClockResume (dom : Nat) (s : State) : Host.Outcome State Fault Refusal := onTiming dom (resumeClock s dom)

end Sys2Proof.Machine
end

