-- ==== Sys2Proof/Machine/Boot.lean ====
section
/-!
DEFINITION. Resets (R401, R402, Table 16.8), the extent of the die's memory (R423), and the end of the boot self-test with the mapping of logical
IDs (R405, R406, R348).
-/
namespace Sys2Proof.Machine

/-! ## Resets -/

/-- The die's memory at a reset: writes that have begun their transfer complete (R402). -/
def memAtReset (s : State) : Memory := s.mem.dieStores s.extent ((s.tender.xfers.filter (·.write)).map (fun x => .bytes (x.addr + x.skip) x.data))

/-- The retire table entry of a core, with units and storage as after reset (Table 16.8). -/
def PCore.keepEntry (x : PCore) : PCore :=
  { PCore.reset with
    pstate := x.pstate, seeded := x.seeded, lidA := x.lidA, lidB := x.lidB, partner := x.partner, stamp0 := x.stamp0, stamp1 := x.stamp1
    life := x.life }

/-- What no reset touches: memory, fuses, the clocks from the host, the test access port; and, of the model's own, the waiting commands and the
counter of the free values. -/
def State.afterReset (s : State) (isCold : Bool) : State :=
  { State.reset with
    pending := s.pending
    mem := memAtReset s
    conf := Conf.reset s.fuses
    fuses := s.fuses
    power := { State.reset.power with stopped := s.power.stopped }
    boot := { State.reset.boot with cold := isCold }
    tap := s.tap
    free := s.free }

/-- Cold reset. -/
def coldReset (s : State) : State := s.afterReset true

/-- Warm reset keeps the accounts, the retire table, the retirement seed and the count of Daymarks (Table 16.8, Table 15.3). -/
def warmReset (s : State) : State :=
  let t := s.afterReset false
  { t with
    pcores := s.pcores.map PCore.keepEntry
    accts := { t.accts with list := s.accts.list, total := s.accts.total, idleRest := s.accts.idleRest }
    flt := { t.flt with seed0 := s.flt.seed0, seed1 := s.flt.seed1 }
    q := { t.q with dmseq := s.q.dmseq } }

/-- Offset of GX_RST. -/
def rstOff : Nat := 0x1008

/-- A write of GX_RST (R401). -/
def rstWrite (s : State) (mid : Mid) (v : Word) : State :=
  if mid.toNat ≠ 1 then powerIll s 63 v
  else match bf v.toNat 0 2 with
    | 1 => warmReset s
    | 2 => coldReset s
    | _ => s

/-- A reset line acts once it has stayed asserted for 16 control cycles (R429). -/
def execColdResetLine (cycles : Nat) (s : State) : Host.Outcome State Fault Refusal := .next (if 16 ≤ cycles then coldReset s else s)

def execWarmResetLine (cycles : Nat) (s : State) : Host.Outcome State Fault Refusal := .next (if 16 ≤ cycles then warmReset s else s)

def execRstCold (mid : Mid) (s : State) : Host.Outcome State Fault Refusal := .next (netWrite s mid rstOff (rstWrite s mid 2))

def execRstWarm (mid : Mid) (s : State) : Host.Outcome State Fault Refusal := .next (netWrite s mid rstOff (rstWrite s mid 1))

/-- The always-on Keeper domain powers up: a cold reset; the test access port, always on too, starts in its reset state. -/
def execKeeperDomainPowerUp (s : State) : Host.Outcome State Fault Refusal := .next { coldReset s with tap := State.reset.tap }

/-! ## FABRIC_EXTENT_REPORT (R423) -/

/-- The extent reported at boot is held until the next reset. -/
def extentStep (s : State) (bytes : Nat) : State := if s.extent = 0 then { s with extent := bytes } else s

def execFabricExtentReport (bytes : Nat) (s : State) : Host.Outcome State Fault Refusal := .next (extentStep s bytes)

/-! ## BOOT_SELF_TEST_DONE -/

/-- Whether a core is retired by fuse or by the seed. -/
def seededCore (s : State) (p : Nat) : Bool :=
  s.fuses.retired.contains p || (if p < 64 then bit s.flt.seed0.toNat p else bit s.flt.seed1.toNat (p - 64))

/-- Whether a core is retired before the self-test: by fuse, by the seed, or by the retire table, where a `STORE` core is a retired one (R348). -/
def retiredBefore (s : State) (p : Nat) : Bool :=
  seededCore s p || (s.pcore p).pstate == .retired || (s.pcore p).pstate == .store

/-- The retire table before the moves: each core that works serves its own number, or is a spare. -/
def freshEntry (dead seeded : Bool) (x : PCore) (p : Nat) : PCore :=
  { x with
    pstate := if dead then .retired else if p < 64 then .active else .spare
    seeded := seeded
    lidA := if dead || decide (64 ≤ p) then none else some p
    lidB := none
    partner := none }

/-- The storage is cleared by the self-test (R405). -/
def PCore.cleared (x : PCore) : PCore := { x with scratch := .empty, acc := .empty, planes := .empty, pmem := .empty }

/-- Logical IDs whose own core is retired pass on, in ascending order (R348). -/
def mapIds (s : State) (storageBad : List Nat) : State :=
  (List.range 64).foldl (fun t l => if (t.pcore l).pstate = .retired then passId t l l (!storageBad.contains l) else t) s

/-- Boot stops in `PHASE` 6 (R406). -/
def bootError (s : State) (erru : Nat) : State :=
  { s with boot := { s.boot with phase := 6, erru := erru }, irq := (s.irq.raise irqFatal).raise irqBoot }

/-- The units as the self-test leaves them: storage clear, failed cores retired and recorded, failed ports and links out of service. -/
def selfTested (s : State) (r : BootResult) : State :=
  let failed := (List.range 68).filter (fun p => r.failedCores.contains p && !retiredBefore s p)
  let dead := fun p => retiredBefore s p || failed.contains p
  let t := failed.foldl (fun t p => coreFault t 9 2 p none) s
  let u := { t with
    pcores := t.pcores.zipIdx.map (fun x => freshEntry (dead x.2) (seededCore s x.2) x.1.cleared x.2)
    cstore := .empty
    flt := { t.flt with single := [], double := [], wback := [] }
    boot := { t.boot with btfail := failed.length % 256, btime := satTo (2 ^ 24 - 1) r.timeUs } }
  let v := (r.failedPorts.eraseDups.filter (fun k => decide (k < 8))).foldl (fun t k => retirePort (setLink t { linkOf t (.fabric k) with failed := true }) k) u
  failTraining v r.failedRLinks.eraseDups

/-- The self-test ends: `PHASE` 5, or 6 with its unit. -/
def selfTestStep (s : State) (r : BootResult) : State :=
  if s.boot.phase ≠ 3 then s
  else
    let t := selfTested s r
    if r.failedUnit ≠ 0 then bootError t (r.failedUnit % 16)
    else if t.flt.ports = 0 then bootError t 6
    else
      let u := mapIds t r.storageBad
      if u.flt.lost then bootError u 7
      else { u with boot := { u.boot with phase := 5, erru := 0 }, irq := u.irq.raise irqBoot }

def execBootSelfTestDone (r : BootResult) (s : State) : Host.Outcome State Fault Refusal := .next (selfTestStep s r)

end Sys2Proof.Machine
end

