-- ==== Sys2Proof/Machine/Central.lean ====
section
/-!
DEFINITION. The turns of the Lens central stage (R186): one unit of `LENS` or `PRUNE`, of a fold pass (R174) or of parity folding (R375) at a time,
and the repeats of a unit that failed (R356).
-/
namespace Sys2Proof.Machine

/-- A failed unit is done again; after 16 failures in a row its command ends with `UNCORR` and a fault record is written (R356, R359). -/
def unitError (s : State) (c : Cmd) : State :=
  if c.retries = 15 then engineFault { endUncorr s c 1 with turn := c.qid } 12 3 0 0
  else { s with q := s.q.updCmd (fun d => d.same c) (fun d => { d with retries := d.retries + 1 }), turn := c.qid }

/-- The command after one more unit. -/
def Cmd.unitDone (c : Cmd) (wrs : List Wr) (staged : List Res) : Cmd :=
  let m := wrs.foldl (fun m w => m.add w.idx w.v) Meter.zero
  let all := (c.staged.map (·.2)).flatten ++ staged
  let st := if (c.d 1).ralias then [(1, all)] else []
  { c.addMeter (c.d 1).tid m with
    units := c.units + 1, retries := 0, staged := st
    stage := if c.units + 1 = lensUnits c ∧ st = [] then .ended else .started }

/-- One unit of parity folding; behind the last one the leaf enters the tree. What it folds is the collective's leaf. -/
def parityUnit (s : State) (c : Cmd) : State :=
  let t := { s with
    q := (s.q.updCmd (fun d => d.same c) (fun d => { d with folded := d.folded + 1, retries := 0 })).upd c.qid
      (fun x => { x with cnt := x.cnt.bumps [(1, 4, 1)] })
    turn := c.qid }
  if c.folded + 1 = c.foldUnits then collEnter t c else t

/-- `LENS_UNIT` (R186): one unit of the next ready user; `err` says that the stage detected an error in it, whosever it is. Where the turn is a fold
pass's, the unit is that row's (log 80). -/
def lensUnitStep (s : State) (err : Bool) : State :=
  if centralUp s then
    match centralUser s with
    | none => s
    | some c =>
      if err then unitError s c
      else if isFolder c then s
      else if c.op = 0x63 then parityUnit s c
      else
        let r := if c.op = 0x40 then lensUnit s c else (pruneUnit s c, [], 0)
        { s with
          mem := s.mem.dieStores s.extent r.1.stores
          q := (s.q.updCmd (fun d => d.same c) (fun d => { d.unitDone r.1.wrs r.2.1 with
              wr := d.wr + storeBytes s.extent r.1.stores + 8 * r.2.1.length })).upd c.qid
            (fun x => { x with cnt := x.cnt.bumps [(1, 0, r.1.sat), (1, 1, r.1.lost), (1, 3, r.2.2), (1, 4, 1)] })
          turn := c.qid
          free := s.free + 1 }
  else s

def execLensUnit (err : Bool) (s : State) : Host.Outcome State Fault Refusal := .next (lensUnitStep s err)

/-! ## The fold pass (R174) -/

/-- The command of a queue whose fold pass has the central stage's turn. -/
def foldWaiting (s : State) (q : Nat) : Option Cmd :=
  if centralUp s then (centralUser s).filter (fun c => isFolder c && c.qid == q) else none

/-- Figures of the output with rank `k` set to a fold's measurement. -/
def foldExc (old : Option ExcRec) (k : Nat) (m : Meter) : Option ExcRec :=
  let new : Option ExcRec := if m.inf.isSome || m.nan.isSome then some ⟨k, m.inf, m.nan⟩ else none
  match old, new with
  | some a, some b => if b.outn < a.outn then some b else some a
  | some a, none => some a
  | none, b => b

/-- `ALIAS_FOLD_PASS` (R174): one unit of the staged descriptor that the queue's command folds; with its last unit the descriptor is measured, and after
the last descriptor the command has ended. -/
def foldStep (s : State) (q : Nat) : State :=
  match foldWaiting s q with
  | none => s
  | some c => match c.staged with
    | [] => s
    | (pos, rs) :: rest =>
      let d := c.d pos
      let u := foldUnit s c pos rs c.folded
      let last := decide (unitCount d (batchOf c).2 ≤ c.folded + 1)
      let r := (foldOne s c pos rs).1
      let rank := (outPositions c).findIdx (· == pos)
      let z := zoutOf c
      let zs := if last = true ∧ z.2 = pos then zeroMapStore z.1 d (batchOf c).2 r.wrs else []
      let chained := c.chain == 1 && pos == mainOut c
      let ws := (if chained && !c.wt then [] else u.1) ++ zs
      { s with
        mem := s.mem.dieStores s.extent ws
        turn := c.qid
        q := (s.q.updCmd (fun x => x.same c) (fun x =>
          let y := { x with wr := x.wr + storeBytes s.extent ws, retries := 0, folded := if last then 0 else x.folded + 1 }
          if last then { y with
            staged := rest
            stage := if rest.isEmpty then .ended else .started
            infF := x.infF || r.meter.inf.isSome
            nanF := x.nanF || r.meter.nan.isSome
            exc := foldExc x.exc rank r.meter
            amaxOut := x.amaxOut.modify rank (fun _ => (d.tid, r.meter.amax))
            normLeaves := if normOf c pos then x.normLeaves ++ r.norms else x.normLeaves }
          else y)).upd c.qid
            (fun x => { x with
              chained := if chained then x.chained ++ u.1 else x.chained
              chainMade := x.chainMade || (chained && last)
              cnt := x.cnt.bumps [(1, 0, u.2.1), (1, 1, u.2.2), (1, 4, 1)] }) }

def execAliasFoldPass (q : Nat) (s : State) : Host.Outcome State Fault Refusal := onQueue q (foldStep s q)

end Sys2Proof.Machine
end

