-- ==== Sys2Proof/Machine/Daymark.lean ====
section
/-!
DEFINITION. `SAVE` (R311), and `DAYMARK` with its capture and `RESTORE` (R363-R369, R381-R384), with the layouts of amax slots and accounts
(Tables 12.3, 17.10).
-/
namespace Sys2Proof.Machine

/-! ## SAVE -/

/-- `SAVE` of queue `q`: once nothing else of its job runs, the job is saved to the area; the job that follows is the one that the Keeper selects
(R311). A word of its storage that cannot be corrected ends it with `UNCORR` and nothing is saved (R357). -/
def saveOp (s : State) (q : Nat) : State :=
  match startable s q 0x60 with
  | none => s
  | some c =>
    if jobBusy s c.job (fun d => d.same c) || holdsCollective s c.job then s
    else
      let bad := (saveSpans s c.job).flatMap (fun x => badWords s x.1 x.2.1 x.2.2)
      if !bad.isEmpty then endUncorr (bad.foldl (fun t w => storageFault t 4 3 false w.1 w.2) (beginCmd s c)) c bad.length
      else
        let t := endWith (beginCmd s c) c []
        let t := if sharesPlacement t c.job then bookOverrun t c.job else t
        let k := selectJob t c.job
        let a := saveArea s c
        saveJob t c.job k a.1 a.2 (b2n (k.any (· != c.job)), 0)

/-- `SAVE`. -/
def execSave (q : Nat) (s : State) : Host.Outcome State Fault Refusal := onQueue q (saveOp s q)

/-! ## Records (Tables 12.3, 17.10) -/

/-- The 80 bytes of an amax slot. -/
def AmaxSlot.bytes (x : AmaxSlot) : List Byte :=
  (List.range 16).flatMap (fun i => leBytes 4 (if x.evalid.getLsbD i then (x.entries.getD i 0).toNat else 0)) ++
  leBytes 8 (x.headStep.toNat + x.headPtr.toNat * 2 ^ 48 + x.m.toNat * 2 ^ 52 + b2n x.written * 2 ^ 55 + x.scale.toNat * 2 ^ 56) ++
  leBytes 8 (x.evalid.toNat + x.derivStep.toNat * 2 ^ 16)

/-- The amax slot that 640 bits spell. -/
def parseAmax (w : Nat) : AmaxSlot where
  entries := (List.range 16).map (fun i => BitVec.ofNat 32 (bf w (32 * i) 32))
  evalid := BitVec.ofNat 16 (bf w 576 16)
  headStep := BitVec.ofNat 48 (bf w 512 48)
  headPtr := BitVec.ofNat 4 (bf w 560 4)
  m := BitVec.ofNat 3 (bf w 564 3)
  written := bit w 567
  scale := BitVec.ofNat 8 (bf w 568 8)
  derivStep := BitVec.ofNat 48 (bf w 592 48)

/-- The 64 bytes of an account. -/
def Account.bytes (a : Account) : List Byte :=
  leBytes 8 a.cwaves ++ leBytes 8 a.cns ++ leBytes 8 a.xns ++ leBytes 8 a.rbytes ++ leBytes 8 a.wbytes ++ leBytes 8 a.energy ++ leBytes 8 a.overrun ++
  leBytes 4 a.cmds ++ leBytes 4 0

/-! ## DAYMARK (R364) -/

/-- `DAYMARK` starts and holds the listed queues. It opens no group of its own queue before its capture (log 43). -/
def daymarkOp (s : State) (c : Cmd) : State :=
  let was := (s.q.find c.qid).any (·.groupOpen)
  let t := beginCmd s c
  { t with q := (t.q.upd c.qid (fun x => { x with groupOpen := was })).updCmd (fun d => d.same c) (fun d =>
      { d with stage := .started, held := dmQueues s c }) }

/-- `DAYMARK`. -/
def execDaymark (q : Nat) (s : State) : Host.Outcome State Fault Refusal :=
  onQueue q (match startable s q 0x62 with
    | some c => daymarkOp s c
    | none => s)

/-- Whether a listed queue has reached the cut of the `DAYMARK` `c`. -/
def atCut (s : State) (c : Cmd) (q : Nat) : Bool :=
  !(queueCmds s q).any (fun d => d.inFlight && !d.same c) && !(ctxOf s q).loopActive &&
  (match s.q.find q with
    | some x => !x.groupOpen
    | none => !s.q.groups.contains q)

/-! ## Capture (R365, R369) -/

/-- A context as the engine holds it; reserved bits are written as 0 (R7). -/
def ctxBytes (s : State) (q : Nat) : List Byte :=
  match s.q.find q with
  | some x => x.ctx.bytes
  | none => (memCtx s q).bytes

/-- The 16 bytes of a work counter: value, limit, epoch (log 42). -/
def WorkCtr.bytes (k : WorkCtr) : List Byte := leBytes 4 k.value ++ leBytes 4 k.limit ++ leBytes 8 k.epoch

/-- The engine block: counters first, then last completed `CSEQ`, positions and dies, die tags, stack tags, HSIZE code (log 42). -/
def engineBlock (s : State) (j : Nat) : List Byte :=
  let l := (s.conf.job j).ctrs.flatMap WorkCtr.bytes ++ leBytes 4 s.red.lastCseq ++ leBytes 4 s.conf.npos ++ s.conf.posDie.flatMap (leBytes 1) ++
    s.conf.dieTags.flatMap (leBytes 1) ++ s.conf.stackTags.flatMap (leBytes 1) ++ leBytes 8 s.conf.hsize
  l ++ List.replicate (4096 - l.length) 0

/-- The parts that the engine writes behind the header, in table order, each of one contiguous piece. -/
def captureParts (s : State) (c : Cmd) : List Store :=
  let a := c.pf 0 0 48
  let k := dmCounts s a
  let amaxAt := a + 20480 + 512 * k.qs
  let seedAt := amaxAt + 80 * k.tids
  let acctAt := seedAt + 8 * k.cls
  let strAt := acctAt + 64 * (k.cls + 1)
  [.bytes (a + 16384) (engineBlock s c.job)] ++
  (List.range k.qs).map (fun i => .bytes (a + 20480 + 512 * i) (ctxBytes s (dmQueue s a i))) ++
  (List.range k.tids).map (fun i => .bytes (amaxAt + 80 * i) (s.amax.slot (k.tidBase + i)).bytes) ++
  (List.range k.cls).map (fun i => .bytes (seedAt + 8 * i) (leBytes 8 (lookupD 0 s.conf.seeds (k.clBase + i)).toNat)) ++
  (List.range k.cls).map (fun i => .bytes (acctAt + 64 * i) (s.accts.of (k.clBase + i)).bytes) ++
  [.bytes (acctAt + 64 * k.cls) (s.accts.of idleAccount).bytes] ++
  (List.range k.xs).map (fun i =>
    let x := dmStream s a i
    .bytes (strAt + 16 * i) (dieBytes s.mem s.extent x.1 8 ++ dieBytes s.mem s.extent x.2.1 8))

/-- The engine part of the header but for `MAGIC` and `CRC`: `VER`, `STEP`, `DMSEQ`, `LCSEQ`, flags, `SIZE`. -/
def headerPart (s : State) (c : Cmd) : Store :=
  let a := c.pf 0 0 48
  let pos := position s
  .bytes (a + 4) (leBytes 4 1 ++ leBytes 8 c.step ++ leBytes 4 (s.q.dmseq + 1) ++ leBytes 4 s.red.lastCseq ++
    leBytes 8 (b2n (c.pb 2 0) + b2n c.weak * 2 + c.job * 4 + s.fuses.die * 32 + pos.getD 0 * 256 + b2n pos.isSome * 2048 + s.conf.npos * 4096) ++
    leBytes 8 (dmBytes (dmCounts s a)))

/-- `MAGIC` and `CRC`, written when every other byte is there. -/
def sealArea (s : State) (c : Cmd) : List Store :=
  let a := c.pf 0 0 48
  let bytes := dieBytes s.mem s.extent a (dmBytes (dmCounts s a))
  let head := leBytes 4 0x444D4B31
  [.bytes (a + 40) (leBytes 8 (crc64 (head ++ (bytes.drop 4).take 36 ++ List.replicate 8 0 ++ bytes.drop 48))), .bytes a head]

/-- The export copies, in order, with the bytes that lie outside the die's memory. -/
def exportCopies (area : Nat) : List Nat → State → (Nat × Option Nat) → State × (Nat × Option Nat)
  | [], s, o => (s, o)
  | e :: r, s, o =>
    let x := dmExport s area e
    let a := outsideBytes s.extent x.1 x.2.2
    let b := outsideBytes s.extent x.2.1 x.2.2
    exportCopies area r { s with mem := s.mem.dieStores s.extent [.bytes x.2.1 (dieBytes s.mem s.extent x.1 x.2.2)] } (o.1 + a.1 + b.1, minOpt o.2 (minOpt a.2 b.2))

/-- The words of the engine reserve of the central store, where the accounts lie, that a capture meets and cannot correct; which of them it
reads is free (log 44). -/
def captureBad (s : State) : List (Storage × Nat) :=
  s.flt.double.filter (fun w => w.1 == .central && decide (260046848 ≤ w.2) && Config.begun s.free w.2)

/-- Writes the area of the `DAYMARK` `c`, releases the listed queues, copies the exports and ends it. -/
def capture (s : State) (c : Cmd) : State :=
  let t := { s with mem := s.mem.dieStores s.extent (captureParts s c ++ [headerPart s c]) }
  let u := { t with
    mem := t.mem.dieStores t.extent (sealArea t c)
    q := { t.q.upd c.qid (fun x => { x with groupOpen := true, cnt := x.cnt.bump 5 3 (Config.sampled t.free 1).toNat }) with dmseq := (t.q.dmseq + 1) % 2 ^ 32 }
    free := t.free + 1 }
  let a := c.pf 0 0 48
  let v := if c.pb 2 0 then exportCopies a (List.range (dmCounts s a).es) u (0, none) else (u, (0, none))
  (endWith v.1 c (oobCond (0, none) [v.2])).updCmd c (fun d => { d with held := [] })

/-- `DAYMARK_CAPTURE` of queue `q`. A word that cannot be corrected ends the `DAYMARK` without `MAGIC`; what else is written is free. -/
def captureStep (s : State) (q : Nat) : State :=
  if !keeperRuns s then s else
  match runningOp s q 0x62 with
  | none => s
  | some c =>
    if !(c.held.all (atCut s c)) || s.tender.cmdHeld c.qid c.seq then s
    else
      let bad := captureBad s
      if bad.isEmpty then capture s c
      else
        let ws := ((captureParts s c).zipIdx.filter (fun x => Config.begun (s.free + 1) x.2)).map (·.1)
        let t := bad.foldl (fun t w => storageFault t 4 3 false .central w.2) s
        endUncorr { t with mem := t.mem.dieStores t.extent ws, free := t.free + 2 } c bad.length

/-- `DAYMARK_CAPTURE`. -/
def execDaymarkCapture (q : Nat) (s : State) : Host.Outcome State Fault Refusal := onQueue q (captureStep s q)

/-! ## RESTORE (R383) -/

/-- The context that a queue record gives: `STATE` `OFF`, `TAIL` = `HEAD`, `PRD` = `PWR`. -/
def restoredCtx (c : QCtx) : List Byte := { c with state := .off, tail := c.head, prd := c.pwr }.bytes

/-- The stores of step 1, and of step 5: counter words realigned under `AFLAG`. -/
def restoreStores (s : State) (c : Cmd) : List Store :=
  let a := c.pf 0 0 48
  let k := dmCounts s a
  (List.range k.qs).map (fun i => .bytes (ctxAddr s.q (dmQueue s a i)) (restoredCtx (dmCtx s a i))) ++
  (List.range k.xs).flatMap (fun i =>
    let r := dmRecord s a i
    let x := dmStream s a i
    [.bytes x.1 (leBytes 8 (if c.pb 2 0 then r.2 * x.2.2 % 2 ^ 64 else r.1)), .bytes x.2.1 (leBytes 8 r.2)])

/-- The work counters of an engine block; a bitmap is empty outside its command. -/
def restoredCtrs (s : State) (area : Nat) : List WorkCtr :=
  (List.range 16).map (fun i =>
    let w := dieLe s.mem s.extent (area + 16384 + 16 * i) 16
    ⟨bf w 0 32, bf w 32 32, bf w 64 64, []⟩)

/-- `RESTORE` writes contexts, counters, amax slots, seeds, the last completed `CSEQ` and the external streams. -/
def restoreOp (s : State) (c : Cmd) : State :=
  let a := c.pf 0 0 48
  let k := dmCounts s a
  let amaxAt := a + 20480 + 512 * k.qs
  let seedAt := amaxAt + 80 * k.tids
  let seeds := (List.range k.cls).foldl (fun l i => assocSet 0 l (k.clBase + i) (BitVec.ofNat 64 (dieLe s.mem s.extent (seedAt + 8 * i) 8))) s.conf.seeds
  endWith { s with
    mem := s.mem.dieStores s.extent (restoreStores s c)
    q := { s.q with
      groups := s.q.groups.filter (fun q => !(dmQueues s c).contains q)
      kept := s.q.kept.filter (fun x => !(dmQueues s c).contains x.qid)
      waitItems := s.q.waitItems.filter (fun e => !(dmQueues s c).contains e.1) }.dropMargins (fun t => decide (k.tidBase ≤ t ∧ t < k.tidBase + k.tids))
    conf := { s.conf.updJob c.job (fun b => { b with ctrs := restoredCtrs s a }) with seeds := seeds }
    amax := (List.range k.tids).foldl (fun m i => m.setSlot (k.tidBase + i) (parseAmax (dieLe s.mem s.extent (amaxAt + 80 * i) 80))) s.amax
    red := { s.red with lastCseq := dieLe s.mem s.extent (a + 20) 4, doneAhead := [] } } c []

/-- `RESTORE`. -/
def execRestore (q : Nat) (s : State) : Host.Outcome State Fault Refusal := onQueue q (startOp s q 0x61 restoreOp)

end Sys2Proof.Machine
end

