-- ==== Sys2Proof/Machine/Fabric.lean ====
section
/-!
DEFINITION. FABRIC_RESPONSE (R424) and the page-fault actions (R167), for the transfers of streams and for the control accesses of R143. A control
access is answered where the work that makes it could go on: `OK` leaves the access to that work's own row, and a translation fault halts the work
until the head record is resumed or aborted.
-/
namespace Sys2Proof.Machine

/-! ## Control accesses (R143, Table 6.1a) -/

/-- The control accesses that a command makes when it runs (Table 6.1a): address, length, whether it writes. Sector-mask bitmaps; `XSTAT` bytes and `XNORM`
entries; pool headers, read and written; leaf lists and `GOUT` records; trip and `WAITQ` words; images, argument blocks and counter tables; Daymark areas,
in a capture also the words of streams and the contexts that are not resident; code-group tables and stamps; item tables. -/
def Cmd.ownAccesses (s : State) (c : Cmd) : List (Nat × Nat × Bool) :=
  let at_ := fun (k n : Nat) (w : Bool) => if n = 0 then [] else [(c.pf k 0 48, n, w)]
  match c.op with
  | 0x10 | 0x12 => if c.pf 0 7 2 = 0 then [] else at_ 1 (maskBytes c) false
  | 0x31 => (if c.pf 4 0 48 = 0 then [] else at_ 4 c.xE true) ++ (if c.pf 5 0 48 = 0 then [] else at_ 5 (8 * c.xE) true)
  | 0x30 | 0x32 => at_ 2 80 false ++ at_ 2 80 true
  | 0x49 => at_ 1 (16 * c.pf 0 0 11) false ++ at_ 3 16 true
  | 0x52 => at_ 0 4 false
  | 0x53 => at_ 0 8 false
  | 0x58 => at_ 0 (8 * c.pf 1 0 14) false ++ at_ 2 (c.pf 1 32 9) false ++ at_ 3 (8 * c.pf 3 48 5) false
  | 0x61 => at_ 0 (c.pf 1 0 40) false
  | 0x62 =>
    let a := c.pf 0 0 48
    let k := dmCounts s a
    if c.stage = .started then at_ 0 (c.pf 1 0 40) true ++
      (List.range k.xs).flatMap (fun i => let x := dmStream s a i; [(x.1, 8, false), (x.2.1, 8, false)]) ++
      (c.held.filter (fun q => (s.q.find q).isNone)).map (fun q => (ctxAddr s.q q, 512, false))
    else at_ 0 (c.pf 1 0 40) false
  | 0x63 => at_ 0 (64 + 64 * c.pf 1 0 16) false ++ (match position s with
    | none => []
    | some p => (List.range (c.pf 1 0 16)).flatMap (fun i =>
      let g := groupAt s c i
      if g.rebuild then [] else (g.dests.filter (fun d => d.1 == p)).map (fun d => (d.2 + g.slen, 64, true))))
  | 0x70 => at_ 0 (16 * (c.pf 0 48 8 + 1)) false
  | _ => []

/-- The one of them that may be in flight: which one is free (log 73). -/
def Cmd.ownAccess (s : State) (c : Cmd) : Option (Nat × Nat × Bool) :=
  match c.ownAccesses s with
  | [a] => some a
  | l => l[(Config.sampled s.free 14).toNat % l.length]?

/-- The command of a queue whose control access the fabric may answer: one that could start now, or that waits for a word or for its cut. -/
def ctlCmd (s : State) (q : Nat) : Option Cmd :=
  (queueCmds s q).find? (fun c => keeperRuns s && !(c.ownAccesses s).isEmpty && ((c.stage == .admitted && mayStart s c) ||
    (c.stage == .started && !s.tender.cmdHeld c.qid c.seq && (c.op == 0x53 || (c.op == 0x62 && c.held.all (atCut s c))))))

/-- The ring entry of the packet that a queue reads next, if nothing halts the read. -/
def ctlPacket (s : State) (q : Nat) : Option (QRes × Nat) :=
  match s.q.find q with
  | some x => if !admissionOpen s || s.tender.ctlHeld (.ring q) || s.tender.ctlHeld (.tables q) then none else (nextEntry s x).map (fun r => (x, r))
  | none => none

/-- What check 1 expects as the `SEQ` of the next packet: nothing in a later iteration of a `LOOP`. -/
def wantSeq (x : QRes) : Option (BitVec 32) := if x.ctx.loopActive && x.ctx.loopIter != 0 then none else some x.ctx.nextSeq

/-- The job whose save waits for the restore of job `j`. -/
def savedFor (s : State) (j : Nat) : Option Nat :=
  (List.range 8).find? (fun o => keeperRuns s && (s.conf.job o).saving && (s.conf.job o).incoming == some j)

/-- Address, length and direction of the transfer of a control access that may be in flight. -/
def ctlSpan (s : State) (a : CtlAccess) : Option (Nat × Nat × Bool) :=
  match a with
  | .ring q => (ctlPacket s q).map (fun x => (x.1.ctx.rbase + pkBytes x.1.ctx.pkfmt * x.2, pkBytes x.1.ctx.pkfmt, false))
  | .tables q => match ctlPacket s q with
    | none => none
    | some x =>
      let p := packetAt s x.1 x.2 (wantSeq x.1)
      let n := tableBytes (bf p.1 176 4) (bf p.1 184 1) (bf p.1 180 4)
      if p.2.isSome || n == 0 then none else some (bf p.1 128 48, n, false)
  | .context q =>
    if s.tender.ctlHeld a then none
    else match s.q.find q with
      | some x => if inUse s.q x then none else some (ctxAddr s.q q, 512, true)
      | none => if s.q.pend.contains q && hasContext s q then some (ctxAddr s.q q, 512, false) else none
  | .reply q => match s.q.find q with
    | some x => if keeperRuns s && !s.tender.ctlHeld a && (completable s x).isSome then some (x.ctx.pbase + 32 * x.ctx.pwr, 32, true) else none
    | none => none
  | .command q => (ctlCmd s q).bind (fun c => c.ownAccess s)
  | .save j => if (s.conf.job j).saving && !s.tender.ctlHeld a then (s.conf.job j).image.map (fun im => (im.addr, 16384, true)) else none
  | .restore j => match savedFor s j, (s.conf.job j).image with
    | some o, some im => if s.tender.ctlHeld a || s.tender.ctlHeld (.save o) then none else some (im.addr, 16384, false)
    | _, _ => none

/-- Queue and `SEQ` for which a control access is made. -/
def ctlOwner (s : State) (a : CtlAccess) : Nat × BitVec 32 :=
  match a with
  | .ring q | .tables q | .context q => (q, ((s.q.find q).map (·.ctx.nextSeq)).getD 0)
  | .reply q => (q, (((s.q.find q).bind (completable s)).map (·.seq)).getD 0)
  | .command q => (q, ((ctlCmd s q).map (·.seq)).getD 0)
  | .save _ | .restore _ => (0, 0)

/-- A translation fault on a control access halts the work that waits on it and enters a record with `SKIND` 6. -/
def ctlFault (s : State) (a : CtlAccess) (sp : Nat × Nat × Bool) : State :=
  let w := ctlOwner s a
  let slot := ((s.q.find w.1).map (·.slot)).getD 0
  let x : Xfer := ⟨s.tender.nextId, w.1, w.2, 0, 6, 0, 0, 0, sp.1, sp.2.1, sp.2.2, [], 0, portOf s sp.1, 0, 0, false⟩
  let t := match a with
    | .save _ | .restore _ => s
    | _ => countTnd s w.1 4 1
  setTender { t with free := t.free + 1 }
    ({ t.tender with nextId := t.tender.nextId + 1, waiting := t.tender.waiting ++ [(⟨x, slot, some a⟩ : PfRec)] }).fill

/-- A packet whose tables could not be read: the command replies with a condition and does not run. -/
def tablesLost (s : State) (q : Nat) (k : Cond) : State :=
  match ctlPacket s q with
  | some (x, ring) =>
    let w := (packetAt s x ring (wantSeq x)).1
    let c := { (cmdOf s x ring w).inBody x with
      descs := [], loopd := none, binds := [], stage := .refused, refusal := some k, adv := (wantSeq x).isSome }
    refuseCollective (pushCmd s x c (some k)) c
  | none => s

/-- A queue drains and goes `OFF`; what no check has admitted stays in its ring (R143, R284). -/
def dropQueue (s : State) (q : Nat) : State :=
  match s.q.find q with
  | some _ => settleQueue (haltQueue s q) q
  | none => if hasContext s q then { putState s q .off with q := { s.q with pend := s.q.pend.filter (· != q) } } else s

/-- The save of job `j` does not take place: it starts a new slice, and what the switch had counted is taken back. -/
def undoSave (s : State) (j : Nat) : State :=
  let n := (s.conf.job j).counted
  let c := (s.conf.updJob j (fun b => { b with saving := false, incoming := none, counted := (0, 0) })).bumpShare 2 1
  activateJob { s with conf := (c.bumpShare 0 (2 ^ 48 - n.1)).bumpShare 1 (2 ^ 48 - n.2) } j

/-- The abort of a halted control access (R143); `r` is its record, already freed. -/
def ctlAbort (s : State) (a : CtlAccess) (r : PfRec) : State :=
  match a with
  | .ring q | .context q => dropQueue s q
  | .reply q => match (s.q.find q).bind (completable s) with
    | some c => dropQueue { s with q := s.q.updCmd (fun d => d.same c) (fun d => { d with mute := true }) } q
    | none => s
  | .tables q => tablesLost s q ⟨0x30, 0, 1⟩
  | .command _ => match xferCmd s r.xfer with
    | some c => endCommand s c ⟨0x30, 0, 1⟩
    | none => s
  | .save j => if (s.conf.job j).saving then undoSave s j else s
  | .restore j => match savedFor s j with
    | some o => refuseRestore (switchOver s o 0 0) o
    | none => s

/-- An answer to a control access in flight: one that begins at or beyond the extent is not issued (R423). An uncorrectable read ends the command that consumes it (R357); where no command consumes it, nothing
happens (log 73). -/
def ctlStep (s : State) (a : CtlAccess) (code : FabricCode) : State :=
  match if fabricUp s then (ctlSpan s a).filter (fun x => decide (x.1 < s.extent)) else none with
  | none => s
  | some sp => match code with
    | .ok => s
    | .xlate => ctlFault s a sp
    | .uncorr => match a with
      | .tables q => tablesLost s q ⟨0x60, noIndex, 1⟩
      | .command q => match ctlCmd s q with
        | some c => if (c.ownAccesses s).all (·.2.2) then s else endUncorr s c 1
        | none => s
      | _ => s

/-- The fabric answers a transfer (R424, R425). -/
def execFabricResponse (x : Answered) (code : FabricCode) (s : State) : Host.Outcome State Fault Refusal :=
  match x with
  | .transfer id => .next (fabricStep s id code)
  | .control a => .next (ctlStep s a code)

/-! ## Page faults -/

/-- Offset of GX_PF_CTL. -/
def pfCtlOff : Nat := 0x4018

/-- The head record is freed and its transfer goes out again first, when the limit of its queue lets it (R167, R156); a control access is made again by
its own row. -/
def pfResumeHead (s : State) (v : Nat) : State :=
  match s.tender.recs with
  | [] => noteIll s 0x09 .none none (BitVec.ofNat 64 v)
  | r :: rest =>
    let again := if r.ctl.isSome then s.tender.redo else s.tender.redo ++ [r.xfer]
    let t := setTender s ({ s.tender with redo := again, recs := rest }).fill
    match r.ctl with
    | none => pump t r.xfer.qid
    | some (.context _) => servePending t
    | some _ => t

/-- The head record is freed and its command ends with `FAULT_PAGE` (R167, R168); a control access is aborted as R143 says. -/
def pfAbortHead (s : State) (v : Nat) : State :=
  match s.tender.recs with
  | [] => noteIll s 0x09 .none none (BitVec.ofNat 64 v)
  | r :: rest =>
    let t := setTender s ({ s.tender with recs := rest }).fill
    match r.ctl with
    | some a => ctlAbort t a r
    | none => match xferCmd t r.xfer with
      | some c => endCommand t c ⟨0x30, r.xfer.block, 1⟩
      | none => t

/-- `GX_PF_CTL` action 1. -/
def execPfResume (mid : Mid) (s : State) : Host.Outcome State Fault Refusal :=
  .next (writeBy s (isHost mid) mid pfCtlOff (pfResumeHead s 1))

/-- `GX_PF_CTL` action 2. -/
def execPfAbort (mid : Mid) (s : State) : Host.Outcome State Fault Refusal :=
  .next (writeBy s (isHost mid) mid pfCtlOff (pfAbortHead s 2))

end Sys2Proof.Machine
end

