-- ==== Sys2Proof/Machine/Signature.lean ====
section
/-!
DEFINITION. The cryptography of image verification (R329): SHA-384 and ECDSA with curve P-384, as FIPS 180-4 and FIPS 186-5 define them (log 55: the
constants are those of the standards that R329 names).
-/
namespace Sys2Proof.Machine

/-! ## SHA-384 -/

/-- The first 80 primes. -/
def shaPrimes : List Nat := (List.range 410).filter (fun n => decide (2 ≤ n) && (List.range n).all (fun d => decide (d < 2) || n % d != 0))

/-- The largest r with r^k at most x, built from bit `n` down. -/
def rootFrom (k x : Nat) : Nat → Nat → Nat
  | 0, r => r
  | n + 1, r => rootFrom k x n (if (r + 2 ^ n) ^ k ≤ x then r + 2 ^ n else r)

/-- Round constants: 64 fraction bits of the cube roots of the first 80 primes. -/
def shaK : List Word := shaPrimes.map (fun p => BitVec.ofNat 64 (rootFrom 3 (p * 2 ^ 192) 68 0))

/-- Initial hash of SHA-384: 64 fraction bits of the square roots of the ninth to sixteenth primes. -/
def shaInit : List Word := ((shaPrimes.drop 8).take 8).map (fun p => BitVec.ofNat 64 (rootFrom 2 (p * 2 ^ 128) 68 0))

/-- Rotation right. -/
def ror (x : Word) (n : Nat) : Word := (x >>> n) ||| (x <<< (64 - n))

/-- The message schedule, newest word first, extended by `n` words. -/
def shaSchedule : Nat → List Word → List Word
  | 0, w => w
  | n + 1, w =>
    let at_ := fun (k : Nat) => w.getD (k - 1) 0
    let s0 := ror (at_ 15) 1 ^^^ ror (at_ 15) 8 ^^^ (at_ 15 >>> 7)
    let s1 := ror (at_ 2) 19 ^^^ ror (at_ 2) 61 ^^^ (at_ 2 >>> 6)
    shaSchedule n ((s1 + at_ 7 + s0 + at_ 16) :: w)

/-- One round on a to h. -/
def shaRound (v : List Word) (kw : Word × Word) : List Word :=
  let a := v.getD 0 0
  let e := v.getD 4 0
  let ch := (e &&& v.getD 5 0) ^^^ (~~~e &&& v.getD 6 0)
  let maj := (a &&& v.getD 1 0) ^^^ (a &&& v.getD 2 0) ^^^ (v.getD 1 0 &&& v.getD 2 0)
  let t1 := v.getD 7 0 + (ror e 14 ^^^ ror e 18 ^^^ ror e 41) + ch + kw.1 + kw.2
  let t2 := (ror a 28 ^^^ ror a 34 ^^^ ror a 39) + maj
  [t1 + t2, a, v.getD 1 0, v.getD 2 0, v.getD 3 0 + t1, e, v.getD 5 0, v.getD 6 0]

/-- One block of 128 bytes. -/
def shaBlock (k h : List Word) (bs : List Byte) : List Word :=
  let w := (List.range 16).map (fun i => BitVec.ofNat 64 (ofBe ((bs.drop (8 * i)).take 8)))
  let v := (k.zip (shaSchedule 64 w.reverse).reverse).foldl shaRound h
  h.zipWith (· + ·) v

/-- Blocks in order. -/
def shaBlocks (k : List Word) : Nat → List Byte → List Word → List Word
  | 0, _, h => h
  | n + 1, bs, h => shaBlocks k n (bs.drop 128) (shaBlock k h (bs.take 128))

/-- The padded message. -/
def shaPad (bs : List Byte) : List Byte :=
  let z := (128 - (bs.length + 17) % 128) % 128
  bs ++ 0x80#8 :: List.replicate z 0 ++ (leBytes 16 (8 * bs.length)).reverse

/-- The SHA-384 digest, 48 bytes, big-endian. -/
def sha384 (bs : List Byte) : List Byte :=
  let p := shaPad bs
  ((shaBlocks shaK (p.length / 128) p shaInit).take 6).flatMap (fun w => (leBytes 8 w.toNat).reverse)

/-! ## P-384 -/

/-- Field, coefficient b (a is -3), order and base point of the curve. -/
def ecP : Nat := 2 ^ 384 - 2 ^ 128 - 2 ^ 96 + 2 ^ 32 - 1
def ecB : Nat := 0xb3312fa7e23ee7e4988e056be3f82d19181d9c6efe8141120314088f5013875ac656398d8a2ed19d2a85c8edd3ec2aef
def ecN : Nat := 0xffffffffffffffffffffffffffffffffffffffffffffffffc7634d81f4372ddf581a0db248b0a77aecec196accc52973
def ecG : Nat × Nat :=
  (0xaa87ca22be8b05378eb1c71ef320ad746e1d3b628ba79b9859f741e082542a385502f25dbf55296c3a545e3872760ab7,
   0x3617de4a96262c6f5d9e98bf9292dc29f8f41dbd289a147ce9da3113b5f0b8c00a60b1ce1d7e819d7a431d7c90ea0e5f)

/-- b^e modulo m over the `n` low bits of e, from the top down. -/
def powMod (m b e : Nat) : Nat → Nat → Nat
  | 0, r => r
  | n + 1, r => powMod m b e n (if bit e n then r * r % m * b % m else r * r % m)

/-- Inverse modulo a prime of 384 bits. -/
def invMod (m a : Nat) : Nat := powMod m (a % m) (m - 2) 384 1

/-- A point in Jacobian coordinates: (X, Y, Z) is the point (X/Z^2, Y/Z^3), and with Z = 0 the point at infinity. -/
abbrev EcPoint := Nat × Nat × Nat

/-- Twice a point. -/
def ecDouble (a : EcPoint) : EcPoint :=
  let zz := a.2.2 * a.2.2 % ecP
  let yy := a.2.1 * a.2.1 % ecP
  let m := 3 * (a.1 + ecP - zz) * (a.1 + zz) % ecP
  let v := 4 * a.1 * yy % ecP
  let x := (m * m + 2 * (ecP - v)) % ecP
  (x, (m * (v + ecP - x) + 8 * (ecP - yy * yy % ecP)) % ecP, 2 * a.2.1 * a.2.2 % ecP)

/-- Sum of two points. -/
def ecAdd (a b : EcPoint) : EcPoint :=
  let za := a.2.2 * a.2.2 % ecP
  let zb := b.2.2 * b.2.2 % ecP
  let ua := a.1 * zb % ecP
  let ub := b.1 * za % ecP
  let sa := a.2.1 * b.2.2 % ecP * zb % ecP
  let sb := b.2.1 * a.2.2 % ecP * za % ecP
  if a.2.2 = 0 then b
  else if b.2.2 = 0 then a
  else if ua = ub then (if sa = sb then ecDouble a else (1, 1, 0))
  else
    let h := (ub + ecP - ua) % ecP
    let r := (sb + ecP - sa) % ecP
    let hh := h * h % ecP
    let hhh := h * hh % ecP
    let v := ua * hh % ecP
    let x := (r * r + (ecP - hhh) + 2 * (ecP - v)) % ecP
    (x, (r * (v + ecP - x) + sa * (ecP - hhh)) % ecP, h * a.2.2 % ecP * b.2.2 % ecP)

/-- k times a point by doubling and adding, over the `n` low bits of k, from the point `r` on. -/
def ecMul (k : Nat) (g : EcPoint) : Nat → EcPoint → EcPoint
  | 0, r => r
  | n + 1, r => let d := ecDouble r; ecMul k g n (if bit k n then ecAdd d g else d)

/-- Whether (x, y) is a point of the curve. -/
def onCurve (x y : Nat) : Bool := decide (x < ecP) && decide (y < ecP) && y * y % ecP == (x * x % ecP * x + (ecP - 3) * x + ecB) % ecP

/-- Whether (r, s) signs a message under the key (x, y), by SHA-384 and P-384. -/
def ecdsaValid (x y r s : Nat) (msg : List Byte) : Bool :=
  if onCurve x y && decide (1 ≤ r ∧ r < ecN ∧ 1 ≤ s ∧ s < ecN) then
    let w := invMod ecN s
    let v := ecAdd (ecMul (ofBe (sha384 msg) * w % ecN) (ecG.1, ecG.2, 1) 384 (1, 1, 0)) (ecMul (r * w % ecN) (x, y, 1) 384 (1, 1, 0))
    v.2.2 != 0 && v.1 * invMod ecP (v.2.2 * v.2.2) % ecP % ecN == r
  else false

end Sys2Proof.Machine
end

