-- ==== Sys2Proof/Machine/Firmware.lean ====
section
/-!
DEFINITION. Firmware (13): the states of Table 13.16, verification of an image (R329, R330), the anti-rollback counter (R334), and the Keeper's
heartbeat and watchdog (R319).
-/
namespace Sys2Proof.Machine

/-! ## Control -/

/-- `ACT` 1: the copy of the image begins (R331, R332). -/
def fwStart (s : State) : State := { s with fw := { s.fw with state := .load, reason := 0, tries := satTo 255 (s.fw.tries + 1) } }

/-- A load or verification ends in `FAIL`. -/
def fwFail (s : State) (reason : Nat) : State := { s with fw := { s.fw with state := .fail, reason := reason } }

/-- `ACT` 3: fuses are to be blown up to the running image's `SVN`; there may be nothing to do (R334). -/
def arcStart (s : State) : State := if s.fuses.arc < s.fw.svn then { s with fw := { s.fw with arcBusy := true } } else s

/-- Offset of GX_FW_CTL. -/
def fwCtlOff : Nat := 0x2008

/-- A write of GX_FW_CTL: each `ACT` in the states that Table 13.16 lists it for. -/
def fwCtlWrite (s : State) (mid : Mid) (v : Word) : State :=
  if mid.toNat ≠ 1 then fwIll s v
  else match bf v.toNat 0 2, s.fw.state with
    | 0, _ => s
    | 1, .wait => fwStart s
    | 1, .fail => fwStart s
    | 2, .load => fwFail s 7
    | 2, .verify => fwFail s 7
    | 3, .run => arcStart s
    | _, _ => fwIll s v

/-- A write of GX_FW_ADDR, in `WAIT` and `FAIL` (Table 13.16). The image is 256-byte aligned: the low bits are not kept (log 54). -/
def fwAddrWrite (s : State) (mid : Mid) (v : Word) : State :=
  if mid.toNat = 1 ∧ (s.fw.state = .wait ∨ s.fw.state = .fail) then
    { s with fw := { s.fw with addr := bf v.toNat 0 48 / 256 * 256 } }
  else fwIll s v

/-- A write of GX_FW_STAT clears `ARCERR`. -/
def fwStatWrite (s : State) (mid : Mid) (v : Word) : State :=
  if mid.toNat = 1 then { s with fw := { s.fw with arcErr := s.fw.arcErr && !bit v.toNat 17 } } else fwIll s v

/-! ## Verification (R329) -/

/-- Fields of an image header (Table 13.13). -/
def hdrSvn (h : Memory) : Nat := h.le 8 4
def hdrBody (h : Memory) : Nat := h.le 12 4
def hdrEntry (h : Memory) : Nat := h.le 16 4
def hdrVer (h : Memory) : Nat := h.le 20 4

/-- Steps 1 to 3: magic, header version and reserved bytes; ranges; the image lies in the die's memory and could be read. -/
def headerFault (s : State) (h : Memory) (readOk : Bool) : Option Nat :=
  if h.le 0 4 ≠ 0x4B504D45 ∨ h.le 4 2 ≠ 1 ∨ h.le 6 2 ≠ 0 ∨ h.le 24 40 ≠ 0 then some 1
  else if 64 < hdrSvn h ∨ hdrBody h % 16 ≠ 0 ∨ hdrBody h < 16 ∨ 786432 < hdrBody h ∨ hdrEntry h % 4 ≠ 0 ∨ hdrBody h ≤ hdrEntry h then some 2
  else if inDie s.extent s.fw.addr (256 + hdrBody h) = false ∨ readOk = false then some 3
  else none

/-- Steps 4 to 6 on the header and body as copied: key hash, signature, anti-rollback counter. -/
def imageFault (s : State) : Option Nat :=
  let h := s.fw.image
  let be := fun (a : Nat) => ofBe (h.bytes a 48)
  if s.fuses.keyHash.all (· == 0) ∨ sha384 (h.bytes 64 96) ≠ s.fuses.keyHash then some 4
  else if ecdsaValid (be 64) (be 112) (be 160) (be 208) (h.bytes 0 160 ++ s.fw.sram.bytes 0 (hdrBody h)) = false then some 5
  else if hdrSvn h < s.fuses.arc then some 6
  else none

/-- The copy ends: header and body lie in the Keeper, or a step of 1 to 3 fails. -/
def fwCopied (s : State) (readOk : Bool) : State :=
  let h := Memory.empty.writeBytes 0 (dieBytes s.mem s.extent s.fw.addr 256)
  match headerFault s h readOk with
  | some k => fwFail s k
  | none => { s with fw := { s.fw with
      state := .verify
      image := h
      sram := s.fw.sram.copyFrom s.mem (s.fw.addr + 256) 0 (hdrBody h) } }

/-- The image as copied is judged: it runs, and boot goes on to its self-test (R405), or it fails. -/
def fwDecided (s : State) : State :=
  match imageFault s with
  | some k => fwFail s k
  | none => { s with
      fw := { s.fw with state := .run, ver := hdrVer s.fw.image, svn := hdrSvn s.fw.image, beats := 0 }
      boot := if s.boot.phase = 2 then { s.boot with phase := 3 } else s.boot }

/-- `FIRMWARE_VERIFY`: at the end of the copy `LOAD` gives way to `VERIFY`, and `VERIFY` to `RUN` or `FAIL` (log 54). -/
def fwStep (s : State) (readOk : Bool) : State :=
  match s.fw.state with
  | .load => fwCopied s readOk
  | .verify => fwDecided s
  | _ => s

def execFwLoad (mid : Mid) (s : State) : Host.Outcome State Fault Refusal := .next (netWrite s mid fwCtlOff (fwCtlWrite s mid 1))

def execFwAbort (mid : Mid) (s : State) : Host.Outcome State Fault Refusal := .next (netWrite s mid fwCtlOff (fwCtlWrite s mid 2))

def execFirmwareVerify (readOk : Bool) (s : State) : Host.Outcome State Fault Refusal := .next (fwStep s readOk)

/-! ## Anti-rollback counter (R334) -/

/-- The programming ends: every fuse took, or all before one that failed. -/
def arcEnd (s : State) (failedAfter : Option Nat) : State :=
  let n := s.fw.svn - s.fuses.arc
  let k := Nat.min n (failedAfter.getD n)
  if s.fw.arcBusy then
    { s with
      fuses := { s.fuses with arc := s.fuses.arc + k }
      fw := { s.fw with arcBusy := false, arcErr := s.fw.arcErr || decide (k < n) }
      irq := s.irq.raise irqArc }
  else s

def execArcAdvance (mid : Mid) (s : State) : Host.Outcome State Fault Refusal := .next (netWrite s mid fwCtlOff (fwCtlWrite s mid 3))

def execArcAdvanceEnd (failedAfter : Option Nat) (s : State) : Host.Outcome State Fault Refusal := .next (arcEnd s failedAfter)

/-! ## Heartbeat and watchdog (R318, R319) -/

/-- The watchdog expires while firmware runs, or an error of the Keeper's memory that cannot be corrected stops it (R318): `HUNG`, and the fatal
interrupt. Admission and starts stop with `STATE`. -/
def watchdogStep (s : State) : State :=
  if s.fw.state = .run then { s with fw := { s.fw with state := .hung, beats := 10 }, irq := s.irq.raise irqFatal } else s

def execKeeperWatchdogExpiry (s : State) : Host.Outcome State Fault Refusal := .next (watchdogStep s)

/-- A heartbeat restarts the watchdog's count. Errors of the Keeper's memory that have been corrected since the last one count in `KPR_CE` (R318); no row
tells of them, so how many is free (log 99). -/
def heartbeatStep (s : State) : State :=
  if s.fw.state = .run then
    { s with fw := { s.fw with beats := 0, kprCe := ctr48 s.fw.kprCe (Config.sampled s.free 15).toNat }, free := s.free + 1 }
  else s

def execKeeperHeartbeat (s : State) : Host.Outcome State Fault Refusal := .next (heartbeatStep s)

end Sys2Proof.Machine
end

