-- ==== Sys2Proof/Machine/Mesh.lean ====
section
/-!
DEFINITION. The core mesh (R121-R124), barriers and signals (R126-R128) and claims (R129-R132) of core programs.
-/
namespace Sys2Proof.Machine

/-! ## Messages -/

/-- The program of core `d` that runs the same command as program `i`. -/
def peer (i d : Nat) : Nat := d + i / 64 * 64

/-- The logical cores of a command's job. -/
def jobCores (s : State) (c : Cmd) : List Nat := (s.conf.job c.job).cores

/-- Receivers of a message (R123): one core, the other cores of the sender's row, or every core of its column in the job's rows. -/
def receivers (s : State) (c : Cmd) (l mode dest : Nat) : List Nat :=
  match mode with
  | 0 => [dest]
  | 1 => (jobCores s c).filter (fun d => d / 8 == l / 8 && d != l)
  | _ => (jobCores s c).filter (fun d => d % 8 == l % 8)

/-- The pieces of a message's lines. -/
def msgLines (a : Int) (n : Nat) : List (Int × Nat) := (List.range n).map (fun k => (a + (128 * k : Nat), 128))

/-- `SEND` (R121, R122). In a replay one whose own transfer is logged, by its issue number, is not performed again. -/
def sendInstr (s : State) (i : Nat) (c : Cmd) (w : Nat) : IRes :=
  let x := s.prog i
  let mode := bf w 54 2
  let dest := bf w 48 6
  let k := bf w 36 4
  let n := bf w 30 6
  let a := (x.ag k).addr
  if rsvBits w [(55, 30)] || mode == 3 || n == 0 || decide (32 < n) || (x.ag k).sp != 0 || (mode == 0 && !(jobCores s c).contains dest) then .illegal
  else if x.run == .replaying && x.prevLog.contains (.send (x.issue + 1)) then
    .go (s.updProg i (fun y => { (y.useAg k 1).consume (.send (x.issue + 1)) with issue := x.issue + 1 }))
  else
      if 8 ≤ x.sends.length then .wait 6
      else
        let m : Msg := ⟨x.issue + 1, mode, bf w 40 8, n, a, receivers s c (i % 64) mode dest⟩
        .go ((noteOob s i (outPieces s i 0 (msgLines a n))).updProg i (fun y => { y.useAg k 1 with issue := x.issue + 1, sends := y.sends ++ [m] }))

/-- The logged message that a `RECV` takes in a replay: that of its issue number. -/
def loggedRecv (x : LCore) : Option (LogEntry × List Byte) :=
  if x.run = .replaying then
    x.prevLog.findSome? (fun e => match e with
      | .recv o _ _ _ d => if o = x.issue + 1 then some (e, d) else none
      | _ => none)
  else none

/-- `RECV`. `LINES` 0 or above 32 is taken as illegal, as Table 5.3 says for `SEND` (DESIGN CHOICE, log 89). -/
def recvInstr (s : State) (i : Nat) (c : Cmd) (w : Nat) : IRes :=
  let x := s.prog i
  let src := bf w 48 6
  let tag := bf w 40 8
  let k := bf w 36 4
  let n := bf w 30 6
  let a := (x.ag k).addr
  if rsvBits w [(53, 30)] || n == 0 || decide (32 < n) || (x.ag k).sp != 0 || !(jobCores s c).contains src then .illegal
  else
    let t := noteOob s i (outPieces s i 0 (msgLines a n))
    match loggedRecv x with
    | some (e, d) =>
      if x.locked [] [lineSpan a n] then holdInstr s i w [] [lineSpan a n] (fun y => y.useAg k 1)
      else .go ((writePieces i c 0 (cutBytes (msgLines a (d.length / 128)) d) t).updProg i (fun y => { (y.useAg k 1).consume e with issue := x.issue + 1 }))
    | none =>
      if 8 ≤ x.recvs.length then .wait 6
      else .go (t.updProg i (fun y => { y.useAg k 1 with issue := x.issue + 1, recvs := y.recvs ++ [⟨x.issue + 1, src, tag, n, a⟩] }))

/-- `MWAIT`. -/
def mwaitInstr (s : State) (i : Nat) (_c : Cmd) (w : Nat) : IRes :=
  let x := s.prog i
  let tag := bf w 40 8
  if rsvBits w [(47, 39)] then .illegal
  else if x.sends.any (fun m => bit w 39 || m.tag == tag) || x.recvs.any (fun m => bit w 39 || m.tag == tag) then .wait 1
  else .go s

/-- The receive that a message from core `l` meets at core `d`: the first one posted for it, if no earlier message of its tag goes there. -/
def meetsRecv (s : State) (i : Nat) (m : Msg) (d : Nat) : Option RecvPost :=
  if (s.prog i).sends.any (fun e => e.tag == m.tag && e.dests.contains d && decide (e.ord < m.ord)) then none
  else (s.prog (peer i d)).recvs.find? (fun r => r.src == i % 64 && r.tag == m.tag)

/-- Whether a message can move now: every receiver has posted, and nothing queued before it has still to touch the lines at either end. -/
def msgReady (s : State) (i : Nat) (m : Msg) : Bool :=
  coreUp s (i % 64) && !(s.prog i).conflicts m.ord [lineSpan m.addr m.lines] [] &&
  m.dests.all (fun d => coreUp s d && (match meetsRecv s i m d with
    | some r => !(s.prog (peer i d)).conflicts r.ord [] [lineSpan r.addr r.lines]
    | none => false))

/-- The bytes arrive at core `d`: the lesser line count; a mismatch is counted (R121). -/
def deliver (s : State) (i : Nat) (c : Cmd) (m : Msg) (data : List Byte) (d : Nat) : State :=
  match meetsRecv s i m d with
  | none => s
  | some r =>
    let j := peer i d
    let bs := data.take (128 * Nat.min m.lines r.lines)
    let t := (writePieces j c 0 (cutBytes (msgLines r.addr (Nat.min m.lines r.lines)) bs) s).updProg j (fun y =>
      { y with recvs := y.recvs.filter (fun e => e.ord != r.ord) })
    let t := logAction t j c (.recv r.ord (i % 64) m.tag r.lines bs)
    if m.lines = r.lines then t
    else noteIll t 0x06 (.core d) (some c.qid) (BitVec.ofNat 64 (m.tag + m.lines * 2 ^ 8 + r.lines * 2 ^ 16))

/-- A message of program `i` moves. -/
def moveMessage (s : State) (i : Nat) (c : Cmd) (m : Msg) : State :=
  if msgReady s i m then
    let r := readPieces i c 0 (msgLines m.addr m.lines) s
    if r.ok then
      let t := m.dests.foldl (fun t d => deliver t i c m r.data d) r.st
      logAction (t.updProg i (fun y => { y with sends := y.sends.filter (fun e => e.ord != m.ord) })) i c (.send m.ord)
    else r.st
  else s

/-- `MESSAGE_TRANSFER`: message `idx` of core `l`, its CHAIN consumer's program counted behind its own. -/
def messageStep (s : State) (l idx : Nat) : State :=
  let own := (s.prog l).sends.length
  let i := if idx < own then l else 64 + l
  match (s.prog i).sends[if idx < own then idx else idx - own]?, progCmd s i with
  | some m, some c => moveMessage s i c m
  | _, _ => s

/-- A message is posted. -/
def execSend (l : Nat) (s : State) : Host.Outcome State Fault Refusal := onCore l (instrStep s l (· == 0x50) sendInstr)

/-- A receive is posted. -/
def execRecv (l : Nat) (s : State) : Host.Outcome State Fault Refusal := onCore l (instrStep s l (· == 0x51) recvInstr)

/-- A message moves from scratchpad to scratchpad (R121). -/
def execMessageTransfer (l idx : Nat) (s : State) : Host.Outcome State Fault Refusal := onCore l (messageStep s l idx)

/-- A core waits for its posted messages. -/
def execMwait (l : Nat) (s : State) : Host.Outcome State Fault Refusal := onCore l (instrStep s l (· == 0x52) mwaitInstr)

/-! ## Claims (R129-R131) -/

/-- The set bits of a bitmap with one more. -/
def setBit (l : List Nat) (v : Nat) : List Nat := if l.contains v then l else insertBy (fun a b => decide (a ≤ b)) v l

/-- A claim: index, code, counter after it. -/
def WorkCtr.claim (k : WorkCtr) (explicit : Option Nat) : Nat × Nat × WorkCtr :=
  match explicit with
  | some v =>
    if k.limit ≤ v then (v, 0x10, k)
    else (v, if k.bits.contains v then 0x02 else 0x00, { k with bits := setBit k.bits v })
  | none =>
    if k.limit ≤ k.value then (k.value, 0x01, k)
    else (k.value, if k.bits.contains k.value then 0x02 else 0x00, { k with value := k.value + 1, bits := setBit k.bits k.value })

/-- What a program notes of a claim for its command's reply (R131). -/
def LCore.noteClaim (x : LCore) (v code : Nat) : LCore :=
  if code = 0x02 then { x with claimed := some (match x.claimed with
    | some k => (Nat.min k.1 v, k.2 + 1)
    | none => (v, 1)) }
  else if code = 0x10 then { x with claimOob := some (match x.claimOob with
    | some k => (k.1, k.2 + 1)
    | none => (v, 1)) }
  else x

/-- `CLAIM`. -/
def claimInstr (s : State) (i : Nat) (c : Cmd) (w : Nat) : IRes :=
  let x := s.prog i
  let k := bf w 52 4
  let d := bf w 46 5
  if rsvBits w [(55, 41)] || decide (c.pf 3 48 5 ≤ k) then .illegal
  else match x.logged 2 with
    | some (.result v) => .go (s.updProg i (fun y => (y.setReg d v).consume (.result v)))
    | _ =>
      let r := ((s.conf.job c.job).ctrs.getD k WorkCtr.reset).claim (if bit w 51 then some (bf (x.reg (bf w 41 5)).toNat 0 32) else none)
      let v := BitVec.ofNat 64 (r.1 + r.2.1 * 2 ^ 32)
      let t := { s with conf := s.conf.updJob c.job (fun b => { b with ctrs := b.ctrs.set k r.2.2 }) }
      .go (logAction (t.updProg i (fun y => (y.setReg d v).noteClaim r.1 r.2.1)) i c (.result v))

/-- A core claims a work index. -/
def execClaim (l : Nat) (s : State) : Host.Outcome State Fault Refusal := onCore l (instrStep s l (· == 0x60) claimInstr)

/-! ## Barriers -/

/-- The arrival of a program at a barrier. In a replay a logged arrival is not performed again; the last one can still stand in the barrier
network (R138, R350). -/
def LCore.arrive (x : LCore) (b : Nat × Nat) (e : Option LogEntry) : LCore :=
  match e with
  | some e =>
    let y := x.consume e
    if y.prevLog.any (fun e => e.kind == 8) then y else { y with barAt := y.barHeld, barHeld := none, barPc := x.regs.pc }
  | none => { x with barAt := some b, barPc := x.regs.pc }

/-- `BAR`. -/
def barInstr (s : State) (i : Nat) (c : Cmd) (w : Nat) : IRes :=
  let x := s.prog i
  let b := (bf w 54 2, bf w 51 3)
  if rsvBits w [(55, 51)] || b.1 == 3 then .illegal
  else match x.logged 8 with
    | some e => .go (s.updProg i (fun y => y.arrive b (some e)))
    | none => .go (logAction (s.updProg i (fun y => y.arrive b none)) i c .bar)

/-- The cores of a barrier's scope (R126). -/
def scopeCores (s : State) (c : Cmd) (l scope : Nat) : List Nat :=
  (jobCores s c).filter (fun d => scope == 0 || (scope == 1 && d / 8 == l / 8) || (scope == 2 && d % 8 == l % 8))

/-- Whether a program stands at a barrier with its earlier writes done (R127). -/
def atBarrier (s : State) (c : Cmd) (i : Nat) (b : Nat × Nat) : Bool :=
  let x := s.prog i
  x.isOf c && (x.barAt == some b || x.barHeld == some b) && x.drains.isEmpty && !x.holds [0x11] &&
    !(s.tender.writesOf c).any (fun y => y.core == i % 64)

/-- The barrier of program `i`'s scope releases its participants. -/
def releaseOf (s : State) (i : Nat) (b : Nat × Nat) : Option State :=
  match progCmd s i with
  | none => none
  | some c =>
    let ps := (scopeCores s c (i % 64) b.1).map (peer i)
    if ps.contains i && ps.all (fun p => atBarrier s c p b) then
      let t := { s with lcores := ps.foldl (fun ls p => ls.modify p (fun x => { x with barAt := none, barHeld := none })) s.lcores }
      some (if b.1 = 0 ∧ (s.conf.job c.job).mask = 0xFF then allCoreBarrier t else t)
    else none

/-- `BARRIER_RELEASE`: a job-scope barrier of a job with all eight rows is an all-core barrier (R128). -/
def barrierStep (s : State) (l scope id : Nat) : State :=
  ((releaseOf s l (scope, id)).or (releaseOf s (64 + l) (scope, id))).getD s

/-- A core arrives at a barrier. -/
def execBar (l : Nat) (s : State) : Host.Outcome State Fault Refusal := onCore l (instrStep s l (· == 0x70) barInstr)

/-- The barrier network releases a scope (R126). -/
def execBarrierRelease (l scope id : Nat) (s : State) : Host.Outcome State Fault Refusal := onCore l (barrierStep s l scope id)

/-! ## Signals -/

/-- `SIG`: it goes out once the core's earlier writes are visible (R127). -/
def sigInstr (s : State) (i : Nat) (c : Cmd) (w : Nat) : IRes :=
  let x := s.prog i
  let d := bf w 48 6
  let f := bf w 45 3
  let n := bf w 0 16
  if rsvBits w [(53, 45), (15, 0)] || n == 0 || !(jobCores s c).contains d then .illegal
  else match x.logged 5 with
    | some e => .go (s.updProg i (fun y => y.consume e))
    | none =>
      if x.drains.any (fun d => decide (d.ord ≤ x.issue)) || x.holds [0x11, 0x71] || (s.tender.writesOf c).any (fun y => y.core == i % 64) then
        holdInstr s i w [] [] (fun y => y)
      else
        let add := fun (v : BitVec 32) => BitVec.ofNat 32 (satTo (2 ^ 32 - 1) (v.toNat + n))
        .go (logAction (s.updProg (peer i d) (fun y => { y with regs := { y.regs with flags := y.regs.flags.modify f add } })) i c .sig)

/-- `SWAIT`. -/
def swaitInstr (s : State) (i : Nat) (c : Cmd) (w : Nat) : IRes :=
  let x := s.prog i
  let v := if bit w 39 then bf w 0 32 else bf (x.reg (bf w 40 5)).toNat 0 32
  if rsvBits w [(47, 39), (31, 0)] then .illegal
  else match x.logged 1 with
    | some e => .go (s.updProg i (fun y => y.consume e))
    | none => if v ≤ (x.regs.flags.getD (bf w 45 3) 0).toNat then .go (logAction s i c .swait) else .wait 2

/-- A signal is sent. -/
def execSig (l : Nat) (s : State) : Host.Outcome State Fault Refusal := onCore l (instrStep s l (· == 0x71) sigInstr)

/-- A core waits for a flag. -/
def execSwait (l : Nat) (s : State) : Host.Outcome State Fault Refusal := onCore l (instrStep s l (· == 0x72) swaitInstr)

end Sys2Proof.Machine
end

