-- ==== Sys2Proof/Machine/Windows.lean ====
section
/-!
DEFINITION. The windows of the control aperture (14, 17): the read-back window and the layout of its spaces (R361, R362, R419, R420), the latch of
the illegal-sequence record (R414), the account window (R416) and the amax window (R417, R418).
-/
namespace Sys2Proof.Machine

/-! ## Words of packed layouts -/

/-- Word at byte offset `off` of bytes. -/
def byteWord (bs : List Byte) (off : Nat) : Nat := ofLe ((bs.drop off).take 8)

/-- Word at byte offset `off` of 64-bit words. -/
def listWord (ws : List Nat) (off : Nat) : Nat := ws.getD (off / 8) 0

/-- Fields (width, value) packed from bit 0 up. -/
def packFields : List (Nat × Nat) → Nat
  | [] => 0
  | (n, v) :: r => v % 2 ^ n + packFields r * 2 ^ n

/-- A counter word: bits [63:48] read 0 (R419). -/
def counterWord (n : Nat) : Nat := n % 2 ^ 48

/-- A counter whose advance the manual counts in time that the model does not follow: a free value (log 51). -/
def freeCounter (s : State) (space off : Nat) : Nat := counterWord (Config.rawWord space off s.free).toNat

/-! ## Core spaces -/

/-- A generator in 32 bytes (Table 17.12). -/
def AddrGen.pack (g : AddrGen) : List Byte :=
  leBytes 32 (packFields [(48, g.base.toNat), (3, g.space.toNat), (32, g.st0.toNat), (16, g.ex0.toNat), (32, g.st1.toNat), (16, g.ex1.toNat),
    (32, g.st2.toNat), (16, g.ex2.toNat), (16, g.i0), (16, g.i1), (16, g.i2)])

/-- The registers of Table 5.1 up to the replay log positions. -/
def CoreRegs.pack (r : CoreRegs) : List Byte :=
  r.sregs.flatMap (fun w => leBytes 8 w.toNat) ++ r.ags.flatMap AddrGen.pack ++
  r.lcs.flatMap (fun c => leBytes 8 (c.left.toNat + c.fin.toNat * 2 ^ 32 + b2n c.active * 2 ^ 45)) ++ leBytes 8 r.pc.toNat ++
  r.flags.flatMap (fun f => leBytes 4 f.toNat) ++ r.norms.flatMap pairBytes ++
  leBytes 16 (packFields [(40, r.infIdx.getD 0), (40, r.nanIdx.getD 0), (1, b2n r.infIdx.isSome), (1, b2n r.nanIdx.isSome)])

/-- Where a log of `n` bytes stands: its position in the central store and in the overflow region (Table 17.12, log 32). -/
def LCore.logPos (x : LCore) (n o : Nat) : Nat := if o = 0x3F0 then x.logAt + Nat.min n 65536 else n - 65536

/-- Space 0x04: registers and the last mark record, whose log begins empty. -/
def stateWord (s : State) (l off : Nat) : Nat :=
  let x := s.prog l
  let o := off % 1024
  if o = 0x3F0 ∨ o = 0x3F8 then x.logPos (if off < 1024 then x.logBytes else 0) o
  else byteWord (if off < 1024 then x.regs.pack else x.mark.regs.pack) o

/-- Space 0x05 of the core with units `u` and storage `p`: the counters of Table 3.4 of its arrays, its wear and error counts, and its shares of Tables
8.8 and 9.7. -/
def coreCounterWord (s : State) (u p off : Nat) : Nat :=
  if off < 0x100 then
    counterWord (((s.pcore u).arrays.getD (off / 64) ArrayState.reset).cnt.getD (off % 64 / 8) 0)
  else if off = 0x100 then lifeNow s u
  else if off = 0x108 then counterWord (s.pcore p).ceScratch
  else if off = 0x110 then counterWord (s.pcore p).ceAcc
  else if 0x140 ≤ off ∧ off < 0x178 then counterWord ((s.pcore u).share.getD ((off - 0x140) / 8) 0)
  else if 0x180 ≤ off ∧ off < 0x1C8 then counterWord ((s.pcore u).share.getD (7 + (off - 0x180) / 8) 0)
  else 0

/-- Whether a program waits. -/
def LCore.waits (x : LCore) : Bool := (x.run == .running || x.run == .replaying) && x.waitKind != 0

/-- Space 0x06 of logical core `l`: what either of its programs has done, and the wait that was reported last, whether it goes on or not (R125). -/
def coreRecordWord (s : State) (l off : Nat) : Nat :=
  let x := s.prog l
  listWord [counterWord x.illCnt, x.illWord.toNat, (x.illAddr.map (fun a => a.toNat + 2 ^ 13)).getD 0,
    x.waitAddr.toNat + x.waitRec * 2 ^ 13 + b2n (x.waits || (s.prog (64 + l)).waits) * 2 ^ 17, x.waitUs, counterWord x.markGap] off

/-! ## Queue spaces -/

/-- The resident queue in a slot. -/
def slotOf (s : State) (k : Nat) : Option QRes := s.q.res.find? (fun x => x.slot == k)

/-- Instructions in the Keeper expansion of a queue's most recent command: free, but a function of what the expansion depends on (R141, log 94). -/
def expansionSize (x : QRes) : Nat := if x.expand.isEmpty then 0 else Config.expansionLen x.expand % 8193

/-- Space 0x11. -/
def queueWord (s : State) (x : QRes) (off : Nat) : Nat :=
  if off < 512 then byteWord x.ctx.bytes off
  else if off < 0x290 then
    match x.conds.find? (fun k => condRank k.code == (off - 0x200) / 16 + 1) with
    | some k => if off % 16 = 0 then k.first % 2 ^ 40 else satTo (2 ^ 32 - 1) k.count
    | none => 0
  else if off = 0x300 then
    x.qid % 2 ^ 22 + 2 ^ 22 + ((s.q.cmds.filter (fun c => c.qid == x.qid && c.inFlight)).length % 256) * 2 ^ 23 + expansionSize x * 2 ^ 32
  else 0

/-- Space 0x12. The two times of Table 6.8 are free (log 51). -/
def queueCounterWord (s : State) (x : QRes) (off : Nat) : Nat :=
  if off = 0x28 ∨ off = 0x30 then freeCounter s 0x12 off
  else
    let at_ := fun (l : List Nat) (b : Nat) => counterWord (l.getD ((off - b) / 8) 0)
    if off < 0x40 then at_ x.cnt.tnd 0
    else if off < 0x80 then at_ x.cnt.lns 0x40
    else if off < 0xC0 then at_ x.cnt.red 0x80
    else if off < 0x100 then at_ x.cnt.lbw 0xC0
    else if off < 0x180 then at_ x.cnt.hsh 0x100
    else at_ x.cnt.par 0x180

/-- Space 0x14: an entry of the tile table. -/
def ittWord (s : State) (off : Nat) : Nat :=
  match s.q.itt[off / 32]? with
  | some e => listWord [e.lo % 2 ^ 48 + e.kind * 2 ^ 48 + 2 ^ 63, (e.hi - 1) % 2 ^ 48, e.qid % 2 ^ 22 + e.seq.toNat * 2 ^ 32, e.slot] (off % 32)
  | none => 0

/-! ## Tender -/

/-- GX_PF_INFO, GX_PF_ADDR and GX_PF_POS of a record (Tables 6.6, 6.7). -/
def PfRec.words (r : PfRec) : List Nat :=
  let x := r.xfer
  [1 + b2n x.write * 2 + x.stream % 8 * 4 + x.skind % 8 * 2 ^ 5 + x.core % 64 * 2 ^ 8 + r.qslot % 512 * 2 ^ 16 + x.qid % 2 ^ 22 * 2 ^ 32,
   x.addr % 2 ^ 48, (if x.skind = 5 then x.num else x.block) % 2 ^ 32 + x.off % 2 ^ 32 * 2 ^ 32]

/-- Whether the wait that the Tender's record names still goes on. -/
def waitingNow (s : State) : Bool :=
  match s.tender.waitRec with
  | [slot, n, sk, core, kind, _, _] => (match slotOf s slot with
    | some x =>
      let cs := s.q.cmds.filter (fun c => c.qid == x.qid && (c.stage == .admitted || c.stage == .started || c.stage == .ended))
      if kind = 13 then (streamNums (n, sk, core)).any (fun k => cs.any (fun c =>
        (streamWaits s c k).1 || s.tender.xfers.any (fun y => y.isOf c && y.ofStream k)))
      else cs.any (fun c => c.stage != .ended && cmdWait s c == kind)
    | none => false)
  | _ => false

/-- The Tender's wait record. -/
def waitRecWord (s : State) (off : Nat) : Nat :=
  match s.tender.waitRec with
  | [slot, n, sk, core, kind, held, us] =>
    listWord [slot % 512 + n % 8 * 2 ^ 9 + sk % 8 * 2 ^ 12 + core % 64 * 2 ^ 15 + kind % 16 * 2 ^ 21 + b2n (waitingNow s) * 2 ^ 25, held % 65536, us] off
  | _ => 0

/-- An operand stream in 64 bytes. -/
def streamWord (s : State) (o : OStream) (off : Nat) : Nat :=
  let slot := match s.q.find o.qid with
    | some x => x.slot
    | none => 0
  listWord [1 + o.num % 8 * 2 ^ 4 + slot % 512 * 2 ^ 13 + b2n (s.tender.halted o) * 2 ^ 22 + b2n o.ended * 2 ^ 23,
    o.lowest % 2 ^ 32 + o.nextBlock % 2 ^ 32 * 2 ^ 32, o.entry % 2 ^ 48,
    o.blocks.length % 65536 + (o.blocks.filter (·.borrowed)).length % 65536 * 2 ^ 16] off

/-- The stream of a transfer that belongs to no operand stream with an entry of its own: queue, command, operand stream, `SKIND` and core. -/
def Xfer.key (x : Xfer) : Nat × BitVec 32 × Nat × Nat × Nat := (x.qid, x.seq, x.stream, x.skind, x.core)

/-- The other streams with transfers that are not complete: of standard commands, and drain and restage streams (Table 6.3). -/
def otherStreams (t : Tender) : List (Nat × BitVec 32 × Nat × Nat × Nat) :=
  ((t.open.filter (fun x => x.skind != 6 && x.stream < 8 && !t.streams.any (fun o => x.serves o))).map Xfer.key).eraseDups

/-- Another stream in 64 bytes: of its blocks it shows those in transfer. -/
def otherWord (s : State) (k : Nat × BitVec 32 × Nat × Nat × Nat) (off : Nat) : Nat :=
  let slot := match s.q.find k.1 with
    | some x => x.slot
    | none => 0
  let mine := s.tender.open.filter (fun x => x.key == k)
  let halted := (s.tender.redo ++ (s.tender.recs ++ s.tender.waiting).map (·.xfer)).any (fun x => x.key == k)
  let low := mine.foldl (fun m x => Nat.min m x.block) ((mine.head?.map (·.block)).getD 0)
  let high := mine.foldl (fun m x => Nat.max m (x.block + 1)) 0
  listWord [1 + k.2.2.2.1 % 8 * 2 + k.2.2.1 % 8 * 2 ^ 4 + k.2.2.2.2 % 64 * 2 ^ 7 + slot % 512 * 2 ^ 13 + b2n halted * 2 ^ 22,
    low % 2 ^ 32 + high % 2 ^ 32 * 2 ^ 32, 0, mine.length % 65536] off

/-- Space 0x15: the operand streams in their order, then the others (log 96). -/
def tenderWord (s : State) (off : Nat) : Nat :=
  if off < 0x800 then (match s.tender.recs[off / 32]? with
    | some r => listWord r.words (off % 32)
    | none => 0)
  else if off < 0x820 then waitRecWord s (off - 0x800)
  else if off < 0x1000 then 0
  else match s.tender.streams[(off - 0x1000) / 64]? with
    | some o => streamWord s o (off % 64)
    | none => (match (otherStreams s.tender)[(off - 0x1000) / 64 - s.tender.streams.length]? with
      | some k => otherWord s k (off % 64)
      | none => 0)

/-! ## Engine spaces -/

/-- Codes of Table 14.6. -/
def PState.code : PState → Nat
  | .active => 0 | .spare => 1 | .host => 2 | .store => 3 | .retired => 4

/-- Space 0x18: retire table entry of core `p`. -/
def retireWord (s : State) (p off : Nat) : Nat :=
  let x := s.pcore p
  let opt := fun (o : Option Nat) (v : Nat) => o.getD 0 + b2n o.isSome * 2 ^ v
  listWord [x.pstate.code + b2n x.seeded * 2 ^ 3 + opt x.lidA 6 * 2 ^ 4 + opt x.lidB 6 * 2 ^ 11 + x.partner.getD 0x7F * 2 ^ 18,
    opt x.stamp0 48, opt x.stamp1 48, lifeNow s p] off

/-- Configuration words of R420. -/
def confWord (c : Conf) (w : Nat) : Nat :=
  if w = 0 then
    c.hsize % 8 + c.npos % 16 * 2 ^ 4 + (c.posDie.zipIdx.map (fun x => x.1 % 8 * 2 ^ (8 + 4 * x.2))).sum
  else
    let j := c.job (w - 1)
    j.mask + j.pbase * 2 ^ 8 + j.psize % 256 * 2 ^ 16 + b2n j.enable * 2 ^ 24

/-- Space 0x19. -/
def engineWord (s : State) (off : Nat) : Nat :=
  let c := s.conf
  let w := c.weakRec
  if off = 0x000 then s.ill.rec0.toNat
  else if off = 0x008 then s.ill.detail.toNat
  else if off = 0x010 then counterWord s.ill.cnt
  else if off = 0x018 then s.red.lastCseq % 2 ^ 32
  else if 0x020 ≤ off ∧ off < 0x050 then counterWord (c.share.getD ((off - 0x020) / 8) 0)
  else if off = 0x050 then w.getD 0 0 % 65536 + w.getD 1 0 % 256 * 2 ^ 16 + w.getD 2 0 % 256 * 2 ^ 24 + w.getD 3 0 % 2 ^ 32 * 2 ^ 32
  else if off = 0x058 then w.getD 4 0 % 2 ^ 22
  else if off = 0x060 then counterWord s.flt.ceCentral
  else if off = 0x068 then b2n c.drain
  else if 0x400 ≤ off ∧ off < 0x448 then confWord c ((off - 0x400) / 8)
  else if 0x480 ≤ off ∧ off < 0x4C8 then confWord (c.result c.staged) ((off - 0x480) / 8)
  else if off = 0x4C8 then ((List.range 9).map (fun k => b2n (c.staged.any (fun x => x.word == k)) * 2 ^ k)).sum
  else 0

/-- The link that a word of space 0x1B describes. -/
def linkAt (off : Nat) : Option FrameLink :=
  let k := off / 8
  if off < 0x880 then some (.mesh (k / 4) (k % 4))
  else if off < 0xCC0 then some (.couple ((k - 272) / 2) (k % 2))
  else if off < 0xD00 then some (.fabric (k - 408))
  else if off < 0xD18 then some (.reduction (k - 416))
  else none

/-- What a read of the window finds: state after it, word, flags. -/
abbrev RbRead := State × Nat × Nat

/-- Flags of GX_RB_STAT. -/
def rbCe : Nat := 1
def rbUe : Nat := 2
def rbRange : Nat := 4
def rbIll : Nat := 8
def rbOff : Nat := 16

/-- Space 0x1B: a link of a domain that is not ON reads 0 with `OFF` (R393). -/
def linkWord (s : State) (off : Nat) : RbRead :=
  match linkAt off with
  | some k =>
    let x := linkOf s k
    if domOn s (linkDomain k) then (s, counterWord x.retry + b2n x.failed * 2 ^ 48, 0) else (s, 0, rbOff)
  | none => (s, 0, 0)

/-- Account of a client, word by word (Table 12.3). -/
def accountWord (s : State) (client off : Nat) : Nat := byteWord (s.accts.of client).bytes off

/-- Keeper SRAM: as the ROM loaded it; what running firmware keeps there is free (log 18). -/
def sramWord (s : State) (off : Nat) : Nat :=
  if s.fw.state = .run ∨ s.fw.state = .hung then (Config.rawWord 0x1A off s.free).toNat else s.fw.sram.le off 8

/-! ## The window (R361, R362) -/

/-- Size of a space (Table 14.9); none for an undefined one. -/
def spaceBytes (space : Nat) : Option Nat :=
  match space with
  | 0x00 => some Config.scratchBytes
  | 0x01 => some Config.accBytes
  | 0x02 => some Config.planeBytes
  | 0x03 => some Config.progBytes
  | 0x04 => some 2048
  | 0x05 => some 512
  | 0x06 => some 256
  | 0x10 => some Config.centralBytes
  | 0x11 => some 1024
  | 0x12 => some 512
  | 0x13 => some 65536
  | 0x14 => some 131072
  | 0x15 => some 262144
  | 0x16 => some 4194368
  | 0x17 => some 5242880
  | 0x18 => some 2176
  | 0x19 => some 4096
  | 0x1A => some 1048576
  | 0x1B => some 4096
  | _ => none

/-- Physical cores whose units and whose storage an `INDEX` names: a core itself, or those that serve a logical ID. Spaces 0x04 and 0x06 are per
logical ID. -/
def rbCores (s : State) (space index : Nat) (phys : Bool) : Option (Nat × Nat) :=
  if phys && space != 0x04 && space != 0x06 then (if index < 68 then some (index, index) else none)
  else if 64 ≤ index then none
  else match unitsOf s.pcores index, storageOf s.pcores index with
    | some u, some p => some (u, p)
    | _, _ => none

/-- A word of a storage array with check bits. -/
def rbStorage (s : State) (st : Storage) (off : Nat) : RbRead :=
  let w := (storageMem s st).le off 8
  if !(badWords s st off 8).isEmpty then (s, w, rbUe)
  else if !(wordsIn s.flt.single st off 8).isEmpty then (touchRead s st off 8, w, rbCe)
  else (s, w, 0)

/-- A word of a core's space. -/
def rbCore (s : State) (space index : Nat) (phys : Bool) (off : Nat) : RbRead :=
  match rbCores s space index phys with
  | none => (s, 0, rbRange)
  | some (u, p) =>
    let d := if space < 4 then p / 2 else u / 2
    if !domOn s d then (s, 0, rbOff)
    else match space with
      | 0x00 => rbStorage s (.scratch p) off
      | 0x01 => rbStorage s (.acc p) off
      | 0x02 => (s, (s.pcore p).planes.le off 8, 0)
      | 0x03 => (s, (s.pcore p).pmem.le off 8, 0)
      | 0x04 => (s, stateWord s index off, 0)
      | 0x05 => (s, coreCounterWord s u p off, 0)
      | _ => (s, coreRecordWord s index off, 0)

/-- A word of a queue's space. -/
def rbQueue (s : State) (space index off : Nat) : RbRead :=
  if 512 ≤ index then (s, 0, rbRange)
  else match slotOf s index with
    | none => (s, 0, 0)
    | some x =>
      (s, (match space with
        | 0x11 => queueWord s x off
        | 0x12 => queueCounterWord s x off
        | _ => if off / 8 < expansionSize x then (Config.expansionWord x.expand (off / 8)).toNat else 0), 0)

/-- A word of an engine-wide space. -/
def rbEngine (s : State) (space off : Nat) : RbRead :=
  match space with
  | 0x10 => if domOn s (wordDomain .central off) then rbStorage s .central off else (s, 0, rbOff)
  | 0x14 => (s, ittWord s off, 0)
  | 0x15 => if domOn s 36 then (s, tenderWord s off, 0) else (s, 0, rbOff)
  | 0x16 => if domOn s 35 then (s, accountWord s (off / 64) (off % 64), 0) else (s, 0, rbOff)
  | 0x17 => (s, byteWord (s.amax.slot (off / 80)).bytes (off % 80), 0)
  | 0x18 => (s, retireWord s (off / 32) (off % 32), 0)
  | 0x19 => (s, engineWord s off, 0)
  | 0x1A => (s, sramWord s off, 0)
  | _ => linkWord s off

/-- Offset of GX_RB_DATA. -/
def rbDataOff : Nat := 0x9008

/-- The word at an address of the window. An `INDEX` that names no core or slot reads as 0 with `RANGE` (log 52). -/
def rbFetch (s : State) (mid : Mid) (space index : Nat) (phys : Bool) (off : Nat) : RbRead :=
  match spaceBytes space with
  | none => (regIll s mid rbDataOff false, 0, rbIll)
  | some n =>
    if n < off + 8 then (s, 0, rbRange)
    else if space ≤ 0x06 then rbCore s space index phys off
    else if 0x11 ≤ space ∧ space ≤ 0x13 then rbQueue s space index off
    else rbEngine s space off

/-- `RB_READ`: the word goes to the control port's read data; the flags stay until written (log 52); `INC` moves on by 8. -/
def rbStep (s : State) (mid : Mid) : State :=
  if !(isHost mid || isDebug mid) || netOff s mid then (let t := regIll s mid rbDataOff false; { t with rb := { t.rb with rdata := 0 } })
  else
    let a := s.rb.addr.toNat
    let off := bf a 24 40
    let r := rbFetch s mid (bf a 0 6) (bf a 8 9) (bit a 6) (off / 8 * 8)
    let t := r.1
    { t with
      rb := ⟨if bit a 7 then BitVec.ofNat 64 (bf a 0 24 + (off + 8) % 2 ^ 40 * 2 ^ 24) else s.rb.addr, s.rb.stat ||| BitVec.ofNat 5 r.2.2,
        BitVec.ofNat 64 r.2.1⟩
      free := t.free + 1 }

/-- A read of GX_RB_DATA. -/
def execRbRead (mid : Mid) (s : State) : Host.Outcome State Fault Refusal := .next (rbStep s mid)

/-! ## ILL_REC_READ (R414) -/

/-- Offset of GX_ILL_REC0. -/
def illRecOff : Nat := 0x1068

/-- A read of GX_ILL_REC0 returns it and latches the detail. -/
def illRecStep (s : State) (mid : Mid) : State :=
  if mayRead mid && !netOff s mid then { s with ill := { s.ill with rec1 := s.ill.detail }, rb := { s.rb with rdata := s.ill.rec0 } }
  else (let t := regIll s mid illRecOff false; { t with rb := { t.rb with rdata := 0 } })

def execIllRecRead (mid : Mid) (s : State) : Host.Outcome State Fault Refusal := .next (illRecStep s mid)

/-! ## ACCT_SELECT (R416) -/

/-- Offset of GX_ACCT_SEL. -/
def acctSelOff : Nat := 0x7000

/-- A write of GX_ACCT_SEL. -/
def acctSelWrite (s : State) (mid : Mid) (v : Word) : State :=
  let c := bf v.toNat 0 17
  if !(isHost mid || isDebug mid) || netOff s mid || decide (65536 < c) then regIll s mid acctSelOff true
  else { s with accts := { s.accts with sel := c, data := (List.range 8).map (fun w => BitVec.ofNat 64 (accountWord s c (8 * w))) } }

def execAcctSelect (mid : Mid) (v : Word) (s : State) : Host.Outcome State Fault Refusal := .next (acctSelWrite s mid v)

/-! ## AMAX_LOAD, AMAX_STORE (R418) -/

/-- Offset of GX_AMAX_CMD. -/
def amaxCmdOff : Nat := 0x8008

/-- The 80 bytes of the data registers as a number. -/
def amaxData (a : Amax) : Nat := ofLe (a.data.flatMap (fun w => leBytes 8 w.toNat))

/-- Whether a slot may be stored: `SCALE` is not -128, and every written entry is +0, positive or +infinity. -/
def AmaxSlot.storable (x : AmaxSlot) : Bool :=
  x.scale != 0x80#8 && (List.range 16).all (fun i => !x.evalid.getLsbD i || decide ((x.entries.getD i 0).toNat ≤ 0x7F800000))

/-- A slot as the engine holds it: entries that are not written are empty. -/
def AmaxSlot.tidy (x : AmaxSlot) : AmaxSlot :=
  { x with entries := x.entries.zipIdx.map (fun e => if x.evalid.getLsbD e.2 then e.1 else 0) }

/-- A write of GX_AMAX_CMD. The copy is one step, so `BUSY` is never seen 1 (R418). -/
def amaxCmdWrite (s : State) (mid : Mid) (v : Word) : State :=
  let t := s.amax.sel.toNat
  if !isHost mid || s.amax.busy then regIll s mid amaxCmdOff true
  else if bf v.toNat 0 2 = 1 then
    let bs := (s.amax.slot t).bytes
    { s with amax := { s.amax with data := (List.range 10).map (fun w => BitVec.ofNat 64 (byteWord bs (8 * w))) } }
  else if bf v.toNat 0 2 = 2 then
    let x := parseAmax (amaxData s.amax)
    if x.storable then { s with amax := s.amax.setSlot t x.tidy, q := s.q.dropMargins (· == t) } else regIll s mid amaxCmdOff true
  else s

def execAmaxLoad (mid : Mid) (s : State) : Host.Outcome State Fault Refusal := .next (amaxCmdWrite s mid 1)

def execAmaxStore (mid : Mid) (s : State) : Host.Outcome State Fault Refusal := .next (amaxCmdWrite s mid 2)

end Sys2Proof.Machine
end

