-- ==== Sys2Proof/Machine/Registers.lean ====
section
/-!
DEFINITION. The register map (17): every write that the control port delivers, by its offset (R407-R409, Table 17.2), and the value that a read of
each register answers.
-/
namespace Sys2Proof.Machine

/-! ## Registers without a row of their own -/

/-- GX_QCTX_BASE, until the first accepted enable locks it (R408, R411). -/
def qctxBaseWrite (s : State) (mid : Mid) (v : Word) : State :=
  writeBy s (mid.toNat == 1 && !s.q.baseLock) mid 0x1000
    { s with q := { s.q with base := bf v.toNat 12 36 * 4096, baseValid := bit v.toNat 63 } }

/-- GX_IRQ_STAT: a 1 clears its flag (R412). -/
def irqStatWrite (s : State) (mid : Mid) (v : Word) : State :=
  writeBy s (isHost mid) mid 0x1018 { s with irq := { s.irq with stat := s.irq.stat &&& ~~~BitVec.ofNat 8 v.toNat } }

/-- GX_IRQ_EN. -/
def irqEnWrite (s : State) (mid : Mid) (v : Word) : State :=
  writeBy s (isHost mid) mid 0x1020 { s with irq := { s.irq with en := BitVec.ofNat 8 v.toNat } }

/-- GX_CIRQ_PEND number `k`: a 1 clears its vector (R413). -/
def cirqWrite (s : State) (mid : Mid) (k : Nat) (v : Word) : State :=
  writeBy s (decide (mid.toNat ≤ 0x1F)) mid (0x1040 + 8 * k)
    { s with irq := { s.irq with pend := s.irq.pend &&& ~~~(v.setWidth 256 <<< (64 * k)) } }

/-- GX_PF_CTL (Table 6.7). -/
def pfCtlWrite (s : State) (mid : Mid) (v : Word) : State :=
  writeBy s (isHost mid) mid pfCtlOff (match bf v.toNat 0 2 with
    | 1 => pfResumeHead s v.toNat
    | 2 => pfAbortHead s v.toNat
    | _ => s)

/-- GX_FI_TGT. -/
def fiTgtWrite (s : State) (mid : Mid) (v : Word) : State :=
  writeBy s (fiOpen s mid && decide (bf v.toNat 0 3 < 5)) mid fiTgtOff { s with flt := { s.flt with fiTgt := BitVec.ofNat 64 (bf v.toNat 0 19) } }

/-- GX_FI_ADDR. -/
def fiAddrWrite (s : State) (mid : Mid) (v : Word) : State :=
  writeBy s (fiOpen s mid) mid fiAddrOff { s with flt := { s.flt with fiAddr := BitVec.ofNat 64 (bf v.toNat 0 48) } }

/-- Whether a master may write the amax window now (R418). -/
def amaxOpen (s : State) (mid : Mid) : Bool := isHost mid && !s.amax.busy

/-- GX_AMAX_SEL. -/
def amaxSelWrite (s : State) (mid : Mid) (v : Word) : State :=
  writeBy s (amaxOpen s mid) mid 0x8000 { s with amax := { s.amax with sel := BitVec.ofNat 16 v.toNat } }

/-- GX_AMAX_DATA number `i`. -/
def amaxDataWrite (s : State) (mid : Mid) (i : Nat) (v : Word) : State :=
  writeBy s (amaxOpen s mid) mid (0x8040 + 8 * i) { s with amax := { s.amax with data := s.amax.data.set i v } }

/-- GX_RB_ADDR; reserved bits [23:17] are not kept. -/
def rbAddrWrite (s : State) (mid : Mid) (v : Word) : State :=
  writeBy s (isHost mid || isDebug mid) mid 0x9000 { s with rb := { s.rb with addr := v &&& ~~~(0x7F#64 <<< 17) } }

/-- GX_RB_STAT: a 1 clears its flag. -/
def rbStatWrite (s : State) (mid : Mid) (v : Word) : State :=
  writeBy s (isHost mid || isDebug mid) mid 0x9010 { s with rb := { s.rb with stat := s.rb.stat &&& ~~~BitVec.ofNat 5 v.toNat } }

/-! ## Table 17.2 -/

/-- Offsets of registers that software cannot write. -/
def roReg (off : Nat) : Bool :=
  [0x0, 0x8, 0x10, 0x18, 0x1010, 0x1060, 0x1068, 0x1070, 0x2010, 0x4000, 0x4008, 0x4010, 0x5000, 0x5008, 0x5010, 0x5020, 0x5118, 0x6200,
   0x7080, 0x9008].contains off ||
  (decide (0x7040 ≤ off) && decide (off < 0x7080)) || (decide (0xA000 ≤ off) && decide (off < 0xA200))

/-- A write of a register that stands alone. -/
def loneWrite (s : State) (mid : Mid) (off : Nat) (v : Word) : Option State :=
  match off with
  | 0x1000 => some (qctxBaseWrite s mid v)
  | 0x1008 => some (rstWrite s mid v)
  | 0x1018 => some (irqStatWrite s mid v)
  | 0x1020 => some (irqEnWrite s mid v)
  | 0x2000 => some (fwAddrWrite s mid v)
  | 0x2008 => some (fwCtlWrite s mid v)
  | 0x2018 => some (fwStatWrite s mid v)
  | 0x3000 => some (bellWrite s mid v)
  | 0x3008 => some (qctlWrite s mid v)
  | 0x4018 => some (pfCtlWrite s mid v)
  | 0x5018 => some (fltCtlWrite s mid v)
  | 0x5028 => some (retSeed s mid false v)
  | 0x5030 => some (retSeed s mid true v)
  | 0x5100 => some (fiCtlWrite s mid v)
  | 0x5108 => some (fiTgtWrite s mid v)
  | 0x5110 => some (fiAddrWrite s mid v)
  | 0x7000 => some (acctSelWrite s mid v)
  | 0x8000 => some (amaxSelWrite s mid v)
  | 0x8008 => some (amaxCmdWrite s mid v)
  | 0x9000 => some (rbAddrWrite s mid v)
  | 0x9010 => some (rbStatWrite s mid v)
  | 0x18000 => some (mbLockWrite s mid v)
  | _ => none

/-- A write of register `k` of mailbox channel `ch` (Table 13.3). -/
def mbWrite (s : State) (mid : Mid) (ch k : Nat) (v : Word) : Option State :=
  if k < 8 then some (mbData s mid ch k v)
  else match k with
    | 8 => some (mbRing s mid ch v)
    | 9 => some (mbAck s mid ch v)
    | 10 => some (mbStat s mid ch v)
    | 11 => some (mbCtl s mid ch v)
    | 12 => some (mbBindWrite s mid ch v)
    | _ => none

/-- A write of a register that stands in a row of its kind. -/
def rowWrite (s : State) (mid : Mid) (off : Nat) (v : Word) : Option State :=
  if 0x1040 ≤ off ∧ off ≤ 0x1058 then some (cirqWrite s mid ((off - 0x1040) / 8) v)
  else if 0x6000 ≤ off ∧ off < 0x6140 then some (pwrDomWrite s mid ((off - 0x6000) / 8) v)
  else if 0x8040 ≤ off ∧ off < 0x8090 then some (amaxDataWrite s mid ((off - 0x8040) / 8) v)
  else if 0x10000 ≤ off ∧ off < 0x18000 then mbWrite s mid ((off - 0x10000) / 512) (off % 512 / 8) v
  else none

/-- A write of an assigned register. -/
def regEffect (s : State) (mid : Mid) (off : Nat) (v : Word) : Option State := (loneWrite s mid off v).or (rowWrite s mid off v)

/-- A register write: of 64 bits at an aligned, assigned offset, from a powered network or the control port. One of a read-only register has no
effect and is not counted. -/
def regWrite (s : State) (mid : Mid) (aligned : Bool) (off : Nat) (v : Word) : State :=
  if !aligned || off % 8 != 0 || netOff s mid then regIll s mid off true
  else if roReg off then s
  else (regEffect s mid off v).getD (regIll s mid off true)

/-- `REGISTER_WRITE`. -/
def execRegisterWrite (mid : Mid) (aligned : Bool) (off : BitVec 24) (v : Word) (s : State) : Host.Outcome State Fault Refusal :=
  .next (regWrite s mid aligned off.toNat v)

/-! ## What a read answers

A read has no row but RB_READ and ILL_REC_READ; these are the values of Tables 17.3-17.9 and of the chapters' own tables. -/

/-- Codes of a domain's STATE (Table 16.6). -/
def PwrState.code : PwrState → Nat
  | .off => 0 | .retain => 1 | .on => 2 | .down => 3 | .up => 4 | .pendingOn => 5

/-- GX_PWR_DOM of domain `d`; the temperature is free (log 57). -/
def pwrDomValue (s : State) (d : Nat) : Nat :=
  let x := s.dom d
  packFields [(2, x.target), (3, x.state.code), (1, b2n x.held), (1, b2n x.vgood), (1, 0), (6, x.vreq), (2, 0), (6, x.vack), (2, 0),
    (8, (Config.sampled s.free 10).toNat), (16, x.uvcnt), (16, x.thcnt)]

/-- The program of a logical ID that a status reports: the first one that is not idle. -/
def shownProg (s : State) (l : Nat) : LCore := if (s.prog l).run = .idle then s.prog (64 + l) else s.prog l

/-- The command that a logical ID works for: that of its program, else a core command of a job that holds it, from its start to its reply. -/
def workOf (s : State) (l : Nat) : Option Cmd :=
  match (liveProgs s l).filterMap (progCmd s) with
  | c :: _ => some c
  | [] => s.q.cmds.find? (fun c => (c.stage == .started || (c.stage == .ended && c.took)) && isCoreOp c.op && c.op != 0x58 && (s.conf.job c.job).cores.contains l)

/-- The wait kind that a core shows whose command is no program: what its expansion waits for is free (log 39). -/
def standardWait (s : State) : Nat := 1 + (Config.sampled s.free 17).toNat % 13

/-- ACT of Table 17.7; whether the core of a command that is no program runs, waits, replays or is fenced is free (log 39). -/
def actOf (s : State) (l : Nat) : Nat :=
  let x := shownProg s l
  match x.run with
  | .running => if x.waits then 2 else 1
  | .replaying => 3
  | .fenced => 4
  | _ => if (workOf s l).isSome then 1 + (Config.sampled s.free 16).toNat % 4 else 0

/-- WAIT of Table 17.7. -/
def shownWait (s : State) (l : Nat) : Nat :=
  if actOf s l = 2 then (if (shownProg s l).waits then (shownProg s l).waitKind else standardWait s) else 0

/-- GX_CORE_STAT of logical ID `l`; the wave rate is free (R415). -/
def coreStatValue (s : State) (l : Nat) : Nat :=
  match unitsOf s.pcores l with
  | none => 0
  | some p =>
    if !domOn s (p / 2) then 0
    else
      let c := workOf s l
      let slot := c.bind (fun c => (s.q.find c.qid).map (·.slot))
      packFields [(7, p), (1, b2n ((s.pcore p).pstate == .host)), (3, actOf s l), (4, shownWait s l), (1, 0),
        (3, (c.map (·.job)).getD 0), (9, slot.getD 0), (4, 0), (16, (Config.sampled s.free 11).toNat)]

/-- GX_FLT_INFO, GX_FLT_LOC, GX_FLT_TIME of the head record (Table 14.5). -/
def fltWords (s : State) : List Nat :=
  match s.flt.recs with
  | [] => [0, 0, 0]
  | r :: _ =>
    [packFields [(1, 1), (4, r.kind), (1, b2n r.inj), (2, r.action), (7, r.pcore), (1, 0), (6, r.lcore.getD 0), (1, b2n r.lcore.isSome), (3, r.unit),
      (2, r.evcnt)], r.loc.toNat, r.stamp % 2 ^ 48]

/-- GX_FLT_STAT; `DMAPS` counts an ID that shares a `HOST` with another once for each `HOST` (DESIGN CHOICE, log 103). -/
def fltStatValue (s : State) : Nat :=
  packFields [(3, (s.pcores.filter (fun x => x.pstate == .spare)).length), (1, 0), (6, (s.pcores.filter (fun x => x.pstate == .host)).length),
    (1, b2n s.flt.lost), (5, 0), (8, s.flt.ports.toNat), (3, s.flt.rlinks.toNat), (5, 0), (16, s.flt.ovf)]

/-- A register of a mailbox channel: both sides of a bound channel read it, and MID 0x01 its binding. Another read returns 0 and is counted, and so is
one of GX_MB_BELL and GX_MB_ACK, which nobody may read (R322). -/
def mbValue (s : State) (ch k : Nat) : Nat :=
  let x := s.chan ch
  if k < 8 then (x.data.getD k 0).toNat
  else match k with
    | 10 => packFields [(1, b2n x.full), (1, b2n x.coll), (1, b2n x.fog), (1, b2n x.emptied), (1, b2n x.lastBcn), (1, b2n x.wakePend), (10, 0),
        (16, x.rings.toNat), (16, x.colls)]
    | 11 => packFields [(1, b2n x.rie), (1, b2n x.cie), (1, b2n x.eie), (1, b2n x.fie)]
    | 12 => packFields [(6, x.snd.toNat), (2, 0), (6, x.rcv.toNat), (2, 0), (6, x.wdom), (2, 0), (24, x.tmo), (15, 0), (1, b2n x.valid)]
    | _ => 0

/-- Identity and capability (Table 17.3), control and interrupts (Tables 17.4-17.6, 16.10). -/
def controlValue (s : State) (off : Nat) : Option Nat :=
  match off with
  | 0x0 => some 0x0000021047384C52
  | 0x8 => some (packFields [(3, s.fuses.die), (1, 0), (4, s.fuses.ndie)])
  | 0x10 => some (packFields [(8, 68), (8, 64), (4, 4), (4, 8), (4, 3), (4, 3), (16, 1536), (16, 2048)])
  | 0x18 => some (packFields [(10, 512), (6, 0), (5, 22), (3, 0), (8, 64), (16, 4096), (16, 256)])
  | 0x1000 => some (packFields [(48, s.q.base), (15, 0), (1, b2n s.q.baseValid)])
  | 0x1008 => some 0
  | 0x1010 => some (packFields [(3, s.boot.phase), (1, 0), (4, s.boot.erru), (8, s.boot.btfail), (24, s.boot.btime), (1, b2n s.boot.cold)])
  | 0x1018 => some s.irq.stat.toNat
  | 0x1020 => some s.irq.en.toNat
  | 0x1060 => some (s.ill.cnt % 2 ^ 48)
  | 0x1068 => some s.ill.rec0.toNat
  | 0x1070 => some s.ill.rec1.toNat
  | 0x2000 => some s.fw.addr
  | 0x2008 => some 0
  | 0x2010 => some (packFields [(32, if s.fw.state = .run then s.fw.ver else 0), (7, s.fw.svn), (1, 0), (7, s.fuses.arc)])
  | 0x2018 => some (packFields [(3, s.fw.state.code), (1, 0), (4, s.fw.reason), (8, s.fw.tries), (1, b2n s.fw.arcBusy), (1, b2n s.fw.arcErr)])
  | 0x3000 => some 0
  | 0x3008 => some 0
  | _ => none

/-- Faults, injection, power, accounts, amax and read-back registers. GX_PWR_NOW is free (Table 17.8). -/
def unitValue (s : State) (off : Nat) : Option Nat :=
  let pf := (s.tender.recs.head?.map PfRec.words).getD [0, 0, 0]
  match off with
  | 0x4000 => some (pf.getD 0 0)
  | 0x4008 => some (pf.getD 1 0)
  | 0x4010 => some (pf.getD 2 0)
  | 0x4018 => some 0
  | 0x5000 => some ((fltWords s).getD 0 0)
  | 0x5008 => some ((fltWords s).getD 1 0)
  | 0x5010 => some ((fltWords s).getD 2 0)
  | 0x5018 => some 0
  | 0x5020 => some (fltStatValue s)
  | 0x5028 => some s.flt.seed0.toNat
  | 0x5030 => some s.flt.seed1.toNat
  | 0x5100 => some s.flt.fiCtl.toNat
  | 0x5108 => some s.flt.fiTgt.toNat
  | 0x5110 => some s.flt.fiAddr.toNat
  | 0x5118 => some (s.flt.fiDone % 65536)
  | 0x6200 => some ((Config.sampled s.free 12).toNat % 65536)
  | 0x7000 => some s.accts.sel
  | 0x7080 => some s.accts.total
  | 0x8000 => some s.amax.sel.toNat
  | 0x8008 => some (b2n s.amax.busy * 4)
  | 0x9000 => some s.rb.addr.toNat
  | 0x9010 => some s.rb.stat.toNat
  | 0x18000 => some (b2n s.mail.lock)
  | _ => none

/-- Registers that stand in a row of their kind. -/
def rowValue (s : State) (off : Nat) : Option Nat :=
  if 0x1040 ≤ off ∧ off ≤ 0x1058 then some (bf s.irq.pend.toNat (64 * ((off - 0x1040) / 8)) 64)
  else if 0x6000 ≤ off ∧ off < 0x6140 then some (pwrDomValue s ((off - 0x6000) / 8))
  else if 0x7040 ≤ off ∧ off < 0x7080 then some (s.accts.data.getD ((off - 0x7040) / 8) 0).toNat
  else if 0x8040 ≤ off ∧ off < 0x8090 then some (s.amax.data.getD ((off - 0x8040) / 8) 0).toNat
  else if 0xA000 ≤ off ∧ off < 0xA200 then some (coreStatValue s ((off - 0xA000) / 8))
  else none

/-- The word that a read of an assigned register outside the mailboxes and the read-back data answers. -/
def regValue (s : State) (off : Nat) : Option Nat := ((controlValue s off).or (unitValue s off)).or (rowValue s off)

/-- Whether what a register shows is sampled anew at each read: temperatures and power, core status (Table 17.8, R415). -/
def sampledReg (off : Nat) : Bool := (decide (0x6000 ≤ off) && decide (off ≤ 0x6200)) || (decide (0xA000 ≤ off) && decide (off < 0xA200))

/-- A read of the control port: the state after it and the word. -/
def regRead (s : State) (mid : Mid) (aligned : Bool) (off : Nat) : State × Word :=
  let bad := (regIll s mid off false, 0#64)
  if !aligned || off % 8 != 0 || netOff s mid then bad
  else if off = rbDataOff then (let t := rbStep s mid; (t, t.rb.rdata))
  else if off = illRecOff then (let t := illRecStep s mid; (t, t.rb.rdata))
  else if 0x10000 ≤ off ∧ off < 0x18000 ∧ off % 512 / 8 < 13 then
    let ch := (off - 0x10000) / 512
    let k := off % 512 / 8
    let x := s.chan ch
    if k != mbBellReg && k != mbAckReg && (x.isSender mid || x.isReceiver mid || (k == mbBindReg && mid.toNat == 1)) then (s, BitVec.ofNat 64 (mbValue s ch k))
    else (mbIll s mid ch k 0, 0)
  else if !mayRead mid || ((off == 0x9000 || off == 0x9010) && !(isHost mid || isDebug mid)) then bad
  else match regValue s off with
    | some n => (if sampledReg off then { s with free := s.free + 1 } else s, BitVec.ofNat 64 n)
    | none => bad

end Sys2Proof.Machine
end

