-- ==== Sys2Proof/Machine/Reply.lean ====
section
/-!
DEFINITION. The row COMMAND_COMPLETION: the reply of the first command of a queue that has ended, and what it lets go on (R282, R306).
-/
namespace Sys2Proof.Machine

/-- `COMMAND_COMPLETION` of queue `q`, unless a page fault halts the reply's write (R143) or a hold stops it (R389, R392). A queue that a save or a cancel has left out of its slot
replies from its context in memory (R308, R311). The account that it updates may hold a word that cannot be corrected (R358). -/
def completeStep (s : State) (q : Nat) (meas : Meas) : State :=
  if !keeperRuns s || !keeperUp s || !fabricUp s || s.tender.ctlHeld (.reply q) then s
  else
    let s := reserveTouch s
    let x := (s.q.find q).getD (outQueue s q)
    match completable s x with
    | none => s
    | some c => switchJobs (applyIfIdle (jobSwitch (serveIdle (onOut s q (fun t => replyOut t x c meas))) c.job))

/-- A command ends: its reply is written in ring order, and accounts, amax slots, norm accumulators and slice state follow (R282). -/
def execCommandCompletion (q : Nat) (m : Meas) (s : State) : Host.Outcome State Fault Refusal := onQueue q (completeStep s q m)

end Sys2Proof.Machine
end

