-- ==== Sys2Proof/Machine/Tap.lean ====
section
/-!
DEFINITION. The test access port (R433): the IEEE 1149.1 controller, its instructions `BYPASS`, `SAMPLE` and the private one that selects the
IEEE 1687 network. The manual gives neither instruction codes nor the network's chains: those bits are free (log 16).
-/
namespace Sys2Proof.Machine

/-- The next controller state at a rising edge of TCK, by TMS (IEEE 1149.1). -/
def TapState.next : TapState → Bool → TapState
  | .reset, tms => if tms then .reset else .idle
  | .idle, tms => if tms then .drSelect else .idle
  | .drSelect, tms => if tms then .irSelect else .drCapture
  | .drCapture, tms => if tms then .drExit1 else .drShift
  | .drShift, tms => if tms then .drExit1 else .drShift
  | .drExit1, tms => if tms then .drUpdate else .drPause
  | .drPause, tms => if tms then .drExit2 else .drPause
  | .drExit2, tms => if tms then .drUpdate else .drShift
  | .drUpdate, tms => if tms then .drSelect else .idle
  | .irSelect, tms => if tms then .reset else .irCapture
  | .irCapture, tms => if tms then .irExit1 else .irShift
  | .irShift, tms => if tms then .irExit1 else .irShift
  | .irExit1, tms => if tms then .irUpdate else .irPause
  | .irPause, tms => if tms then .irExit2 else .irPause
  | .irExit2, tms => if tms then .irUpdate else .irShift
  | .irUpdate, tms => if tms then .drSelect else .idle

/-- The instruction that a shifted-in code selects. -/
def tapSelect (code : List Bool) : TapInstr :=
  match Config.tapCode code % 3 with
  | 0 => .bypass
  | 1 => .sample
  | _ => .network

/-- A rising edge: the current state captures or shifts, and the controller moves on; test reset selects `BYPASS`. -/
def Tap.rise (t : Tap) (tms tdi : Bool) : Tap :=
  let u := match t.state with
    | .drCapture => { t with dr := false }
    | .drShift => { t with dr := tdi }
    | .irCapture => { t with shift := [] }
    | .irShift => { t with shift := tdi :: t.shift }
    | _ => t
  let st := t.state.next tms
  { u with state := st, instr := if st = .reset then .bypass else u.instr }

/-- The bit that leaves a shift register: of the instruction register 1, then 0, as IEEE 1149.1 has it captured; of `BYPASS` its one bit. -/
def Tap.out (t : Tap) (free : Nat) : Bool :=
  match t.state with
  | .irShift => if t.shift.isEmpty then true else if t.shift.length = 1 then false else Config.tapData free
  | .drShift => if t.instr = .bypass then t.dr else Config.tapData free
  | _ => t.tdo

/-- A falling edge: TDO takes the next bit, and Update-IR makes the shifted-in instruction current. -/
def Tap.fall (t : Tap) (free : Nat) : Tap :=
  { t with tdo := t.out free, instr := if t.state = .irUpdate then tapSelect t.shift else t.instr }

/-- An edge of TCK. -/
def tapStep (s : State) (rising tms tdi : Bool) : State :=
  if rising then { s with tap := s.tap.rise tms tdi } else { s with tap := s.tap.fall s.free, free := s.free + 1 }

/-- `TAP_TCK_EDGE`. -/
def execTapTckEdge (rising tms tdi : Bool) (s : State) : Host.Outcome State Fault Refusal := .next (tapStep s rising tms tdi)

end Sys2Proof.Machine
end

