-- ==== Sys2Proof/Machine/Vectors.lean ====
section
/-!
DEFINITION. The vector instructions of a core program: `VOP`, `VRED` and `VSF` (Table 5.5, R55, R197, R198, Table 8.4) on the scratchpad.
-/
namespace Sys2Proof.Machine

/-- Formats of vector operands (Table 5.3). -/
def vecFmt (f : Nat) : Bool := f == 0 || f == 1 || f == 8

/-- The element count: `IMM` or the low half-word of a register. -/
def vecCount (x : LCore) (w : Nat) : Nat := if bit w 20 then bf w 0 16 else bf (x.reg (bf w 21 5)).toNat 0 16

/-- The pieces of `n` contiguous elements at a generator's address. -/
def vecPieces (x : LCore) (k f n : Nat) : List (Int × Nat) := contiguous (x.ag k).addr (n * eBytes f)

/-- The elements of an operand, exactly converted (R25). -/
def vecElems (f n : Nat) (bs : List Byte) : List Num :=
  (List.range n).map (fun k => (fmtOf f).decode (ofLe ((bs.drop (eBytes f * k)).take (eBytes f))))

/-- Each of the generators advances one use; one named twice does so once (log 14). -/
def LCore.useEach (x : LCore) (ks : List Nat) : LCore := ks.eraseDups.foldl (fun y k => y.useAg k 1) x

/-- Operands of a `VOP` function: a; a and b; or a, b and c. -/
def vopArity (fn : Nat) : Nat :=
  match fn with
  | 6 | 7 | 8 => 1
  | 3 | 9 => 3
  | _ => 2

/-- The exact result of a `VOP` function, which the destination format rounds once (R55, R197). -/
def vopExact (fn : Nat) (a b c : Num) : Num :=
  match fn with
  | 0 => a.add b
  | 1 => a.sub b
  | 2 => a.mul b
  | 3 => (a.mul b).add c
  | 4 => val (max32 (rne32 a) (rne32 b))
  | 5 => val (min32 (rne32 a) (rne32 b))
  | 6 => a.abs
  | 7 => a.neg
  | 8 => a
  | 9 => if (Num.zero false).lt a then b else c
  | _ => if b.lt a then .fin false 1 0 else .zero false

/-- Several operands read in turn. -/
def readOperands (i : Nat) (c : Cmd) : List (List (Int × Nat)) → State → State × List (List Byte) × Bool
  | [], s => (s, [], true)
  | ps :: r, s =>
    let k := readPieces i c 0 ps s
    if k.ok then
      let q := readOperands i c r k.st
      (q.1, k.data :: q.2.1, q.2.2)
    else (k.st, [], false)

/-- A vector counter of the queue (Table 8.8) advanced. -/
def countVec (s : State) (c : Cmd) (k n : Nat) : State := { s with q := s.q.upd c.qid (fun x => { x with cnt := x.cnt.bump 2 k n }) }

/-- `VOP`. -/
def vopInstr (s : State) (i : Nat) (c : Cmd) (w : Nat) : IRes :=
  let x := s.prog i
  let fn := bf w 50 6
  let kd := bf w 46 4
  let srcs := [bf w 42 4, bf w 38 4, bf w 34 4].take (vopArity fn)
  let fd := bf w 30 4
  let fs := bf w 26 4
  let n := vecCount x w
  let dst := vecPieces x kd fd n
  let ins := srcs.map (fun k => vecPieces x k fs n)
  if rsvBits w [(55, 20), (15, 0)] || decide (0xA < fn) || n == 0 || !vecFmt fd || !vecFmt fs ||
    (kd :: srcs).any (fun k => (x.ag k).sp != 0) then .illegal
  else if x.locked (ins.flatMap (pieceSpans 0)) (pieceSpans 0 dst) then
    holdInstr s i w (ins.flatMap (pieceSpans 0)) (pieceSpans 0 dst) (fun y => y.useEach (kd :: srcs))
  else
    let r := readOperands i c ins s
    if r.2.2 then
      let e := fun k => vecElems fs n (r.2.1.getD k [])
      let a := e 0
      let b := e 1
      let d := e 2
      let res := (List.range n).map (fun k => (fmtOf fd).rne (vopExact fn (a.getD k (.zero false)) (b.getD k (.zero false)) (d.getD k (.zero false))))
      let t := writePieces i c 0 (cutBytes dst (res.flatMap (leBytes (eBytes fd)))) r.1
      .go ((noteOob (countVec t c 3 (cdiv n 256)) i (outPieces s i 0 (dst ++ ins.flatMap id))).updProg i (fun y => y.useEach (kd :: srcs)))
    else .ovr r.1

/-- `VRED`: the reduction and eight combining waves of its lanes. A count of 0 is taken as illegal here and in `VSF`, as Table 5.3 says for `VOP`
(DESIGN CHOICE, log 89). -/
def vredInstr (s : State) (i : Nat) (c : Cmd) (w : Nat) : IRes :=
  let x := s.prog i
  let fn := bf w 50 6
  let ka := bf w 41 4
  let fs := bf w 26 4
  let n := vecCount x w
  let ps := vecPieces x ka fs n
  if rsvBits w [(55, 41), (29, 20), (15, 0)] || decide (3 < fn) || n == 0 || !vecFmt fs || (x.ag ka).sp != 0 then .illegal
  else if x.locked (pieceSpans 0 ps) [] then .wait (lockKind s i c (pieceSpans 0 ps))
  else
    let r := readPieces i c 0 ps s
    if r.ok then
      let v := vred fn ((vecElems fs n r.data).map rne32)
      .go ((noteOob (countVec r.st c 3 (cdiv n 256 + 8)) i (outPieces s i 0 ps)).updProg i (fun y =>
        (y.setReg (bf w 45 5) (BitVec.ofNat 64 v.toNat)).useAg ka 1))
    else .ovr r.st

/-- Special function by its code (Table 5.5). -/
def vsf (fn : Nat) (a : F32) : F32 :=
  match fn with
  | 0 => exp32 a
  | 1 => log32 a
  | 2 => rcp32 a
  | 3 => rsqrt32 a
  | _ => tanh32 a

/-- `VSF`. -/
def vsfInstr (s : State) (i : Nat) (c : Cmd) (w : Nat) : IRes :=
  let x := s.prog i
  let fn := bf w 50 6
  let kd := bf w 46 4
  let ka := bf w 42 4
  let fd := bf w 30 4
  let fs := bf w 26 4
  let n := vecCount x w
  let dst := vecPieces x kd fd n
  let src := vecPieces x ka fs n
  if rsvBits w [(55, 42), (33, 20), (15, 0)] || decide (4 < fn) || n == 0 || !vecFmt fd || !vecFmt fs || (x.ag kd).sp != 0 ||
    (x.ag ka).sp != 0 then .illegal
  else if x.locked (pieceSpans 0 src) (pieceSpans 0 dst) then holdInstr s i w (pieceSpans 0 src) (pieceSpans 0 dst) (fun y => y.useEach [kd, ka])
  else
    let r := readPieces i c 0 src s
    if r.ok then
      let res := (vecElems fs n r.data).map (fun a => (fmtOf fd).rne (val (vsf fn (rne32 a))))
      let t := writePieces i c 0 (cutBytes dst (res.flatMap (leBytes (eBytes fd)))) r.st
      .go ((noteOob (countVec t c 4 n) i (outPieces s i 0 (dst ++ src))).updProg i (fun y => y.useEach [kd, ka]))
    else .ovr r.st

/-- `VOP` on a core. -/
def execVop (l : Nat) (s : State) : Host.Outcome State Fault Refusal := onCore l (instrStep s l (· == 0x40) vopInstr)

/-- `VRED` on a core. -/
def execVred (l : Nat) (s : State) : Host.Outcome State Fault Refusal := onCore l (instrStep s l (· == 0x41) vredInstr)

/-- `VSF` on a core. -/
def execVsf (l : Nat) (s : State) : Host.Outcome State Fault Refusal := onCore l (instrStep s l (· == 0x42) vsfInstr)

end Sys2Proof.Machine
end

