-- ==== Sys2Proof/Machine/Dispatch.lean ====
section
/-!
DEFINITION. The dispatch of the commands to their meanings: one arm per constructor of `Instr`.
-/
namespace Sys2Proof.Machine

def exec (i : Instr) (s : State) : Host.Outcome State Fault Refusal :=
  match i with
  | .gpair q => Sys2Proof.Machine.execGpair q s
  | .dxp q => Sys2Proof.Machine.execDxp q s
  | .dwp q => Sys2Proof.Machine.execDwp q s
  | .matmul q => Sys2Proof.Machine.execMatmul q s
  | .nbwd q => Sys2Proof.Machine.execNbwd q s
  | .sbwd q => Sys2Proof.Machine.execSbwd q s
  | .abwd q => Sys2Proof.Machine.execAbwd q s
  | .epi q => Sys2Proof.Machine.execEpi q s
  | .embg q => Sys2Proof.Machine.execEmbg q s
  | .embgPhase q => Sys2Proof.Machine.execEmbgPhase q s
  | .merge q => Sys2Proof.Machine.execMerge q s
  | .xgrad q => Sys2Proof.Machine.execXgrad q s
  | .prune q => Sys2Proof.Machine.execPrune q s
  | .lens q => Sys2Proof.Machine.execLens q s
  | .lensUnit err => Sys2Proof.Machine.execLensUnit err s
  | .aliasFoldPass q => Sys2Proof.Machine.execAliasFoldPass q s
  | .copy q => Sys2Proof.Machine.execCopy q s
  | .fill q => Sys2Proof.Machine.execFill q s
  | .reduce q => Sys2Proof.Machine.execReduce q s
  | .gnorm q => Sys2Proof.Machine.execGnorm q s
  | .amax q => Sys2Proof.Machine.execAmax q s
  | .reductionSegment link seg err => Sys2Proof.Machine.execReductionSegment link seg err s
  | .collectiveAbort link cseq => Sys2Proof.Machine.execCollectiveAbort link cseq s
  | .barrier q => Sys2Proof.Machine.execBarrier q s
  | .fence q => Sys2Proof.Machine.execFence q s
  | .loop q => Sys2Proof.Machine.execLoop q s
  | .waitq q => Sys2Proof.Machine.execWaitq q s
  | .waitqPoll q => Sys2Proof.Machine.execWaitqPoll q s
  | .runp q => Sys2Proof.Machine.execRunp q s
  | .chain q => Sys2Proof.Machine.execChain q s
  | .save q => Sys2Proof.Machine.execSave q s
  | .restore q => Sys2Proof.Machine.execRestore q s
  | .daymark q => Sys2Proof.Machine.execDaymark q s
  | .daymarkCapture q => Sys2Proof.Machine.execDaymarkCapture q s
  | .parity q => Sys2Proof.Machine.execParity q s
  | .cfg q => Sys2Proof.Machine.execCfg q s
  | .nop q => Sys2Proof.Machine.execNop q s
  | .packetRead q => Sys2Proof.Machine.execPacketRead q s
  | .admission j => Sys2Proof.Machine.execAdmission j s
  | .commandCompletion q m => Sys2Proof.Machine.execCommandCompletion q m s
  | .contextRestore j saveNs restoreNs => Sys2Proof.Machine.execContextRestore j saveNs restoreNs s
  | .stagedConfigApply => Sys2Proof.Machine.execStagedConfigApply s
  | .qbellPackets mid v => Sys2Proof.Machine.execQbellPackets mid v s
  | .qbellReplies mid v => Sys2Proof.Machine.execQbellReplies mid v s
  | .queueEnable mid v => Sys2Proof.Machine.execQueueEnable mid v s
  | .queueDisable mid v => Sys2Proof.Machine.execQueueDisable mid v s
  | .queueCancel mid v => Sys2Proof.Machine.execQueueCancel mid v s
  | .queueEvict mid v => Sys2Proof.Machine.execQueueEvict mid v s
  | .queueBringIn mid v => Sys2Proof.Machine.execQueueBringIn mid v s
  | .sliceInject l arr col feeder => Sys2Proof.Machine.execSliceInject l arr col feeder s
  | .cubeWave l arr r c => Sys2Proof.Machine.execCubeWave l arr r c s
  | .drainRow l => Sys2Proof.Machine.execDrainRow l s
  | .preloadRow l => Sys2Proof.Machine.execPreloadRow l s
  | .tenderBlockIssue q stream => Sys2Proof.Machine.execTenderBlockIssue q stream s
  | .fabricResponse x code => Sys2Proof.Machine.execFabricResponse x code s
  | .pfResume mid => Sys2Proof.Machine.execPfResume mid s
  | .pfAbort mid => Sys2Proof.Machine.execPfAbort mid s
  | .streamWatchdog q stream us => Sys2Proof.Machine.execStreamWatchdog q stream us s
  | .waitWatchdog w us => Sys2Proof.Machine.execWaitWatchdog w us s
  | .nopInstruction l => Sys2Proof.Machine.execNopInstruction l s
  | .salu l => Sys2Proof.Machine.execSalu l s
  | .sli l => Sys2Proof.Machine.execSli l s
  | .sld l => Sys2Proof.Machine.execSld l s
  | .sst l => Sys2Proof.Machine.execSst l s
  | .ags l => Sys2Proof.Machine.execAgs l s
  | .aga l => Sys2Proof.Machine.execAga l s
  | .br l => Sys2Proof.Machine.execBr l s
  | .loopInstruction l => Sys2Proof.Machine.execLoopInstruction l s
  | .halt l => Sys2Proof.Machine.execHalt l s
  | .programEnd l => Sys2Proof.Machine.execProgramEnd l s
  | .tld l => Sys2Proof.Machine.execTld l s
  | .tst l => Sys2Proof.Machine.execTst l s
  | .wb l => Sys2Proof.Machine.execWb l s
  | .pld l => Sys2Proof.Machine.execPld l s
  | .pdr l => Sys2Proof.Machine.execPdr l s
  | .pew l => Sys2Proof.Machine.execPew l s
  | .vop l => Sys2Proof.Machine.execVop l s
  | .vred l => Sys2Proof.Machine.execVred l s
  | .vsf l => Sys2Proof.Machine.execVsf l s
  | .send l => Sys2Proof.Machine.execSend l s
  | .recv l => Sys2Proof.Machine.execRecv l s
  | .messageTransfer l idx => Sys2Proof.Machine.execMessageTransfer l idx s
  | .mwait l => Sys2Proof.Machine.execMwait l s
  | .claim l => Sys2Proof.Machine.execClaim l s
  | .bar l => Sys2Proof.Machine.execBar l s
  | .barrierRelease l scope id => Sys2Proof.Machine.execBarrierRelease l scope id s
  | .sig l => Sys2Proof.Machine.execSig l s
  | .swait l => Sys2Proof.Machine.execSwait l s
  | .mark l => Sys2Proof.Machine.execMark l s
  | .markComplete l => Sys2Proof.Machine.execMarkComplete l s
  | .chfree l => Sys2Proof.Machine.execChfree l s
  | .chput l => Sys2Proof.Machine.execChput l s
  | .chget l => Sys2Proof.Machine.execChget l s
  | .chrel l => Sys2Proof.Machine.execChrel l s
  | .checkEvent p kind unit loc life storageOk => Sys2Proof.Machine.execCheckEvent p kind unit loc life storageOk s
  | .replayStart l => Sys2Proof.Machine.execReplayStart l s
  | .eccWriteback st addr => Sys2Proof.Machine.execEccWriteback st addr s
  | .scrub st => Sys2Proof.Machine.execScrub st s
  | .linkFrameReceive link seqno crcOk => Sys2Proof.Machine.execLinkFrameReceive link seqno crcOk s
  | .frameResendTimeout link => Sys2Proof.Machine.execFrameResendTimeout link s
  | .fltPop mid => Sys2Proof.Machine.execFltPop mid s
  | .retSeedWrite mid hi v => Sys2Proof.Machine.execRetSeedWrite mid hi v s
  | .fiArm mid v => Sys2Proof.Machine.execFiArm mid v s
  | .injection => Sys2Proof.Machine.execInjection s
  | .rbRead mid => Sys2Proof.Machine.execRbRead mid s
  | .illRecRead mid => Sys2Proof.Machine.execIllRecRead mid s
  | .acctSelect mid v => Sys2Proof.Machine.execAcctSelect mid v s
  | .amaxLoad mid => Sys2Proof.Machine.execAmaxLoad mid s
  | .amaxStore mid => Sys2Proof.Machine.execAmaxStore mid s
  | .mbDataWrite mid ch w v => Sys2Proof.Machine.execMbDataWrite mid ch w v s
  | .mbBell mid ch => Sys2Proof.Machine.execMbBell mid ch s
  | .mbBeacon mid ch => Sys2Proof.Machine.execMbBeacon mid ch s
  | .mbEmpty mid ch => Sys2Proof.Machine.execMbEmpty mid ch s
  | .mbFogTimeout ch => Sys2Proof.Machine.execMbFogTimeout ch s
  | .mbCtlWrite mid ch v => Sys2Proof.Machine.execMbCtlWrite mid ch v s
  | .mbBind mid ch v => Sys2Proof.Machine.execMbBind mid ch v s
  | .mbLock mid => Sys2Proof.Machine.execMbLock mid s
  | .fwLoad mid => Sys2Proof.Machine.execFwLoad mid s
  | .fwAbort mid => Sys2Proof.Machine.execFwAbort mid s
  | .firmwareVerify readOk => Sys2Proof.Machine.execFirmwareVerify readOk s
  | .arcAdvance mid => Sys2Proof.Machine.execArcAdvance mid s
  | .arcAdvanceEnd fuseFailedAfter => Sys2Proof.Machine.execArcAdvanceEnd fuseFailedAfter s
  | .keeperWatchdogExpiry => Sys2Proof.Machine.execKeeperWatchdogExpiry s
  | .powerTargetWrite mid d target => Sys2Proof.Machine.execPowerTargetWrite mid d target s
  | .vreqWrite mid d v => Sys2Proof.Machine.execVreqWrite mid d v s
  | .heldTargetApply d => Sys2Proof.Machine.execHeldTargetApply d s
  | .powerTransitionDone d failedCores storageBad failedLinks => Sys2Proof.Machine.execPowerTransitionDone d failedCores storageBad failedLinks s
  | .regulatorAck d code => Sys2Proof.Machine.execRegulatorAck d code s
  | .currentSample d tenMa => Sys2Proof.Machine.execCurrentSample d tenMa s
  | .energyInterval dom mv shares => Sys2Proof.Machine.execEnergyInterval dom mv shares s
  | .undervoltageHold dom => Sys2Proof.Machine.execUndervoltageHold dom s
  | .undervoltageRelease dom => Sys2Proof.Machine.execUndervoltageRelease dom s
  | .thermalHold dom tempC => Sys2Proof.Machine.execThermalHold dom tempC s
  | .thermalRelease dom tempC => Sys2Proof.Machine.execThermalRelease dom tempC s
  | .clockStop dom => Sys2Proof.Machine.execClockStop dom s
  | .clockResume dom => Sys2Proof.Machine.execClockResume dom s
  | .coldResetLine cycles => Sys2Proof.Machine.execColdResetLine cycles s
  | .warmResetLine cycles => Sys2Proof.Machine.execWarmResetLine cycles s
  | .rstCold mid => Sys2Proof.Machine.execRstCold mid s
  | .rstWarm mid => Sys2Proof.Machine.execRstWarm mid s
  | .fabricExtentReport bytes => Sys2Proof.Machine.execFabricExtentReport bytes s
  | .bootSelfTestDone res => Sys2Proof.Machine.execBootSelfTestDone res s
  | .registerWrite mid aligned off v => Sys2Proof.Machine.execRegisterWrite mid aligned off v s
  | .keeperDomainPowerUp => Sys2Proof.Machine.execKeeperDomainPowerUp s
  | .keeperHeartbeat => Sys2Proof.Machine.execKeeperHeartbeat s
  | .tapTckEdge rising tms tdi => Sys2Proof.Machine.execTapTckEdge rising tms tdi s

end Sys2Proof.Machine
end

