-- ==== Sys2Proof/WellFormed.lean ====
section
/-!
DEFINITION. Which commands name units that the engine has: queue IDs below 4,194,304 (R279), logical cores 0-63 and physical cores 0-67
(R8, Table 16.1), jobs 0-7 (R297), arrays A0-A3 with 8 x 8 cubes and 8 feeders a side (R59, R65), mailbox channels 0-63 with 8 words
(Table 13.3), switched domains 0-39 (Table 16.4), timing domains 0-74 (Table 16.1), ports and links. Nothing else is a condition: an event
that is not enabled changes nothing (log 3), it is not ill-formed.
-/
namespace Sys2Proof

/-- A link exists. -/
def FrameLink.wf : FrameLink → Bool
  | .mesh p d => decide (p < 68) && decide (d < 4)
  | .couple p side => decide (p < 68) && decide (side < 2)
  | .fabric k => decide (k < 8)
  | .reduction l => decide (l < 3)

/-- A storage array exists and holds the byte address. -/
def Storage.wf : Storage → Nat → Bool
  | .scratch p, a => decide (p < 68) && decide (a < Config.scratchBytes)
  | .acc p, a => decide (p < 68) && decide (a < Config.accBytes)
  | .central, a => decide (a < Config.centralBytes)

/-- What waits exists. -/
def Waiter.wf : Waiter → Bool
  | .core l => decide (l < 64)
  | .queue q => decide (q < Config.queueCount)

/-- A self-test result names units that exist. -/
def BootResult.wf (r : BootResult) : Bool :=
  r.failedCores.all (fun p => decide (p < 68)) && r.storageBad.all (fun p => decide (p < 68)) &&
  r.failedPorts.all (fun k => decide (k < 8)) && r.failedRLinks.all (fun k => decide (k < 3)) && decide (r.failedUnit < 6)

/-- A queue ID exists. -/
def wfQ (q : Nat) : Bool := decide (q < Config.queueCount)

/-- A logical core exists. -/
def wfL (l : Nat) : Bool := decide (l < 64)

/-- The command names only units that exist. -/
def Instr.wf : Instr → Bool
  | .gpair q | .dxp q | .dwp q | .matmul q | .nbwd q | .sbwd q | .abwd q | .epi q | .embg q | .embgPhase q | .merge q | .xgrad q
  | .prune q | .lens q | .aliasFoldPass q | .copy q | .fill q | .reduce q | .gnorm q | .amax q | .barrier q | .fence q | .loop q
  | .waitq q | .waitqPoll q | .runp q | .chain q | .save q | .restore q | .daymark q | .daymarkCapture q | .parity q | .cfg q
  | .nop q | .packetRead q | .commandCompletion q _ | .tenderBlockIssue q _ | .streamWatchdog q _ _ => wfQ q
  | .admission j | .contextRestore j _ _ => decide (j < 8)
  | .sliceInject l arr _ f => wfL l && decide (arr < 4) && decide (f < 8)
  | .cubeWave l arr r c => wfL l && decide (arr < 4) && decide (r < 8) && decide (c < 8)
  | .drainRow l | .preloadRow l | .nopInstruction l | .salu l | .sli l | .sld l | .sst l | .ags l | .aga l | .br l
  | .loopInstruction l | .halt l | .programEnd l | .tld l | .tst l | .wb l | .pld l | .pdr l | .pew l | .vop l | .vred l | .vsf l
  | .send l | .recv l | .messageTransfer l _ | .mwait l | .claim l | .bar l | .barrierRelease l _ _ | .sig l | .swait l | .mark l
  | .markComplete l | .chfree l | .chput l | .chget l | .chrel l | .replayStart l => wfL l
  | .checkEvent p _ _ _ _ _ => decide (p < 68)
  | .eccWriteback st a => st.wf a
  | .scrub st => st.wf 0
  | .linkFrameReceive link _ _ | .frameResendTimeout link => link.wf
  | .waitWatchdog w _ => w.wf
  | .mbDataWrite _ ch w _ => decide (ch < 64) && decide (w < 8)
  | .mbBell _ ch | .mbBeacon _ ch | .mbEmpty _ ch | .mbFogTimeout ch | .mbCtlWrite _ ch _ | .mbBind _ ch _ => decide (ch < 64)
  | .powerTargetWrite _ d _ | .vreqWrite _ d _ | .heldTargetApply d | .powerTransitionDone d _ _ _ | .regulatorAck d _
  | .currentSample d _ => decide (d < 40)
  | .energyInterval dom _ _ | .undervoltageHold dom | .undervoltageRelease dom | .thermalHold dom _ | .thermalRelease dom _
  | .clockStop dom | .clockResume dom => decide (dom < 75)
  | .bootSelfTestDone r => r.wf
  | .lensUnit _ | .reductionSegment _ _ _ | .collectiveAbort _ _ | .stagedConfigApply | .qbellPackets _ _ | .qbellReplies _ _
  | .queueEnable _ _ | .queueDisable _ _ | .queueCancel _ _ | .queueEvict _ _ | .queueBringIn _ _ | .fabricResponse _ _
  | .pfResume _ | .pfAbort _ | .fltPop _ | .retSeedWrite _ _ _ | .fiArm _ _ | .injection | .rbRead _ | .illRecRead _
  | .acctSelect _ _ | .amaxLoad _ | .amaxStore _ | .mbLock _ | .fwLoad _ | .fwAbort _ | .firmwareVerify _ | .arcAdvance _
  | .arcAdvanceEnd _ | .keeperWatchdogExpiry | .coldResetLine _ | .warmResetLine _ | .rstCold _ | .rstWarm _
  | .fabricExtentReport _ | .registerWrite _ _ _ _ | .keeperDomainPowerUp | .keeperHeartbeat | .tapTckEdge _ _ _ => true

end Sys2Proof
end

