-- ==== Sys2Proof/Safety.lean ====
section
/-!
DEFINITION. The terms in which claims speak of the block: a safe run, the canonical form of every memory of a state, and the conditions under
which a command row or a core program's instruction is enabled.
-/
namespace Sys2Proof.Machine

/-- Every memory of the state has its canonical form: the die's memory, the central store, the storage of every physical core, the Keeper's, the
blocks that the Tender holds, and what a `TLD` has got from memory so far. -/
def State.Canonical (s : State) : Prop :=
  s.mem.wf = true ∧ s.cstore.wf = true ∧ s.fw.image.wf = true ∧ s.fw.sram.wf = true ∧
  (∀ p ∈ s.pcores, p.scratch.wf = true ∧ p.acc.wf = true ∧ p.planes.wf = true ∧ p.pmem.wf = true) ∧
  (∀ o ∈ s.tender.streams, ∀ b ∈ o.blocks, b.data.wf = true) ∧ (∀ x ∈ s.lcores, ∀ j ∈ x.tlds, j.data.wf = true)

/-- The step of `s` answers a next state. -/
def Runs (s : State) : Prop := ∃ t, step s = .next t

/-- Commands that reset the block, or may: the reset lines, the power-up of the Keeper's domain, GX_RST, and a register write, which may be one
of GX_RST. -/
def mayReset : Instr → Bool
  | .coldResetLine _ | .warmResetLine _ | .rstCold _ | .rstWarm _ | .keeperDomainPowerUp | .registerWrite _ _ _ _ => true
  | _ => false

/-- The master identity of a command that is a register write. -/
def writerOf : Instr → Option Mid
  | .qbellPackets m _ | .qbellReplies m _ | .queueEnable m _ | .queueDisable m _ | .queueCancel m _ | .queueEvict m _ | .queueBringIn m _
  | .pfResume m | .pfAbort m | .fltPop m | .retSeedWrite m _ _ | .fiArm m _ | .acctSelect m _ | .amaxLoad m | .amaxStore m
  | .mbDataWrite m _ _ _ | .mbBell m _ | .mbBeacon m _ | .mbEmpty m _ | .mbCtlWrite m _ _ | .mbBind m _ _ | .mbLock m | .fwLoad m | .fwAbort m
  | .arcAdvance m | .powerTargetWrite m _ _ | .vreqWrite m _ _ | .rstCold m | .rstWarm m | .registerWrite m _ _ _ => some m
  | _ => none

/-- The first program of logical core `l` may issue the instruction word `w` (R117, R396) as part of the command `c`: no instruction of that opcode
waits in its unit (of the row of `NOP`, none without an opcode of Table 5.3 either), and a hold of the central store does not stop it. -/
def Issues (s : State) (l : Nat) (c : Cmd) (w : Nat) : Prop :=
  l < 64 ∧ progReady s l = true ∧ (s.prog l).regs.fin = false ∧ progCmd s l = some c ∧ fetchWord s l = w ∧
  (s.prog l).holds [bf w 56 8] = false ∧ (bf w 56 8 = 0 ∨ bf w 56 8 ∉ opcodes → ∀ h ∈ (s.prog l).held, h.op ∈ opcodes ∧ h.op ≠ 0) ∧
  storeWaits s l w = false

/-- The program goes on behind an instruction that does not branch, with its core changed by `f` first. -/
def State.thenNext (s : State) (i : Nat) (f : LCore → LCore) : State := s.updProg i (fun x => (f x).advance.settleReplay)

/-- No other record in the queues is the same run of the same packet as `c`. -/
def State.Alone (s : State) (c : Cmd) : Prop := ∀ d ∈ s.q.cmds, d.same c = true → d = c

/-- No word of the engine's reserve in the central store is uncorrectable. -/
def State.ReserveOk (s : State) : Prop := ∀ e ∈ s.flt.double, e.1 = .central → e.2 < 260046848

/-- The next command of opcode `op` of queue `q` is `c`, the only record of its run, and the Keeper may start it now
(R159, R288, R396). -/
def Starts (s : State) (q op : Nat) (c : Cmd) : Prop := q < Config.queueCount ∧ startable s q op = some c ∧ s.Alone c

/-- The command that is the same run of the same packet as `c`. -/
def State.cmd (s : State) (c : Cmd) : Option Cmd := s.q.cmds.find? (fun d => d.same c)

/-- Only the queues and the shared configuration differ: what a command that moves no data may touch. -/
def OnlyQueues (s t : State) : Prop := t = { s with q := t.q, conf := t.conf }

/-- Only memory, the queues, the shared configuration, the amax slots and the counter of the free values differ: what a command that runs in
one step on the cores or in the Tender may touch. -/
def OnlyRun (s t : State) : Prop := t = { s with mem := t.mem, q := t.q, conf := t.conf, amax := t.amax, free := t.free }

/-- The command `c` has ended in `t`, with the conditions that it had in `s` and `ks` behind them. -/
def EndedWith (s t : State) (c : Cmd) (ks : List Cond) : Prop :=
  (t.cmd c).map (·.stage) = some .ended ∧ (t.cmd c).map (·.conds) = (s.cmd c).map (fun e => e.conds ++ ks)

/-- The command `c` has been stopped in `t` by the condition `k`, behind those that it had in `s`, its `OOB` conditions joined to one. -/
def StoppedWith (s t : State) (c : Cmd) (k : Cond) : Prop :=
  (t.cmd c).map (·.stage) = some .ended ∧ (t.cmd c).map (·.conds) = (s.cmd c).map (fun e => mergeOob (e.conds ++ [k]))

/-- No word of the storage arrays carries an error, waits for its write-back or awaits an injection. -/
def State.CleanStorage (s : State) : Prop := s.flt.single = [] ∧ s.flt.double = [] ∧ s.flt.wback = [] ∧ s.flt.flips = []

/-- The state in which the run of a command computes: it has begun, and its amax slots are derived (R51). -/
def State.startRun (s : State) (c : Cmd) (tids : List Nat) : State := takeScales (beginCmd s c) c tids

/-- What a command of the cores leaves that runs in one step, with the effects `f`, computed for the command with the exponents that it takes at its start.
Where it consumes a word that cannot be corrected, it has ended with UNCORR and has written nothing but the statistics of an XGRAD (R357). Otherwise
memory takes the stores in order, a region that the manual leaves undefined having become free first; a chained output reaches memory only with
write-through (R107); the command has ended, or waits for its fold pass (R174); a byte that no store covers, outside those regions, reads as before.
Storage behind the cores of its job and in their partition is free afterwards, and its check bits may be used (log 76); a core of another job and
every other byte of the central store keep what they hold. -/
def RanWith (s t : State) (c : Cmd) (tids : List Nat) (f : State → Cmd → RunRes) : Prop :=
  let u := s.startRun c tids
  let r := f u (c.takeScales u.amax tids)
  let job := s.conf.job c.job
  let bad := metBy s c
  t = { s with mem := t.mem, q := t.q, conf := t.conf, amax := t.amax, free := t.free, lcores := t.lcores, pcores := t.pcores, cstore := t.cstore,
               flt := t.flt, tender := t.tender, irq := t.irq } ∧
  t.amax = s.amax.derive c.margins c.step tids ∧
  (bad ≠ [] → (∃ n, EndedWith s t c [⟨0x60, n, bad.length⟩]) ∧ (c.op ≠ 0x31 → t.mem = s.mem) ∧
    t.pcores = s.pcores ∧ t.lcores = s.lcores ∧ t.cstore = s.cstore) ∧
  (bad = [] →
    t.mem = (r.havoc.foldl (fun m h => m.dieHavoc s.extent s.free h.1 h.2) s.mem).dieStores s.extent
      (r.stores ++ if c.chain = 1 ∧ c.wt = false then [] else r.chained) ∧
    (t.cmd c).map (·.stage) = some (if r.staged = [] then .ended else .started) ∧
    (t.cmd c).map (·.scales) = some (c.takeScales u.amax tids).scales ∧
    (∀ l, t.prog l = { s.prog l with markGap := (t.prog l).markGap }) ∧ (∀ l, l ∉ job.cores → t.prog l = s.prog l) ∧
    (∀ p, p ∉ job.cores.filterMap (storageOf s.pcores) → t.pcores[p]? = s.pcores[p]?) ∧
    (s.cstore.wf = true → s.flt.flips = [] → ∀ a, a < job.pbase * 1048576 ∨ (job.pbase + job.psize) * 1048576 ≤ a →
      t.cstore.read a = s.cstore.read a) ∧
    (s.CleanStorage → t.flt = s.flt) ∧
    (chainFailed s c = false → t.tender = s.tender ∧ t.irq = s.irq) ∧
    (s.mem.wf = true → ∀ a, (∀ w ∈ r.stores ++ r.chained, ¬ w.covers a) → (∀ h ∈ r.havoc, a < h.1 ∨ h.1 + h.2 ≤ a) → t.mem.read a = s.mem.read a))

/-- The command `c` has started in `t` and waits. -/
def Waits (t : State) (c : Cmd) : Prop := (t.cmd c).map (·.stage) = some .started

/-- The log store of `t` behind an entry of 16 bytes, or none, of program `i` for command `c`: what the entry takes in the partition is free, and past 64 KiB
it goes to the overflow region, which is memory (R137, log 92); an error of the words that it takes the place of is gone (R339). -/
def LogsOnly (s t : State) (i : Nat) (c : Cmd) : Prop :=
  let n := (s.prog i).logBytes
  (s.flt.flips = [] →
    t.cstore = s.cstore ∨ t.cstore = s.cstore.scramble s.free 201 (partBase s c + (s.prog i).logAt + n) (min 16 (65536 - n))) ∧
  (n + 16 ≤ 65536 → t.mem = s.mem) ∧ (s.CleanStorage → t.flt = s.flt)

/-- The instruction word of an opcode with its fields, each a value and its low bit (Table 5.3). -/
def wordOf (op : Nat) (fields : List (Nat × Nat)) : Nat := op * 2 ^ 56 + (fields.map (fun f => f.1 * 2 ^ f.2)).sum

/-- `c` is the command of queue `q` whose stream `n` the Tender serves next (R159); where that is a transfer, the queue has the turn and no other stream of
it comes first (R156, R157), and the fabric takes it, with nothing under way that it overlaps (R389, R425). -/
def Fetches (s : State) (q n : Nat) (c : Cmd) : Prop :=
  q < Config.queueCount ∧ issueCmd s q n = some c ∧ actClear s c n (nextAct s c n) = true ∧ ∃ x, s.q.find q = some x ∧
    ∀ k, actKey s c n (nextAct s c n) = some k → mayIssue s q = true ∧ hasTurn s x = true ∧ ∀ m ∈ readyKeys s q, k ≤ m

end Sys2Proof.Machine
end

