-- ==== Sys2Proof/Certificates/Slice0/Obligations.lean ====
section
/-!
DEFINITION. The statements about the block for the provers: the queue of commands and whole-machine rules; mailboxes, firmware, power, resets,
the test port, windows and queue control; the life of a packet; the commands of every opcode family; core programs; arrays, Tender and faults.
Each says which rule of spec/ it formalises, or that it is the model's own.
-/
open Sys2Proof Sys2Proof.Machine

/-! ## The queue of commands and whole-machine rules -/

/-- The block takes its commands first in, first out: a step runs the command at the front on the state whose queue is the rest. The model's own
form of a block (log 10). With no command waiting the block idles: the model's choice (log 2). -/
def Obligations.StepRunsTheFrontCommand : Prop :=
  (∀ (c : Instr) (rest : List Instr) (s : State), step { s with pending := c :: rest } = exec c { s with pending := rest }) ∧
  (∀ s : State, s.pending = [] → step s = .next s)

/-- Every command that names units of the engine has a next state; any other is the model's fault `noSuchUnit` (log 3, log 4). -/
def Obligations.WellFormedCommandsHaveANextState : Prop :=
  ∀ (c : Instr) (s : State),
    (c.wf = true → ∃ t, exec c s = .next t) ∧ (c.wf = false → exec c s = .fault .noSuchUnit)

/-- No step adds a command to the queue or takes one but the front one: the model's own form of a block (log 10). -/
def Obligations.StepTakesOnlyTheFrontCommand : Prop := ∀ s t : State, step s = .next t → t.pending = s.pending.tail

/-- Every step keeps the canonical form of every memory (log 1). -/
def Obligations.StepKeepsMemoriesCanonical : Prop := ∀ s t : State, s.Canonical → step s = .next t → t.Canonical

/-- The state after reset has canonical memories (log 1). -/
def Obligations.ResetMemoriesCanonical : Prop := State.reset.Canonical

/-- No step changes a byte of memory at or beyond the extent that the fabric reported; and the extent itself changes only when the fabric
reports it, or with a reset (18, Fabric ports). -/
def Obligations.StepStaysInsideTheExtent : Prop :=
  ∀ (c : Instr) (s t : State), exec c s = .next t →
    (s.mem.wf = true → ∀ a, s.extent ≤ a → t.mem.read a = s.mem.read a) ∧
    ((mayReset c = false ∨ ∃ m a o v, c = .registerWrite m a o v ∧ o.toNat ≠ 0x1008) → t.extent ≠ s.extent → s.extent = 0 ∧ ∃ n, c = .fabricExtentReport n ∧ t.extent = n)

/-- Fuses never change but in one place: the anti-rollback counter rises at the end of a programming (13, Anti-rollback). -/
def Obligations.OnlyProgrammingBlowsFuses : Prop :=
  ∀ (c : Instr) (s t : State), exec c s = .next t →
    t.fuses = { s.fuses with arc := t.fuses.arc } ∧ s.fuses.arc ≤ t.fuses.arc ∧ (t.fuses.arc ≠ s.fuses.arc → ∃ f, c = .arcAdvanceEnd f)

/-- Once the mailboxes are locked, no command but a reset undoes the lock or changes who sends, who receives, the wake domain, the timeout or the
validity of a channel (13, Mailbox access). -/
def Obligations.MailboxLockHoldsUntilReset : Prop :=
  ∀ (c : Instr) (s t : State), s.mail.lock = true → exec c s = .next t →
    (mayReset c = false ∨ ∃ m a o v, c = .registerWrite m a o v ∧ o.toNat ≠ 0x1008) →
    t.mail.lock = true ∧
    t.mail.chans.map (fun x => (x.snd, x.rcv, x.wdom, x.tmo, x.valid)) = s.mail.chans.map (fun x => (x.snd, x.rcv, x.wdom, x.tmo, x.valid))

/-- A flag of GX_IRQ_STAT that is set stays set under every command but a reset or a register write (17, Interrupts: a flag is cleared only by a
write of 1 to it). -/
def Obligations.InterruptFlagsStayUntilWritten : Prop :=
  ∀ (c : Instr) (s t : State) (k : Nat), exec c s = .next t → mayReset c = false → s.irq.stat.getLsbD k = true → t.irq.stat.getLsbD k = true

/-! ## Resets, boot and the extent -/

/-- A reset line that stays asserted for 16 control cycles or more acts, a shorter pulse has no effect (18, reset lines); what a cold reset leaves
is Table 16.8: memory as the writes in flight leave it, fuses as they are, everything else at its reset value, with boot at PHASE 0. The waiting
commands, the stopped clocks, the test port and the counter of the free values are the model's to keep (log 11). A warm reset keeps what Table 16.8
says it keeps: the accounts (with what the idle account has below 1 nJ, log 56), the retire table with LIFE_WAVES, the retirement seed; and the
count of Daymarks, which runs since cold reset (Table 15.3). COLD is 0. Everything else, of these groups too, is as after a cold reset. -/
def Obligations.ResetsKeepWhatTheyKeep : Prop :=
  (∀ (s : State) (n : Nat),
    (n < 16 → exec (.coldResetLine n) s = .next s) ∧
    (16 ≤ n → exec (.coldResetLine n) s = .next (coldReset s)) ∧
    exec (.rstCold 1) s = .next (coldReset s) ∧
    exec .keeperDomainPowerUp s = .next { coldReset s with tap := State.reset.tap } ∧
    coldReset s = { State.reset with
      pending := s.pending
      mem := s.mem.dieStores s.extent ((s.tender.xfers.filter (·.write)).map (fun x => .bytes (x.addr + x.skip) x.data))
      conf := Conf.reset s.fuses
      fuses := s.fuses
      power := { State.reset.power with stopped := s.power.stopped }
      tap := s.tap
      free := s.free }) ∧
  (∀ (s : State) (n : Nat),
    (n < 16 → exec (.warmResetLine n) s = .next s) ∧
    (16 ≤ n → exec (.warmResetLine n) s = .next (warmReset s)) ∧
    exec (.rstWarm 1) s = .next (warmReset s) ∧
    (warmReset s).accts.list = s.accts.list ∧ (warmReset s).accts.total = s.accts.total ∧
    (warmReset s).flt.seed0 = s.flt.seed0 ∧ (warmReset s).flt.seed1 = s.flt.seed1 ∧ (warmReset s).q.dmseq = s.q.dmseq ∧
    (warmReset s).pcores.map (fun p => (p.pstate, p.seeded, p.lidA, p.lidB, p.partner, p.stamp0, p.stamp1, p.life)) =
      s.pcores.map (fun p => (p.pstate, p.seeded, p.lidA, p.lidB, p.partner, p.stamp0, p.stamp1, p.life)) ∧
    (∀ p ∈ (warmReset s).pcores, p.scratch = .empty ∧ p.acc = .empty ∧ p.planes = .empty ∧ p.pmem = .empty) ∧
    (warmReset s).boot.cold = false ∧
    warmReset s = { coldReset s with
      accts := { (coldReset s).accts with list := s.accts.list, total := s.accts.total, idleRest := s.accts.idleRest }
      flt := { (coldReset s).flt with seed0 := s.flt.seed0, seed1 := s.flt.seed1 }
      q := { (coldReset s).q with dmseq := s.q.dmseq }
      boot := { (coldReset s).boot with cold := false }
      pcores := s.pcores.map (fun x => { PCore.reset with
        pstate := x.pstate, seeded := x.seeded, lidA := x.lidA, lidB := x.lidB, partner := x.partner, stamp0 := x.stamp0, stamp1 := x.stamp1,
        life := x.life }) })

/-- The state when reset is released (Table 16.8, Table 16.9 at time 0): no command, an empty queue, boot at PHASE 0, firmware in ROM, every
switched domain OFF at rail request 40 and with target ON but for domain 39, accounts and amax slots clear, HSIZE 32 MiB, and position k of the
tree held by die k. The position of the fuses' die count is the modelled part's (log 7). -/
def Obligations.ResetState : Prop :=
  State.reset.pending = [] ∧ State.reset.mem = .empty ∧ State.reset.q.res = [] ∧ State.reset.q.cmds = [] ∧ State.reset.q.itt = [] ∧
  State.reset.boot.phase = 0 ∧ State.reset.fw.state = .rom ∧ State.reset.accts.list = [] ∧ State.reset.amax.slots = [] ∧
  hsizeMib State.reset.conf.hsize = 32 ∧ (∀ k, k < 8 → State.reset.conf.posDie[k]? = some k) ∧ State.reset.conf.npos = State.reset.fuses.ndie ∧
  State.reset.mail.lock = false ∧ State.reset.power.doms.length = 40 ∧
  (∀ d, d < 40 → State.reset.dom d = ⟨if d = 39 then 0 else 2, .off, false, false, 40, 0, 0, 0, 0, false, false, none⟩)

/-- The fabric's report of the memory's extent at boot is held (18, Fabric ports); that later reports are ignored is the model's reading (log 12).
The boot self-test (16, Boot): it acts in PHASE 3; with no unit failed, a fabric port left and every logical ID served, boot ends in PHASE 5 with
the boot flag raised; a failed unit stops boot in PHASE 6 with that unit in ERRU and the fatal and the boot flag raised. The central store is
clear, and so is the storage of every core. -/
def Obligations.BootReportsAndSelfTest : Prop :=
  (∀ (s : State) (n : Nat),
    (s.extent = 0 → exec (.fabricExtentReport n) s = .next { s with extent := n }) ∧
    (s.extent ≠ 0 → exec (.fabricExtentReport n) s = .next s)) ∧
  (∀ (s : State) (r : BootResult), r.wf = true → s.boot.phase = 3 →
    (r.failedUnit ≠ 0 → ∃ t, exec (.bootSelfTestDone r) s = .next t ∧ t.boot.phase = 6 ∧ t.boot.erru = r.failedUnit ∧
      t.irq.stat.getLsbD irqFatal = true ∧ t.irq.stat.getLsbD irqBoot = true ∧ t.cstore = .empty) ∧
    (r = ⟨[], [], [], [], 0, r.timeUs⟩ → s.flt.ports ≠ 0 → s.flt.lost = false → s.pcores.length = 68 →
      (∀ p, p < 68 → retiredBefore s p = false) →
      ∃ t, exec (.bootSelfTestDone r) s = .next t ∧ t.boot.phase = 5 ∧ t.boot.erru = 0 ∧ t.irq.stat.getLsbD irqBoot = true ∧ t.cstore = .empty ∧
        (∀ p, p < 64 → (t.pcore p).pstate = .active ∧ (t.pcore p).lidA = some p ∧ (t.pcore p).scratch = .empty ∧ (t.pcore p).acc = .empty) ∧
        (∀ p, 64 ≤ p → p < 68 → (t.pcore p).pstate = .spare)))

/-! ## Mailboxes -/

/-- Table 13.10 (R323), for a bound channel: a data word and a ring by the sender, with the collision of a full channel, and the ring's timer; an
empty by the receiver, of a full and of an empty channel, the Keeper emptying only while it runs (R333); the timeout. A Beacon (R325): it rings
with LASTBCN; with WDOM 0x3F it acts as a Bell otherwise; with a domain that is not ON it asks for that domain, whose target becomes ON, and the
channel waits with WAKEPEND; with a domain that is ON it does not wait. -/
def Obligations.MailboxRingsAndBeacons : Prop :=
  (∀ (s : State) (mid : Mid) (ch : Nat), ch < 64 → netOff s mid = false →
    let hit : Chan → Chan := fun y => { y with coll := y.coll || y.full, colls := if y.full then min 65535 (y.colls + 1) else y.colls }
    let rung : Chan → Chan := fun y => { hit y with full := true, rings := y.rings + 1, lastBcn := false, timer := y.tmo != 0 }
    ((s.chan ch).isSender mid = true →
      (∀ w v, w < 8 → exec (.mbDataWrite mid ch w v) s = .next (updChan s ch (fun y => { hit y with data := y.data.set w v }))) ∧
      exec (.mbBell mid ch) s = .next (updChan s ch rung)) ∧
    ((s.chan ch).isReceiver mid = true →
      (mid = 0 → keeperRuns s = false → exec (.mbEmpty mid ch) s = .next s) ∧
      ((mid = 0 → keeperRuns s = true) → (s.chan ch).full = true →
        exec (.mbEmpty mid ch) s = .next (updChan s ch (fun y => { y with full := false, coll := false, timer := false, emptied := true }))) ∧
      ((mid = 0 → keeperRuns s = true) → (s.chan ch).full = false → ∃ t, exec (.mbEmpty mid ch) s = .next t ∧ t.mail = s.mail ∧ t.ill.cnt = min (2 ^ 48 - 1) (s.ill.cnt + 1))) ∧
    ((s.chan ch).timer = true → exec (.mbFogTimeout ch) s = .next (updChan s ch (fun y => { y with fog := true, timer := false })))) ∧
  (∀ (s : State) (mid : Mid) (ch : Nat), ch < 64 → s.mail.chans.length = 64 → s.power.doms.length = 40 → netOff s mid = false →
    (s.chan ch).isSender mid = true →
    ((s.chan ch).wdom = 63 → exec (.mbBeacon mid ch) s = .next (updChan s ch (fun y => y.ring true))) ∧
    ((s.chan ch).wdom < 40 → ∃ t, exec (.mbBeacon mid ch) s = .next t ∧ (t.dom (s.chan ch).wdom).target = 2 ∧ (t.chan ch).lastBcn = true ∧
      (t.chan ch).full = true ∧ (t.chan ch).wakePend = ((s.chan ch).wakePend || !domOn s (s.chan ch).wdom) ∧
      (domState s (s.chan ch).wdom = .down → (s.dom (s.chan ch).wdom).wantUp = false → domState t (s.chan ch).wdom = .pendingOn) ∧
      ∀ k, k ≠ ch → t.chan k = s.chan k))

/-- GX_MB_CTL, GX_MB_BIND and GX_MB_LOCK (R320, Table 13.3): each side sets its own enables; until the lock the host root agent binds a channel,
which clears everything else of it, and sets the lock. That a side's write leaves the other's enables, and counts as ignored for them where it would change one, is the model's
reading (log 53). -/
def Obligations.MailboxControlAndBinding : Prop :=
  ∀ (s : State) (mid : Mid) (ch : Nat) (v : Word), ch < 64 → netOff s mid = false →
    ((s.chan ch).isReceiver mid = true →
      let u := updChan s ch (fun y => { y with rie := v.getLsbD 0, cie := v.getLsbD 1 })
      ((v.getLsbD 2, v.getLsbD 3) = ((s.chan ch).eie, (s.chan ch).fie) → exec (.mbCtlWrite mid ch v) s = .next u) ∧
      ((v.getLsbD 2, v.getLsbD 3) ≠ ((s.chan ch).eie, (s.chan ch).fie) → ∃ t, exec (.mbCtlWrite mid ch v) s = .next t ∧ t.mail = u.mail ∧
        t.ill.cnt = min (2 ^ 48 - 1) (s.ill.cnt + 1))) ∧
    ((s.chan ch).isReceiver mid = false → (s.chan ch).isSender mid = true →
      let u := updChan s ch (fun y => { y with eie := v.getLsbD 2, fie := v.getLsbD 3 })
      ((v.getLsbD 0, v.getLsbD 1) = ((s.chan ch).rie, (s.chan ch).cie) → exec (.mbCtlWrite mid ch v) s = .next u) ∧
      ((v.getLsbD 0, v.getLsbD 1) ≠ ((s.chan ch).rie, (s.chan ch).cie) → ∃ t, exec (.mbCtlWrite mid ch v) s = .next t ∧ t.mail = u.mail ∧
        t.ill.cnt = min (2 ^ 48 - 1) (s.ill.cnt + 1))) ∧
    (mid = 1 → s.mail.lock = false →
      exec (.mbLock mid) s = .next { s with mail := { s.mail with lock := true } } ∧
      (bindLegal v = true → exec (.mbBind mid ch v) s = .next (updChan s ch (fun _ =>
        { Chan.reset with snd := v.extractLsb' 0 6, rcv := v.extractLsb' 8 6, wdom := (v.extractLsb' 16 6).toNat, tmo := (v.extractLsb' 24 24).toNat,
                          valid := v.getLsbD 63 })))) ∧
    (mid ≠ 1 ∨ s.mail.lock = true → ∃ t, exec (.mbBind mid ch v) s = .next t ∧ t.mail = s.mail ∧ t.ill.cnt = min (2 ^ 48 - 1) (s.ill.cnt + 1))

/-! ## Register rights -/

/-- A write by a master identity that nobody has (0x29 to 0x3F) changes nothing but the count and record of ignored illegal sequences, and raises
their flag (17, Table 17.2): every row that is a register write. REGISTER_WRITE (R407): an access that is not aligned has no effect and is counted;
a read-only register takes no write; the registers without a row of their own take what Table 17.2 lets them take: the flags of GX_IRQ_STAT and of
GX_CIRQ_PEND clear by a 1, GX_IRQ_EN, GX_RB_ADDR, GX_AMAX_SEL and GX_AMAX_DATA take the value, GX_QCTX_BASE until it locks. -/
def Obligations.RegisterWritesByRight : Prop :=
  (∀ (c : Instr) (s : State) (mid : Mid), writerOf c = some mid → 0x29 ≤ mid.toNat → c.wf = true →
    (∀ m a o v, c = .registerWrite m a o v → roReg o.toNat = false ∨ a = false ∨ o.toNat % 8 ≠ 0) →
    ∃ t, exec c s = .next t ∧ { t with ill := s.ill, irq := s.irq } = s ∧ t.ill.cnt = min (2 ^ 48 - 1) (s.ill.cnt + 1) ∧
      t.irq = s.irq.raise irqIll) ∧
  (∀ (s : State) (v : Word) (off : BitVec 24),
    (∃ t, exec (.registerWrite 1 false off v) s = .next t ∧ { t with ill := s.ill, irq := s.irq } = s ∧ t.ill.cnt = min (2 ^ 48 - 1) (s.ill.cnt + 1)) ∧
    (roReg off.toNat = true → off.toNat % 8 = 0 → exec (.registerWrite 1 true off v) s = .next s) ∧
    exec (.registerWrite 1 true 0x1018 v) s = .next { s with irq := { s.irq with stat := s.irq.stat &&& ~~~(v.setWidth 8) } } ∧
    exec (.registerWrite 1 true 0x1020 v) s = .next { s with irq := { s.irq with en := v.setWidth 8 } } ∧
    (∀ k, k < 4 → exec (.registerWrite 1 true (BitVec.ofNat 24 (0x1040 + 8 * k)) v) s =
      .next { s with irq := { s.irq with pend := s.irq.pend &&& ~~~(v.setWidth 256 <<< (64 * k)) } }) ∧
    exec (.registerWrite 1 true 0x9000 v) s = .next { s with rb := { s.rb with addr := v &&& ~~~(0x7F#64 <<< 17) } } ∧
    (s.amax.busy = false →
      exec (.registerWrite 1 true 0x8000 v) s = .next { s with amax := { s.amax with sel := v.setWidth 16 } } ∧
      ∀ i, i < 10 → exec (.registerWrite 1 true (BitVec.ofNat 24 (0x8040 + 8 * i)) v) s =
        .next { s with amax := { s.amax with data := s.amax.data.set i v } }) ∧
    (s.q.baseLock = false → exec (.registerWrite 1 true 0x1000 v) s =
      .next { s with q := { s.q with base := (v.extractLsb' 12 36).toNat * 4096, baseValid := v.getLsbD 63 } }))

/-! ## Windows -/

/-- A read of GX_ILL_REC0 (R414) answers the record and latches its detail into GX_ILL_REC1. The latch GX_ILL_REC1 holds until the next read of
GX_ILL_REC0 (R414): no other command but a reset changes it; and each replacement of the record advances its GEN. -/
def Obligations.IllRecordLatch : Prop :=
  (∀ (s : State) (mid : Mid), mid.toNat ≤ 0x28 → netOff s mid = false →
    exec (.illRecRead mid) s = .next { s with ill := { s.ill with rec1 := s.ill.detail }, rb := { s.rb with rdata := s.ill.rec0 } }) ∧
  ((∀ (c : Instr) (s t : State), exec c s = .next t → 
    (mayReset c = false ∨ ∃ m a o v, c = .registerWrite m a o v ∧ o.toNat ≠ 0x1008) → t.ill.rec1 ≠ s.ill.rec1 → ∃ m, c = .illRecRead m) ∧
  (∀ (c : Instr) (s t : State), exec c s = .next t →
    (mayReset c = false ∨ ∃ m a o v, c = .registerWrite m a o v ∧ o.toNat ≠ 0x1008) → s.ill.cnt ≤ t.ill.cnt → t.ill.cnt < 2 ^ 48 - 1 →
    (t.ill.cnt = s.ill.cnt → t.ill.rec0 = s.ill.rec0 ∧ t.ill.detail = s.ill.detail) ∧
    t.ill.rec0.extractLsb' 48 16 = s.ill.rec0.extractLsb' 48 16 + BitVec.ofNat 16 (t.ill.cnt - s.ill.cnt)))

/-- A write of GX_ACCT_SEL (R416), by any master that may write it, latches the eight words of the account; a CLIENT above 65,536 is an ignored
illegal sequence of source 0x0E and leaves the latch; and the latch holds under every command but that write or a reset. -/
def Obligations.AccountLatch : Prop :=
  (∀ (s : State) (mid : Mid) (v : Word), mid = 0 ∨ mid = 1 ∨ (mid = 0x28 ∧ domOn s 39 = true) →
    ((v.extractLsb' 0 17).toNat ≤ 65536 →
      let a := s.accts.of (v.extractLsb' 0 17).toNat
      exec (.acctSelect mid v) s = .next { s with accts := { s.accts with
        sel := (v.extractLsb' 0 17).toNat
        data := [a.cwaves, a.cns, a.xns, a.rbytes, a.wbytes, a.energy, a.overrun, a.cmds % 2 ^ 32].map (BitVec.ofNat 64) } }) ∧
    (65536 < (v.extractLsb' 0 17).toNat → ∃ t, exec (.acctSelect mid v) s = .next t ∧ t.accts = s.accts ∧
      t.ill.cnt = min (2 ^ 48 - 1) (s.ill.cnt + 1) ∧ t.ill.rec0.extractLsb' 0 8 = 0x0E)) ∧
  (∀ (c : Instr) (s t : State), exec c s = .next t → t.accts.data ≠ s.accts.data →
    (mayReset c = false ∨ ∃ m a o v, c = .registerWrite m a o v ∧ o.toNat ≠ 0x1008 ∧ o.toNat ≠ 0x7000) → ∃ m v, c = .acctSelect m v)

/-- A load brings the slot named by GX_AMAX_SEL into the data registers as Table 17.10 lays it out; a store of a legal image sets the slot (R418):
entries, EVALID, head, margin, scale and DERIVSTEP of the data registers, entries that are not written being empty, and the stored margin is that
of every command (R418); an image with SCALE −128 is ignored. A read-back of the scratchpad, of the accumulator store or of the central store (14,
Read-back; spaces of Table 14.9) answers the eight bytes of an aligned word whose domain is ON and which has no error; with INC the address moves
on by 8; nothing else changes, but the counter of the free values (log 5). -/
def Obligations.AmaxAndReadBackWindows : Prop :=
  (∀ (s : State), s.amax.busy = false →
    (∃ t, exec (.amaxLoad 1) s = .next t ∧ t = { s with amax := { s.amax with data := t.amax.data } } ∧
      t.amax.data.length = 10 ∧ t.amax.data.flatMap (fun w => leBytes 8 w.toNat) = (s.amax.slot s.amax.sel.toNat).bytes) ∧
    (s.amax.data.length = 10 →
      let x := parseAmax (ofLe (s.amax.data.flatMap (fun w => leBytes 8 w.toNat)))
      (x.storable = true → exec (.amaxStore 1) s = .next { s with
        amax := s.amax.setSlot s.amax.sel.toNat x.tidy, q := s.q.dropMargins (· == s.amax.sel.toNat) }) ∧
      (x.scale = 0x80#8 → ∃ t, exec (.amaxStore 1) s = .next t ∧ t.amax = s.amax ∧ t.ill.cnt = min (2 ^ 48 - 1) (s.ill.cnt + 1)))) ∧
  (∀ (s : State) (p a : Nat) (inc : Bool), p < 68 → a % 8 = 0 → s.flt.single = [] → s.flt.double = [] →
    let word (space : Nat) (index : Nat) : Word := BitVec.ofNat 64 (space + 2 ^ 6 + (if inc then 2 ^ 7 else 0) + index * 2 ^ 8 + a * 2 ^ 24)
    let next (r : Word) : Word := if inc then r + 8#64 <<< 24 else r
    (domOn s (p / 2) = true → a + 8 ≤ Config.scratchBytes → s.rb.addr = word 0 p →
      exec (.rbRead 1) s = .next { s with rb := { s.rb with addr := next s.rb.addr, rdata := BitVec.ofNat 64 ((s.pcore p).scratch.le a 8) }, free := s.free + 1 }) ∧
    (domOn s (p / 2) = true → a + 8 ≤ Config.accBytes → s.rb.addr = word 1 p →
      exec (.rbRead 1) s = .next { s with rb := { s.rb with addr := next s.rb.addr, rdata := BitVec.ofNat 64 ((s.pcore p).acc.le a 8) }, free := s.free + 1 }) ∧
    (domOn s (if a < 134217728 then 34 else 35) = true → a + 8 ≤ Config.centralBytes → s.rb.addr = word 0x10 0 →
      exec (.rbRead 1) s = .next { s with rb := { s.rb with addr := next s.rb.addr, rdata := BitVec.ofNat 64 (s.cstore.le a 8) }, free := s.free + 1 }))

/-! ## Firmware and the Keeper -/

/-- GX_FW_CTL by the host root agent (Table 13.16): a load starts in WAIT or FAIL and counts a try; an abort ends a load or a verification in FAIL
with reason 7; an advance of the anti-rollback counter starts in RUN where the image's SVN is above the counter; in any other state each is ignored
and counted. The Keeper's watchdog (R319): while firmware runs its expiry brings HUNG and the fatal flag, and a heartbeat restarts its count, the
corrected errors of the Keeper's memory that it counts being free (log 99). -/
def Obligations.FirmwareControlAndWatchdog : Prop :=
  (∀ (s : State),
    (s.fw.state = .wait ∨ s.fw.state = .fail →
      exec (.fwLoad 1) s = .next { s with fw := { s.fw with state := .load, reason := 0, tries := min 255 (s.fw.tries + 1) } }) ∧
    (s.fw.state = .load ∨ s.fw.state = .verify → exec (.fwAbort 1) s = .next { s with fw := { s.fw with state := .fail, reason := 7 } }) ∧
    (s.fw.state = .run → s.fuses.arc < s.fw.svn → exec (.arcAdvance 1) s = .next { s with fw := { s.fw with arcBusy := true } }) ∧
    (s.fw.state = .run → s.fw.svn ≤ s.fuses.arc → exec (.arcAdvance 1) s = .next s) ∧
    (∀ c, (c = .fwLoad 1 ∧ s.fw.state ≠ .wait ∧ s.fw.state ≠ .fail) ∨ (c = .fwAbort 1 ∧ s.fw.state ≠ .load ∧ s.fw.state ≠ .verify) ∨
        (c = .arcAdvance 1 ∧ s.fw.state ≠ .run) →
      ∃ t, exec c s = .next t ∧ { t with ill := s.ill, irq := s.irq } = s ∧ t.ill.cnt = min (2 ^ 48 - 1) (s.ill.cnt + 1))) ∧
  (∀ (s : State), s.fw.state = .run →
    exec .keeperWatchdogExpiry s = .next { s with fw := { s.fw with state := .hung, beats := 10 }, irq := s.irq.raise irqFatal } ∧
    ∃ t, exec .keeperHeartbeat s = .next t ∧ t = { s with fw := { s.fw with beats := 0, kprCe := t.fw.kprCe }, free := s.free + 1 })

/-- The end of a load (13, Firmware): a readable image with a legal header is copied, header and body, and its verification begins; a header whose
magic is wrong ends in FAIL with reason 1; at the end of a verification, an image whose key's hash is not the fuses' fails with reason 4, and one
that passes every step runs and takes boot from PHASE 2 to PHASE 3. That one row is both ends is the model's reading (log 54). The end of a
programming of the anti-rollback counter (R334): it reaches the image's SVN, or stops before the fuse that failed, with ARCERR; the flag is raised
either way. -/
def Obligations.FirmwareVerificationAndFuses : Prop :=
  (∀ (s : State),
    let h := Memory.empty.writeBytes 0 (dieBytes s.mem s.extent s.fw.addr 256)
    (s.fw.state = .load → headerFault s h true = none →
      exec (.firmwareVerify true) s = .next { s with fw := { s.fw with
        state := .verify, image := h, sram := s.fw.sram.copyFrom s.mem (s.fw.addr + 256) 0 (hdrBody h) } }) ∧
    (s.fw.state = .load → h.le 0 4 ≠ 0x4B504D45 → ∀ ok, exec (.firmwareVerify ok) s = .next { s with fw := { s.fw with state := .fail, reason := 1 } }) ∧
    (s.fw.state = .verify → s.fuses.keyHash ≠ sha384 (s.fw.image.bytes 64 96) → ∀ ok,
      exec (.firmwareVerify ok) s = .next { s with fw := { s.fw with state := .fail, reason := 4 } }) ∧
    (s.fw.state = .verify → imageFault s = none → ∀ ok,
      exec (.firmwareVerify ok) s = .next { s with
        fw := { s.fw with state := .run, ver := hdrVer s.fw.image, svn := hdrSvn s.fw.image, beats := 0 }
        boot := if s.boot.phase = 2 then { s.boot with phase := 3 } else s.boot })) ∧
  (∀ (s : State), s.fw.arcBusy = true → s.fuses.arc ≤ s.fw.svn →
    exec (.arcAdvanceEnd none) s = .next { s with
      fuses := { s.fuses with arc := s.fw.svn }, fw := { s.fw with arcBusy := false }, irq := s.irq.raise irqArc } ∧
    (∀ k, k < s.fw.svn - s.fuses.arc → exec (.arcAdvanceEnd (some k)) s = .next { s with
      fuses := { s.fuses with arc := s.fuses.arc + k }, fw := { s.fw with arcBusy := false, arcErr := true }, irq := s.irq.raise irqArc }))

/-! ## Power, clocks and the test port -/

/-- GX_PWR_DOM (R393, R395, R397, R398, R400): a target below ON takes an idle domain down, and is held while it is not idle; a held target takes
effect once the domain is idle; ON for a domain that goes down makes it PENDING_ON; ON for one that is OFF or in RETAIN powers it up at once where
no domain is powering up, its rail asked for and VGOOD 0, and lets it wait otherwise. A new rail request of a domain that is ON goes to the
regulator at once, with VGOOD 0. The end of a transition: a domain that goes up is ON, from RETAIN not before its rail is at VREQ (R394); one that
goes down reaches its goal, and with a power-up to follow asks for it at once where no other domain is powering up (R397, R398). Outside boot the
storage of a core pair that comes from OFF is clear (R394), and a pair that goes OFF has lost its contents (R393). -/
def Obligations.PowerTargetsAndTransitions : Prop :=
  (∀ (s : State) (d : Nat) (g : BitVec 2), d < 40 → s.power.doms.length = 40 → (s.dom d).vreq ≤ 60 → g.toNat < 2 → (d = 39 → g ≠ 1) →
    (∀ k, k < 40 → (s.dom k).wantUp = false) →
    (domState s d = .on → domIdle s d = true → ∃ t, exec (.powerTargetWrite 1 d g) s = .next t ∧
      domState t d = .down ∧ (t.dom d).target = g.toNat ∧ (t.dom d).goal = g.toNat ∧ (t.dom d).vgood = false ∧ ∀ k, k ≠ d → t.dom k = s.dom k) ∧
    (domState s d = .on → domIdle s d = false → ∃ t, exec (.powerTargetWrite 1 d g) s = .next t ∧
      domState t d = .on ∧ (t.dom d).target = g.toNat ∧ (t.dom d).held = true ∧ ∀ k, k ≠ d → t.dom k = s.dom k) ∧
    (domState s d = .on → (s.dom d).held = true → (s.dom d).target = g.toNat → domIdle s d = true → ∃ t, exec (.heldTargetApply d) s = .next t ∧
      domState t d = .down ∧ (t.dom d).held = false ∧ (t.dom d).goal = g.toNat) ∧
    (domState s d = .down → ∃ t, exec (.powerTargetWrite 1 d 2) s = .next t ∧ domState t d = .pendingOn ∧ (t.dom d).target = 2) ∧
    (domState s d = .off ∨ domState s d = .retain → (s.boot.booting = false ∨ s.boot.phase ≠ 0) → ∃ t, exec (.powerTargetWrite 1 d 2) s = .next t ∧
      (t.dom d).target = 2 ∧ (t.dom d).held = false ∧ (∀ k, k ≠ d → t.dom k = s.dom k) ∧
      ((∀ k, k < 40 → domState s k ≠ .up) → domState t d = .up ∧ (t.dom d).vgood = false ∧ (t.dom d).req = some ((s.dom d).vreq, 2) ∧
        (t.dom d).wantUp = false ∧ (t.dom d).fromOff = decide (domState s d = .off)) ∧
      ((∃ k, k < 40 ∧ domState s k = .up) → domState t d = domState s d ∧ (t.dom d).wantUp = true)) ∧
    (∀ v : BitVec 6, domState s d = .on → (s.dom d).target = 2 → v.toNat ≤ 60 → v.toNat ≠ (s.dom d).vreq → ∃ t, exec (.vreqWrite 1 d v) s = .next t ∧
      domState t d = .on ∧ (t.dom d).vreq = v.toNat ∧ (t.dom d).vgood = false ∧ (t.dom d).req = some (v.toNat, 2))) ∧
  (∀ (s : State) (d : Nat), d < 40 → s.power.doms.length = 40 → s.pcores.length = 68 → s.boot.booting = false → (∀ k, k < 40 → (s.dom k).wantUp = false) →
    (domState s d = .up → (s.dom d).fromOff = false → (s.dom d).vgood = false → exec (.powerTransitionDone d [] [] []) s = .next s) ∧
    (domState s d = .up → (s.dom d).fromOff = true ∨ (s.dom d).vgood = true → (s.dom d).target = 2 → d < 34 → ∃ t, exec (.powerTransitionDone d [] [] []) s = .next t ∧
      domState t d = .on ∧ (∀ k, k ≠ d → t.dom k = s.dom k) ∧
      ((s.dom d).fromOff = true → ∀ p, p / 2 = d → (t.pcore p).scratch = .empty ∧ (t.pcore p).acc = .empty ∧ (t.pcore p).planes = .empty)) ∧
    (domState s d = .down → (s.dom d).target = (s.dom d).goal → (s.dom d).goal < 2 → ∃ t, exec (.powerTransitionDone d [] [] []) s = .next t ∧
      domState t d = (if (s.dom d).goal = 1 then .retain else .off) ∧ (∀ k, k ≠ d → t.dom k = s.dom k) ∧
      ((s.dom d).goal = 0 → ∀ p, p / 2 = d → (t.pcore p).scratch = .empty ∧ (t.pcore p).acc = .empty ∧ (t.pcore p).planes = .empty ∧
        (t.pcore p).pmem = .empty ∧ (t.pcore p).parked = []) ∧
      ((s.dom d).goal = 1 → t.pcores = s.pcores ∧ t.cstore = s.cstore)) ∧
    (domState s d = .pendingOn → (∀ k, k < 40 → domState s k ≠ .up) → ∃ t, exec (.powerTransitionDone d [] [] []) s = .next t ∧ domState t d = .up))

/-- An acknowledge counts if its code is that of the domain's latest request, and is discarded otherwise (R431); the latest current sample of a
domain is kept (R432). Energy of an interval (R316): with no share, or in the Keeper's or the control boundary's domain, it goes to the idle
account, whose energy and rest below 1 nJ rise together by it; that the account keeps such a rest is the model's reading (log 56) (in units of 10
pJ; from the latest samples of the domain, here of the Lens at `mv` millivolts). -/
def Obligations.RegulatorSamplesAndEnergy : Prop :=
  (∀ (s : State) (d : Nat) (code : BitVec 6) (x : BitVec 16), d < 40 →
    (∀ c st, (s.dom d).req = some (c, st) →
      (c = code.toNat → exec (.regulatorAck d code) s = .next (s.updDom d (fun y => { y with vgood := true, vack := code.toNat }))) ∧
      (c ≠ code.toNat → exec (.regulatorAck d code) s = .next s)) ∧
    (∃ t, exec (.currentSample d x) s = .next t ∧ t = { s with accts := { s.accts with samples := t.accts.samples } } ∧
      ((s.accts.samples.map (·.1)).Pairwise (· < ·) → ∀ k, lookupD 0 t.accts.samples k = if k = d then x.toNat else lookupD 0 s.accts.samples k))) ∧
  (∀ (s : State) (mv : Nat),
    let e := lookupD 0 s.accts.samples 37 * mv
    (s.accts.of 65536).energy + (s.accts.idleRest + e) / 100 < 2 ^ 64 → (s.accts.list.map (·.1)).Pairwise (· < ·) →
    ∃ t, exec (.energyInterval 70 mv []) s = .next t ∧ t.free = s.free + 1 ∧
      100 * (t.accts.of 65536).energy + t.accts.idleRest = 100 * (s.accts.of 65536).energy + s.accts.idleRest + e ∧
      (∀ k, k ≠ 65536 → t.accts.of k = s.accts.of k) ∧ t.mem = s.mem ∧ t.q = s.q)

/-- Holds and clocks (R389, R392) of the core domains and the clocked boundary domains: a hold is entered once, counted in the domain's UVCNT or
THCNT and raises the power flag; release ends it; a stopped clock holds its domain until it returns. What waited for the domain, an abort at the
port or a queue for its slot, is not what the release clauses speak of. The test access port (R433, the IEEE 1149.1 controller): five rising edges
with TMS 1 reach test reset from every state and select BYPASS; in the state that shifts data a rising edge takes TDI into the BYPASS bit; a
falling edge puts that bit on TDO, as the standard has it (PRESUMED, log 16). An edge changes nothing but the port. -/
def Obligations.HoldsClocksAndTestPort : Prop :=
  (∀ (s : State) (dom : Nat),
    (dom < 68 → domOn s (dom / 2) = true → dom ∉ s.power.uv → s.power.doms.length = 40 → ∃ t, exec (.undervoltageHold dom) s = .next t ∧
      t.power.uv = s.power.uv ++ [dom] ∧ domHeld t dom = true ∧ (t.dom (dom / 2)).uvcnt = min 65535 ((s.dom (dom / 2)).uvcnt + 1) ∧
      t.irq = s.irq.raise irqPower) ∧
    (∀ c, dom < 68 → 110 < c → domOn s (dom / 2) = true → dom ∉ s.power.th → s.power.doms.length = 40 → ∃ t, exec (.thermalHold dom c) s = .next t ∧
      t.power.th = s.power.th ++ [dom] ∧ domHeld t dom = true ∧ (t.dom (dom / 2)).thcnt = min 65535 ((s.dom (dom / 2)).thcnt + 1) ∧
      t.irq = s.irq.raise irqPower) ∧
    (dom < 75 → s.red.heldAborts = [] → s.q.pend = [] →
      exec (.undervoltageRelease dom) s = .next { s with power := { s.power with uv := s.power.uv.filter (· != dom) } } ∧
      (∀ c, c ≤ 100 → exec (.thermalRelease dom c) s = .next { s with power := { s.power with th := s.power.th.filter (· != dom) } }) ∧
      (∀ c, 100 < c → exec (.thermalRelease dom c) s = .next s) ∧
      exec (.clockResume dom) s = .next { s with power := { s.power with stopped := s.power.stopped.filter (· != dom) } }) ∧
    (dom = 72 ∨ dom = 73 ∨ dom = 74 → dom ∉ s.power.stopped →
      exec (.clockStop dom) s = .next { s with power := { s.power with stopped := s.power.stopped ++ [dom] } })) ∧
  (∀ (s : State) (tdi : Bool),
    (∃ t, Host.Core.run Sys2Proof.core 5 { s with pending := List.replicate 5 (.tapTckEdge true true tdi) } = .next t ∧
      t.tap.state = .reset ∧ t.tap.instr = .bypass ∧ t = { s with pending := [], tap := t.tap }) ∧
    (s.tap.state = .drShift → ∃ t, exec (.tapTckEdge true false tdi) s = .next t ∧ t.tap.dr = tdi ∧ t.tap.state = .drShift ∧ t = { s with tap := t.tap }) ∧
    (s.tap.state = .drShift → s.tap.instr = .bypass →
      exec (.tapTckEdge false false tdi) s = .next { s with tap := { s.tap with tdo := s.tap.dr }, free := s.free + 1 }))

/-! ## Fault records, links and injection -/

/-- A pop frees the head record (R359), and is ignored and counted on an empty list; the retirement seed takes a value in WAIT (R348). Injection
(R360, Table 14.7): armed by a master of the debug registers with domain 39 ON, a legal mode and a count; an armed injection of a word error acts
on its target at the word's next write, writes a record with INJ and counts; with the last one ARM clears. -/
def Obligations.FaultRecordsAndInjection : Prop :=
  (∀ (s : State) (r : FltRec) (rs : List FltRec) (v : Word),
    (s.flt.recs = r :: rs → exec (.fltPop 1) s = .next { s with flt := { s.flt with recs := rs } }) ∧
    (s.flt.recs = [] → ∃ t, exec (.fltPop 1) s = .next t ∧ t.flt = s.flt ∧ t.ill.cnt = min (2 ^ 48 - 1) (s.ill.cnt + 1)) ∧
    (s.fw.state = .wait →
      exec (.retSeedWrite 1 false v) s = .next { s with flt := { s.flt with seed0 := v } } ∧
      exec (.retSeedWrite 1 true v) s = .next { s with flt := { s.flt with seed1 := v.setWidth 4 } })) ∧
  (∀ (s : State) (v : Word) (p a : Nat), domOn s 39 = true → p < 68 → domOn s (p / 2) = true → a % 8 = 0 → a < Config.scratchBytes →
    s.flt.recs.length < 64 →
    ((v.extractLsb' 1 3).toNat ∈ [1, 2, 3, 4, 5, 6] → (v.extractLsb' 16 16).toNat ≠ 0 →
      ∃ t, exec (.fiArm 1 v) s = .next t ∧ t.flt.fiDone = 0 ∧ t.flt.fiCtl.getLsbD 0 = true ∧ t.flt.fiCtl.extractLsb' 1 3 = v.extractLsb' 1 3 ∧
        t.flt.fiCtl.extractLsb' 16 16 = v.extractLsb' 16 16) ∧
    (s.flt.fiCtl = BitVec.ofNat 64 (1 + 5 * 2 + 2 ^ 16) → s.flt.fiTgt = BitVec.ofNat 64 (4 + p * 8) → s.flt.fiAddr = BitVec.ofNat 64 a → s.flt.fiDone = 0 →
      ∃ t, exec .injection s = .next t ∧ t.flt.fiDone = 1 ∧ t.flt.fiCtl.getLsbD 0 = false ∧ t.flt.flips = s.flt.flips ++ [(.scratch p, a, false)] ∧
        ∃ r, t.flt.recs = s.flt.recs ++ [r] ∧ r.inj = true ∧ r.pcore = p))

/-- Frames on a link that works (R340, R341): a good frame with the expected number moves the receiver on and ends the row of failed attempts; a bad
frame, or a timeout, is a retry; with the 16th failed attempt of one frame the link is failed: a fabric port that is not the last goes out of service with a record of
kind 7, of a mesh link or a coupling a record of kind 6 names the core, a reduction link is out of the port's set with a record of kind 8. That the
retry count wraps at its 48 bits is the model's reading (log 19). -/
def Obligations.LinkFrames : Prop :=
  ∀ (s : State) (k : FrameLink), k.wf = true → linkWorks s k = true →
    (∃ t, exec (.linkFrameReceive k (linkOf s k).expect true) s = .next t ∧
      linkOf t k = { linkOf s k with id := k, expect := (linkOf s k).expect + 1, attempts := 0 } ∧ ∀ j, j ≠ k → linkOf t j = linkOf s j) ∧
    (∀ c n, c = .linkFrameReceive k n false ∨ c = .frameResendTimeout k → (linkOf s k).attempts < 15 →
      ∃ t, exec c s = .next t ∧ linkOf t k = { linkOf s k with id := k, retry := ctr48 (linkOf s k).retry 1, attempts := (linkOf s k).attempts + 1 } ∧
        (∀ j, j ≠ k → linkOf t j = linkOf s j) ∧ t.flt.recs = s.flt.recs) ∧
    (∀ p, k = .fabric p → (linkOf s k).attempts = 15 → s.flt.ports &&& ~~~(1#8 <<< p) ≠ 0 →
      ∃ t, exec (.frameResendTimeout k) s = .next t ∧ (linkOf t k).failed = true ∧ t.flt.ports = s.flt.ports &&& ~~~(1#8 <<< p) ∧
        (s.flt.recs.length < 64 → ∃ r, t.flt.recs = s.flt.recs ++ [r] ∧ r.kind = 7 ∧ r.action = 2) ∧ t.flt.lost = s.flt.lost) ∧
    (∀ p d, k = .mesh p d ∨ k = .couple p d → (linkOf s k).attempts = 15 →
      ∃ t, exec (.frameResendTimeout k) s = .next t ∧ (linkOf t k).failed = true ∧
        (s.flt.recs.length < 64 → ∃ r, t.flt.recs = s.flt.recs ++ [r] ∧ r.kind = 6 ∧ r.pcore = p)) ∧
    (∀ l, k = .reduction l → (linkOf s k).attempts = 15 → s.red.colls = [] →
      ∃ t, exec (.frameResendTimeout k) s = .next t ∧ (linkOf t k).failed = true ∧ t.flt.rlinks = s.flt.rlinks &&& ~~~(1#3 <<< l) ∧
        (s.flt.recs.length < 64 → ∃ r, t.flt.recs = s.flt.recs ++ [r] ∧ r.kind = 8))

/-! ## Queues and the life of a packet -/

/-- GX_QBELL of a resident queue (R281): a packet bell whose index lies in the ring, at or ahead of TAIL, moves TAIL there; a reply bell whose
index lies between PRD and PWR moves PRD there; an index outside the ring leaves both and is counted. GX_QCTL of a resident queue (Table 11.9): an
enable takes a legal OFF queue ON and locks the context table (R411), and a DRAINING one to PENDING_ON; a disable takes an ON queue to DRAINING,
and to OFF at once where no admitted command waits for its reply; a bring-in changes nothing; an eviction of an unused queue writes its context
back and frees its slot, and of one in use is counted. Of a queue that is not resident (R280) each action but the eviction, which changes nothing,
brings it in, into the lowest free slot with its context as memory holds it, where its credit fits and nothing halts the read; with no slot to be
had it is pending. -/
def Obligations.DoorbellsAndQueueActions : Prop :=
  (∀ (s : State) (x : QRes) (v : Word), s.ReserveOk → admissionOpen s = true → hasContext s (v.extractLsb' 0 22).toNat = true →
    s.q.find (v.extractLsb' 0 22).toNat = some x → x.ctx.state ≠ .off →
    let q := (v.extractLsb' 0 22).toNat
    let i := (v.extractLsb' 32 16).toNat
    let n := 2 ^ x.ctx.rlog2
    let m := 2 ^ x.ctx.plog2
    (i < n → (x.ctx.tail + n - x.ctx.head) % n ≤ (i + n - x.ctx.head) % n →
      exec (.qbellPackets 1 v) s = .next { s with q := s.q.updCtx q (fun k => { k with tail := i }) }) ∧
    (i < m → (i + m - x.ctx.prd) % m ≤ (x.ctx.pwr + m - x.ctx.prd) % m →
      exec (.qbellReplies 1 v) s = .next { s with q := s.q.updCtx q (fun k => { k with prd := i }) }) ∧
    (n ≤ i → m ≤ i → ∀ c, c = .qbellPackets 1 v ∨ c = .qbellReplies 1 v →
      ∃ t, exec c s = .next t ∧ t.mem = s.mem ∧ t.ill.cnt = min (2 ^ 48 - 1) (s.ill.cnt + 1) ∧
        (t.q.find q).map (fun y => (y.ctx.tail, y.ctx.prd)) = some (x.ctx.tail, x.ctx.prd))) ∧
  ((∀ (s : State) (x : QRes) (v : Word), s.ReserveOk → admissionOpen s = true → hasContext s (v.extractLsb' 0 22).toNat = true →
    s.q.find (v.extractLsb' 0 22).toNat = some x →
    let q := (v.extractLsb' 0 22).toNat
    let busy := s.q.cmds.any (fun c => c.qid == q && c.inFlight)
    (x.ctx.state = .off → x.ctx.legal = true →
      exec (.queueEnable 1 v) s = .next { s with q := { s.q.updCtx q (fun k => { k with state := .on }) with baseLock := true } }) ∧
    (x.ctx.state = .draining →
      exec (.queueEnable 1 v) s = .next { s with q := { s.q.updCtx q (fun k => { k with state := .pendingOn }) with baseLock := true } }) ∧
    (x.ctx.state = .on → ∃ t, exec (.queueDisable 1 v) s = .next t ∧ OnlyQueues s t ∧ t.q.cmds = s.q.cmds ∧
      (t.q.find q).map (·.ctx.state) = some (if busy then .draining else .off)) ∧
    exec (.queueBringIn 1 v) s = .next s ∧
    (inUse s.q x = false → s.q.pend = [] → s.tender.ctlHeld (.context q) = false → ∃ t, exec (.queueEvict 1 v) s = .next t ∧
      t.mem = s.mem.dieStores s.extent (x.ctx.writeBack (ctxAddr s.q q)) ∧ t.q.find q = none ∧ t.q.cmds = s.q.cmds) ∧
    (inUse s.q x = true → ∃ t, exec (.queueEvict 1 v) s = .next t ∧ t.mem = s.mem ∧ (t.q.find q).isSome = true ∧
      t.ill.cnt = min (2 ^ 48 - 1) (s.ill.cnt + 1))) ∧
  (∀ (s : State) (v : Word), s.ReserveOk → admissionOpen s = true → hasContext s (v.extractLsb' 0 22).toNat = true →
    s.q.find (v.extractLsb' 0 22).toNat = none →
    let q := (v.extractLsb' 0 22).toNat
    exec (.queueEvict 1 v) s = .next s ∧
    (q ∉ s.q.short → s.tender.ctlHeld (.context q) = false → fabricUp s = true → creditFits s q = true →
      (∀ k, freeSlot s.q = some k →
        (∃ t, exec (.queueBringIn 1 v) s = .next t ∧ t = { s with q := t.q } ∧ t.q.cmds = s.q.cmds ∧
          (t.q.find q).map (fun y => (y.slot, y.ctx)) = some (k, memCtx s q) ∧ (∀ j, j ≠ q → t.q.find j = s.q.find j) ∧ q ∉ t.q.pend) ∧
        ((memCtx s q).state = .off → (memCtx s q).legal = true → ∃ t, exec (.queueEnable 1 v) s = .next t ∧ t = { s with q := t.q } ∧
          t.q.baseLock = true ∧ (t.q.find q).map (fun y => (y.slot, y.ctx)) = some (k, { memCtx s q with state := .on })) ∧
        ((memCtx s q).state = .on → ∃ t, exec (.queueDisable 1 v) s = .next t ∧ t = { s with q := t.q } ∧
          (t.q.find q).map (fun y => (y.slot, y.ctx.state)) =
            some (k, if s.q.cmds.any (fun c => c.qid == q && c.inFlight) then .draining else .off))) ∧
      (freeSlot s.q = none → evictable s.tender s.q = none → ∃ t, exec (.queueBringIn 1 v) s = .next t ∧ t = { s with q := t.q } ∧
        t.q.res = s.q.res ∧ q ∈ t.q.pend ∧ ∀ j, j ≠ q → (j ∈ t.q.pend ↔ j ∈ s.q.pend)))))

/-- A cancel (R283) of a resident queue that is not OFF, outside a LOOP, whatever its commands are and however far they have come. Every packet posted
and not read gets a reply CANCELLED, without an interrupt, in ring order and behind the others, with the SEQ expected of it, and NEXTSEQ advances over
it. A command that was read, or refused behind every admitted one, replies CANCELLED. One that was admitted ends with CANCELLED, which is its status
where nothing else has happened to it; that this holds of one that has ended and not replied is the model's reading (log 71). The ring is empty, and
the queue drains, or is OFF at once where no admitted command is without its reply. A cancel of an OFF queue changes nothing. -/
def Obligations.CancelAnswersEveryPacket : Prop :=
  ∀ (s : State) (x : QRes) (v : Word), s.ReserveOk → admissionOpen s = true → hasContext s (v.extractLsb' 0 22).toNat = true →
    s.q.find (v.extractLsb' 0 22).toNat = some x →
    let q := (v.extractLsb' 0 22).toNat
    let old := queueCmds s q
    (x.ctx.state = .off → exec (.queueCancel 1 v) s = .next s) ∧
    (x.ctx.state ≠ .off → x.ctx.loopActive = false → (∀ c ∈ old, c.loopb = false ∧ s.Alone c) →
      ∃ t, exec (.queueCancel 1 v) s = .next t ∧
        (queueCmds t q).map (fun c => (c.seq, c.ring)) = old.map (fun c => (c.seq, c.ring)) ++
          (List.range (unread x)).map (fun i => (x.ctx.nextSeq + BitVec.ofNat 32 i, (x.ctx.head + i) % 2 ^ x.ctx.rlog2)) ∧
        (∀ c ∈ (queueCmds t q).drop old.length, c.stage = .refused ∧ c.irq = false ∧ statusOf c = ⟨0x31, 0, 0⟩) ∧
        (∀ c ∈ old, c.stage = .read ∨ (c.stage = .refused ∧ c ∈ trailing old) →
          (t.cmd c).map (fun d => (d.stage, d.refusal)) = some (.refused, some ⟨0x31, 0, 0⟩)) ∧
        (∀ c ∈ old, c.inFlight = true → (t.cmd c).map (·.stage) = some .ended ∧
          (c.skip = false → (t.cmd c).map (fun d => d.conds.any (fun e => e.code == 0x31)) = some true) ∧
          (c.skip = false → c.stage ≠ .started → c.conds = [] → c.refusal = none → (t.cmd c).map statusOf = some ⟨0x31, 0, 0⟩)) ∧
        (t.q.find q).map (fun y => (y.ctx.head, y.ctx.nextSeq, y.ctx.state)) =
          some (x.ctx.tail, x.ctx.nextSeq + BitVec.ofNat 32 (unread x), if old.any (·.inFlight) then .draining else .off))

/-- PACKET_READ (R286, R269) of a queue outside a LOOP, where no page fault halts a read of it (R143) and no hold or stopped clock does (R389,
R392): the packet at HEAD joins the commands behind the others, HEAD moves on, and the packet is either legal, with the expected SEQ, or gets its
IGNORED reply; NEXTSEQ advances for a legal one. Memory is only read. ADMISSION (R285-R289) of the ready command of the job's next queue, outside a
CHAIN: what a check refuses is refused with that code; what passes enters its ranges into the in-flight tile table where they fit, and waits to
start. No data moves. -/
def Obligations.PacketsAreReadAndAdmitted : Prop :=
  (∀ (s : State) (q : Nat) (x : QRes), q < Config.queueCount → s.q.find q = some x → admissionOpen s = true → nextEntry s x = some x.ctx.head →
    x.ctx.loopActive = false → s.tender.ctlHeld (.ring q) = false → s.tender.ctlHeld (.tables q) = false →
    keeperUp s = true → fabricUp s = true →
    ∃ t c y, exec (.packetRead q) s = .next t ∧ t.mem = s.mem ∧ t.q.cmds = s.q.cmds ++ [c] ∧ c.qid = q ∧ c.ring = x.ctx.head ∧
      t.q.find q = some y ∧ y.ctx.head = (x.ctx.head + 1) % 2 ^ x.ctx.rlog2 ∧
      ((c.stage = .read ∧ c.seq = x.ctx.nextSeq ∧ y.ctx.nextSeq = x.ctx.nextSeq + 1 ∧ t.ill.cnt = s.ill.cnt) ∨
       (c.stage = .refused ∧ c.refusal.map (·.code) = some 0x7E ∧ t.ill.cnt = min (2 ^ 48 - 1) (s.ill.cnt + 1)))) ∧
  (∀ (s : State) (j : Nat) (x : QRes) (c : Cmd), j < 8 → admissionOpen s = true → keeperUp s = true → s.flt.lost = false → nextQueue s j = some x → readyIn s x = some c →
    c.chain = 0 →
    (∀ k, verdict s x c false = some k → ∃ t, exec (.admission j) s = .next t ∧ t.mem = s.mem ∧ t.q.itt = s.q.itt ∧
      (t.cmd c).map (fun d => (d.stage, d.refusal)) = some (.refused, some k)) ∧
    (verdict s x c false = none → s.q.itt.length + (c.entries s x.slot).length ≤ Config.ittEntries → s.red.aborted.contains (cseqOf s c) = false →
      ∃ t, exec (.admission j) s = .next t ∧ t.mem = s.mem ∧ t.q.itt = s.q.itt ++ c.entries s x.slot ∧ (t.cmd c).map (·.stage) = some .admitted))

/-- COMMAND_COMPLETION (R277, R278, R282) of the first command of a queue, refused or ended, where no job has a slice and no hold stops it (R389),
whose queue does not halt on errors and with no configuration staged: the 32-byte reply lies at PBASE + 32 × PWR, PWR moves on, the command leaves
with its tile-table entries, its vector is set if it asked for an interrupt, and its client's account counts it. The reply of a command that ended
without a condition, or of NOP (R276), carries its SEQ and status OK; of a refused one its refusal code; of one that ended with conditions the code
of highest rank (Table 11.5, Table 11.6). -/
def Obligations.CompletionWritesTheReply : Prop :=
  (∀ (s : State) (q : Nat) (m : Meas) (x : QRes) (c : Cmd), s.ReserveOk → s.conf.staged = [] → s.conf.drain = false → q < Config.queueCount → s.fw.state = .run → s.q.find q = some x →
    completable s x = some c → x.ctx.halterr = false → s.q.pend = [] → (∀ j, (s.conf.job j).slice = 0) → c.client < 65536 →
    (s.accts.list.map (·.1)).Pairwise (· < ·) → s.tender.ctlHeld (.reply q) = false → c.mute = false →
    keeperUp s = true → fabricUp s = true →
    ∃ t, exec (.commandCompletion q m) s = .next t ∧
      t.mem = s.mem.dieStores s.extent [.bytes (x.ctx.pbase + 32 * x.ctx.pwr) (leBytes 32 (replyWord c (measOf c m)))] ∧
      (t.q.find q).map (·.ctx.pwr) = some ((x.ctx.pwr + 1) % 2 ^ x.ctx.plog2) ∧ t.q.cmds.length + 1 = s.q.cmds.length ∧
      t.q.itt = s.q.itt.filter (fun e => !e.isOf c) ∧
      t.irq = (if c.irq then s.irq.complete x.ctx.irqv else s.irq) ∧
      (t.accts.of c.client).cmds = min (2 ^ 32 - 1) ((s.accts.of c.client).cmds + 1) ∧ (∀ k, k ≠ c.client → t.accts.of k = s.accts.of k)) ∧
  (∀ (c : Cmd) (m : Meas),
    replyWord c m % 2 ^ 32 = c.seq.toNat ∧
    ((statusOf c).code < 256 → replyWord c m / 2 ^ 32 % 256 = (statusOf c).code) ∧
    (c.skip = false → c.refusal = none → c.conds = [] → c.result = none → (statusOf c).code = 0) ∧
    (c.skip = false → ∀ k, c.refusal = some k → statusOf c = k) ∧
    (c.skip = false → c.refusal = none → ∀ k ∈ c.conds, k.code ≠ 0x01 → condRank (statusOf c).code ≤ condRank k.code))

/-! ## The Keeper's own commands -/

/-- NOP (R276), CHAIN, and a BARRIER of its queue once every earlier command of the queue has replied (R291) end at once and move no data. An
all-core barrier (R128, R291, R300): a BARRIER with ALLC waits while a core runs, and ends with the barrier where every core is idle; the idle
cores' own barrier brings in the staged items that nothing holds back, and clears the drain request. -/
def Obligations.NopChainAndBarriers : Prop :=
  (∀ (s : State) (q : Nat) (c : Cmd),
    (Starts s q 0x7F c → ∃ t, exec (.nop q) s = .next t ∧ OnlyQueues s t ∧ EndedWith s t c []) ∧
    (Starts s q 0x59 c → ∃ t, exec (.chain q) s = .next t ∧ OnlyQueues s t ∧ EndedWith s t c []) ∧
    (Starts s q 0x50 c → isFirst s c = true → c.pb 0 0 = false → ∃ t, exec (.barrier q) s = .next t ∧ OnlyQueues s t ∧ EndedWith s t c [])) ∧
  (∀ (s : State) (q : Nat) (c : Cmd), s.fw.state = .run → (∀ j, (s.conf.job j).debt = 0 ∧ (s.conf.job j).expiredBy = none) →
    (Starts s q 0x50 c → isFirst s c = true → c.pb 0 0 = true →
      (s.lcores.any (fun x => x.run != .idle) = true → ∃ t, exec (.barrier q) s = .next t ∧ OnlyQueues s t ∧ Waits t c) ∧
      (allIdle s = true → s.q.pend = [] → ∃ t, exec (.barrier q) s = .next t ∧ OnlyQueues s t ∧ (t.cmd c).map (·.stage) = some .ended ∧
        t.conf.drain = false)) ∧
    (allIdle s = true → s.q.pend = [] → ∃ t, exec .stagedConfigApply s = .next t ∧ OnlyQueues s t ∧ t.conf.drain = false ∧
      t.conf.staged = s.conf.staged.filter (fun x => !wordFree s x.word) ∧
      (∀ h, s.conf.staged = [⟨0x01, 0, h⟩] → s.hash.holder = none → t.conf.hsize = h)))

/-- FENCE (R290) ends where DONESEQ of every queue that it names has reached its number, modulo 2^32, and waits otherwise. A queue that it names
and that is not resident is brought in (R280). WAITQ and its poll (R292): the command ends where the 64-bit word equals its value, or is at or
above it without EQ, and waits otherwise. -/
def Obligations.FenceAndWaitqWait : Prop :=
  (∀ (s : State) (q : Nat) (c : Cmd), s.fw.state = .run → Starts s q 0x51 c → runningOp s q 0x51 = none →
    ((∀ k, k < 8 → c.pb k 22 = true → (s.q.find (c.pf k 0 22)).isSome = true ∧
        ((ctxOf s (c.pf k 0 22)).doneSeq - BitVec.ofNat 32 (c.pf k 32 32)).toNat < 2 ^ 31) →
      ∃ t, exec (.fence q) s = .next t ∧ OnlyQueues s t ∧ EndedWith s t c []) ∧
    ((∀ k, k < 8 → c.pb k 22 = true → (s.q.find (c.pf k 0 22)).isSome = true) →
      (∃ k, k < 8 ∧ c.pb k 22 = true ∧ 2 ^ 31 ≤ ((ctxOf s (c.pf k 0 22)).doneSeq - BitVec.ofNat 32 (c.pf k 32 32)).toNat) →
      ∃ t, exec (.fence q) s = .next t ∧ OnlyQueues s t ∧ Waits t c) ∧
    (∀ n m slot, fenceEntries c = [(n, m)] → s.q.find n = none → hasContext s n = true → s.q.short.contains n = false →
      s.tender.ctlHeld (.context n) = false → creditFits (beginCmd s c) n = true → freeSlot s.q = some slot →
      ∃ t, exec (.fence q) s = .next t ∧ t.mem = s.mem ∧ (t.q.find n).map (fun y => (y.slot, y.ctx)) = some (slot, memCtx s n) ∧
        (t.cmd c).map (·.stage) = some (if seqReached (memCtx s n).doneSeq m then .ended else .started))) ∧
  (∀ (s : State) (q : Nat) (c : Cmd), s.fw.state = .run →
    let met : Prop := if c.pb 2 0 then dieLe s.mem s.extent (c.pf 0 0 48) 8 = c.p 1 else c.p 1 ≤ dieLe s.mem s.extent (c.pf 0 0 48) 8
    (Starts s q 0x53 c →
      (met → ∃ t, exec (.waitq q) s = .next t ∧ OnlyQueues s t ∧ EndedWith s t c []) ∧
      (¬ met → ∃ t, exec (.waitq q) s = .next t ∧ OnlyQueues s t ∧ Waits t c)) ∧
    (q < Config.queueCount → runningOp s q 0x53 = some c → s.tender.cmdHeld c.qid c.seq = false →
      (met → ∃ t, exec (.waitqPoll q) s = .next t ∧ OnlyQueues s t ∧ EndedWith s t c []) ∧
      (¬ met → ∃ t, exec (.waitqPoll q) s = .next t ∧ OnlyQueues s t ∧ Waits t c)))

/-- LOOP (R294): the trip word, at most TMAX, is the number of iterations; a larger word is reported as OOB with the word; the body is the packets
behind the LOOP, and its first iteration is the next to be read. CFG (R275): an illegal item makes the whole table ignored, with nothing applied;
of a legal table with one item, a seed, a feed tag or the last completed CSEQ is in effect with the reply, and a staged item is staged. -/
def Obligations.LoopAndCfg : Prop :=
  (∀ (s : State) (q : Nat) (c : Cmd) (x : QRes), Starts s q 0x52 c → s.q.find q = some x →
    let w := dieLe s.mem s.extent (c.pf 0 0 48) 4
    ∃ t y, exec (.loop q) s = .next t ∧ OnlyQueues s t ∧ EndedWith s t c (if c.pf 1 0 32 < w then [⟨0x10, w, 1⟩] else []) ∧
      (t.cmd c).map (·.trip) = some (min w (c.pf 1 0 32)) ∧ t.q.find q = some y ∧ y.ctx.loopActive = true ∧ y.ctx.loopT = min w (c.pf 1 0 32) ∧
      y.ctx.loopIter = 0 ∧ y.ctx.loopBody = x.ctx.head ∧ y.ctx.loopBodyM1 = c.pf 0 48 6) ∧
  (∀ (s : State) (q : Nat) (c : Cmd) (x : QRes), Starts s q 0x70 c → s.q.find q = some x → (c.loopb = false ∨ c.iter = 0) →
    ((itemsFault s c).isSome = true → ∃ t, exec (.cfg q) s = .next t ∧ t.mem = s.mem ∧ t.conf = s.conf ∧ t.amax = s.amax ∧ t.red = s.red ∧
      (t.cmd c).map (fun d => (d.stage, d.refusal.map (·.code))) = some (.refused, some 0x7E)) ∧
    (itemsFault s c = none → cfgWhole s (cfgItems s c) = true → allIdle s = false → ∀ e, cfgItems s c = [e] →
      ∃ t, exec (.cfg q) s = .next t ∧ EndedWith s t c [] ∧
        (e.item = 0x04 → t.conf.seeds = assocSet 0 s.conf.seeds e.index (BitVec.ofNat 64 e.value)) ∧
        (e.item = 0x20 → t.conf.dieTags = s.conf.dieTags.set e.index e.value) ∧
        (e.item = 0x06 → t.red.lastCseq = e.value) ∧
        (e.item = 0x01 → t.conf.hsize = s.conf.hsize ∧ t.conf.staged = s.conf.staged ++ [⟨0x01, e.index, e.value⟩])))

/-- SAVE (R311, R308): with nothing else of its job running, the job is switched out into the area, with the CRC-64 of the area as saved, and the
command has ended. CONTEXT_RESTORE (R310): the job becomes the active one of its placement, the save that waited for it is over, and the save's
time is charged to the client that replied last before the save (R315). A job without a saved image starts as it is; of one with an image the bytes
of its area come back into the storage behind its cores and into its partition where the CRC-64 is that of the save, and otherwise it stays
inactive, the job that was saved goes on, the fault flag is raised and nothing comes back. That the image's address and CRC are held in State is
log 29; the restore of a job that has none, and the client charged, log 30. -/
def Obligations.JobsSwitchOutAndIn : Prop :=
  (∀ (s : State) (q : Nat) (c : Cmd), Starts s q 0x60 c → c.job < 8 → s.conf.jobs.length = 8 → jobBusy s c.job (fun d => d.same c) = false →
    holdsCollective s c.job = false → (saveSpans s c.job).flatMap (fun x => badWords s x.1 x.2.1 x.2.2) = [] →
    ∃ t im, exec (.save q) s = .next t ∧ (t.cmd c).map (·.stage) = some .ended ∧ (t.conf.job c.job).saving = true ∧ (t.conf.job c.job).active = false ∧
      (t.conf.job c.job).image = some im ∧ im.addr = (saveArea s c).1 ∧ im.crc = crc64 (dieBytes t.mem t.extent im.addr (saveBytes (s.conf.job c.job)))) ∧
  (∀ (s : State) (o j saveNs restoreNs : Nat), j < 8 → o < 8 → s.conf.jobs.length = 8 → s.fw.state = .run →
    (s.conf.job o).saving = true → (s.conf.job o).incoming = some j → (s.conf.job j).enabled = true →
    (o = j ∨ samePlacement (s.conf.job j) (s.conf.job o) = true) → (s.conf.job o).saveClient ≠ noClient → (∀ k, k < o → (s.conf.job k).saving = false) →
    s.tender.ctlHeld (.save o) = false → s.tender.ctlHeld (.restore j) = false → (s.conf.job j).debt = 0 → (s.accts.list.map (·.1)).Pairwise (· < ·) →
    let b := s.conf.job j
    let charged : State → Prop := fun t => (t.conf.job o).saving = false ∧
      (t.accts.of (s.conf.job o).saveClient).xns = min (2 ^ 64 - 1) ((s.accts.of (s.conf.job o).saveClient).xns + saveNs)
    (b.image = none → ∃ t, exec (.contextRestore j saveNs restoreNs) s = .next t ∧ (t.conf.job j).active = true ∧ charged t ∧ t.mem = s.mem) ∧
    (∀ im, b.image = some im → im.qs = [] → im.debt = 0 → s.q.pend = [] → s.flt.flips = [] → s.Canonical → (b.cores.map (storageOf s.pcores)).Nodup →
      crc64 (dieBytes s.mem s.extent im.addr (saveBytes b)) = im.crc →
      ∃ t, exec (.contextRestore j saveNs restoreNs) s = .next t ∧ (t.conf.job j).active = true ∧ (t.conf.job j).image = none ∧
        (t.conf.job j).oweBytes = saveBytes b ∧ charged t ∧ t.mem = s.mem ∧
        (∀ k l p, b.cores[k]? = some l → storageOf s.pcores l = some p → ∀ i,
          (i < Config.scratchBytes → (t.pcore p).scratch.read i = s.mem.read (im.addr + 65536 + 3735552 * k + i)) ∧
          (i < Config.accBytes → (t.pcore p).acc.read i = s.mem.read (im.addr + 65536 + 3735552 * k + 1572864 + i)) ∧
          (i < Config.planeBytes → (t.pcore p).planes.read i = s.mem.read (im.addr + 65536 + 3735552 * k + 3670016 + i))) ∧
        (∀ i, i < b.psize * 1048576 →
          t.cstore.read (b.pbase * 1048576 + i) = s.mem.read (im.addr + 65536 + 3735552 * b.cores.length + i)) ∧
        (∀ i, i < b.pbase * 1048576 ∨ (b.pbase + b.psize) * 1048576 ≤ i → t.cstore.read i = s.cstore.read i)) ∧
    (∀ im, b.image = some im → o ≠ j → (s.conf.job o).debt = 0 → crc64 (dieBytes s.mem s.extent im.addr (saveBytes b)) ≠ im.crc →
      ∃ t, exec (.contextRestore j saveNs restoreNs) s = .next t ∧ (t.conf.job o).active = true ∧ (t.conf.job j).active = b.active ∧
        (t.conf.job j).image = some im ∧ charged t ∧ t.irq = s.irq.raise irqFault ∧ t.pcores = s.pcores ∧ t.cstore = s.cstore))

/-- DAYMARK (R364) starts by holding the queues that its area lists; its capture, once each of them has reached the cut, writes the area, its MAGIC and CRC
last, counts the Daymark and ends the command. -/
def Obligations.DaymarkHoldsAndCaptures : Prop :=
  ∀ (s : State) (q : Nat) (c : Cmd),
    let a := c.pf 0 0 48
    (Starts s q 0x62 c → ∃ t, exec (.daymark q) s = .next t ∧ OnlyQueues s t ∧ (t.cmd c).map (fun d => (d.held, d.stage)) = some (dmQueues s c, .started)) ∧
    (q < Config.queueCount → s.fw.state = .run → runningOp s q 0x62 = some c → s.tender.cmdHeld c.qid c.seq = false →
      c.held.all (atCut s c) = true → captureBad s = [] → c.pb 2 0 = false → s.mem.wf = true → a + dmBytes (dmCounts s a) ≤ s.extent →
      ∃ t, exec (.daymarkCapture q) s = .next t ∧ (t.cmd c).map (·.stage) = some .ended ∧ t.q.dmseq = (s.q.dmseq + 1) % 2 ^ 32 ∧
        dieLe t.mem t.extent a 4 = 0x444D4B31 ∧
        (∀ b, (b < a ∨ a + 48 ≤ b) → (∀ w ∈ captureParts s c ++ [headerPart s c], ¬ w.covers b) → t.mem.read b = s.mem.read b))

/-- RESTORE (R383, Table 15.2) brings back what its area holds: the contexts of the listed queues, the stream words, the seeds, the amax slots and the last
completed CSEQ; no number waits ahead, and the command has ended. -/
def Obligations.RestoreBringsTheAreaBack : Prop :=
  ∀ (s : State) (q : Nat) (c : Cmd), Starts s q 0x61 c → (s.amax.slots.map (·.1)).Pairwise (· < ·) → (s.conf.seeds.map (·.1)).Pairwise (· < ·) →
    let a := c.pf 0 0 48
    let k := dmCounts s a
    ∃ t, exec (.restore q) s = .next t ∧ EndedWith s t c [] ∧ t.mem = s.mem.dieStores s.extent (restoreStores s c) ∧
      t.red = { s.red with lastCseq := dieLe s.mem s.extent (a + 20) 4, doneAhead := [] } ∧
      (∀ i, i < k.tids → t.amax.slot (k.tidBase + i) = parseAmax (dieLe s.mem s.extent (a + 20480 + 512 * k.qs + 80 * i) 80)) ∧
      (∀ i, i < k.cls → lookupD 0 t.conf.seeds (k.clBase + i) =
        BitVec.ofNat 64 (dieLe s.mem s.extent (a + 20480 + 512 * k.qs + 80 * k.tids + 8 * i) 8)) ∧
      t = { s with mem := t.mem, q := t.q, conf := t.conf, amax := t.amax, red := t.red }

/-! ## Commands that run on the cores, in the Lens and in the Tender -/

/-- The products (R106, Table 4.2) run in one step of the model (DESIGN CHOICE, log 39): each leaves memory, command, amax slots and queues as its
run says; the storage behind the cores of its job and the job's partition are free afterwards (log 76). An operand zero map that fits none of the
operands is only counted (R246). The layer commands (R193) and XGRAD run in one step of the model too (log 39), each leaving memory, command, amax
slots and queues as its run says, and the storage behind the cores of its job and the job's partition free (log 76). -/
def Obligations.CoreCommandsRun : Prop :=
  (∀ (s : State) (q : Nat) (c : Cmd),
    (Starts s q 0x10 c → ∃ t, exec (.gpair q) s = .next t ∧ RanWith (zinIll s c [0, 1, 2]) t c (slotTids [c.d 3]) gpairRun) ∧
    (∀ i op, (i = .dxp q ∧ op = 0x11) ∨ (i = .dwp q ∧ op = 0x12) ∨ (i = .matmul q ∧ op = 0x13) → Starts s q op c → ∃ t, exec i s = .next t ∧
      RanWith (zinIll s c [0, 1]) t c (slotTids [c.d 2]) productRun) ∧
    (∀ l, zinMismatch c l = false → zinIll s c l = s)) ∧
  (∀ (s : State) (q : Nat) (c : Cmd),
    (Starts s q 0x20 c → ∃ t, exec (.nbwd q) s = .next t ∧ RanWith s t c (slotTids [c.d (nbOut c)]) nbwdRun) ∧
    (Starts s q 0x21 c → ∃ t, exec (.sbwd q) s = .next t ∧ RanWith s t c (slotTids [c.d (sbOut c)]) sbwdRun) ∧
    (Starts s q 0x22 c → ∃ t, exec (.abwd q) s = .next t ∧ RanWith s t c (slotTids [c.d 2]) abwdRun) ∧
    (Starts s q 0x28 c → ∃ t, exec (.epi q) s = .next t ∧ RanWith s t c (slotTids [c.d (if c.pf 1 16 2 ≤ 1 then 2 else 1)]) epiRun) ∧
    (Starts s q 0x31 c → ∃ t, exec (.xgrad q) s = .next t ∧ RanWith s t c (slotTids [c.d 3]) xgradRun))

/-- What the runs store: every element of the output of a DXP, DWP or MATMUL that lies in memory and is not frozen, converted by R41 or with its
draw by R43, is the pair of its sum; without an epilogue, a preload, a zero map, the 2:4 form and the split-K form, in one piece and one chunk, that is the fold
of wave_update from (+0, +0) over the waves of four K indices, each the exact sum of its products, +0 beyond K, and then normalised (R26, R31, R34, R88, Table 4.2). An
element of ABWD without epilogue and dropout under the functions 0 (ReLU) and 2 (Sigmoid) of Table 8.6, and of EPI in its modes 0 and 1 (fused_add, fused_mul) and 3
(pair_add, R214), is stored likewise. -/
def Obligations.ElementValues : Prop :=
  ∀ (s : State) (c : Cmd) (i r col : Nat), (s.conf.job c.job).cores ≠ [] → c.chain = 0 →
    let enc : Desc → Bool → Nat → Pair → Store := fun d sr nb2 x => d.store nb2 i r col
      (convert d.fmt (outScale c d) (if sr then some (draw c.seed c.step d.tid (d.index i r col) 0) else none) x)
    let free := fun (d : Desc) (nb2 : Nat) => d.ralias = false ∧ d.oob s.extent nb2 i r col = false
    let p := prodOf c
    (c.op = 0x11 ∨ c.op = 0x12 ∨ c.op = 0x13 → i < c.lp.nb1 * c.lp.nb2 → r < (if p.tr then p.n else p.m) → col < (if p.tr then p.m else p.n) →
      free (c.d 2) c.lp.nb2 → (c.op = 0x12 → frozen s s.mem c (c.d 2) r col = false) →
      enc (c.d 2) (c.pb 0 0) c.lp.nb2 (prodElem s s.mem c p i r col) ∈ (productRun s c).stores) ∧
    (c.op = 0x11 ∨ c.op = 0x12 ∨ c.op = 0x13 → c.lp.shape ≠ 4 → c.lp.piece = 0 → 0 < p.k → p.k ≤ 65536 → c.pf 7 0 48 = 0 → c.pf 0 5 2 = 0 →
      c.pb 0 9 = false → (c.op = 0x11 → c.pb 0 10 = false) →
      let x := if p.tr then col else r
      let y := if p.tr then r else col
      let at_ := fun (pos a b : Nat) => (c.d pos).num s.mem s.extent c.lp.nb2 i a b
      let left := fun k => if c.op = 0x11 ∨ (c.op = 0x13 ∧ c.pb 0 11 = false) then at_ 0 x k else at_ 0 k x
      let right := fun k => if c.op = 0x11 ∨ (c.op = 0x13 ∧ c.pb 0 12 = true) then at_ 1 y k else at_ 1 k y
      prodElem s s.mem c p i r col = normalise ((List.range (cdiv p.k 4)).foldl (fun z w => waveUpdate z (Num.sum ((List.range 4).map (fun e =>
        if 4 * w + e < p.k then (left (4 * w + e)).mul (right (4 * w + e)) else .zero false)))) Pair.zero)) ∧
    (i < c.items → r < (c.d 0).rows → col < (c.d 0).cols →
      let one : F32 := 0x3F800000#32
      let dy := (c.d 0).f32 s.mem s.extent c.nb2 i r col
      let y := (c.d 1).f32 s.mem s.extent c.nb2 i r col
      let a := (c.d 0).pair s.mem s.extent c.nb2 i r col
      (free (c.d 2) c.nb2 → c.epi = 0 → c.pb 1 8 = false →
        (c.pf 1 4 4 = 0 → enc (c.d 2) (c.pb 1 9) c.nb2 ⟨if isNan dy || isNan y then nan32 else if gt0 y then dy else 0, 0⟩ ∈ (abwdRun s c).stores) ∧
        (c.pf 1 4 4 = 2 → enc (c.d 2) (c.pb 1 9) c.nb2 ⟨if isNan dy || isNan y then nan32 else mul32 dy (mul32 y (sub32 one y)), 0⟩ ∈ (abwdRun s c).stores)) ∧
      (free (c.d 2) c.nb2 → c.pf 1 16 2 = 0 → enc (c.d 2) (c.pb 1 9) c.nb2 (pairAdd a ⟨y, 0⟩) ∈ (epiRun s c).stores) ∧
      (free (c.d 2) c.nb2 → c.pf 1 16 2 = 1 → enc (c.d 2) (c.pb 1 9) c.nb2 (fusedMul a y) ∈ (epiRun s c).stores) ∧
      (free (c.d 1) c.nb2 → c.pf 1 16 2 = 3 → enc (c.d 1) (c.pb 1 9) c.nb2 (pairAdd ((c.d 1).pair s.mem s.extent c.nb2 i r col) a) ∈ (epiRun s c).stores))

/-- COPY (R273) moves its bytes unchanged: a destination byte inside the die's memory takes the source byte, 0 for one outside; every other byte is
unchanged; OOB counts the bytes outside, of source and destination, with the lowest offset. FILL (R274) writes the FILL value of DST to every
element of its items that lies in the die's memory, by the one store of that element, and measures no amax. -/
def Obligations.CopyAndFillMoveBytes : Prop :=
  (∀ (s : State) (q : Nat) (c : Cmd), s.mem.wf = true → Starts s q 0x41 c → c.chain = 0 →
    let src := c.pf 0 0 48
    let dst := c.pf 1 0 48
    let n := c.pf 2 0 48
    ∃ t, exec (.copy q) s = .next t ∧ OnlyRun s t ∧
      (∀ k, k < n → dst + k < s.extent → t.mem.read (dst + k) = if src + k < s.extent then s.mem.read (src + k) else 0#8) ∧
      (∀ b, b < dst ∨ dst + n ≤ b ∨ s.extent ≤ b → t.mem.read b = s.mem.read b) ∧
      (src + n ≤ s.extent → dst + n ≤ s.extent → EndedWith s t c []) ∧
      (dst + n ≤ s.extent → src ≤ s.extent → s.extent < src + n → EndedWith s t c [⟨0x10, s.extent - src, src + n - s.extent⟩])) ∧
  (∀ (s : State) (q : Nat) (c : Cmd), s.mem.wf = true → Starts s q 0x42 c → c.chain = 0 →
    let d := c.d 0
    let es := ((List.range c.items).flatMap (fun i => (List.range d.rows).flatMap (fun r => (List.range d.cols).map (fun k => (i, r, k))))).filter
      (fun e => !d.oob s.extent c.nb2 e.1 e.2.1 e.2.2)
    ∃ t, exec (.fill q) s = .next t ∧ OnlyRun s t ∧ (t.cmd c).map (·.stage) = some .ended ∧ (t.cmd c).map (·.amaxOut) = some [] ∧
      t.mem = s.mem.dieStores s.extent (es.map (fun e => d.store c.nb2 e.1 e.2.1 e.2.2 d.fill)) ∧
      (∀ b, (∀ e ∈ es, ¬ (d.store c.nb2 e.1 e.2.1 e.2.2 d.fill).covers b) → t.mem.read b = s.mem.read b))

/-- LENS and PRUNE (R186, R187, R190) start and wait for their units; a unit of the next ready user does its stores, counts and moves it on, with
the last unit ending a command that stages nothing; a unit with an error is done again, and after 16 failures in a row its command ends with UNCORR
and a fault record (R356). The fold pass (R174, R186) of a command: each turn folds one unit of its first staged descriptor, with the stores of the
addresses whose lowest element lies in that unit; with the last unit the descriptor is done, and with the last descriptor the command has ended. A
unit with an error is done again (R356). -/
def Obligations.LensUnitsAndFoldPass : Prop :=
  (∀ (s : State) (q : Nat) (c : Cmd),
    (Starts s q 0x40 c → ∃ t, exec (.lens q) s = .next t ∧ OnlyRun s t ∧ Waits t c ∧ (t.cmd c).map (·.units) = some 0 ∧
      ((c.d 1).ralias = false → t.mem = s.mem)) ∧
    (Starts s q 0x38 c → ∃ t, exec (.prune q) s = .next t ∧ OnlyRun s t ∧ Waits t c ∧ (t.cmd c).map (·.units) = some 0 ∧ t.mem = s.mem) ∧
    (centralUp s = true → centralUser s = some c → isFolder c = false → c.op ≠ 0x63 → s.cmd c = some c →
      (∃ t, exec (.lensUnit false) s = .next t ∧ (t.cmd c).map (·.units) = some (c.units + 1) ∧
        t.mem = s.mem.dieStores s.extent (if c.op = 0x40 then (lensUnit s c).1 else pruneUnit s c).stores ∧
        ((c.d 1).ralias = false → (t.cmd c).map (·.stage) = some (if c.units + 1 = lensUnits c then .ended else .started))) ∧
      (c.retries < 15 → ∃ t, exec (.lensUnit true) s = .next t ∧ t.mem = s.mem ∧ (t.cmd c).map (fun d => (d.units, d.retries)) = some (c.units, c.retries + 1)) ∧
      (c.retries = 15 → ∃ t, exec (.lensUnit true) s = .next t ∧ t.mem = s.mem ∧
        StoppedWith s t c ⟨0x60, if c.staged = [] then firstUnwritten c else firstFold c, 1⟩ ∧
        (s.flt.recs.length < 64 → ∃ r, t.flt.recs = s.flt.recs ++ [r] ∧ r.kind = 12)))) ∧
  (∀ (s : State) (q pos : Nat) (c : Cmd) (rs : List Res) (rest : List (Nat × List Res)), q < Config.queueCount → foldWaiting s q = some c →
    s.cmd c = some c → c.staged = (pos, rs) :: rest → c.chain = 0 → (zoutOf c).1 = 0 →
    (∃ t, exec (.aliasFoldPass q) s = .next t ∧ t = { s with mem := t.mem, q := t.q, turn := c.qid } ∧
      t.mem = s.mem.dieStores s.extent (foldUnit s c pos rs c.folded).1 ∧
      (t.cmd c).map (fun d => (d.staged, d.stage, d.folded, d.retries)) =
        some (if unitCount (c.d pos) (batchOf c).2 ≤ c.folded + 1 then (rest, if rest = [] then .ended else .started, 0, 0)
              else (c.staged, c.stage, c.folded + 1, 0))) ∧
    (c.retries < 15 → ∃ t, exec (.lensUnit true) s = .next t ∧ t.mem = s.mem ∧
      (t.cmd c).map (fun d => (d.staged, d.folded, d.retries)) = some (c.staged, c.folded, c.retries + 1)) ∧
    (c.retries = 15 → c.op ≠ 0x58 → ∃ t, exec (.lensUnit true) s = .next t ∧ t.mem = s.mem ∧ StoppedWith s t c ⟨0x60, firstFold c, 1⟩))

/-- EMBG takes the hash accumulator where no command holds it and none that entered earlier may take it (R222); its phases follow in order (R227): the
flush writes the pool's flag and, under MDEFER, ends the command and lets the accumulator go; otherwise its merge ends it. MERGE of a pool whose
flag is clear ends without a store; of an open one it takes the accumulator, and its fold leaves memory as the pool's fold does and ends it (R235). -/
def Obligations.EmbgAndMerge : Prop :=
  ∀ (s : State) (q : Nat) (c : Cmd),
    (Starts s q 0x30 c → s.hash.holder = none → hashFirst s c = true → ∃ t, exec (.embg q) s = .next t ∧
      t = { s with hash := ⟨some (c.qid, c.seq), []⟩, q := t.q, conf := t.conf } ∧ (t.cmd c).map (fun d => (d.stage, d.units)) = some (.started, 0)) ∧
    (q < Config.queueCount → hashRunning s q 0x30 = some c → s.Alone c →
      (c.units < 2 → ∃ t, exec (.embgPhase q) s = .next t ∧ (t.cmd c).map (fun d => (d.stage, d.units)) = some (.started, c.units + 1) ∧
        t.hash.holder = s.hash.holder) ∧
      (c.units = 2 → ∃ t, exec (.embgPhase q) s = .next t ∧ t.hash = ⟨if c.pb 0 32 then none else s.hash.holder, []⟩ ∧
        (t.cmd c).map (·.stage) = some (if c.pb 0 32 then .ended else .started)) ∧
      (c.units = 3 → ∃ t, exec (.embgPhase q) s = .next t ∧ t.hash = ⟨none, []⟩ ∧ (t.cmd c).map (·.stage) = some .ended ∧
        t.mem = (mergePool s.mem s.extent (c.pf 2 0 48)).mem)) ∧
    (Starts s q 0x32 c → s.hash.holder = none → hashRunning s q 0x32 = none → hashFirst s c = true →
      ((dieLe s.mem s.extent (c.pf 2 0 48 + 64) 8).testBit 0 = false → ∃ t, exec (.merge q) s = .next t ∧ OnlyQueues s t ∧ EndedWith s t c []) ∧
      ((dieLe s.mem s.extent (c.pf 2 0 48 + 64) 8).testBit 0 = true → ∃ t, exec (.merge q) s = .next t ∧
        t = { s with hash := ⟨some (c.qid, c.seq), []⟩, q := t.q, conf := t.conf } ∧ Waits t c)) ∧
    (q < Config.queueCount → hashRunning s q 0x32 = some c → ∃ t, exec (.merge q) s = .next t ∧ (t.cmd c).map (·.stage) = some .ended ∧
      t.hash = ⟨none, []⟩ ∧ t.mem = (mergePool s.mem s.extent (c.pf 2 0 48)).mem)

/-! ## Collectives -/

/-- On the one position of its tree a collective that is next in CSEQ order completes with its start, and counts as completed (R257). So does a
PARITY for which this engine has no shard; with shards it waits for the units of their folding, one for every 4 KiB (log 80), and completes with
the last of them (R186, R375). A node without children sends its leaf up and waits (R254): an AMAX its slots' leaves, in tensor order. -/
def Obligations.CollectivesStart : Prop :=
  (∀ (s : State) (q : Nat) (c : Cmd), treeOf s = some (none, none, none) →
    s.red.colls = [] → s.red.early = [] → s.red.doneAhead = [] → s.flt.double = [] →
    let n := shardBytes s c ((position s).getD 8)
    let next := cseqOf s c = (s.red.lastCseq + 1) % 2 ^ 32
    let completes : State → Prop := fun t =>
      (t.cmd c).map (·.stage) = some .ended ∧ t.red.lastCseq = cseqOf s c ∧ t.red.colls = [] ∧ t.red.sent = s.red.sent
    (∀ op i, (i = .reduce q ∧ op = 0x48) ∨ (i = .gnorm q ∧ op = 0x49) ∨ (i = .amax q ∧ op = 0x4A) ∨ (i = .parity q ∧ op = 0x63 ∧ n = 0) →
      Starts s q op c → next → (op = 0x49 → ∀ k ∈ leafQueues c, (s.q.find k).isSome = true) → ∃ t, exec i s = .next t ∧ completes t) ∧
    (Starts s q 0x63 c → next → n ≠ 0 → ∃ t, exec (.parity q) s = .next t ∧ Waits t c ∧ t.red = s.red ∧ t.mem = s.mem ∧
      (t.cmd c).map (·.foldUnits) = some (cdiv n 4096)) ∧
    (centralUp s = true → centralUser s = some c → c.op = 0x63 → s.cmd c = some c →
      (c.folded + 1 ≠ c.foldUnits → ∃ t, exec (.lensUnit false) s = .next t ∧ t.mem = s.mem ∧ t.red = s.red ∧
        (t.cmd c).map (fun d => (d.stage, d.folded)) = some (.started, c.folded + 1)) ∧
      (c.folded + 1 = c.foldUnits → next → ∃ t, exec (.lensUnit false) s = .next t ∧ completes t))) ∧
  (∀ (s : State) (q : Nat) (c : Cmd) (pp : Nat) (lk : RedLink), Starts s q 0x4A c → treeOf s = some (none, none, some (pp, lk)) → linkUp s .up = true →
    cseqOf s c = (s.red.lastCseq + 1) % 2 ^ 32 → s.red.colls = [] → s.red.early = [] →
    ∃ (t : State) (segs : List Segment), exec (.amax q) s = .next t ∧ Waits t c ∧ t.red.sent = s.red.sent ++ segs.map (fun g => (.up, g)) ∧
      segs.flatMap (·.elems) = (List.range (c.pf 0 16 16 + 1)).map (fun k => (amaxLeaf (s.amax.slot (c.pf 0 0 16 + k)) c.step).toNat) ∧
      (∀ g ∈ segs, g.cseq = cseqOf s c) ∧ (segs.getLast?).map (·.last) = some true)

/-- A segment that comes before its collective has started here is kept, while it fits the receive buffer (R254, Table 10.2); one of a child joins the
collective. Once both children have sent all, a node sends up, and the root makes the result of, (L ⊕ own) ⊕ R element by element; the root of an AMAX sends
that to both children and it joins the command's amaxes, of a GNORM it writes the norm, the coefficient and the pair (R263). The last segment of a result
takes effect and ends the command: a REDUCE to all positions writes the elements of DST that lie in memory, a GNORM its record, a PARITY its byte at the
destination. One that the combine unit failed on is done again (R356). An abort of a collective still to be admitted here goes on along the
other tree edges and is kept for its admission (R257, R259); of one that has been admitted it ends the command with CANCELLED. That four wire
elements come down for a GNORM is the model's reading (log 62). -/
def Obligations.SegmentsAndAborts : Prop :=
  ∀ (s : State) (l : RedLink) (g : Segment) (k : Coll), portUp s l = true →
    (hasRoom s l g = true → s.red.colls.find? (fun k => k.cseq == g.cseq) = none → toCome s g.cseq = true → s.red.aborted.contains g.cseq = false →
      exec (.reductionSegment l g false) s = .next { s with red := { s.red with early := s.red.early ++ [(l, g)] } }) ∧
    (∀ c, hasRoom s l g = true → s.red.colls.find? (fun k => k.cseq == g.cseq) = some k → collCmd s k = some c →
      (l = .up → g.last = true → headsMatch g.heads = true → ∃ t, exec (.reductionSegment l g false) s = .next t ∧
        (t.cmd c).map (·.stage) = some .ended ∧ t.red.colls = s.red.colls.filter (fun x => x.cseq != k.cseq) ∧
        (c.op = 0x49 → g.offset = 0 → ∀ norm coef fs fc, g.elems = [norm, coef, fs, fc] →
          t.mem = s.mem.dieStores s.extent [.bytes (c.pf 3 0 48) (leBytes 4 norm ++ leBytes 4 coef ++ leBytes 4 fs ++ leBytes 4 fc)]) ∧
        (c.op = 0x48 → c.pf 0 4 2 = 1 → ∀ d, c.role .dst = some d →
          let at_ : Nat × Nat → Nat × Nat × Nat := fun e => redPos c d (g.offset + e.2)
          t.mem = s.mem.dieStores s.extent ((g.elems.zipIdx.filter (fun e => !d.oob s.extent c.lnb2 (at_ e).1 (at_ e).2.1 (at_ e).2.2)).map (fun e =>
            .bytes (d.addr c.lnb2 (at_ e).1 (at_ e).2.1 (at_ e).2.2).toNat (leBytes (eBytes d.fmt) e.1)))) ∧
        (c.op = 0x63 → ∀ v x o, g.elems = [v] → seriesAt (seriesOf s c) g.offset = some (x, o) → position s = some x.dest.1 → x.g.rebuild = true →
          t.mem = s.mem.dieStores s.extent [.bytes (x.dest.2 + o) [BitVec.ofNat 8 v]])) ∧
      (∀ a r u, l = .cl → treeOf s = some (some a, r, some u) → ∃ t, exec (.reductionSegment l g false) s = .next t ∧ t.mem = s.mem ∧
        (t.red.colls.find? (fun x => x.cseq == g.cseq)).map (fun x => (x.fromL, x.lDone)) = some (k.fromL ++ g.elems, g.last)) ∧
      (∀ a b u, l = .cr → treeOf s = some (a, some b, some u) → ∃ t, exec (.reductionSegment l g false) s = .next t ∧ t.mem = s.mem ∧
        (t.red.colls.find? (fun x => x.cseq == g.cseq)).map (fun x => (x.fromR, x.rDone)) = some (k.fromR ++ g.elems, g.last)) ∧
      (∀ a b u, l = .cr → treeOf s = some (some a, some b, u) → k.lDone = true → g.last = true → k.shaped = true → k.fromR = [] → k.headsR = [] →
        k.headsL ≠ [] → g.heads ≠ [] → k.upDone = false → k.sentUp = 0 → s.cmd c = some c →
        let idt := identityOf c.rop
        let w := Nat.max k.wire g.bytes
        let sums := (List.range k.own.length).map (fun i =>
          combineOp c.rop (combineOp c.rop (k.fromL.getD i idt) (k.own.getD i idt)) (g.elems.getD i idt) % 2 ^ (8 * w))
        (u.isSome = true → ∃ (t : State) (segs : List Segment), exec (.reductionSegment l g false) s = .next t ∧ t.mem = s.mem ∧ Waits t c ∧
          t.red.sent = s.red.sent ++ segs.map (fun x => (.up, x)) ∧ segs.flatMap (·.elems) = sums ∧ (segs.getLast?).map (·.last) = some true) ∧
        (u = none → headsMatch (k.head :: (k.headsL ++ g.heads)) = true → ∃ t, exec (.reductionSegment l g false) s = .next t ∧
          (t.cmd c).map (·.stage) = some .ended ∧ t.red.colls = s.red.colls.filter (fun x => x.cseq != k.cseq) ∧
          (c.op = 0x4A →
            (t.cmd c).map (·.amaxOut) = some (c.amaxOut ++ sums.zipIdx.map (fun e => (c.pf 0 0 16 + e.2, BitVec.ofNat 32 e.1))) ∧
            ∀ y, y = .cl ∨ y = .cr →
              (((t.red.sent.drop s.red.sent.length).filter (fun e => e.1 == y)).map (·.2)).flatMap (·.elems) = sums) ∧
          (c.op = 0x49 → ∀ v, sums = [v] →
            let p := bitsPair v
            let norm := sqrt32 (add32 p.s p.c)
            let den := add32 norm (BitVec.ofNat 32 (c.pf 2 32 32))
            let coef := min32 0x3F800000#32 (if den &&& 0x7FFFFFFF#32 = 0 then 0x7F800000#32 else div32 (BitVec.ofNat 32 (c.pf 2 0 32)) den)
            t.mem = s.mem.dieStores s.extent [.bytes (c.pf 3 0 48)
              (leBytes 4 norm.toNat ++ leBytes 4 coef.toNat ++ leBytes 4 p.s.toNat ++ leBytes 4 p.c.toNat)])))) ∧
    (hasRoom s l g = true → s.red.colls.find? (fun k => k.cseq == g.cseq) = some k → k.retries < 15 →
      ∃ t, exec (.reductionSegment l g true) s = .next t ∧
      t = { s with red := t.red } ∧ (t.red.colls.find? (fun k => k.cseq == g.cseq)).map (·.retries) = some (k.retries + 1)) ∧
    (∀ n, toCome s n = true → s.red.aborted.contains n = false → admittedColl s n = none → ∃ t, exec (.collectiveAbort l n) s = .next t ∧
      t = { s with red := t.red } ∧ t.red.aborted = s.red.aborted ++ [n] ∧
      t.red.sentAborts = s.red.sentAborts ++ ((treeLinks s).filter (fun e => some l != some e)).map (fun e => (e, n))) ∧
    (∀ n c, toCome s n = true → s.red.aborted.contains n = false → admittedColl s n = some c → ∃ t, exec (.collectiveAbort l n) s = .next t ∧
      (t.cmd c).map (·.stage) = some .ended ∧ ((t.cmd c).map (fun d => d.conds.any (fun e => e.code == 0x31))) = some true)

/-! ## Core programs -/

/-- An undefined opcode, or a reserved bit that is set, makes an instruction illegal, in a replay too: it is counted, its word and address are recorded,
and the core goes on behind it (R115); with the engine's count and record of ignored illegal sequences nothing else changes. That a word with an
undefined opcode runs in the row of NOP is the model's reading (log 33). -/
def Obligations.IllegalInstructionsAreSkipped : Prop :=
  ∀ (s : State) (l : Nat) (c : Cmd) (w : Nat) (i : Instr), Issues s l c w →
    let x := s.prog l
    ((i = .nopInstruction l ∧ bf w 56 8 ∉ opcodes) ∨
      ∃ op fields, bf w 56 8 = op ∧ rsvBits w fields = true ∧ (i, op, fields) ∈
        [(.nopInstruction l, 0x00, []), (.salu l, 0x01, [(55, 36), (31, 0)]), (.sli l, 0x02, [(55, 50), (31, 0)]), (.sld l, 0x03, [(55, 47)]),
         (.sst l, 0x04, [(55, 47)]), (.ags l, 0x05, [(55, 43), (40, 40), (31, 0)]), (.aga l, 0x06, [(55, 52), (47, 43), (40, 40), (31, 0)]),
         (.br l, 0x08, [(55, 48), (12, 0)]), (.loopInstruction l, 0x09, [(55, 47), (44, 0)]), (.halt l, 0x0F, []), (.tld l, 0x10, [(55, 44), (31, 16)]),
         (.tst l, 0x11, [(55, 48), (31, 16)]), (.wb l, 0x20, [(55, 33), (31, 21), (14, 0)]), (.pld l, 0x30, [(55, 30)]), (.pdr l, 0x31, [(55, 4)]),
         (.pew l, 0x32, [(55, 49)]), (.vop l, 0x40, [(55, 20), (15, 0)]), (.vred l, 0x41, [(55, 41), (29, 20), (15, 0)]),
         (.vsf l, 0x42, [(55, 42), (33, 20), (15, 0)]), (.send l, 0x50, [(55, 30)]), (.recv l, 0x51, [(53, 30)]), (.mwait l, 0x52, [(47, 39)]),
         (.claim l, 0x60, [(55, 41)]), (.bar l, 0x70, [(55, 51)]), (.sig l, 0x71, [(53, 45), (15, 0)]), (.swait l, 0x72, [(47, 39), (31, 0)]),
         (.mark l, 0x73, []), (.chfree l, 0x80, [(50, 46)]), (.chget l, 0x82, [(50, 46)]),
         (.chput l, 0x81, []), (.chrel l, 0x83, [])]) →
    ∃ t, exec i s = .next t ∧ t = { s with lcores := t.lcores, ill := t.ill, irq := t.irq, q := t.q } ∧ t.q.cmds = s.q.cmds ∧
      t.ill.cnt = min (2 ^ 48 - 1) (s.ill.cnt + 1) ∧
      t.prog l = ({ x.advance with illCnt := min (2 ^ 64 - 1) (x.illCnt + 1), illWord := BitVec.ofNat 64 w, illAddr := some x.regs.pc } :
        LCore).settleReplay

/-- NOP, SALU, SLI, AGS and AGA (Tables 5.3, 5.4) change the one scalar register or address generator that they name, `S0` taking no write, and the
program goes on behind them; nothing else of the engine changes. -/
def Obligations.ScalarInstructions : Prop :=
  ∀ (s : State) (l : Nat) (c : Cmd),
    let x := s.prog l
    (Issues s l c (wordOf 0x00 []) → exec (.nopInstruction l) s = .next (s.thenNext l (fun y => y))) ∧
    (∀ (d a b fn imm : Nat) (isImm : Bool) (v : Word), d < 32 → a < 32 → b < 32 → imm < 2 ^ 32 →
      Issues s l c (wordOf 0x01 [(d, 51), (a, 46), (b, 41), (b2n isImm, 40), (fn, 36), (imm, 0)]) →
      let A := x.reg a
      let B := if isImm then (BitVec.ofNat 32 imm).signExtend 64 else x.reg b
      let sh := B.toNat % 64
      [A + B, A - B, A &&& B, A ||| B, A ^^^ B, A <<< sh, A >>> sh, A.sshiftRight sh, A * B, if B.slt A then B else A, if A.slt B then B else A,
        if A = B then 1 else 0, if A.slt B then 1 else 0, if A.ult B then 1 else 0][fn]? = some v →
      exec (.salu l) s = .next (s.thenNext l (fun y => y.setReg d v))) ∧
    (∀ (d imm : Nat) (hi : Bool), d < 32 → imm < 2 ^ 32 → Issues s l c (wordOf 0x02 [(d, 51), (b2n hi, 50), (imm, 0)]) →
      exec (.sli l) s = .next (s.thenNext l (fun y => y.setReg d
        (if hi then (BitVec.ofNat 32 imm ++ (x.reg d).extractLsb' 0 32 : BitVec 64) else (BitVec.ofNat 32 imm).signExtend 64)))) ∧
    (∀ (k fld a imm : Nat) (isImm : Bool) (g : AddrGen), k < 16 → a < 32 → imm < 2 ^ 32 →
      Issues s l c (wordOf 0x05 [(k, 52), (fld, 48), (a, 43), (b2n isImm, 40), (imm, 0)]) →
      let v := if isImm then (BitVec.ofNat 32 imm).signExtend 64 else x.reg a
      let h := x.ag k
      (fld = 1 → v.toNat % 8 < 4) →
      [{ h with base := if isImm then BitVec.ofNat 48 imm else v.setWidth 48 }, { h with space := v.setWidth 3 }, { h with st0 := v.setWidth 32 },
        { h with ex0 := v.setWidth 16 }, { h with st1 := v.setWidth 32 }, { h with ex1 := v.setWidth 16 }, { h with st2 := v.setWidth 32 },
        { h with ex2 := v.setWidth 16 }, { h with i0 := 0, i1 := 0, i2 := 0 }][fld]? = some g →
      exec (.ags l) s = .next (s.thenNext l (fun y => { y with regs := { y.regs with ags := y.regs.ags.set k g } }))) ∧
    (∀ (k a imm : Nat) (isImm : Bool), k < 16 → a < 32 → imm < 2 ^ 32 →
      Issues s l c (wordOf 0x06 [(k, 52), (a, 43), (b2n isImm, 40), (imm, 0)]) →
      exec (.aga l) s = .next (s.thenNext l (fun y => y.useAg k (if isImm then imm else (x.reg a).toNat % 2 ^ 32))))

/-- BR and LOOP (Tables 5.1, 5.3): a branch goes to its target where its condition holds; a loop starts with its count over the body behind it, and
with a count of 0 is passed over; at the end of its body the innermost loop goes back to its start while iterations are left. -/
def Obligations.BranchesAndLoops : Prop :=
  ∀ (s : State) (l : Nat) (c : Cmd),
    let x := s.prog l
    let goTo (pc : Nat) (f : LCore → LCore) : State := s.updProg l (fun y => ((f y).goto pc).settleReplay)
    (∀ (a cc target : Nat) (b : Bool), a < 32 → target < 2 ^ 13 → Issues s l c (wordOf 0x08 [(a, 51), (cc, 48), (target, 0)]) →
      [true, x.reg a == 0, x.reg a != 0, (x.reg a).slt 0, !(x.reg a).slt 0][cc]? = some b →
      exec (.br l) s = .next (if b then goTo target (fun y => y) else s.thenNext l (fun y => y))) ∧
    (∀ (k a imm last : Nat) (isImm : Bool), k < 8 → a < 32 → imm < 2 ^ 32 → last < 2 ^ 13 →
      Issues s l c (wordOf 0x09 [(k, 53), (a, 48), (b2n isImm, 47), (last, 32), (imm, 0)]) →
      let n := if isImm then imm else (x.reg a).toNat % 2 ^ 32
      let next := x.regs.pc.toNat + 1
      (n = 0 → exec (.loopInstruction l) s = .next (goTo (last + 1) (fun y => y))) ∧
      (n ≠ 0 → exec (.loopInstruction l) s = .next (goTo next (fun y => { y with regs := { y.regs with
        lcs := y.regs.lcs.set k ⟨BitVec.ofNat 32 n, BitVec.ofNat 13 last, BitVec.ofNat 13 next, true⟩
        stack := k :: y.regs.stack.filter (· != k) } })))) ∧
    (∀ (k : Nat) (r : List Nat) (e : LoopCtr), Issues s l c (wordOf 0x00 []) → x.regs.stack = k :: r → x.regs.lcs[k]? = some e → e.fin = x.regs.pc →
      ∃ t, exec (.nopInstruction l) s = .next t ∧
        (1 < e.left.toNat → (t.prog l).regs.pc = e.start ∧ (t.prog l).regs.stack = k :: r ∧
          (t.prog l).regs.lcs[k]? = some { e with left := e.left - 1 }) ∧
        (e.left.toNat ≤ 1 → r = [] → (t.prog l).regs.pc = x.regs.pc + 1 ∧ (t.prog l).regs.stack = [] ∧
          (t.prog l).regs.lcs[k]? = some { e with left := 0, active := false }))

/-- HALT, and a program counter that reaches the image length (R114): the core's part of the command has ended, its last stretch counting like any other
(R140); the command ends when every program of it has halted, its loads, drains and what waits in its units are done and its writes accepted. Running off the image is
counted as an ignored illegal sequence. -/
def Obligations.ProgramsEnd : Prop :=
  ∀ (s : State) (l : Nat) (c : Cmd), l ∈ (s.conf.job c.job).cores →
    let x := s.prog l
    let last : Prop := (∀ i ∈ progsOf s c, i ≠ l → (s.prog i).run = .halted ∧ (s.prog i).drains = [] ∧ (s.prog i).held = []) ∧ x.drains = [] ∧
      x.held = [] ∧ s.tender.writesOf c = []
    let loaded : Prop := ∀ i ∈ progsOf s c, (s.prog i).tlds = []
    (Issues s l c (wordOf 0x0F []) →
      (∃ t, exec (.halt l) s = .next t ∧ ((t.prog l).run = .halted ∨ (t.cmd c).map (·.stage) = some .ended)) ∧
      (loaded → last → ∃ t, exec (.halt l) s = .next t ∧ (t.cmd c).map (·.stage) = some .ended ∧ (t.prog l).run = .idle ∧ t.mem = s.mem) ∧
      (loaded → ¬ last → exec (.halt l) s = .next (s.updProg l (fun y =>
        { y with run := .halted, wait := 0, markGap := max y.markGap y.stretch, stretch := 0 })))) ∧
    (l < 64 → progReady s l = true → x.regs.fin = true → progCmd s l = some c → loaded →
      ∃ t, exec (.programEnd l) s = .next t ∧ t.ill.cnt = min (2 ^ 48 - 1) (s.ill.cnt + 1) ∧ t.mem = s.mem ∧
        (last → (t.cmd c).map (·.stage) = some .ended) ∧ (¬ last → (t.prog l).run = .halted ∧ t.q.cmds = s.q.cmds))

/-- SLD and SST (R116, R177): a 64-bit word of the scratchpad or of the job's partition is loaded into a register, or stored from one, and the
generator advances one use; a word outside loads as 0 and is counted as out of range. TLD and TST (R117, R149, R155, R425): lines of the job's
partition, or a complete block of an operand stream with as many lines, are loaded into the scratchpad, the stream's block being taken and logged
(R137); a TLD whose block is not there yet, or that reads memory by transfers of its own, is queued and the program goes on; lines of the
scratchpad are copied to the partition, or leave as transfers that the fabric has to accept, memory unchanged until then. That the reads of a TLD
from memory carry the stream number 8 (log 96) and how the log store takes an entry (logs 32, 92) are the model's choices. -/
def Obligations.LoadsAndStores : Prop :=
  (∀ (s : State) (l d k u : Nat) (c : Cmd), d < 32 → k < 16 → s.CleanStorage → storageOf s.pcores l = some u →
    let x := s.prog l
    let g := x.ag k
    let a := g.addr.toNat
    let size := if g.sp = 0 then Config.scratchBytes else (s.conf.job c.job).psize * 1048576
    let span : Span := (g.sp, g.addr, g.addr + 8)
    (g.sp = 0 ∨ g.sp = 2) →
    (Issues s l c (wordOf 0x03 [(d, 51), (k, 47)]) → x.locked [span] [] = false →
      (0 ≤ g.addr → a + 8 ≤ size → exec (.sld l) s = .next (s.thenNext l (fun y =>
        (y.setReg d (BitVec.ofNat 64 (if g.sp = 0 then (s.pcore u).scratch.le a 8 else s.cstore.le (partBase s c + a) 8))).useAg k 1))) ∧
      (g.addr < 0 ∨ size < a + 8 → ∃ t, exec (.sld l) s = .next t ∧ (t.prog l).reg d = 0 ∧ t.mem = s.mem ∧ t.pcores = s.pcores ∧
        (t.prog l).oob = some (match x.oob with | some o => (o.1, o.2 + 1) | none => (x.regs.pc.toNat, 1)))) ∧
    (Issues s l c (wordOf 0x04 [(d, 51), (k, 47)]) → x.locked [] [span] = false → 0 ≤ g.addr → a + 8 ≤ size →
      let bs := leBytes 8 (x.reg d).toNat
      (g.sp = 0 → exec (.sst l) s = .next ((s.updCore u (fun p => { p with scratch := p.scratch.writeBytes a bs })).thenNext l (fun y => y.useAg k 1))) ∧
      (g.sp = 2 → exec (.sst l) s = .next (({ s with cstore := s.cstore.writeBytes (partBase s c + a) bs }).thenNext l (fun y => y.useAg k 1))))) ∧
  (∀ (s : State) (l n k m u : Nat) (c : Cmd), k < 16 → m < 16 → 1 ≤ n → n ≤ 12288 → s.CleanStorage → storageOf s.pcores l = some u →
    let x := s.prog l
    let at_ (g : Nat) : List Int := (x.ag g).take n
    let fits (g size : Nat) : Prop := ∀ a ∈ at_ g, 0 ≤ a ∧ a.toNat + 128 ≤ size
    let spans (g : Nat) : List Span := (at_ g).map (fun a => ((x.ag g).sp, a, a + 128))
    let psize := (s.conf.job c.job).psize * 1048576
    movesFull s l = false → (x.ag k).sp = 0 → fits k Config.scratchBytes →
    (Issues s l c (wordOf 0x10 [(k, 52), (m, 48), (n, 16)]) → (x.ag m).sp = 2 → fits m psize → x.locked (spans m) (spans k) = false →
      let lines : List Store := ((at_ k).zip (at_ m)).map (fun e => .bytes e.1.toNat (s.cstore.bytes (partBase s c + e.2.toNat) 128))
      exec (.tld l) s = .next ((s.updCore u (fun p => { p with scratch := p.scratch.stores lines })).thenNext l (fun y => (y.useAg m n).useAg k n))) ∧
    (Issues s l c (wordOf 0x10 [(k, 52), (m, 48), (n, 16)]) → (x.ag m).sp = 3 → fits m s.extent → (∀ a ∈ at_ m, a % 128 = 0) →
      memLocked s l c false (linesAt x m n) = false → x.locked (spans m) [] = false → x.tlds = [] →
      ∃ t, exec (.tld l) s = .next t ∧ t = { s with lcores := t.lcores, tender := t.tender } ∧
        (∀ a ∈ at_ m, ∃ y ∈ t.tender.xfers ++ t.tender.outq, y.write = false ∧ y.isOf c = true ∧ y.stream = 8 ∧ y.core = l ∧ y.num = x.issue + 1 ∧
          y.addr = a.toNat ∧ y.len = 128) ∧
        t.prog l = (({ (x.useAg m n).useAg k n with issue := x.issue + 1, tlds := [⟨x.issue + 1, 8, n, linesAt x k n, .empty⟩] } : LCore).advance).settleReplay) ∧
    (∀ (str : Nat) (b : Binding), Issues s l c (wordOf 0x10 [(k, 52), (m, 48), (1, 47), (str, 44), (n, 16)]) → x.run = .running → str < 8 →
      c.binds[str]? = some b → bit b.cons l = true → x.tlds = [] →
      let o := streamOf s.tender c str b
      let next := o.blocks.find? (fun e => e.num == o.nextOf l)
      o.dead = false →
      (∀ blk : SBlock, next = some blk → blockDone s.tender o blk = true → blk.lines = n → x.locked [] (spans k) = false →
        let lines : List Store := (at_ k).zipIdx.map (fun e => .bytes e.1.toNat (blk.data.bytes (128 * e.2) 128))
        ∃ t, exec (.tld l) s = .next t ∧ LogsOnly s t l c ∧
          let v := s.updCore u (fun p => { p with scratch := p.scratch.stores lines })
          t = { v with lcores := t.lcores, tender := s.tender.took o l blk.num, cstore := t.cstore, mem := t.mem, free := t.free } ∧
          t.prog l = ((({ x.useAg k n with issue := x.issue + 1 } : LCore).record (logRoom s c) (.take (x.issue + 1) str blk.num)).advance).settleReplay) ∧
      (next = none → o.ended = false → exec (.tld l) s = .next (s.thenNext l (fun y =>
        { y.useAg k n with issue := x.issue + 1, tlds := [⟨x.issue + 1, str, n, linesAt x k n, .empty⟩] })))) ∧
    (Issues s l c (wordOf 0x11 [(k, 52), (m, 48), (n, 16)]) → (x.ag m).sp = 2 → fits m psize → x.locked (spans k) (spans m) = false →
      let lines : List Store := ((at_ k).zip (at_ m)).map (fun e => .bytes (partBase s c + e.2.toNat) ((s.pcore u).scratch.bytes e.1.toNat 128))
      exec (.tst l) s = .next (({ s with cstore := s.cstore.stores lines }).thenNext l (fun y => (y.useAg k n).useAg m n))) ∧
    (Issues s l c (wordOf 0x11 [(k, 52), (m, 48), (n, 16)]) → (x.ag m).sp = 3 → fits m s.extent → (∀ a ∈ at_ m, a % 128 = 0) →
      x.locked (spans k) (spans m) = false → memLocked s l c true (linesAt x m n) = false →
      ∃ t, exec (.tst l) s = .next t ∧ t = { s with lcores := t.lcores, tender := t.tender, q := t.q } ∧
        (s.tender.redo = [] → (t.tender.xfers ++ t.tender.outq).length = (s.tender.xfers ++ s.tender.outq).length + n) ∧
        (∀ e ∈ (at_ k).zip (at_ m), ∃ y ∈ t.tender.xfers ++ t.tender.outq, y.write = true ∧ y.isOf c = true ∧ y.core = l ∧ y.addr = e.2.toNat ∧ y.len = 128 ∧
          y.data = (s.pcore u).scratch.bytes e.1.toNat 128) ∧
        t.prog l = (((x.useAg k n).useAg m n).advance).settleReplay))

/-- WB (R118, R59): a legal block of `n` waves that nothing queued holds back puts `n` slices behind the others in every row and column feeder of the four
arrays, at K positions from S[KO] up, of the block's tile on its plane; memory and the core's storage are unchanged. -/
def Obligations.WaveBlocksFillTheFeeders : Prop :=
  ∀ (s : State) (l u shape plane agr agc fr fc a ko n : Nat) (first cmp bs : Bool) (c : Cmd),
    shape < 8 → plane < 2 → agr < 16 → agc < 16 → fr < 16 → fc < 16 → a < 32 → ko < 32 → n < 2 ^ 15 → s.CleanStorage → storageOf s.pcores l = some u →
    Issues s l c (wordOf 0x20 [(shape, 53), (plane, 52), (b2n first, 51), (agr, 47), (agc, 43), (fr, 39), (fc, 35), (b2n cmp, 34), (b2n bs, 33), (a, 27),
      (1, 26), (ko, 21), (n, 0)]) →
    let x := s.prog l
    let o : WbOp := ⟨shape, plane, first, agr, agc, fr, fc, cmp, bs, n, (x.reg ko).toNat % 2 ^ 32⟩
    let pl := if first then plane else x.curPlane
    let tile := if first then 2 * (x.issue + 1) else x.tileIds.getD pl 0
    o.illegal x = false → (∀ h ∈ x.held, ¬ (h.op = 0x32 ∧ bf h.word 55 1 = pl)) → (∀ e ∈ (o.addrs x).zipIdx, x.locked (o.spans x (o.ko + e.2) e.1) [] = false) → pl < 2 → x.tileWaves.length = 2 →
    (s.pcore u).arrays.length = 4 → (∀ A ∈ (s.pcore u).arrays, A.rowF.length = 8 ∧ A.colF.length = 8) →
    ∃ t, exec (.wb l) s = .next t ∧ t = { s with lcores := t.lcores, pcores := t.pcores, q := t.q } ∧
      (t.prog l).tileWaves.getD pl 0 = (if first then 0 else x.tileWaves.getD pl 0) + n ∧ (t.prog l).regs.pc = x.advance.regs.pc ∧
      (∀ i, t.pcore i = { s.pcore i with arrays := (t.pcore i).arrays }) ∧
      ∀ k f col, k < 4 → f < 8 → ∃ new,
        (((t.pcore u).arrays.getD k ArrayState.reset).feeder col f).backlog = (((s.pcore u).arrays.getD k ArrayState.reset).feeder col f).backlog ++ new ∧
        new.map (fun z => (z.plane, z.tile, z.kpos, z.ballast)) = (List.range n).map (fun i => (pl, tile, o.ko + i, false))

/-- PLD and PDR (R71, R72, R119) queue a preload, and a park or drain of the plane's latest tile, which is then no longer in progress; memory and
the core's storage are unchanged. That a preload from the central store uses its generator once for each of the 128 rows of the four arrays rests
on log 14. PEW (R82) on a plane that no queued work still uses: every pair of the plane, in all four arrays, takes the fused add or multiply with
its operand value, or with its row's; the other plane and everything outside the core's planes and arrays is unchanged. The place of the operand of
row r of array a, at use 4r + a of the generator, rests on logs 14 and 35, the use between tiles on log 91. -/
def Obligations.PlaneInstructions : Prop :=
  (∀ (s : State) (l p slot k f : Nat) (col : Bool) (c : Cmd), p < 2 → slot < 64 → k < 16 → f < 16 →
    let x := s.prog l
    (∀ src T, src < 3 → T < 256 → Issues s l c (wordOf 0x30 [(p, 55), (b2n col, 54), (src, 52), (slot, 46), (k, 42), (f, 38), (T, 30)]) →
      let addrs := if src = 2 then (x.ag k).take 128 else []
      (src = 2 → (x.ag k).sp = 2 ∧ (f ≤ 4 ∨ f = 8 ∨ f = 9)) →
      (∀ a ∈ addrs, 0 ≤ a ∧ a.toNat + (if f = 4 then 16 else 32 * eBytes f) ≤ (s.conf.job c.job).psize * 1048576) →
      let job : PreJob := ⟨p, x.issue + 1, col, src, slot, addrs, f, if 1 ≤ f ∧ f ≤ 4 then (BitVec.ofNat 8 T).toInt else 0, 0⟩
      let y := if src = 2 then x.useAg k 128 else x
      ∃ t, exec (.pld l) s = .next t ∧ t = { s with lcores := t.lcores, pcores := t.pcores } ∧
        (∀ i, t.pcore i = { s.pcore i with arrays := (t.pcore i).arrays }) ∧
        t.prog l = ({ y with issue := x.issue + 1, preloads := x.preloads ++ [job], preSet := x.preSet.set p (src != 0) } : LCore).advance.settleReplay) ∧
    (Issues s l c (wordOf 0x31 [(p, 55), (b2n col, 54), (slot, 46), (k, 42), (f, 38)]) →
      ∃ t d, exec (.pdr l) s = .next t ∧ t = { s with lcores := t.lcores, pcores := t.pcores } ∧
        (∀ i, t.pcore i = { s.pcore i with arrays := (t.pcore i).arrays }) ∧ (t.prog l).drains = x.drains ++ [d] ∧
        (d.plane, d.tile, d.need, d.ord, d.col, d.park, d.slot, d.next) = (p, x.tileIds.getD p 0, x.tileWaves.getD p 0, x.issue + 1, col, true, slot, 0) ∧
        (t.prog l).tileIds = x.tileIds.set p 0) ∧
    (∀ ng tid r amx sr, ng < 16 → tid < 2 ^ 16 → r < 32 →
      Issues s l c (wordOf 0x31 [(p, 55), (b2n col, 54), (1, 52), (slot, 46), (k, 42), (f, 38), (b2n sr, 37), (ng, 33), (b2n amx, 32), (tid, 16), (r, 5)]) →
      (x.ag k).sp = 2 → (f ≤ 1 ∨ f = 8 ∨ f = 9) →
      ∃ t d, exec (.pdr l) s = .next t ∧ t = { s with lcores := t.lcores, pcores := t.pcores } ∧
        (∀ i, t.pcore i = { s.pcore i with arrays := (t.pcore i).arrays }) ∧ (t.prog l).drains = x.drains ++ [d] ∧
        (d.plane, d.tile, d.need, d.ord, d.col, d.park, d.fmt, d.sr, d.ng, d.amx, d.tid) =
          (p, x.tileIds.getD p 0, x.tileWaves.getD p 0, x.issue + 1, col, false, f, sr, ng, amx, tid) ∧
        d.addrs = (x.ag k).take (if x.tileShapes.getD p 0 = 4 then 32 else 128) ∧
        d.index0 = (x.reg r).toNat % 2 ^ 40 ∧ d.rowLen = (x.reg r).toNat / 2 ^ 40 ∧ d.t = 0 ∧ (t.prog l).tileIds = x.tileIds.set p 0)) ∧
  (∀ (s : State) (l u p eop k : Nat) (c : Cmd), p < 2 → eop < 3 → k < 16 → s.CleanStorage → storageOf s.pcores l = some u → (s.pcore u).planes.wf = true →
    Issues s l c (wordOf 0x32 [(p, 55), (eop, 53), (k, 49)]) →
    let x := s.prog l
    let n := if eop = 2 then 4 else 128
    let addrs := (x.ag k).take 128
    (x.ag k).sp = 0 → (∀ a ∈ addrs, 0 ≤ a ∧ a.toNat + n ≤ Config.scratchBytes) →
    x.locked (pieceSpans 0 (addrs.flatMap (fun a => contiguous a n))) [] = false → x.drains = [] → x.preloads = [] → x.tileIds.getD p 0 = 0 →
    ∃ t, exec (.pew l) s = .next t ∧ t = { s with lcores := t.lcores, pcores := t.pcores } ∧
      (∀ i, t.pcore i = { s.pcore i with planes := (t.pcore i).planes, arrays := (t.pcore i).arrays }) ∧
      ∀ a r q, a < 4 → r < 32 → q < 32 →
        let operand : F32 := BitVec.ofNat 32 ((s.pcore u).scratch.le ((addrs.getD (4 * r + a) 0).toNat + (if eop = 2 then 0 else 4 * q)) 4)
        let old := (s.pcore u).planes.pair (cellAddr a p r q)
        (t.pcore u).planes.pair (cellAddr a p r q) = normalise (if eop = 0 then fusedAdd old operand else fusedMul old operand) ∧
        (t.pcore u).planes.pair (cellAddr a (1 - p) r q) = (s.pcore u).planes.pair (cellAddr a (1 - p) r q))

/-- VOP, VRED and VSF (Table 5.5) on operands inside the scratchpad: each element of the destination is the function of the source elements, rounded once by
the destination's format; a reduction goes to its register with the upper half cleared; the generators named advance one use, one that is named twice,
as source and destination too, one use in all (log 14). -/
def Obligations.VectorInstructions : Prop :=
  ∀ (s : State) (l u fn kd ka kb kc fd fs n : Nat) (c : Cmd), kd < 16 → ka < 16 → kb < 16 → kc < 16 → 1 ≤ n → n < 2 ^ 16 →
    (fd = 0 ∨ fd = 1 ∨ fd = 8) → (fs = 0 ∨ fs = 1 ∨ fs = 8) → s.CleanStorage → storageOf s.pcores l = some u →
    let x := s.prog l
    let ok (k f : Nat) : Prop := (x.ag k).sp = 0 ∧ 0 ≤ (x.ag k).addr ∧ (x.ag k).addr.toNat + n * eBytes f ≤ Config.scratchBytes
    let el (k i : Nat) : Machine.Num := (fmtOf fs).decode ((s.pcore u).scratch.le ((x.ag k).addr.toNat + eBytes fs * i) (eBytes fs))
    let span (k f : Nat) : List Span := pieceSpans 0 (vecPieces x k f n)
    let wrote (t : State) (v : Nat → Nat) : Prop := ∀ i, t.pcore i = if i = u then { s.pcore u with
      scratch := (s.pcore u).scratch.writeBytes (x.ag kd).addr.toNat ((List.range n).flatMap (fun j => leBytes (eBytes fd) (v j))) } else s.pcore i
    (fn < 11 → Issues s l c (wordOf 0x40 [(fn, 50), (kd, 46), (ka, 42), (kb, 38), (kc, 34), (fd, 30), (fs, 26), (1, 20), (n, 0)]) →
      let srcs := if fn = 6 ∨ fn = 7 ∨ fn = 8 then [ka] else if fn = 3 ∨ fn = 9 then [ka, kb, kc] else [ka, kb]
      ok kd fd → (∀ k ∈ srcs, ok k fs) → x.locked (srcs.flatMap (fun k => span k fs)) (span kd fd) = false →
      ∃ t, exec (.vop l) s = .next t ∧ t = { s with lcores := t.lcores, pcores := t.pcores, q := t.q } ∧ t.q.cmds = s.q.cmds ∧
        t.prog l = ((x.useEach (kd :: srcs)).advance).settleReplay ∧
        wrote t (fun j =>
          let a := el ka j
          let b := el kb j
          let d := el kc j
          (fmtOf fd).rne (([a.add b, a.sub b, a.mul b, (a.mul b).add d, val (max32 (rne32 a) (rne32 b)), val (min32 (rne32 a) (rne32 b)), a.abs, a.neg, a,
            if (Machine.Num.zero false).lt a then b else d, if b.lt a then .fin false 1 0 else .zero false] : List Machine.Num).getD fn .nan))) ∧
    (∀ d, d < 32 → fn < 4 → Issues s l c (wordOf 0x41 [(fn, 50), (d, 45), (ka, 41), (fs, 26), (1, 20), (n, 0)]) → ok ka fs → x.locked (span ka fs) [] = false →
      ∃ t, exec (.vred l) s = .next t ∧ t = { s with lcores := t.lcores, q := t.q } ∧ t.q.cmds = s.q.cmds ∧
        t.prog l = (((x.setReg d ((vred fn ((List.range n).map (fun j => rne32 (el ka j)))).setWidth 64)).useAg ka 1).advance).settleReplay) ∧
    (fn < 5 → Issues s l c (wordOf 0x42 [(fn, 50), (kd, 46), (ka, 42), (fd, 30), (fs, 26), (1, 20), (n, 0)]) → ok kd fd → ok ka fs →
      x.locked (span ka fs) (span kd fd) = false →
      ∃ t, exec (.vsf l) s = .next t ∧ t = { s with lcores := t.lcores, pcores := t.pcores, q := t.q } ∧ t.q.cmds = s.q.cmds ∧
        t.prog l = ((x.useEach [kd, ka]).advance).settleReplay ∧
        wrote t (fun j => (fmtOf fd).rne (val (vsf fn (rne32 (el ka j))))))

/-- SEND and RECV post a message and a receive of lines inside the scratchpad, at most 8 of each; MWAIT goes on where none with its tag is posted and waits
otherwise; and a message that may move (R121, R122) writes its lines at its receiver, taking both posts away. -/
def Obligations.MessagesMove : Prop :=
  ∀ (s : State) (l mode dest tag k n : Nat) (c : Cmd), dest < 64 → tag < 256 → k < 16 → 1 ≤ n → n ≤ 32 →
    let x := s.prog l
    let a := (x.ag k).addr
    (x.ag k).sp = 0 → 0 ≤ a → a.toNat + 128 * n ≤ Config.scratchBytes → dest ∈ jobCores s c →
    (mode < 3 → Issues s l c (wordOf 0x50 [(mode, 54), (dest, 48), (tag, 40), (k, 36), (n, 30)]) → x.run = .running → x.sends.length < 8 →
      exec (.send l) s = .next (s.thenNext l (fun y => { y.useAg k 1 with issue := x.issue + 1, sends := y.sends ++ [⟨x.issue + 1, mode, tag, n, a,
        if mode = 0 then [dest] else if mode = 1 then (jobCores s c).filter (fun d => d / 8 == l / 8 && d != l)
          else (jobCores s c).filter (fun d => d % 8 == l % 8)⟩] }))) ∧
    (Issues s l c (wordOf 0x51 [(dest, 48), (tag, 40), (k, 36), (n, 30)]) → x.run = .running → x.recvs.length < 8 →
      exec (.recv l) s = .next (s.thenNext l (fun y => { y.useAg k 1 with
        issue := x.issue + 1, recvs := y.recvs ++ [⟨x.issue + 1, dest, tag, n, a⟩] }))) ∧
    (Issues s l c (wordOf 0x52 [(tag, 40)]) →
      ((∀ m ∈ x.sends, m.tag ≠ tag) → (∀ m ∈ x.recvs, m.tag ≠ tag) → exec (.mwait l) s = .next (s.thenNext l (fun y => y))) ∧
      ((∃ m ∈ x.sends, m.tag = tag) → progReady s (64 + l) = false →
        ∃ t, exec (.mwait l) s = .next t ∧ (t.prog l).wait = 1 ∧ (t.prog l).regs = x.regs ∧ t = { s with lcores := t.lcores })) ∧
    (∀ (m : Msg) (rest : List Msg) (r : RecvPost) (u v : Nat), l < 64 → progCmd s l = some c → x.sends = m :: rest → m.dests = [dest] → s.CleanStorage →
      s.lcores.length = 128 → msgReady s l m = true → meetsRecv s l m dest = some r → r.lines = m.lines → storageOf s.pcores l = some u →
      storageOf s.pcores dest = some v → 0 ≤ m.addr → m.addr.toNat + 128 * m.lines ≤ Config.scratchBytes → 0 ≤ r.addr →
      r.addr.toNat + 128 * r.lines ≤ Config.scratchBytes → m.lines ≤ 32 →
      ∃ t, exec (.messageTransfer l 0) s = .next t ∧
        t = { s with lcores := t.lcores, pcores := t.pcores, cstore := t.cstore, mem := t.mem, free := t.free } ∧
        (x.logBytes + 8192 ≤ 65536 → (s.prog dest).logBytes + 8192 ≤ 65536 → t.mem = s.mem) ∧
        (∀ i, t.pcore i = if i = v then { s.pcore v with
          scratch := (s.pcore v).scratch.writeBytes r.addr.toNat ((s.pcore u).scratch.bytes m.addr.toNat (128 * m.lines)) } else s.pcore i) ∧
        (t.prog l).sends = rest.filter (fun e => e.ord != m.ord) ∧ (t.prog dest).recvs = (s.prog dest).recvs.filter (fun e => e.ord != r.ord))

/-- CLAIM (R130, R131): an index of a declared counter, the next or the one named, with its code: 0 claimed now, 2 claimed before, and beyond the
limit 1, or 0x10 for a named one, with the counter as it was. How the log store takes an entry is the model's choice (logs 32, 92). Barriers and
signals (R126, R127): BAR stands in its barrier; the barrier releases its participants once all of its scope stand in it with their writes done;
SIG adds to a flag of a core, which saturates, once the sender's writes are done; SWAIT goes on where its own flag has reached its value and waits
otherwise. How the log store takes an entry is the model's choice (logs 32, 92). -/
def Obligations.ClaimsBarriersAndSignals : Prop :=
  (∀ (s : State) (l k d a : Nat) (named : Bool) (c : Cmd) (z : WorkCtr), k < 16 → 0 < d → d < 32 → a < 32 → k < c.pf 3 48 5 → c.job < 8 → s.conf.jobs.length = 8 →
    (s.conf.job c.job).ctrs[k]? = some z → (s.prog l).run = .running → (s.prog l).regs.sregs.length = 32 →
    Issues s l c (wordOf 0x60 [(k, 52), (b2n named, 51), (d, 46), (a, 41)]) →
    let v := if named then ((s.prog l).reg a).toNat % 2 ^ 32 else z.value
    ∃ t, exec (.claim l) s = .next t ∧ LogsOnly s t l c ∧
      t = { s with lcores := t.lcores, conf := t.conf, cstore := t.cstore, mem := t.mem, free := t.free, flt := t.flt } ∧ (t.prog l).regs.pc = (s.prog l).advance.regs.pc ∧
      (z.limit ≤ v → (t.prog l).reg d = BitVec.ofNat 64 (v + (if named then 0x10 else 1) * 2 ^ 32) ∧ (t.conf.job c.job).ctrs[k]? = some z) ∧
      (v < z.limit → (t.prog l).reg d = BitVec.ofNat 64 (v + (if v ∈ z.bits then 2 else 0) * 2 ^ 32) ∧
        ∃ y, (t.conf.job c.job).ctrs[k]? = some y ∧ y.value = (if named then z.value else z.value + 1) ∧ y.limit = z.limit ∧ y.epoch = z.epoch ∧
          ∀ i, i ∈ y.bits ↔ i = v ∨ i ∈ z.bits)) ∧
  (∀ (s : State) (l : Nat) (c : Cmd),
    let x := s.prog l
    (∀ scope id, scope < 3 → id < 8 → Issues s l c (wordOf 0x70 [(scope, 54), (id, 51)]) → x.run = .running →
      ∃ t, exec (.bar l) s = .next t ∧ LogsOnly s t l c ∧
        t = { s with lcores := t.lcores, cstore := t.cstore, mem := t.mem, free := t.free, flt := t.flt } ∧
        t.prog l = ((({ x with barAt := some (scope, id), barPc := x.regs.pc } : LCore).record (logRoom s c) .bar).advance).settleReplay) ∧
    (∀ scope id, l < 64 → progCmd s l = some c → s.lcores.length = 128 → s.q.pend = [] → (∀ j, (s.conf.job j).debt = 0) →
      let ps := (jobCores s c).filter (fun d => scope == 0 || (scope == 1 && d / 8 == l / 8) || (scope == 2 && d % 8 == l % 8))
      (l ∈ ps → (∀ p ∈ ps, atBarrier s c p (scope, id) = true) → ∃ t, exec (.barrierRelease l scope id) s = .next t ∧ t.mem = s.mem ∧
        (∀ p ∈ ps, t.prog p = { s.prog p with barAt := none, barHeld := none }) ∧ (∀ p, p ∉ ps → t.prog p = s.prog p)) ∧
      ((∃ p ∈ ps, atBarrier s c p (scope, id) = false) → progCmd s (64 + l) = none → exec (.barrierRelease l scope id) s = .next s)) ∧
    (∀ d f n, d < 64 → f < 8 → 0 < n → n < 2 ^ 16 → Issues s l c (wordOf 0x71 [(d, 48), (f, 45), (n, 0)]) → x.run = .running → d ∈ jobCores s c →
      x.drains = [] → x.holds [0x11] = false → s.tender.writesOf c = [] → s.lcores.length = 128 → (s.prog d).regs.flags.length = 8 →
      ∃ t, exec (.sig l) s = .next t ∧ LogsOnly s t l c ∧
        t = { s with lcores := t.lcores, cstore := t.cstore, mem := t.mem, free := t.free, flt := t.flt } ∧ (t.prog l).regs.pc = x.advance.regs.pc ∧
        ((t.prog d).regs.flags.getD f 0).toNat = min (2 ^ 32 - 1) (((s.prog d).regs.flags.getD f 0).toNat + n) ∧
        (∀ g, g ≠ f → (t.prog d).regs.flags.getD g 0 = (s.prog d).regs.flags.getD g 0) ∧ ∀ p, p ≠ l → p ≠ d → t.prog p = s.prog p) ∧
    (∀ f n, f < 8 → n < 2 ^ 32 → Issues s l c (wordOf 0x72 [(f, 45), (1, 39), (n, 0)]) → x.run = .running →
      (n ≤ (x.regs.flags.getD f 0).toNat → ∃ t, exec (.swait l) s = .next t ∧ LogsOnly s t l c ∧
        t = { s with lcores := t.lcores, cstore := t.cstore, mem := t.mem, free := t.free, flt := t.flt } ∧
        t.prog l = ((x.record (logRoom s c) .swait).advance).settleReplay) ∧
      ((x.regs.flags.getD f 0).toNat < n → progReady s (64 + l) = false →
        ∃ t, exec (.swait l) s = .next t ∧ (t.prog l).wait = 2 ∧ (t.prog l).regs = x.regs ∧ t = { s with lcores := t.lcores })))

/-- MARK and its completion (R135-R137): a mark is issued where it would lose no plane and none is pending, with the registers as they stand behind
it; once the drains, writes and waves before it are done the record becomes the core's restart mark, and of the log what instructions behind it
have done stays; the record's 1 KiB in the job's partition is written, with bytes that are free, since no form is given (log 92). The chain handoff
between two programs (R107, R133): CHFREE takes the next free slot of the core's ring, CHPUT publishes the oldest slot taken, CHGET takes the next
published one, CHREL frees the oldest slot taken; with no slot CHFREE and CHGET wait. How the log store takes an entry is the model's choice (logs
32, 92). -/
def Obligations.MarksAndChainHandoff : Prop :=
  (∀ (s : State) (l : Nat) (c : Cmd),
    let x := s.prog l
    (Issues s l c (wordOf 0x73 []) → x.run = .running → x.losesPlane 0 = false → x.losesPlane 1 = false →
      (x.markPend = none → x.prevLog = [] → ∃ t m, exec (.mark l) s = .next t ∧ t = { s with lcores := t.lcores } ∧ (t.prog l).markPend = some m ∧
        m.regs = x.advance.regs ∧ m.ord = x.issue + 1 ∧ m.logLen = x.log.length ∧ m.taken = x.taken ∧ (t.prog l).regs = x.advance.regs ∧
        (t.prog l).log = x.log ∧ (t.prog l).stretch = 0 ∧ (t.prog l).markGap = max x.markGap x.stretch) ∧
      (x.markPend.isSome = true → progReady s (64 + l) = false → exec (.mark l) s = .next s)) ∧
    (∀ m, l < 64 → s.lcores.length = 128 → progCmd s l = some c → x.markPend = some m → markReady s l c m = true → s.CleanStorage →
      ∃ t, exec (.markComplete l) s = .next t ∧ t = { s with lcores := t.lcores, tender := t.tender, cstore := t.cstore, free := t.free } ∧
        t.cstore = s.cstore.scramble s.free 202 (partBase s c + x.markAt) 1024 ∧ (t.prog l).markPend = none ∧
        (t.prog l).mark.regs.pc = m.regs.pc ∧ (t.prog l).mark.regs.sregs = m.regs.sregs ∧ (t.prog l).mark.regs.ags = m.regs.ags ∧
        (t.prog l).mark.regs.lcs = m.regs.lcs ∧ (t.prog l).log = (x.log.drop m.logLen).filter (fun e => e.behind m.ord) ∧ (t.prog l).regs = x.regs ∧ ∀ p, p ≠ l → t.prog p = s.prog p)) ∧
  (∀ (s : State) (l d : Nat) (c e : Cmd), d < 32 → (s.prog l).run = .running → partner s c = some e → e.op = 0x58 → l ∈ s.rings.map (·.1) →
    let x := s.prog l
    let r := ringOf s l
    let still (t : State) : Prop := LogsOnly s t l c ∧
      t = { s with lcores := t.lcores, rings := t.rings, cstore := t.cstore, mem := t.mem, free := t.free, flt := t.flt } ∧ (t.prog l).regs.pc = x.advance.regs.pc ∧
      ∀ k, k ≠ l → ringOf t k = ringOf s k
    (Issues s l c (wordOf 0x80 [(d, 46)]) → c.chain = 1 →
      (∀ a rest, r.free = a :: rest → ∃ t, exec (.chfree l) s = .next t ∧ still t ∧ ringOf t l = { r with free := rest } ∧
        (t.prog l).taken = x.taken ++ [a] ∧ (0 < d → x.regs.sregs.length = 32 → (t.prog l).reg d = BitVec.ofNat 64 a)) ∧
      (r.free = [] → progReady s (64 + l) = false → ∃ t, exec (.chfree l) s = .next t ∧ (t.prog l).wait = 4 ∧ t = { s with lcores := t.lcores })) ∧
    (∀ a rest, Issues s l c (wordOf 0x81 []) → c.chain = 1 → x.taken = a :: rest →
      (∀ p ∈ x.pendWrites, spansMeet p.2 (2, (a : Int), (a : Int) + (slotBytes c : Nat)) = false) →
      ∃ t, exec (.chput l) s = .next t ∧ still t ∧ ringOf t l = { r with full := r.full ++ [a] } ∧ (t.prog l).taken = rest) ∧
    (Issues s l c (wordOf 0x82 [(d, 46)]) → c.chain = 2 →
      (∀ a rest, r.full = a :: rest → ∃ t, exec (.chget l) s = .next t ∧ still t ∧ ringOf t l = { r with full := rest } ∧
        (t.prog l).taken = x.taken ++ [a] ∧ (0 < d → x.regs.sregs.length = 32 → (t.prog l).reg d = BitVec.ofNat 64 a)) ∧
      (r.full = [] → (s.q.find c.qid).any (·.chainBad) = false → progReady s (64 + l) = false →
        ∃ t, exec (.chget l) s = .next t ∧ (t.prog l).wait = 5 ∧ t = { s with lcores := t.lcores })) ∧
    (∀ a rest, Issues s l c (wordOf 0x83 []) → c.chain = 2 → x.taken = a :: rest →
      (∀ p ∈ x.pendReads, spansMeet p.2 (2, (a : Int), (a : Int) + (slotBytes c : Nat)) = false) →
      ∃ t, exec (.chrel l) s = .next t ∧ still t ∧ ringOf t l = { r with free := r.free ++ [a] } ∧ (t.prog l).taken = rest))

/-- RUNP (R110-R114) outside a CHAIN starts a program on every core of its job: it stands at the entry address of its image, with rank, core count, logical
ID, argument offset and step in S1 to S5; the argument block lies in the partition at S4. -/
def Obligations.RunpStartsItsPrograms : Prop :=
  ∀ (s : State) (q : Nat) (c : Cmd), Starts s q 0x58 c → c.chain = 0 → s.CleanStorage → s.mem.wf = true → s.cstore.wf = true → s.lcores.length = 128 →
    (∀ p ∈ s.pcores, p.pmem.wf = true) →
    let n := c.pf 1 32 9
    let entry := c.pf 1 16 13
    let b := s.conf.job c.job
    c.pf 1 0 14 ≤ 8192 → n ≤ b.psize * 1048576 → b.psize ≤ 256 →
    ∃ t, exec (.runp q) s = .next t ∧ Waits t c ∧ t.mem = s.mem ∧
      ∀ k l, b.cores[k]? = some l →
        let x := t.prog l
        x.run = .running ∧ x.regs.pc = BitVec.ofNat 13 entry ∧ x.isOf c = true ∧
        x.reg 1 = BitVec.ofNat 64 k ∧ x.reg 2 = BitVec.ofNat 64 b.cores.length ∧ x.reg 3 = BitVec.ofNat 64 l ∧ x.reg 5 = BitVec.ofNat 64 c.step ∧
        (x.reg 4).toNat % 128 = 0 ∧
        t.cstore.bytes (partBase s c + (x.reg 4).toNat) n = dieBytes s.mem s.extent (c.pf 2 0 48) n ∧
        ((storageOf s.pcores l).isSome = true → entry < c.pf 1 0 14 → c.pf 0 0 48 + 8 * c.pf 1 0 14 ≤ s.extent →
          fetchWord t l = dieLe s.mem s.extent (c.pf 0 0 48 + 8 * entry) 8)

/-! ## Arrays -/

/-- SLICE_INJECT (R61, R77): in an open ramp the head of a feeder's queue enters the first link of its row and goes on along the row; a closed slot
of column feeder 0's start ramp passes without a slice and is counted, modulo 2^48 (log 19). Row feeders without ballast are stated here, no
others. CUBE_WAVE (R60, R26, R28): with a row slice and a column slice of one tile at its links, and no chunk to close, a cube applies one wave to
each of its 16 cells: the cell's pair takes the exact sum of the products of its lanes; every other cell, memory and the core's storage are
unchanged. Stated for the core's own program, for real slices and a wave that opens and closes no chunk. -/
def Obligations.ArraysInjectAndApply : Prop :=
  (∀ (s : State) (l u arr f : Nat) (A : ArrayState), l < 64 → arr < 4 → f < 8 → coreUp s l = true → storageOf s.pcores l = some u →
    (s.pcore u).arrays[arr]? = some A → zeroHead (fun n => s.prog (l + 64 * (n % 2))) A = none → (∀ B ∈ (s.pcore u).arrays, ∀ g, (B.feeder false g).backlog = [] ∧ (B.feeder true g).backlog = []) →
    (∀ x rest, A.rowF.length = 8 → A.rowF[f]? = some ⟨x :: rest, [], .opened⟩ → x.ballast = false → x.zero = false → A.rowL = List.replicate 64 [] → A.colL.length = 64 →
      (∀ e ∈ A.colL, nextFwd e = none) →
      ∃ t, exec (.sliceInject l arr false f) s = .next t ∧ t = { s with pcores := t.pcores } ∧
        (let B := (t.pcore u).arrays.getD arr ArrayState.reset
         B.rowF[f]? = some ⟨rest, [], .opened⟩ ∧ B.colL = A.colL ∧
         ∀ k, k < 64 → (B.rowL.getD k []).map (·.slice) = if k / 8 = f then [x] else []) ∧
        ∀ k, k ≠ arr → (t.pcore u).arrays[k]? = (s.pcore u).arrays[k]?) ∧
    (∀ n x rest, A.colF[0]? = some ⟨x :: rest, [], .start n⟩ → startOpen n = false → A.cnt.length = 8 →
      ∃ t, exec (.sliceInject l arr true 0) s = .next t ∧ t = { s with pcores := t.pcores } ∧
        (let B := (t.pcore u).arrays.getD arr ArrayState.reset
         B.colF[0]? = some ⟨x :: rest, [], if n + 1 < 48 then .start (n + 1) else .opened⟩ ∧ B.cnt.getD 5 0 = (A.cnt.getD 5 0 + 1) % 2 ^ 48 ∧
         B.rowL = A.rowL ∧ B.colL = A.colL))) ∧
  (∀ (s : State) (l u arr r q : Nat) (A : ArrayState) (x y : Slice), l < 64 → arr < 4 → r < 8 → q < 8 → coreUp s l = true → storageOf s.pcores l = some u →
    (s.pcore u).planes.wf = true → (s.pcore u).arrays[arr]? = some A → x.plane < 2 → x.tile % 2 = 0 →
    linkHead (A.rowL.getD (8 * r + q) []) (q == 7) = some x → linkHead (A.colL.getD (8 * r + q) []) (r == 7) = some y →
    x.ballast = false → y.ballast = false → rowsReady (s.prog l) A x r = true → x.kpos % x.chunkAt ≠ 0 → (x.kpos + 1) % x.chunkAt ≠ 0 →
    ∃ t, exec (.cubeWave l arr r q) s = .next t ∧ t = { s with pcores := t.pcores, free := s.free + 1 } ∧
      (∀ i, t.pcore i = { s.pcore i with planes := (t.pcore i).planes, arrays := (t.pcore i).arrays }) ∧
      (∀ i j, i < 4 → j < 4 →
        let a := cellAddr arr x.plane (4 * r + i) (4 * q + j)
        (t.pcore u).planes.pair a = waveUpdate ((s.pcore u).planes.pair a) (cellSum (x.lanes.getD i []) (y.lanes.getD j []))) ∧
      (∀ b, (∀ i j, i < 4 → j < 4 → b < cellAddr arr x.plane (4 * r + i) (4 * q + j) ∨ cellAddr arr x.plane (4 * r + i) (4 * q + j) + 8 ≤ b) →
        (t.pcore u).planes.read b = (s.pcore u).planes.read b))

/-- DRAIN_ROW and PRELOAD_ROW (R71, R72, R74): one row of a plane is drained and cleared in every array. A park keeps the normalised pairs of its rows and
its last row puts all of them into the accumulator-store slot; a drain writes each element of its rows, converted by step 3 of Table 2.4, into the
partition and nothing else. One row is preloaded, with (+0, +0), from an accumulator-store slot, or from elements in the partition (R33). The
order of the addresses, row r of array a at 4r + a, is log 35; what the log takes of the partition is log 92. -/
def Obligations.PlaneRowsMove : Prop :=
  ∀ (s : State) (l u : Nat) (c : Cmd), l < 64 → coreUp s l = true → storageOf s.pcores l = some u → s.CleanStorage → s.lcores.length = 128 →
    (s.pcore u).planes.wf = true → s.cstore.wf = true → progCmd s l = some c → progCmd s (64 + l) = none → (s.prog (64 + l)).drains = [] →
    let x := s.prog l
    let size := (s.conf.job c.job).psize * 1048576
    let cell (col : Bool) (n j : Nat) : Nat × Nat := if col then (j, n) else (n, j)
    let rowIs (t : State) (p n : Nat) (col : Bool) (v : Nat → Nat → Pair) : Prop :=
      (∀ a j, a < 4 → j < 32 → (t.pcore u).planes.pair (cellAddr a p (cell col n j).1 (cell col n j).2) = v a j) ∧
      (∀ a r j, a < 4 → r < 32 → j < 32 → (if col then j else r) ≠ n →
        (t.pcore u).planes.pair (cellAddr a p r j) = (s.pcore u).planes.pair (cellAddr a p r j)) ∧
      (∀ a r j, a < 4 → r < 32 → j < 32 → (t.pcore u).planes.pair (cellAddr a (1 - p) r j) = (s.pcore u).planes.pair (cellAddr a (1 - p) r j))
    (∀ d, nextDrain s l = some d → d.plane < 2 → d.next < 32 → (∀ e ∈ x.drains, e.ord = d.ord → e = d) →
      (d.park = true ∨ (d.eaddrs = [] ∧ d.shape < 4)) →
      (d.next = 31 → x.run = .running ∧ l ∈ (s.conf.job c.job).cores ∧ ∀ i ∈ progsOf s c, (s.prog i).tlds = []) →
      let old (a j : Nat) : Pair := normalise ((s.pcore u).planes.pair (cellAddr a d.plane (cell d.col d.next j).1 (cell d.col d.next j).2))
      let place (n : Nat) (e : Nat × Nat) : Nat := 8192 * e.1 + 256 * n + 8 * e.2
      let addr (a : Nat) : Int := d.addrs.getD (4 * d.next + a) 0
      let row : Nat := 32 * eBytes d.fmt
      let logEnd := partBase s c + x.logAt + x.logBytes
      ∃ t, exec (.drainRow l) s = .next t ∧ t.q = s.q ∧ rowIs t d.plane d.next d.col (fun _ _ => Pair.zero) ∧ (t.pcore u).scratch = (s.pcore u).scratch ∧
        (d.next < 31 → ((t.prog l).drains.find? (fun e => e.ord == d.ord)).map (·.next) = some (d.next + 1)) ∧
        (d.next = 31 → (t.prog l).drains.all (fun e => e.ord != d.ord) = true) ∧
        (d.park = false ∨ d.next < 31 ∨ x.logBytes + 16 ≤ 65536 → t.mem = s.mem) ∧
        (d.park = true → d.next < 31 → t.cstore = s.cstore ∧ (t.pcore u).acc = (s.pcore u).acc ∧
          ((t.prog l).drains.find? (fun e => e.ord == d.ord)).map (·.held) =
            some (d.held ++ (positions 4 32).map (fun e => (place d.next e, old e.1 e.2)))) ∧
        (d.park = true → d.next = 31 → d.slot < 64 → (s.pcore u).acc.wf = true →
          d.held.map (·.1) = (List.range 31).flatMap (fun n => (positions 4 32).map (place n)) →
          (∀ h ∈ d.held, (t.pcore u).acc.pair (32768 * d.slot + h.1) = h.2) ∧
          (∀ a j, a < 4 → j < 32 → (t.pcore u).acc.pair (32768 * d.slot + place 31 (a, j)) = old a j) ∧
          (∀ b, b < 32768 * d.slot ∨ 32768 * d.slot + 32768 ≤ b → (t.pcore u).acc.read b = (s.pcore u).acc.read b) ∧
          (∀ b, b < logEnd ∨ logEnd + 16 ≤ b → t.cstore.read b = s.cstore.read b)) ∧
        (d.park = false → (t.pcore u).acc = (s.pcore u).acc ∧
          (∀ b : Nat, (∀ a, a < 4 → (b : Int) < partBase s c + addr a ∨ (partBase s c + addr a : Int) + row ≤ b) → t.cstore.read b = s.cstore.read b) ∧
          (d.epi = 0 → d.sr = false → (∀ A ∈ (s.pcore u).arrays, A.chunks.getD d.plane [] = []) →
            (∀ a, a < 4 → 0 ≤ addr a ∧ (addr a).toNat + row ≤ size) → (∀ a b, a < b → b < 4 → addr a + row ≤ addr b ∨ addr b + row ≤ addr a) →
            ∀ a j, a < 4 → j < 32 → t.cstore.le (partBase s c + (addr a).toNat + eBytes d.fmt * j) (eBytes d.fmt) =
              convert d.fmt d.t none (old a j) % 2 ^ (8 * eBytes d.fmt)))) ∧
    (∀ d, x.preloads.find? (fun e => e.ready s l) = some d → d.plane < 2 → d.next < 32 → d.src < 3 → d.slot < 64 →
      let n := if d.fmt = 4 then 16 else 32 * eBytes d.fmt
      let from_ (a : Nat) : Int := d.addrs.getD (4 * d.next + a) 0
      (d.src = 2 → preloadFmt d.fmt = true ∧ ∀ a, a < 4 → 0 ≤ from_ a ∧ (from_ a).toNat + n ≤ size) →
      ∃ t, exec (.preloadRow l) s = .next t ∧ t.mem = s.mem ∧ t.q = s.q ∧ t.cstore = s.cstore ∧ (t.pcore u).acc = (s.pcore u).acc ∧
        rowIs t d.plane d.next d.col (fun a j =>
          let at_ := partBase s c + (from_ a).toNat
          if d.src = 0 then Pair.zero
          else if d.src = 1 then (s.pcore u).acc.pair (32768 * d.slot + 8192 * a + 256 * d.next + 8 * j)
          else if d.fmt = 9 then s.cstore.pair (at_ + 8 * j)
          else ⟨cvt32 (scaled d.fmt d.t 127 (packedElem (fmtWidth d.fmt) (s.cstore.bytes at_ n) j)), 0⟩) ∧
        (d.next = 31 → (t.prog l).preloads = x.preloads.filter (fun e => e.ord != d.ord)))

/-! ## Tender -/

/-- TENDER_BLOCK_ISSUE (R144, R146, R155-R157) sends the next read out, in the turn of its queue and in the order of the queue's transfers: of the
first block in a slot with reads left; of the stream's list, where the walk's entry has not been fetched; of an input of a standard command. At the
list's end entry the stream ends. Nothing but the Tender changes. That the reads of a standard command are the pieces of its inputs up to a 16 KiB
boundary is log 40. FABRIC_RESPONSE (R424, R425, R165, R166, R357): an accepted write is in memory; the data of a block's read are in its slot; a
translation fault takes a record, or waits for one while all 64 are taken; an uncorrectable read ends the command that it was made for; an answer
to no transfer changes nothing. A translation fault on a control access in flight enters or waits for a record with SKIND 6 and halts the access
(R143); OK leaves it to the row of the work that makes it, and where a standard command's data come in is the model's choice (logs 73, 40). While
the fabric is held no answer arrives (R389), and a control access at or beyond the extent is not made (R423). -/
def Obligations.TenderReadsAndAnswers : Prop :=
  (∀ (s : State) (q n : Nat) (c : Cmd), Fetches s q n c →
    let sends (x : Xfer) : Prop := ∃ t, exec (.tenderBlockIssue q n) s = .next t ∧ t = { s with tender := t.tender } ∧
      t.tender.xfers = s.tender.xfers ++ [{ x with id := s.tender.nextId, port := portOf s x.addr }]
    (∀ b, c.op = 0x58 → c.binds[n]? = some b →
      let o := streamOf s.tender c n b
      (∀ e off a len r, o.blocks.find? (fun z => !z.todo.isEmpty) = some e → e.todo = (off, a, len) :: r →
        sends (readXfer c.qid c.seq n 0 0 e.num 0 off a len)) ∧
      (o.ended = false → (∀ e ∈ o.blocks, e.todo = []) →
        (∀ bs, windowBytes s (o.listAt, o.listBuf) o.entry 32 = some bs → bf (ofLe bs) 48 4 = 2 →
          ∃ t, exec (.tenderBlockIssue q n) s = .next t ∧ t = { s with tender := t.tender } ∧ t.tender.xfers = s.tender.xfers ∧
            streamOf t.tender c n b = { o with ended := true }) ∧
        (windowBytes s (o.listAt, o.listBuf) o.entry 32 = none →
          sends (readXfer c.qid c.seq n 5 0 o.nextBlock o.entryIdx 0 o.entry (min (4096 - o.entry % 4096) (s.extent - o.entry)))))) ∧
    (∀ r, c.op ≠ 0x58 → n < 8 → c.reads[n]? = some r → c.stage = .admitted →
      let a := (c.roleSpan r).1.toNat
      sends (readXfer c.qid c.seq n 0 0 0 0 0 a (min (min (16384 - a % 16384) ((c.roleSpan r).2.toNat - a)) (s.extent - a))))) ∧
  (∀ (s : State) (id : Nat),
    (fabricUp s = false → ∀ a code, exec (.fabricResponse a code) s = .next s) ∧
    ((∀ y ∈ s.tender.xfers, y.id ≠ id) → ∀ code, exec (.fabricResponse (.transfer id) code) s = .next s) ∧
    (∀ x, fabricUp s = true → s.tender.xfers.find? (fun y => y.id == id) = some x →
      (x.write = true → (∀ i, (s.prog i).tlds = []) →
        ∃ t, exec (.fabricResponse (.transfer id) .ok) s = .next t ∧ t.mem = s.mem.dieStores s.extent [.bytes (x.addr + x.skip) x.data]) ∧
      (∀ o, x.write = false → x.drop = false → x.skind = 0 → x.stream ≠ 8 → s.tender.streams.find? (fun o => x.serves o) = some o →
        (∀ i, (s.prog i).tlds = []) → (∀ c, xferCmd s x = some c → c.stage = .started → ∃ i ∈ progsOf s c, (s.prog i).run ≠ .halted) →
        ∃ t p, exec (.fabricResponse (.transfer id) .ok) s = .next t ∧ t = { s with tender := t.tender, q := t.q } ∧
          t.q.cmds.map (fun d => { d with rd := 0 }) = s.q.cmds.map (fun d => { d with rd := 0 }) ∧
          t.tender.streams.find? (fun o => x.serves o) = some p ∧
          p.blocks = o.blocks.map (fun b => if b.num = x.block then
            { b with data := b.data.writeBytes x.off (((dieBytes s.mem s.extent x.addr x.len).drop x.skip).take x.want), got := b.got + x.len } else b)) ∧
      (x.drop = false → ∃ t k, exec (.fabricResponse (.transfer id) .xlate) s = .next t ∧ t = { s with tender := t.tender, q := t.q, irq := t.irq } ∧
        t.q.cmds = s.q.cmds ∧ t.tender.xfers = s.tender.xfers.filter (fun y => y.id != id) ∧
        (s.tender.waiting = [] → s.tender.recs.length < 64 → t.tender.recs = s.tender.recs ++ [⟨x, k, none⟩] ∧ t.tender.waiting = []) ∧
        (s.tender.recs.length = 64 → t.tender.recs = s.tender.recs ∧ t.tender.waiting = s.tender.waiting ++ [⟨x, k, none⟩])) ∧
      (∀ c, x.write = false → x.drop = false → xferCmd s x = some c → ∃ t, exec (.fabricResponse (.transfer id) .uncorr) s = .next t ∧
        (t.cmd c).map (·.stage) = some .ended ∧ (t.cmd c).map (fun d => d.conds.any (fun k => k.code == 0x60)) = some true)) ∧
    (∀ a sp, ctlSpan s a = some sp → s.extent ≤ sp.1 → ∀ code, exec (.fabricResponse (.control a) code) s = .next s) ∧
    (∀ a sp, fabricUp s = true → ctlSpan s a = some sp → sp.1 < s.extent → exec (.fabricResponse (.control a) .ok) s = .next s ∧
      ∃ t r, exec (.fabricResponse (.control a) .xlate) s = .next t ∧ t = { s with tender := t.tender, q := t.q, irq := t.irq, free := t.free } ∧
        t.q.cmds = s.q.cmds ∧ r ∈ t.tender.recs ++ t.tender.waiting ∧ r.ctl = some a ∧ r.xfer.skind = 6 ∧ r.xfer.addr = sp.1 ∧ t.tender.ctlHeld a = true))

/-- GX_PF_CTL and the watchdogs (R164, R167, R168, R293, R368): a resume frees the head record and sends its transfer out again first, as soon as its queue's
limit lets it; an abort frees it and ends its command with FAULT_PAGE; of a halted packet read, a resume lets the read go on, and an abort takes the
queue to DRAINING and to OFF, with the packet still in its ring (R143); with no record either is counted; a wait past its limit, or a transfer
without an answer for 1 ms (R424), is reported with the watchdog flag and goes on. -/
def Obligations.PageFaultsAndWatchdogs : Prop :=
  ∀ (s : State),
    (s.tender.recs = [] → ∀ i, i = .pfResume 1 ∨ i = .pfAbort 1 → ∃ t, exec i s = .next t ∧ { t with ill := s.ill, irq := s.irq } = s ∧
      t.ill.cnt = min (2 ^ 48 - 1) (s.ill.cnt + 1)) ∧
    (∀ r rest, s.tender.recs = r :: rest → r.ctl = none →
      (∃ t, exec (.pfResume 1) s = .next t ∧ t = { s with tender := t.tender, irq := t.irq } ∧
        t.tender.recs = rest ++ s.tender.waiting.take (64 - rest.length) ∧
        (s.tender.redo = [] → fabricUp s = true → hasOut s r.xfer.qid = true →
          ∃ more, t.tender.xfers = s.tender.xfers ++ { r.xfer with port := portOf s r.xfer.addr } :: more) ∧
        (hasOut s r.xfer.qid = false → t.tender.xfers = s.tender.xfers ∧ t.tender.redo = s.tender.redo ++ [r.xfer])) ∧
      (∀ c, xferCmd s r.xfer = some c → ∃ t, exec (.pfAbort 1) s = .next t ∧ (t.cmd c).map (·.stage) = some .ended ∧
        (t.cmd c).map (fun d => d.conds.any (fun k => k.code == 0x30)) = some true)) ∧
    (∀ r rest q, s.tender.recs = r :: rest → s.tender.waiting = [] →
      (r.ctl = some (.ring q) → exec (.pfResume 1) s = .next { s with tender := { s.tender with recs := rest } }) ∧
      (r.ctl = some (.ring q) → (s.q.find q).isSome = true → (∀ c ∈ s.q.cmds, c.qid = q → c.stage = .admitted) → ∃ t, exec (.pfAbort 1) s = .next t ∧
        t.tender.recs = rest ∧ t.q.cmds.length = s.q.cmds.length ∧
        ∀ x, s.q.find q = some x → (t.q.find q).map (·.ctx.state) =
          some (if s.q.cmds.any (fun c => c.qid == q) ∧ x.ctx.state ≠ .off then .draining else .off)) ∧
      (∀ c, r.ctl = some (.command q) → xferCmd s r.xfer = some c → ∃ t, exec (.pfAbort 1) s = .next t ∧ (t.cmd c).map (·.stage) = some .ended ∧
        (t.cmd c).map (fun d => d.conds.any (fun k => k.code == 0x30)) = some true)) ∧
    (∀ q n us, q < Config.queueCount → ∃ t, exec (.streamWatchdog q n us) s = .next t ∧
      t = { s with tender := { s.tender with waitRec := t.tender.waitRec }, irq := t.irq } ∧
      (∀ c x, s.q.cmds.find? (fun d => d.qid == q) = some c → s.q.find q = some x →
        ((streamWaits s c n).1 = true ∧ wdogLimit s c ≠ 0 ∧ wdogLimit s c < us) ∨ (1000 ≤ us ∧ ((streamKind n).2.1 = 6 ∨ ∃ y ∈ s.tender.xfers, y.isOf c = true ∧ y.ofStream n = true)) →
        t.tender.waitRec = [x.slot, (streamKind n).1, (streamKind n).2.1, (streamKind n).2.2, 13, (streamWaits s c n).2, us] ∧
        t.irq = s.irq.raise irqWdog)) ∧
    (∀ l us c, l < 64 → progCmd s l = some c → (s.prog l).run = .running → (s.prog l).waitKind ≠ 0 → s.lcores.length = 128 →
      (wdogLimit s c ≠ 0 → wdogLimit s c < us → ∃ t, exec (.waitWatchdog (.core l) us) s = .next t ∧
        t = { s with lcores := t.lcores, irq := s.irq.raise irqWdog } ∧ (t.prog l).waitUs = us ∧ (t.prog l).waitRec = (s.prog l).waitKind ∧
        (t.prog l).regs = (s.prog l).regs) ∧
      (wdogLimit s c = 0 ∨ us ≤ wdogLimit s c → progCmd s (64 + l) = none → exec (.waitWatchdog (.core l) us) s = .next s)) ∧
    (∀ q us c x, q < Config.queueCount → s.q.find q = some x →
      s.q.cmds.filter (fun d => d.qid == q && (d.stage == .admitted || d.stage == .started) && cmdWait s d != 0) = [c] →
      let limit := if cmdWait s c = 10 ∨ c.op ≠ 0x58 then x.ctx.wdog else c.pf 6 0 32
      limit ≠ 0 → limit < us → exec (.waitWatchdog (.queue q) us) s = .next { s with
        tender := { s.tender with waitRec := [x.slot, 0, 0, 0, cmdWait s c, 0, us] }, irq := s.irq.raise irqWdog, free := s.free + 1 })

/-! ## Check events, replay and check bits -/

/-- CHECK_EVENT and REPLAY_START (R342-R345, R138, R350): a transient event is recorded, stamped, and fences the programs on the core; a permanent one retires an
active core and gives its logical ID to the free spare with the lowest number; a replay resumes the fenced program at its last mark, with the log
behind it to consume and its flags as they are. -/
def Obligations.CheckEventsAndReplay : Prop :=
  ∀ (s : State) (p : Nat) (kind : CheckKind) (unit life : Nat) (loc : Word), p < 68 → s.pcores.length = 68 → s.lcores.length = 128 → s.fw.state = .run →
    canReport s p unit = true →
    let now := max life (s.pcore p).life % 2 ^ 48
    ((s.pcore p).permanent now = false → s.flt.recs.length < 64 →
      ∃ t r, exec (.checkEvent p kind unit loc life true) s = .next t ∧ t.mem = s.mem ∧ t.flt.recs = s.flt.recs ++ [r] ∧
        (r.kind, r.inj, r.action, r.pcore, r.unit, r.loc, r.stamp) = (checkCode kind, false, 1, p, unit, loc, now) ∧
        (t.pcore p).stamp0 = (s.pcore p).stamp1 ∧ (t.pcore p).stamp1 = some now ∧ (t.pcore p).life = now ∧ (t.pcore p).scratch = (s.pcore p).scratch ∧
        (∀ l, l < 64 → (s.pcore p).lidA = some l → (progCmd s l).isSome = true → (s.prog l).run ≠ .idle → (t.prog l).run = .fenced ∧ l ∈ t.flt.replays.map (·.1)) ∧
        (∀ j, (∀ l ∈ idsOf s p, j ≠ l ∧ j ≠ 64 + l) → t.prog j = s.prog j)) ∧
    (∀ l k, (s.pcore p).permanent now = true → (s.pcore p).pstate = .active → (s.pcore p).lidA = some l → freeSpare s = some k →
      ∃ t, exec (.checkEvent p kind unit loc life true) s = .next t ∧ t.mem = s.mem ∧ (t.pcore p).pstate = .retired ∧ (t.pcore p).lidA = none ∧
        (t.pcore k).pstate = .active ∧ (t.pcore k).lidA = some l ∧ ∀ j, j ≠ p → j ≠ k → (t.pcore j).pstate = (s.pcore j).pstate) ∧
    (∀ l c, l < 64 → s.flt.replays = [(l, 68)] → (s.prog l).run = .fenced → progCmd s l = some c → progCmd s (64 + l) = none → (s.prog l).overflowed = false →
      coreUp s l = true → domHeld s 68 = false → s.CleanStorage →
      ∃ t, exec (.replayStart l) s = .next t ∧ t = { s with lcores := t.lcores, pcores := t.pcores, flt := { s.flt with replays := [] } } ∧
        (t.prog l).prevLog = (s.prog l).log.filter (fun e => e.behind (s.prog l).mark.ord) ∧ (t.prog l).issue = (s.prog l).mark.ord ∧
        (t.prog l).run = (if (t.prog l).prevLog = [] then .running else .replaying) ∧
        (t.prog l).regs = { (s.prog l).mark.regs with flags := (s.prog l).regs.flags } ∧ (∀ j, j ≠ l → t.prog j = s.prog j) ∧
        ∀ i, t.pcore i = { s.pcore i with arrays := (t.pcore i).arrays })

/-- ECC_WRITEBACK and SCRUB (R338, R339): a corrected word that waits is written back and is whole again; a scrub counts and corrects every correctable word
of its storage array that is powered; no data changes. -/
def Obligations.CheckBitsAreRestored : Prop :=
  ∀ (s : State) (st : Storage) (a : Nat), 
    (match st with
      | .scratch p => p < 68 ∧ a < Config.scratchBytes
      | .acc p => p < 68 ∧ a < Config.accBytes
      | .central => a < Config.centralBytes) →
    ((st, a) ∈ s.flt.wback → ∃ t, exec (.eccWriteback st a) s = .next t ∧
      t = { s with flt := { s.flt with single := t.flt.single, wback := t.flt.wback } } ∧ (st, a) ∉ t.flt.single ∧ (st, a) ∉ t.flt.wback ∧
      ∀ e, (e.1 ≠ st ∨ e.2 + 8 ≤ a ∨ a + 8 ≤ e.2) → (e ∈ t.flt.single ↔ e ∈ s.flt.single)) ∧
    (s.flt.double = [] → s.pcores.length = 68 →
      let ones := s.flt.single.filter (fun e => e.1 == st && domOn s (wordDomain e.1 e.2))
      ∃ t, exec (.scrub st) s = .next t ∧ t.mem = s.mem ∧ t.cstore = s.cstore ∧ t.flt.recs = s.flt.recs ∧
        t.flt.single = s.flt.single.filter (fun e => !(e.1 == st && domOn s (wordDomain e.1 e.2))) ∧
        (match st with
          | .scratch p => (t.pcore p).ceScratch = ((s.pcore p).ceScratch + ones.length) % 2 ^ 48
          | .acc p => (t.pcore p).ceAcc = ((s.pcore p).ceAcc + ones.length) % 2 ^ 48
          | .central => t.flt.ceCentral = (s.flt.ceCentral + ones.length) % 2 ^ 48) ∧
        ∀ i, (t.pcore i).scratch = (s.pcore i).scratch ∧ (t.pcore i).acc = (s.pcore i).acc)
end

