-- ==== Sys2Proof/Laws/Memory.lean ====
section
/-!
SUPPORT. The laws of memories: a read after a write gives the byte written and a write leaves every other byte alone, every operation keeps
the canonical form, and a store cut to the die's memory reaches no byte at or beyond the extent (R14, R423).
-/
namespace Sys2Proof.Machine

/-! ## Cell lists -/

/-- A canonical list stays canonical under a weaker lower bound. -/
theorem cellsWf_none {lo : Option Nat} {l : List Host.Cell} (h : cellsWf lo l = true) : cellsWf none l = true := by
  cases l with
  | nil => rfl
  | cons x r => obtain ⟨k, b⟩ := x; simp only [cellsWf, Bool.and_eq_true] at h ⊢; exact ⟨⟨trivial, h.1.2⟩, h.2⟩

/-- What the canonical form says of a list that starts with a cell. -/
theorem cellsWf_cons (lo : Option Nat) (k : Nat) (b : Byte) (r : List Host.Cell) :
    cellsWf lo ((k, b) :: r) = true ↔ (∀ l, lo = some l → l < k) ∧ b ≠ 0#8 ∧ cellsWf (some k) r = true := by
  cases lo <;> simp [cellsWf, and_assoc]

/-- A canonical list above `k` reads 0 up to `k`. -/
theorem cellsRead_below {k : Nat} {l : List Host.Cell} (h : cellsWf (some k) l = true) {a : Nat} (ha : a ≤ k) : cellsRead l a = 0#8 := by
  induction l generalizing k with
  | nil => rfl
  | cons x r ih =>
    obtain ⟨i, b⟩ := x
    rw [cellsWf_cons] at h
    have hi := h.1 k rfl
    rw [cellsRead, if_neg (by omega)]
    exact ih h.2.2 (by omega)

/-- A write keeps the canonical form. -/
theorem cellsWrite_wf {lo : Option Nat} {l : List Host.Cell} {a : Nat} (v : Byte) (h : cellsWf lo l = true) (ha : ∀ k, lo = some k → k < a) :
    cellsWf lo (cellsWrite l a v) = true := by
  induction l generalizing lo with
  | nil =>
    rw [cellsWrite]; split
    · rfl
    · rename_i hv; rw [cellsWf_cons]; exact ⟨ha, hv, rfl⟩
  | cons x r ih =>
    obtain ⟨k, b⟩ := x
    have h' := (cellsWf_cons _ _ _ _).mp h
    rw [cellsWrite]
    split
    · rename_i hk
      split
      · exact h
      · rename_i hv
        rw [cellsWf_cons, cellsWf_cons]
        exact ⟨ha, hv, fun l hl => by cases hl; exact hk, h'.2⟩
    · split
      · rename_i hk; subst hk
        split
        · cases r with
          | nil => rfl
          | cons y r =>
            obtain ⟨j, c⟩ := y
            have hr := (cellsWf_cons _ _ _ _).mp h'.2.2
            rw [cellsWf_cons]
            exact ⟨fun l hl => Nat.lt_trans (ha l hl) (hr.1 _ rfl), hr.2⟩
        · rename_i hv; rw [cellsWf_cons]; exact ⟨h'.1, hv, h'.2.2⟩
      · rw [cellsWf_cons]
        exact ⟨h'.1, h'.2.1, ih h'.2.2 (fun l hl => by cases hl; omega)⟩

/-- A read after a write. -/
theorem cellsRead_write {lo : Option Nat} {l : List Host.Cell} (h : cellsWf lo l = true) (a b : Nat) (v : Byte) :
    cellsRead (cellsWrite l a v) b = if b = a then v else cellsRead l b := by
  induction l generalizing lo with
  | nil =>
    rw [cellsWrite]
    split
    · rename_i hv; subst hv; simp [cellsRead]
    · by_cases hb : b = a
      · subst hb; simp [cellsRead]
      · simp [cellsRead, hb, Ne.symm hb]
  | cons x r ih =>
    obtain ⟨k, c⟩ := x
    have h' := (cellsWf_cons _ _ _ _).mp h
    rw [cellsWrite]
    split
    · rename_i hk
      split
      · rename_i hv; subst hv
        split
        · rename_i hb; subst hb
          rw [cellsRead, if_neg (by omega)]
          exact cellsRead_below h'.2.2 (by omega)
        · rfl
      · by_cases hb : b = a
        · subst hb; simp [cellsRead]
        · simp [cellsRead, hb, Ne.symm hb]
    · split
      · rename_i hk; subst hk
        split
        · rename_i hv; subst hv
          by_cases hb : b = a
          · subst hb; rw [if_pos rfl]; exact cellsRead_below h'.2.2 (Nat.le_refl _)
          · simp [cellsRead, hb, Ne.symm hb]
        · by_cases hb : b = a
          · subst hb; simp [cellsRead]
          · simp [cellsRead, hb, Ne.symm hb]
      · simp only [cellsRead]
        split
        · rename_i hk; subst hk; rw [if_neg (by omega)]
        · exact ih h'.2.2

/-! ## Reads and writes of a memory -/

/-- The empty memory is canonical. -/
@[simp] theorem Memory.empty_wf : Memory.empty.wf = true := rfl

/-- The empty memory reads 0. -/
@[simp] theorem Memory.empty_read (a : Nat) : Memory.empty.read a = 0#8 := rfl

/-- A write keeps the canonical form. -/
theorem Memory.write_wf {m : Memory} (h : m.wf = true) (a : Nat) (v : Byte) : (m.write a v).wf = true :=
  cellsWrite_wf v h (fun _ hk => nomatch hk)

/-- A read after a write. -/
theorem Memory.read_write {m : Memory} (h : m.wf = true) (a b : Nat) (v : Byte) : (m.write a v).read b = if b = a then v else m.read b :=
  cellsRead_write h a b v

/-- Writing bytes keeps the canonical form. -/
theorem Memory.writeBytes_wf (bs : List Byte) {m : Memory} (h : m.wf = true) (a : Nat) : (m.writeBytes a bs).wf = true := by
  induction bs generalizing m a with
  | nil => exact h
  | cons b r ih => exact ih (Memory.write_wf h a b) (a + 1)

/-- A byte outside the written ones reads as before. -/
theorem Memory.read_writeBytes_outside (bs : List Byte) {m : Memory} (h : m.wf = true) {a b : Nat} (hb : b < a ∨ a + bs.length ≤ b) :
    (m.writeBytes a bs).read b = m.read b := by
  induction bs generalizing m a with
  | nil => rfl
  | cons x r ih =>
    simp only [List.length_cons] at hb
    rw [Memory.writeBytes, ih (Memory.write_wf h a x) (by omega), Memory.read_write h, if_neg (by omega)]

/-- A written byte reads as written. -/
theorem Memory.read_writeBytes_inside (bs : List Byte) {m : Memory} (h : m.wf = true) (a k : Nat) (hk : k < bs.length) :
    (m.writeBytes a bs).read (a + k) = bs[k] := by
  induction bs generalizing m a k with
  | nil => simp at hk
  | cons x r ih =>
    rw [Memory.writeBytes]
    cases k with
    | zero =>
      rw [Memory.read_writeBytes_outside r (Memory.write_wf h a x) (by omega), Memory.read_write h]; simp
    | succ k =>
      have := ih (m := m.write a x) (Memory.write_wf h a x) (a + 1) k (by simpa using hk)
      simpa [Nat.add_assoc, Nat.add_comm 1 k] using this

/-- One store keeps the canonical form. -/
theorem Memory.store_wf {m : Memory} (h : m.wf = true) (w : Store) : (m.store w).wf = true := by
  cases w with
  | bytes a bs => exact Memory.writeBytes_wf bs h a
  | nibble a hi v => exact Memory.write_wf h a _

/-- Stores keep the canonical form. -/
theorem Memory.stores_wf (ws : List Store) {m : Memory} (h : m.wf = true) : (m.stores ws).wf = true := by
  induction ws generalizing m with
  | nil => exact h
  | cons w r ih => exact ih (Memory.store_wf h w)

/-- A byte that a store does not cover reads as before. -/
theorem Memory.read_store {m : Memory} (h : m.wf = true) (w : Store) {b : Nat} (hb : ¬ w.covers b) : (m.store w).read b = m.read b := by
  cases w with
  | bytes a bs =>
    simp only [Store.covers] at hb
    exact Memory.read_writeBytes_outside bs h (by omega)
  | nibble a hi v =>
    simp only [Store.covers] at hb
    rw [Memory.store, Memory.read_write h, if_neg hb]

/-- A byte that no store covers reads as before. -/
theorem Memory.read_stores (ws : List Store) {m : Memory} (h : m.wf = true) {b : Nat} (hb : ∀ w ∈ ws, ¬ w.covers b) :
    (m.stores ws).read b = m.read b := by
  induction ws generalizing m with
  | nil => rfl
  | cons w r ih =>
    rw [Memory.stores, ih (Memory.store_wf h w) (fun x hx => hb x (List.mem_cons_of_mem _ hx)), Memory.read_store h w (hb w (List.mem_cons_self ..))]

/-- Stores in two parts. -/
theorem Memory.stores_append (ws vs : List Store) (m : Memory) : m.stores (ws ++ vs) = (m.stores ws).stores vs := by
  induction ws generalizing m with
  | nil => rfl
  | cons w r ih => exact ih (m.store w)

/-- Writing a pair keeps the canonical form. -/
theorem Memory.writePair_wf {m : Memory} (h : m.wf = true) (a : Nat) (p : Pair) : (m.writePair a p).wf = true := Memory.writeBytes_wf _ h a

/-- Writing a number keeps the canonical form. -/
theorem Memory.writeLe_wf {m : Memory} (h : m.wf = true) (a n v : Nat) : (m.writeLe a n v).wf = true := Memory.writeBytes_wf _ h a

/-- Free values over a region keep the canonical form. -/
theorem Memory.havoc_wf (n : Nat) {m : Memory} (h : m.wf = true) (ctr a : Nat) : (m.havoc ctr a n).wf = true := by
  induction n generalizing m a with
  | zero => exact h
  | succ n ih => exact ih (Memory.write_wf h a _) (a + 1)

/-- Free values over a region leave every byte outside it alone. -/
theorem Memory.read_havoc (n : Nat) {m : Memory} (h : m.wf = true) {ctr a b : Nat} (hb : b < a ∨ a + n ≤ b) : (m.havoc ctr a n).read b = m.read b := by
  induction n generalizing m a with
  | zero => rfl
  | succ n ih => rw [Memory.havoc, ih (Memory.write_wf h a _) (by omega), Memory.read_write h, if_neg (by omega)]

/-! ## Clearing and copying -/

/-- `Memory.scramble` keeps the canonical form, whatever values the bytes take (log 76). -/
theorem Memory.scramble_wf (n : Nat) {m : Memory} (h : m.wf = true) (ctr tag a : Nat) : (m.scramble ctr tag a n).wf = true := by
  induction n generalizing m a with
  | zero => exact h
  | succ n ih => exact ih (Memory.write_wf h _ _) _

/-- Outside its range `Memory.scramble` changes nothing. -/
theorem Memory.read_scramble (n : Nat) {m : Memory} (h : m.wf = true) {ctr tag a b : Nat} (hb : b < a ∨ a + n ≤ b) :
    (m.scramble ctr tag a n).read b = m.read b := by
  induction n generalizing m a with
  | zero => rfl
  | succ n ih =>
    rw [Memory.scramble, ih (Memory.write_wf h _ _) (by omega), Memory.read_write h, if_neg (by omega)]

/-- A sublist chosen by a predicate stays canonical. -/
theorem cellsWf_filter (p : Host.Cell → Bool) {lo : Option Nat} {l : List Host.Cell} (h : cellsWf lo l = true) : cellsWf lo (l.filter p) = true := by
  induction l generalizing lo with
  | nil => rfl
  | cons x r ih =>
    obtain ⟨k, b⟩ := x
    have h' := (cellsWf_cons _ _ _ _).mp h
    rw [List.filter_cons]
    split
    · rw [cellsWf_cons]; exact ⟨h'.1, h'.2.1, ih h'.2.2⟩
    · cases lo with
      | none => exact cellsWf_none (ih h'.2.2)
      | some l =>
        have hr := ih h'.2.2
        revert hr
        cases r.filter p with
        | nil => intro _; rfl
        | cons y r =>
          obtain ⟨j, c⟩ := y
          intro hr
          rw [cellsWf_cons] at hr ⊢
          exact ⟨fun m hm => by cases hm; exact Nat.lt_trans (h'.1 _ rfl) (hr.1 _ rfl), hr.2⟩

/-- Clearing a region keeps the canonical form. -/
theorem Memory.clear_wf {m : Memory} (h : m.wf = true) (a n : Nat) : (m.clear a n).wf = true := cellsWf_filter _ h

/-- A filtered cell list reads as before where the cell is kept, and 0 elsewhere. -/
theorem cellsRead_filter (p : Nat → Bool) (l : List Host.Cell) (a : Nat) :
    cellsRead (l.filter (fun c => p c.1)) a = if p a then cellsRead l a else 0#8 := by
  induction l with
  | nil => simp [cellsRead]
  | cons x r ih =>
    obtain ⟨k, b⟩ := x
    rw [List.filter_cons]
    by_cases hk : k = a
    · subst hk
      by_cases hp : p k = true
      · simp [cellsRead, hp]
      · simp [hp] at ih ⊢; exact ih
    · by_cases hp : p k = true
      · simp only [hp, if_true, cellsRead, if_neg hk]; exact ih
      · simp only [hp, cellsRead, if_neg hk]; exact ih

/-- A cleared region reads 0 and every other byte reads as before. -/
theorem Memory.read_clear (m : Memory) (a n b : Nat) : (m.clear a n).read b = if a ≤ b ∧ b < a + n then 0#8 else m.read b := by
  have h := cellsRead_filter (fun k => !(decide (a ≤ k) && decide (k < a + n))) m.cells b
  rw [Memory.read, Memory.clear, h]
  by_cases hb : a ≤ b ∧ b < a + n <;> simp [hb, Memory.read]

/-- Every cell of a canonical list lies above its bound and lists no zero. -/
theorem cellsWf_mem {lo : Option Nat} {l : List Host.Cell} (h : cellsWf lo l = true) : ∀ c ∈ l, (∀ k, lo = some k → k < c.1) ∧ c.2 ≠ 0#8 := by
  induction l generalizing lo with
  | nil => intro c hc; cases hc
  | cons x r ih =>
    obtain ⟨k, b⟩ := x
    have h' := (cellsWf_cons _ _ _ _).mp h
    intro c hc
    rcases List.mem_cons.mp hc with rfl | hc
    · exact ⟨h'.1, h'.2.1⟩
    · exact ⟨fun j hj => Nat.lt_trans (h'.1 j hj) ((ih h'.2.2 c hc).1 k rfl), (ih h'.2.2 c hc).2⟩

/-- Two canonical lists, the first below `mid` and the second from `mid` up, join into one. -/
theorem cellsWf_append {lo : Option Nat} {l r : List Host.Cell} (mid : Nat) (hl : cellsWf lo l = true) (hr : cellsWf lo r = true)
    (hlm : ∀ c ∈ l, c.1 < mid) (hrm : ∀ c ∈ r, mid ≤ c.1) : cellsWf lo (l ++ r) = true := by
  induction l generalizing lo with
  | nil => exact hr
  | cons x l ih =>
    obtain ⟨k, b⟩ := x
    have h' := (cellsWf_cons _ _ _ _).mp hl
    rw [List.cons_append, cellsWf_cons]
    refine ⟨h'.1, h'.2.1, ih h'.2.2 ?_ (fun c hc => hlm c (List.mem_cons_of_mem _ hc))⟩
    have hk : k < mid := hlm (k, b) (List.mem_cons_self ..)
    cases r with
    | nil => rfl
    | cons y r =>
      obtain ⟨j, c⟩ := y
      have hr' := (cellsWf_cons _ _ _ _).mp hr
      rw [cellsWf_cons]
      exact ⟨fun m hm => by cases hm; exact Nat.lt_of_lt_of_le hk (hrm (j, c) (List.mem_cons_self ..)), hr'.2⟩

/-- Where the cells of a window lie. -/
theorem cellsWindow_mem (a n dst : Nat) (l : List Host.Cell) : ∀ c ∈ cellsWindow a n dst l, dst ≤ c.1 ∧ c.1 < dst + n := by
  induction l with
  | nil => intro c hc; cases hc
  | cons x r ih =>
    obtain ⟨k, b⟩ := x
    intro c hc
    rw [cellsWindow] at hc
    split at hc
    · rcases List.mem_cons.mp hc with rfl | hc
      · exact ⟨by simp, by simp only; omega⟩
      · exact ih c hc
    · exact ih c hc

/-- A window of a canonical list is canonical. -/
theorem cellsWindow_wf (a n dst : Nat) {lo : Option Nat} {l : List Host.Cell} (h : cellsWf lo l = true) :
    cellsWf (lo.bind (fun k => if a ≤ k then some (k - a + dst) else none)) (cellsWindow a n dst l) = true := by
  induction l generalizing lo with
  | nil => rfl
  | cons x r ih =>
    obtain ⟨k, b⟩ := x
    have h' := (cellsWf_cons _ _ _ _).mp h
    have hr := ih h'.2.2
    rw [cellsWindow]
    split
    · rename_i hk
      rw [cellsWf_cons]
      simp only [Option.bind_some, if_pos hk.1] at hr
      refine ⟨?_, h'.2.1, hr⟩
      intro m hm
      cases lo with
      | none => cases hm
      | some l =>
        have := h'.1 l rfl
        simp only [Option.bind_some] at hm
        split at hm
        · cases hm; omega
        · cases hm
    · simp only [Option.bind_some] at hr
      split at hr
      · rename_i hnot hak
        -- the cell lies behind the window, and so does the rest
        have hempty : cellsWindow a n dst r = [] := by
          have hall : ∀ c ∈ r, a + n ≤ c.1 := fun c hc => by
            have := (cellsWf_mem h'.2.2 c hc).1 k rfl
            omega
          clear hr ih h h'
          induction r with
          | nil => rfl
          | cons y r ih =>
            obtain ⟨j, c⟩ := y
            have hj := hall (j, c) (List.mem_cons_self ..)
            rw [cellsWindow, if_neg (by simp only at hj; omega)]
            exact ih (fun c hc => hall c (List.mem_cons_of_mem _ hc))
        rw [hempty]; rfl
      · rename_i hnot hak
        cases lo with
        | none => exact hr
        | some l =>
          have := h'.1 l rfl
          simp only [Option.bind_some]
          rw [if_neg (by omega)]
          exact hr

/-- A copy between memories keeps the canonical form. -/
theorem Memory.copyFrom_wf {m src : Memory} (h : m.wf = true) (hs : src.wf = true) (a dst n : Nat) : (m.copyFrom src a dst n).wf = true := by
  have hw : cellsWf none (cellsWindow a n dst src.cells) = true := cellsWindow_wf a n dst hs
  refine cellsWf_append (dst + n) (cellsWf_append dst (cellsWf_filter _ h) hw ?_ ?_) (cellsWf_filter _ h) ?_ ?_
  · intro c hc; simpa using (List.mem_filter.mp hc).2
  · exact fun c hc => (cellsWindow_mem a n dst src.cells c hc).1
  · intro c hc
    rcases List.mem_append.mp hc with hc | hc
    · have : c.1 < dst := by simpa using (List.mem_filter.mp hc).2
      omega
    · exact (cellsWindow_mem a n dst src.cells c hc).2
  · intro c hc; simpa using (List.mem_filter.mp hc).2

/-! ## The die's memory -/

/-- Stores on the die's memory keep the canonical form. -/
theorem Memory.dieStores_wf {m : Memory} (h : m.wf = true) (ext : Nat) (ws : List Store) : (m.dieStores ext ws).wf = true :=
  Memory.stores_wf _ h

/-- A store that is cut to the die's memory covers only bytes that the store covers, and none at or beyond the extent. -/
theorem Store.covers_clip {ext b : Nat} {w : Store} (h : (w.clip ext).covers b) : w.covers b ∧ b < ext := by
  cases w with
  | bytes a bs =>
    simp only [Store.clip, Store.covers, List.length_take] at h ⊢
    omega
  | nibble a hi v =>
    simp only [Store.clip] at h
    split at h
    · simp only [Store.covers] at h ⊢; omega
    · simp only [Store.covers, List.length_nil] at h; omega

/-- Stores on the die's memory leave every byte alone that none of them covers, and every byte at or beyond the extent (R14, R423). -/
theorem Memory.read_dieStores {m : Memory} (h : m.wf = true) {ext b : Nat} {ws : List Store} (hb : ext ≤ b ∨ ∀ w ∈ ws, ¬ w.covers b) :
    (m.dieStores ext ws).read b = m.read b := by
  refine Memory.read_stores _ h (fun w hw hc => ?_)
  obtain ⟨v, hv, rfl⟩ := List.mem_map.mp hw
  have := Store.covers_clip hc
  rcases hb with hb | hb
  · omega
  · exact hb v hv this.1

/-- No stores leave the memory. -/
@[simp] theorem Memory.dieStores_nil (m : Memory) (ext : Nat) : m.dieStores ext [] = m := rfl

/-- Free values on the die's memory keep the canonical form. -/
theorem Memory.dieHavoc_wf {m : Memory} (h : m.wf = true) (ext ctr a n : Nat) : (m.dieHavoc ext ctr a n).wf = true := Memory.havoc_wf _ h _ _

/-- Free values on the die's memory reach no byte outside their region or at or beyond the extent. -/
theorem Memory.read_dieHavoc {m : Memory} (h : m.wf = true) {ext ctr a n b : Nat} (hb : ext ≤ b ∨ b < a ∨ a + n ≤ b) :
    (m.dieHavoc ext ctr a n).read b = m.read b := by
  refine Memory.read_havoc _ h ?_
  split <;> omega

/-- A copy into the die's memory keeps the canonical form. -/
theorem Memory.dieCopyFrom_wf {m src : Memory} (h : m.wf = true) (hs : src.wf = true) (ext a dst n : Nat) :
    (m.dieCopyFrom ext src a dst n).wf = true := Memory.copyFrom_wf h hs _ _ _

end Sys2Proof.Machine
end

