-- ==== Sys2Proof/Laws/State.lean ====
section
/-!
SUPPORT. The laws of the named updates of a state: for each, one lemma per field, by definition. With them no later proof unfolds a record
update. What an update leaves in a field it changes is said where it is one expression.
-/
namespace Sys2Proof.Machine

variable (s : State)

/-! ## `State.updProg`: a program changed -/

@[simp] theorem State.updProg_pending (i : Nat) (f : LCore → LCore) : (s.updProg i f).pending = s.pending := rfl
@[simp] theorem State.updProg_mem (i : Nat) (f : LCore → LCore) : (s.updProg i f).mem = s.mem := rfl
@[simp] theorem State.updProg_extent (i : Nat) (f : LCore → LCore) : (s.updProg i f).extent = s.extent := rfl
@[simp] theorem State.updProg_q (i : Nat) (f : LCore → LCore) : (s.updProg i f).q = s.q := rfl
@[simp] theorem State.updProg_conf (i : Nat) (f : LCore → LCore) : (s.updProg i f).conf = s.conf := rfl
@[simp] theorem State.updProg_lcores (i : Nat) (f : LCore → LCore) : (s.updProg i f).lcores = s.lcores.modify i f := rfl
@[simp] theorem State.updProg_pcores (i : Nat) (f : LCore → LCore) : (s.updProg i f).pcores = s.pcores := rfl
@[simp] theorem State.updProg_rings (i : Nat) (f : LCore → LCore) : (s.updProg i f).rings = s.rings := rfl
@[simp] theorem State.updProg_cstore (i : Nat) (f : LCore → LCore) : (s.updProg i f).cstore = s.cstore := rfl
@[simp] theorem State.updProg_tender (i : Nat) (f : LCore → LCore) : (s.updProg i f).tender = s.tender := rfl
@[simp] theorem State.updProg_turn (i : Nat) (f : LCore → LCore) : (s.updProg i f).turn = s.turn := rfl
@[simp] theorem State.updProg_hash (i : Nat) (f : LCore → LCore) : (s.updProg i f).hash = s.hash := rfl
@[simp] theorem State.updProg_red (i : Nat) (f : LCore → LCore) : (s.updProg i f).red = s.red := rfl
@[simp] theorem State.updProg_amax (i : Nat) (f : LCore → LCore) : (s.updProg i f).amax = s.amax := rfl
@[simp] theorem State.updProg_accts (i : Nat) (f : LCore → LCore) : (s.updProg i f).accts = s.accts := rfl
@[simp] theorem State.updProg_irq (i : Nat) (f : LCore → LCore) : (s.updProg i f).irq = s.irq := rfl
@[simp] theorem State.updProg_ill (i : Nat) (f : LCore → LCore) : (s.updProg i f).ill = s.ill := rfl
@[simp] theorem State.updProg_fw (i : Nat) (f : LCore → LCore) : (s.updProg i f).fw = s.fw := rfl
@[simp] theorem State.updProg_mail (i : Nat) (f : LCore → LCore) : (s.updProg i f).mail = s.mail := rfl
@[simp] theorem State.updProg_flt (i : Nat) (f : LCore → LCore) : (s.updProg i f).flt = s.flt := rfl
@[simp] theorem State.updProg_rb (i : Nat) (f : LCore → LCore) : (s.updProg i f).rb = s.rb := rfl
@[simp] theorem State.updProg_power (i : Nat) (f : LCore → LCore) : (s.updProg i f).power = s.power := rfl
@[simp] theorem State.updProg_boot (i : Nat) (f : LCore → LCore) : (s.updProg i f).boot = s.boot := rfl
@[simp] theorem State.updProg_tap (i : Nat) (f : LCore → LCore) : (s.updProg i f).tap = s.tap := rfl
@[simp] theorem State.updProg_fuses (i : Nat) (f : LCore → LCore) : (s.updProg i f).fuses = s.fuses := rfl
@[simp] theorem State.updProg_free (i : Nat) (f : LCore → LCore) : (s.updProg i f).free = s.free := rfl

/-! ## `State.updCore`: a physical core changed -/

@[simp] theorem State.updCore_pending (p : Nat) (f : PCore → PCore) : (s.updCore p f).pending = s.pending := rfl
@[simp] theorem State.updCore_mem (p : Nat) (f : PCore → PCore) : (s.updCore p f).mem = s.mem := rfl
@[simp] theorem State.updCore_extent (p : Nat) (f : PCore → PCore) : (s.updCore p f).extent = s.extent := rfl
@[simp] theorem State.updCore_q (p : Nat) (f : PCore → PCore) : (s.updCore p f).q = s.q := rfl
@[simp] theorem State.updCore_conf (p : Nat) (f : PCore → PCore) : (s.updCore p f).conf = s.conf := rfl
@[simp] theorem State.updCore_lcores (p : Nat) (f : PCore → PCore) : (s.updCore p f).lcores = s.lcores := rfl
@[simp] theorem State.updCore_pcores (p : Nat) (f : PCore → PCore) : (s.updCore p f).pcores = s.pcores.modify p f := rfl
@[simp] theorem State.updCore_rings (p : Nat) (f : PCore → PCore) : (s.updCore p f).rings = s.rings := rfl
@[simp] theorem State.updCore_cstore (p : Nat) (f : PCore → PCore) : (s.updCore p f).cstore = s.cstore := rfl
@[simp] theorem State.updCore_tender (p : Nat) (f : PCore → PCore) : (s.updCore p f).tender = s.tender := rfl
@[simp] theorem State.updCore_turn (p : Nat) (f : PCore → PCore) : (s.updCore p f).turn = s.turn := rfl
@[simp] theorem State.updCore_hash (p : Nat) (f : PCore → PCore) : (s.updCore p f).hash = s.hash := rfl
@[simp] theorem State.updCore_red (p : Nat) (f : PCore → PCore) : (s.updCore p f).red = s.red := rfl
@[simp] theorem State.updCore_amax (p : Nat) (f : PCore → PCore) : (s.updCore p f).amax = s.amax := rfl
@[simp] theorem State.updCore_accts (p : Nat) (f : PCore → PCore) : (s.updCore p f).accts = s.accts := rfl
@[simp] theorem State.updCore_irq (p : Nat) (f : PCore → PCore) : (s.updCore p f).irq = s.irq := rfl
@[simp] theorem State.updCore_ill (p : Nat) (f : PCore → PCore) : (s.updCore p f).ill = s.ill := rfl
@[simp] theorem State.updCore_fw (p : Nat) (f : PCore → PCore) : (s.updCore p f).fw = s.fw := rfl
@[simp] theorem State.updCore_mail (p : Nat) (f : PCore → PCore) : (s.updCore p f).mail = s.mail := rfl
@[simp] theorem State.updCore_flt (p : Nat) (f : PCore → PCore) : (s.updCore p f).flt = s.flt := rfl
@[simp] theorem State.updCore_rb (p : Nat) (f : PCore → PCore) : (s.updCore p f).rb = s.rb := rfl
@[simp] theorem State.updCore_power (p : Nat) (f : PCore → PCore) : (s.updCore p f).power = s.power := rfl
@[simp] theorem State.updCore_boot (p : Nat) (f : PCore → PCore) : (s.updCore p f).boot = s.boot := rfl
@[simp] theorem State.updCore_tap (p : Nat) (f : PCore → PCore) : (s.updCore p f).tap = s.tap := rfl
@[simp] theorem State.updCore_fuses (p : Nat) (f : PCore → PCore) : (s.updCore p f).fuses = s.fuses := rfl
@[simp] theorem State.updCore_free (p : Nat) (f : PCore → PCore) : (s.updCore p f).free = s.free := rfl

/-! ## `State.updDom`: a switched domain changed -/

@[simp] theorem State.updDom_pending (d : Nat) (f : PwrDom → PwrDom) : (s.updDom d f).pending = s.pending := rfl
@[simp] theorem State.updDom_mem (d : Nat) (f : PwrDom → PwrDom) : (s.updDom d f).mem = s.mem := rfl
@[simp] theorem State.updDom_extent (d : Nat) (f : PwrDom → PwrDom) : (s.updDom d f).extent = s.extent := rfl
@[simp] theorem State.updDom_q (d : Nat) (f : PwrDom → PwrDom) : (s.updDom d f).q = s.q := rfl
@[simp] theorem State.updDom_conf (d : Nat) (f : PwrDom → PwrDom) : (s.updDom d f).conf = s.conf := rfl
@[simp] theorem State.updDom_lcores (d : Nat) (f : PwrDom → PwrDom) : (s.updDom d f).lcores = s.lcores := rfl
@[simp] theorem State.updDom_pcores (d : Nat) (f : PwrDom → PwrDom) : (s.updDom d f).pcores = s.pcores := rfl
@[simp] theorem State.updDom_rings (d : Nat) (f : PwrDom → PwrDom) : (s.updDom d f).rings = s.rings := rfl
@[simp] theorem State.updDom_cstore (d : Nat) (f : PwrDom → PwrDom) : (s.updDom d f).cstore = s.cstore := rfl
@[simp] theorem State.updDom_tender (d : Nat) (f : PwrDom → PwrDom) : (s.updDom d f).tender = s.tender := rfl
@[simp] theorem State.updDom_turn (d : Nat) (f : PwrDom → PwrDom) : (s.updDom d f).turn = s.turn := rfl
@[simp] theorem State.updDom_hash (d : Nat) (f : PwrDom → PwrDom) : (s.updDom d f).hash = s.hash := rfl
@[simp] theorem State.updDom_red (d : Nat) (f : PwrDom → PwrDom) : (s.updDom d f).red = s.red := rfl
@[simp] theorem State.updDom_amax (d : Nat) (f : PwrDom → PwrDom) : (s.updDom d f).amax = s.amax := rfl
@[simp] theorem State.updDom_accts (d : Nat) (f : PwrDom → PwrDom) : (s.updDom d f).accts = s.accts := rfl
@[simp] theorem State.updDom_irq (d : Nat) (f : PwrDom → PwrDom) : (s.updDom d f).irq = s.irq := rfl
@[simp] theorem State.updDom_ill (d : Nat) (f : PwrDom → PwrDom) : (s.updDom d f).ill = s.ill := rfl
@[simp] theorem State.updDom_fw (d : Nat) (f : PwrDom → PwrDom) : (s.updDom d f).fw = s.fw := rfl
@[simp] theorem State.updDom_mail (d : Nat) (f : PwrDom → PwrDom) : (s.updDom d f).mail = s.mail := rfl
@[simp] theorem State.updDom_flt (d : Nat) (f : PwrDom → PwrDom) : (s.updDom d f).flt = s.flt := rfl
@[simp] theorem State.updDom_rb (d : Nat) (f : PwrDom → PwrDom) : (s.updDom d f).rb = s.rb := rfl
@[simp] theorem State.updDom_power (d : Nat) (f : PwrDom → PwrDom) : (s.updDom d f).power = { s.power with doms := s.power.doms.modify d f } := rfl
@[simp] theorem State.updDom_boot (d : Nat) (f : PwrDom → PwrDom) : (s.updDom d f).boot = s.boot := rfl
@[simp] theorem State.updDom_tap (d : Nat) (f : PwrDom → PwrDom) : (s.updDom d f).tap = s.tap := rfl
@[simp] theorem State.updDom_fuses (d : Nat) (f : PwrDom → PwrDom) : (s.updDom d f).fuses = s.fuses := rfl
@[simp] theorem State.updDom_free (d : Nat) (f : PwrDom → PwrDom) : (s.updDom d f).free = s.free := rfl

/-! ## `State.updCmd`: a command changed -/

@[simp] theorem State.updCmd_pending (c : Cmd) (f : Cmd → Cmd) : (s.updCmd c f).pending = s.pending := rfl
@[simp] theorem State.updCmd_mem (c : Cmd) (f : Cmd → Cmd) : (s.updCmd c f).mem = s.mem := rfl
@[simp] theorem State.updCmd_extent (c : Cmd) (f : Cmd → Cmd) : (s.updCmd c f).extent = s.extent := rfl
@[simp] theorem State.updCmd_q (c : Cmd) (f : Cmd → Cmd) : (s.updCmd c f).q = s.q.updCmd (fun d => d.same c) f := rfl
@[simp] theorem State.updCmd_conf (c : Cmd) (f : Cmd → Cmd) : (s.updCmd c f).conf = s.conf := rfl
@[simp] theorem State.updCmd_lcores (c : Cmd) (f : Cmd → Cmd) : (s.updCmd c f).lcores = s.lcores := rfl
@[simp] theorem State.updCmd_pcores (c : Cmd) (f : Cmd → Cmd) : (s.updCmd c f).pcores = s.pcores := rfl
@[simp] theorem State.updCmd_rings (c : Cmd) (f : Cmd → Cmd) : (s.updCmd c f).rings = s.rings := rfl
@[simp] theorem State.updCmd_cstore (c : Cmd) (f : Cmd → Cmd) : (s.updCmd c f).cstore = s.cstore := rfl
@[simp] theorem State.updCmd_tender (c : Cmd) (f : Cmd → Cmd) : (s.updCmd c f).tender = s.tender := rfl
@[simp] theorem State.updCmd_turn (c : Cmd) (f : Cmd → Cmd) : (s.updCmd c f).turn = s.turn := rfl
@[simp] theorem State.updCmd_hash (c : Cmd) (f : Cmd → Cmd) : (s.updCmd c f).hash = s.hash := rfl
@[simp] theorem State.updCmd_red (c : Cmd) (f : Cmd → Cmd) : (s.updCmd c f).red = s.red := rfl
@[simp] theorem State.updCmd_amax (c : Cmd) (f : Cmd → Cmd) : (s.updCmd c f).amax = s.amax := rfl
@[simp] theorem State.updCmd_accts (c : Cmd) (f : Cmd → Cmd) : (s.updCmd c f).accts = s.accts := rfl
@[simp] theorem State.updCmd_irq (c : Cmd) (f : Cmd → Cmd) : (s.updCmd c f).irq = s.irq := rfl
@[simp] theorem State.updCmd_ill (c : Cmd) (f : Cmd → Cmd) : (s.updCmd c f).ill = s.ill := rfl
@[simp] theorem State.updCmd_fw (c : Cmd) (f : Cmd → Cmd) : (s.updCmd c f).fw = s.fw := rfl
@[simp] theorem State.updCmd_mail (c : Cmd) (f : Cmd → Cmd) : (s.updCmd c f).mail = s.mail := rfl
@[simp] theorem State.updCmd_flt (c : Cmd) (f : Cmd → Cmd) : (s.updCmd c f).flt = s.flt := rfl
@[simp] theorem State.updCmd_rb (c : Cmd) (f : Cmd → Cmd) : (s.updCmd c f).rb = s.rb := rfl
@[simp] theorem State.updCmd_power (c : Cmd) (f : Cmd → Cmd) : (s.updCmd c f).power = s.power := rfl
@[simp] theorem State.updCmd_boot (c : Cmd) (f : Cmd → Cmd) : (s.updCmd c f).boot = s.boot := rfl
@[simp] theorem State.updCmd_tap (c : Cmd) (f : Cmd → Cmd) : (s.updCmd c f).tap = s.tap := rfl
@[simp] theorem State.updCmd_fuses (c : Cmd) (f : Cmd → Cmd) : (s.updCmd c f).fuses = s.fuses := rfl
@[simp] theorem State.updCmd_free (c : Cmd) (f : Cmd → Cmd) : (s.updCmd c f).free = s.free := rfl

/-! ## `updChan`: a mailbox channel changed -/

@[simp] theorem updChan_pending (ch : Nat) (f : Chan → Chan) : (updChan s ch f).pending = s.pending := rfl
@[simp] theorem updChan_mem (ch : Nat) (f : Chan → Chan) : (updChan s ch f).mem = s.mem := rfl
@[simp] theorem updChan_extent (ch : Nat) (f : Chan → Chan) : (updChan s ch f).extent = s.extent := rfl
@[simp] theorem updChan_q (ch : Nat) (f : Chan → Chan) : (updChan s ch f).q = s.q := rfl
@[simp] theorem updChan_conf (ch : Nat) (f : Chan → Chan) : (updChan s ch f).conf = s.conf := rfl
@[simp] theorem updChan_lcores (ch : Nat) (f : Chan → Chan) : (updChan s ch f).lcores = s.lcores := rfl
@[simp] theorem updChan_pcores (ch : Nat) (f : Chan → Chan) : (updChan s ch f).pcores = s.pcores := rfl
@[simp] theorem updChan_rings (ch : Nat) (f : Chan → Chan) : (updChan s ch f).rings = s.rings := rfl
@[simp] theorem updChan_cstore (ch : Nat) (f : Chan → Chan) : (updChan s ch f).cstore = s.cstore := rfl
@[simp] theorem updChan_tender (ch : Nat) (f : Chan → Chan) : (updChan s ch f).tender = s.tender := rfl
@[simp] theorem updChan_turn (ch : Nat) (f : Chan → Chan) : (updChan s ch f).turn = s.turn := rfl
@[simp] theorem updChan_hash (ch : Nat) (f : Chan → Chan) : (updChan s ch f).hash = s.hash := rfl
@[simp] theorem updChan_red (ch : Nat) (f : Chan → Chan) : (updChan s ch f).red = s.red := rfl
@[simp] theorem updChan_amax (ch : Nat) (f : Chan → Chan) : (updChan s ch f).amax = s.amax := rfl
@[simp] theorem updChan_accts (ch : Nat) (f : Chan → Chan) : (updChan s ch f).accts = s.accts := rfl
@[simp] theorem updChan_irq (ch : Nat) (f : Chan → Chan) : (updChan s ch f).irq = s.irq := rfl
@[simp] theorem updChan_ill (ch : Nat) (f : Chan → Chan) : (updChan s ch f).ill = s.ill := rfl
@[simp] theorem updChan_fw (ch : Nat) (f : Chan → Chan) : (updChan s ch f).fw = s.fw := rfl
@[simp] theorem updChan_mail (ch : Nat) (f : Chan → Chan) : (updChan s ch f).mail = { s.mail with chans := s.mail.chans.modify ch f } := rfl
@[simp] theorem updChan_flt (ch : Nat) (f : Chan → Chan) : (updChan s ch f).flt = s.flt := rfl
@[simp] theorem updChan_rb (ch : Nat) (f : Chan → Chan) : (updChan s ch f).rb = s.rb := rfl
@[simp] theorem updChan_power (ch : Nat) (f : Chan → Chan) : (updChan s ch f).power = s.power := rfl
@[simp] theorem updChan_boot (ch : Nat) (f : Chan → Chan) : (updChan s ch f).boot = s.boot := rfl
@[simp] theorem updChan_tap (ch : Nat) (f : Chan → Chan) : (updChan s ch f).tap = s.tap := rfl
@[simp] theorem updChan_fuses (ch : Nat) (f : Chan → Chan) : (updChan s ch f).fuses = s.fuses := rfl
@[simp] theorem updChan_free (ch : Nat) (f : Chan → Chan) : (updChan s ch f).free = s.free := rfl

/-! ## `updRing`: a CHAIN ring changed -/

@[simp] theorem updRing_pending (l : Nat) (f : ChainRing → ChainRing) : (updRing s l f).pending = s.pending := rfl
@[simp] theorem updRing_mem (l : Nat) (f : ChainRing → ChainRing) : (updRing s l f).mem = s.mem := rfl
@[simp] theorem updRing_extent (l : Nat) (f : ChainRing → ChainRing) : (updRing s l f).extent = s.extent := rfl
@[simp] theorem updRing_q (l : Nat) (f : ChainRing → ChainRing) : (updRing s l f).q = s.q := rfl
@[simp] theorem updRing_conf (l : Nat) (f : ChainRing → ChainRing) : (updRing s l f).conf = s.conf := rfl
@[simp] theorem updRing_lcores (l : Nat) (f : ChainRing → ChainRing) : (updRing s l f).lcores = s.lcores := rfl
@[simp] theorem updRing_pcores (l : Nat) (f : ChainRing → ChainRing) : (updRing s l f).pcores = s.pcores := rfl
@[simp] theorem updRing_rings (l : Nat) (f : ChainRing → ChainRing) : (updRing s l f).rings = s.rings.map (fun r => if r.1 = l then (l, f r.2) else r) := rfl
@[simp] theorem updRing_cstore (l : Nat) (f : ChainRing → ChainRing) : (updRing s l f).cstore = s.cstore := rfl
@[simp] theorem updRing_tender (l : Nat) (f : ChainRing → ChainRing) : (updRing s l f).tender = s.tender := rfl
@[simp] theorem updRing_turn (l : Nat) (f : ChainRing → ChainRing) : (updRing s l f).turn = s.turn := rfl
@[simp] theorem updRing_hash (l : Nat) (f : ChainRing → ChainRing) : (updRing s l f).hash = s.hash := rfl
@[simp] theorem updRing_red (l : Nat) (f : ChainRing → ChainRing) : (updRing s l f).red = s.red := rfl
@[simp] theorem updRing_amax (l : Nat) (f : ChainRing → ChainRing) : (updRing s l f).amax = s.amax := rfl
@[simp] theorem updRing_accts (l : Nat) (f : ChainRing → ChainRing) : (updRing s l f).accts = s.accts := rfl
@[simp] theorem updRing_irq (l : Nat) (f : ChainRing → ChainRing) : (updRing s l f).irq = s.irq := rfl
@[simp] theorem updRing_ill (l : Nat) (f : ChainRing → ChainRing) : (updRing s l f).ill = s.ill := rfl
@[simp] theorem updRing_fw (l : Nat) (f : ChainRing → ChainRing) : (updRing s l f).fw = s.fw := rfl
@[simp] theorem updRing_mail (l : Nat) (f : ChainRing → ChainRing) : (updRing s l f).mail = s.mail := rfl
@[simp] theorem updRing_flt (l : Nat) (f : ChainRing → ChainRing) : (updRing s l f).flt = s.flt := rfl
@[simp] theorem updRing_rb (l : Nat) (f : ChainRing → ChainRing) : (updRing s l f).rb = s.rb := rfl
@[simp] theorem updRing_power (l : Nat) (f : ChainRing → ChainRing) : (updRing s l f).power = s.power := rfl
@[simp] theorem updRing_boot (l : Nat) (f : ChainRing → ChainRing) : (updRing s l f).boot = s.boot := rfl
@[simp] theorem updRing_tap (l : Nat) (f : ChainRing → ChainRing) : (updRing s l f).tap = s.tap := rfl
@[simp] theorem updRing_fuses (l : Nat) (f : ChainRing → ChainRing) : (updRing s l f).fuses = s.fuses := rfl
@[simp] theorem updRing_free (l : Nat) (f : ChainRing → ChainRing) : (updRing s l f).free = s.free := rfl

/-! ## `setLink`: a link changed -/

@[simp] theorem setLink_pending (x : LinkSt) : (setLink s x).pending = s.pending := rfl
@[simp] theorem setLink_mem (x : LinkSt) : (setLink s x).mem = s.mem := rfl
@[simp] theorem setLink_extent (x : LinkSt) : (setLink s x).extent = s.extent := rfl
@[simp] theorem setLink_q (x : LinkSt) : (setLink s x).q = s.q := rfl
@[simp] theorem setLink_conf (x : LinkSt) : (setLink s x).conf = s.conf := rfl
@[simp] theorem setLink_lcores (x : LinkSt) : (setLink s x).lcores = s.lcores := rfl
@[simp] theorem setLink_pcores (x : LinkSt) : (setLink s x).pcores = s.pcores := rfl
@[simp] theorem setLink_rings (x : LinkSt) : (setLink s x).rings = s.rings := rfl
@[simp] theorem setLink_cstore (x : LinkSt) : (setLink s x).cstore = s.cstore := rfl
@[simp] theorem setLink_tender (x : LinkSt) : (setLink s x).tender = s.tender := rfl
@[simp] theorem setLink_turn (x : LinkSt) : (setLink s x).turn = s.turn := rfl
@[simp] theorem setLink_hash (x : LinkSt) : (setLink s x).hash = s.hash := rfl
@[simp] theorem setLink_red (x : LinkSt) : (setLink s x).red = s.red := rfl
@[simp] theorem setLink_amax (x : LinkSt) : (setLink s x).amax = s.amax := rfl
@[simp] theorem setLink_accts (x : LinkSt) : (setLink s x).accts = s.accts := rfl
@[simp] theorem setLink_irq (x : LinkSt) : (setLink s x).irq = s.irq := rfl
@[simp] theorem setLink_ill (x : LinkSt) : (setLink s x).ill = s.ill := rfl
@[simp] theorem setLink_fw (x : LinkSt) : (setLink s x).fw = s.fw := rfl
@[simp] theorem setLink_mail (x : LinkSt) : (setLink s x).mail = s.mail := rfl
@[simp] theorem setLink_flt (x : LinkSt) : (setLink s x).flt = { s.flt with links := s.flt.links.filter (fun y => y.id != x.id) ++ [x] } := rfl
@[simp] theorem setLink_rb (x : LinkSt) : (setLink s x).rb = s.rb := rfl
@[simp] theorem setLink_power (x : LinkSt) : (setLink s x).power = s.power := rfl
@[simp] theorem setLink_boot (x : LinkSt) : (setLink s x).boot = s.boot := rfl
@[simp] theorem setLink_tap (x : LinkSt) : (setLink s x).tap = s.tap := rfl
@[simp] theorem setLink_fuses (x : LinkSt) : (setLink s x).fuses = s.fuses := rfl
@[simp] theorem setLink_free (x : LinkSt) : (setLink s x).free = s.free := rfl

/-! ## `setTender`: a new Tender -/

@[simp] theorem setTender_pending (t : Tender) : (setTender s t).pending = s.pending := rfl
@[simp] theorem setTender_mem (t : Tender) : (setTender s t).mem = s.mem := rfl
@[simp] theorem setTender_extent (t : Tender) : (setTender s t).extent = s.extent := rfl
@[simp] theorem setTender_q (t : Tender) : (setTender s t).q = s.q := rfl
@[simp] theorem setTender_conf (t : Tender) : (setTender s t).conf = s.conf := rfl
@[simp] theorem setTender_lcores (t : Tender) : (setTender s t).lcores = s.lcores := rfl
@[simp] theorem setTender_pcores (t : Tender) : (setTender s t).pcores = s.pcores := rfl
@[simp] theorem setTender_rings (t : Tender) : (setTender s t).rings = s.rings := rfl
@[simp] theorem setTender_cstore (t : Tender) : (setTender s t).cstore = s.cstore := rfl
@[simp] theorem setTender_tender (t : Tender) : (setTender s t).tender = t := rfl
@[simp] theorem setTender_turn (t : Tender) : (setTender s t).turn = s.turn := rfl
@[simp] theorem setTender_hash (t : Tender) : (setTender s t).hash = s.hash := rfl
@[simp] theorem setTender_red (t : Tender) : (setTender s t).red = s.red := rfl
@[simp] theorem setTender_amax (t : Tender) : (setTender s t).amax = s.amax := rfl
@[simp] theorem setTender_accts (t : Tender) : (setTender s t).accts = s.accts := rfl
@[simp] theorem setTender_ill (t : Tender) : (setTender s t).ill = s.ill := rfl
@[simp] theorem setTender_fw (t : Tender) : (setTender s t).fw = s.fw := rfl
@[simp] theorem setTender_mail (t : Tender) : (setTender s t).mail = s.mail := rfl
@[simp] theorem setTender_flt (t : Tender) : (setTender s t).flt = s.flt := rfl
@[simp] theorem setTender_rb (t : Tender) : (setTender s t).rb = s.rb := rfl
@[simp] theorem setTender_power (t : Tender) : (setTender s t).power = s.power := rfl
@[simp] theorem setTender_boot (t : Tender) : (setTender s t).boot = s.boot := rfl
@[simp] theorem setTender_tap (t : Tender) : (setTender s t).tap = s.tap := rfl
@[simp] theorem setTender_fuses (t : Tender) : (setTender s t).fuses = s.fuses := rfl
@[simp] theorem setTender_free (t : Tender) : (setTender s t).free = s.free := rfl

/-! ## `noteIll`: an ignored illegal sequence -/

@[simp] theorem noteIll_pending (src : Nat) (id : IllId) (k : Option Nat) (v : Word) : (noteIll s src id k v).pending = s.pending := rfl
@[simp] theorem noteIll_mem (src : Nat) (id : IllId) (k : Option Nat) (v : Word) : (noteIll s src id k v).mem = s.mem := rfl
@[simp] theorem noteIll_extent (src : Nat) (id : IllId) (k : Option Nat) (v : Word) : (noteIll s src id k v).extent = s.extent := rfl
@[simp] theorem noteIll_conf (src : Nat) (id : IllId) (k : Option Nat) (v : Word) : (noteIll s src id k v).conf = s.conf := rfl
@[simp] theorem noteIll_lcores (src : Nat) (id : IllId) (k : Option Nat) (v : Word) : (noteIll s src id k v).lcores = s.lcores := rfl
@[simp] theorem noteIll_pcores (src : Nat) (id : IllId) (k : Option Nat) (v : Word) : (noteIll s src id k v).pcores = s.pcores := rfl
@[simp] theorem noteIll_rings (src : Nat) (id : IllId) (k : Option Nat) (v : Word) : (noteIll s src id k v).rings = s.rings := rfl
@[simp] theorem noteIll_cstore (src : Nat) (id : IllId) (k : Option Nat) (v : Word) : (noteIll s src id k v).cstore = s.cstore := rfl
@[simp] theorem noteIll_tender (src : Nat) (id : IllId) (k : Option Nat) (v : Word) : (noteIll s src id k v).tender = s.tender := rfl
@[simp] theorem noteIll_turn (src : Nat) (id : IllId) (k : Option Nat) (v : Word) : (noteIll s src id k v).turn = s.turn := rfl
@[simp] theorem noteIll_hash (src : Nat) (id : IllId) (k : Option Nat) (v : Word) : (noteIll s src id k v).hash = s.hash := rfl
@[simp] theorem noteIll_red (src : Nat) (id : IllId) (k : Option Nat) (v : Word) : (noteIll s src id k v).red = s.red := rfl
@[simp] theorem noteIll_amax (src : Nat) (id : IllId) (k : Option Nat) (v : Word) : (noteIll s src id k v).amax = s.amax := rfl
@[simp] theorem noteIll_accts (src : Nat) (id : IllId) (k : Option Nat) (v : Word) : (noteIll s src id k v).accts = s.accts := rfl
@[simp] theorem noteIll_irq (src : Nat) (id : IllId) (k : Option Nat) (v : Word) : (noteIll s src id k v).irq = s.irq.raise irqIll := rfl
@[simp] theorem noteIll_ill (src : Nat) (id : IllId) (k : Option Nat) (v : Word) : (noteIll s src id k v).ill = s.ill.note src id v := rfl
@[simp] theorem noteIll_fw (src : Nat) (id : IllId) (k : Option Nat) (v : Word) : (noteIll s src id k v).fw = s.fw := rfl
@[simp] theorem noteIll_mail (src : Nat) (id : IllId) (k : Option Nat) (v : Word) : (noteIll s src id k v).mail = s.mail := rfl
@[simp] theorem noteIll_flt (src : Nat) (id : IllId) (k : Option Nat) (v : Word) : (noteIll s src id k v).flt = s.flt := rfl
@[simp] theorem noteIll_rb (src : Nat) (id : IllId) (k : Option Nat) (v : Word) : (noteIll s src id k v).rb = s.rb := rfl
@[simp] theorem noteIll_power (src : Nat) (id : IllId) (k : Option Nat) (v : Word) : (noteIll s src id k v).power = s.power := rfl
@[simp] theorem noteIll_boot (src : Nat) (id : IllId) (k : Option Nat) (v : Word) : (noteIll s src id k v).boot = s.boot := rfl
@[simp] theorem noteIll_tap (src : Nat) (id : IllId) (k : Option Nat) (v : Word) : (noteIll s src id k v).tap = s.tap := rfl
@[simp] theorem noteIll_fuses (src : Nat) (id : IllId) (k : Option Nat) (v : Word) : (noteIll s src id k v).fuses = s.fuses := rfl
@[simp] theorem noteIll_free (src : Nat) (id : IllId) (k : Option Nat) (v : Word) : (noteIll s src id k v).free = s.free := rfl

/-! ## `noteFault`: a fault record -/

@[simp] theorem noteFault_pending (r : FltRec) : (noteFault s r).pending = s.pending := rfl
@[simp] theorem noteFault_mem (r : FltRec) : (noteFault s r).mem = s.mem := rfl
@[simp] theorem noteFault_extent (r : FltRec) : (noteFault s r).extent = s.extent := rfl
@[simp] theorem noteFault_q (r : FltRec) : (noteFault s r).q = s.q := rfl
@[simp] theorem noteFault_conf (r : FltRec) : (noteFault s r).conf = s.conf := rfl
@[simp] theorem noteFault_lcores (r : FltRec) : (noteFault s r).lcores = s.lcores := rfl
@[simp] theorem noteFault_pcores (r : FltRec) : (noteFault s r).pcores = s.pcores := rfl
@[simp] theorem noteFault_rings (r : FltRec) : (noteFault s r).rings = s.rings := rfl
@[simp] theorem noteFault_cstore (r : FltRec) : (noteFault s r).cstore = s.cstore := rfl
@[simp] theorem noteFault_tender (r : FltRec) : (noteFault s r).tender = s.tender := rfl
@[simp] theorem noteFault_turn (r : FltRec) : (noteFault s r).turn = s.turn := rfl
@[simp] theorem noteFault_hash (r : FltRec) : (noteFault s r).hash = s.hash := rfl
@[simp] theorem noteFault_red (r : FltRec) : (noteFault s r).red = s.red := rfl
@[simp] theorem noteFault_amax (r : FltRec) : (noteFault s r).amax = s.amax := rfl
@[simp] theorem noteFault_accts (r : FltRec) : (noteFault s r).accts = s.accts := rfl
@[simp] theorem noteFault_ill (r : FltRec) : (noteFault s r).ill = s.ill := rfl
@[simp] theorem noteFault_fw (r : FltRec) : (noteFault s r).fw = s.fw := rfl
@[simp] theorem noteFault_mail (r : FltRec) : (noteFault s r).mail = s.mail := rfl
@[simp] theorem noteFault_flt (r : FltRec) : (noteFault s r).flt = s.flt.push r := rfl
@[simp] theorem noteFault_rb (r : FltRec) : (noteFault s r).rb = s.rb := rfl
@[simp] theorem noteFault_power (r : FltRec) : (noteFault s r).power = s.power := rfl
@[simp] theorem noteFault_boot (r : FltRec) : (noteFault s r).boot = s.boot := rfl
@[simp] theorem noteFault_tap (r : FltRec) : (noteFault s r).tap = s.tap := rfl
@[simp] theorem noteFault_fuses (r : FltRec) : (noteFault s r).fuses = s.fuses := rfl
@[simp] theorem noteFault_free (r : FltRec) : (noteFault s r).free = s.free + 1 := rfl

/-! ## `beginCmd`: the start of a command -/

@[simp] theorem beginCmd_pending (c : Cmd) : (beginCmd s c).pending = s.pending := rfl
@[simp] theorem beginCmd_mem (c : Cmd) : (beginCmd s c).mem = s.mem := rfl
@[simp] theorem beginCmd_extent (c : Cmd) : (beginCmd s c).extent = s.extent := rfl
@[simp] theorem beginCmd_conf (c : Cmd) : (beginCmd s c).conf = s.conf.updJob c.job (fun b => { b with oweBytes := 0, oweNs := 0, oweEnergy := 0 }) := rfl
@[simp] theorem beginCmd_lcores (c : Cmd) : (beginCmd s c).lcores = s.lcores := rfl
@[simp] theorem beginCmd_pcores (c : Cmd) : (beginCmd s c).pcores = s.pcores := rfl
@[simp] theorem beginCmd_rings (c : Cmd) : (beginCmd s c).rings = s.rings := rfl
@[simp] theorem beginCmd_cstore (c : Cmd) : (beginCmd s c).cstore = s.cstore := rfl
@[simp] theorem beginCmd_tender (c : Cmd) : (beginCmd s c).tender = s.tender := rfl
@[simp] theorem beginCmd_turn (c : Cmd) : (beginCmd s c).turn = s.turn := rfl
@[simp] theorem beginCmd_hash (c : Cmd) : (beginCmd s c).hash = s.hash := rfl
@[simp] theorem beginCmd_red (c : Cmd) : (beginCmd s c).red = s.red := rfl
@[simp] theorem beginCmd_amax (c : Cmd) : (beginCmd s c).amax = s.amax := rfl
@[simp] theorem beginCmd_accts (c : Cmd) : (beginCmd s c).accts = s.accts := rfl
@[simp] theorem beginCmd_irq (c : Cmd) : (beginCmd s c).irq = s.irq := rfl
@[simp] theorem beginCmd_ill (c : Cmd) : (beginCmd s c).ill = s.ill := rfl
@[simp] theorem beginCmd_fw (c : Cmd) : (beginCmd s c).fw = s.fw := rfl
@[simp] theorem beginCmd_mail (c : Cmd) : (beginCmd s c).mail = s.mail := rfl
@[simp] theorem beginCmd_flt (c : Cmd) : (beginCmd s c).flt = s.flt := rfl
@[simp] theorem beginCmd_rb (c : Cmd) : (beginCmd s c).rb = s.rb := rfl
@[simp] theorem beginCmd_power (c : Cmd) : (beginCmd s c).power = s.power := rfl
@[simp] theorem beginCmd_boot (c : Cmd) : (beginCmd s c).boot = s.boot := rfl
@[simp] theorem beginCmd_tap (c : Cmd) : (beginCmd s c).tap = s.tap := rfl
@[simp] theorem beginCmd_fuses (c : Cmd) : (beginCmd s c).fuses = s.fuses := rfl
@[simp] theorem beginCmd_free (c : Cmd) : (beginCmd s c).free = s.free := rfl

/-! ## `takeScales`: the scales of a starting command -/

@[simp] theorem takeScales_pending (c : Cmd) (tids : List Nat) : (takeScales s c tids).pending = s.pending := rfl
@[simp] theorem takeScales_mem (c : Cmd) (tids : List Nat) : (takeScales s c tids).mem = s.mem := rfl
@[simp] theorem takeScales_extent (c : Cmd) (tids : List Nat) : (takeScales s c tids).extent = s.extent := rfl
@[simp] theorem takeScales_conf (c : Cmd) (tids : List Nat) : (takeScales s c tids).conf = s.conf := rfl
@[simp] theorem takeScales_lcores (c : Cmd) (tids : List Nat) : (takeScales s c tids).lcores = s.lcores := rfl
@[simp] theorem takeScales_pcores (c : Cmd) (tids : List Nat) : (takeScales s c tids).pcores = s.pcores := rfl
@[simp] theorem takeScales_rings (c : Cmd) (tids : List Nat) : (takeScales s c tids).rings = s.rings := rfl
@[simp] theorem takeScales_cstore (c : Cmd) (tids : List Nat) : (takeScales s c tids).cstore = s.cstore := rfl
@[simp] theorem takeScales_tender (c : Cmd) (tids : List Nat) : (takeScales s c tids).tender = s.tender := rfl
@[simp] theorem takeScales_turn (c : Cmd) (tids : List Nat) : (takeScales s c tids).turn = s.turn := rfl
@[simp] theorem takeScales_hash (c : Cmd) (tids : List Nat) : (takeScales s c tids).hash = s.hash := rfl
@[simp] theorem takeScales_red (c : Cmd) (tids : List Nat) : (takeScales s c tids).red = s.red := rfl
@[simp] theorem takeScales_amax (c : Cmd) (tids : List Nat) : (takeScales s c tids).amax = s.amax.derive c.margins c.step tids := rfl
@[simp] theorem takeScales_accts (c : Cmd) (tids : List Nat) : (takeScales s c tids).accts = s.accts := rfl
@[simp] theorem takeScales_irq (c : Cmd) (tids : List Nat) : (takeScales s c tids).irq = s.irq := rfl
@[simp] theorem takeScales_ill (c : Cmd) (tids : List Nat) : (takeScales s c tids).ill = s.ill := rfl
@[simp] theorem takeScales_fw (c : Cmd) (tids : List Nat) : (takeScales s c tids).fw = s.fw := rfl
@[simp] theorem takeScales_mail (c : Cmd) (tids : List Nat) : (takeScales s c tids).mail = s.mail := rfl
@[simp] theorem takeScales_flt (c : Cmd) (tids : List Nat) : (takeScales s c tids).flt = s.flt := rfl
@[simp] theorem takeScales_rb (c : Cmd) (tids : List Nat) : (takeScales s c tids).rb = s.rb := rfl
@[simp] theorem takeScales_power (c : Cmd) (tids : List Nat) : (takeScales s c tids).power = s.power := rfl
@[simp] theorem takeScales_boot (c : Cmd) (tids : List Nat) : (takeScales s c tids).boot = s.boot := rfl
@[simp] theorem takeScales_tap (c : Cmd) (tids : List Nat) : (takeScales s c tids).tap = s.tap := rfl
@[simp] theorem takeScales_fuses (c : Cmd) (tids : List Nat) : (takeScales s c tids).fuses = s.fuses := rfl
@[simp] theorem takeScales_free (c : Cmd) (tids : List Nat) : (takeScales s c tids).free = s.free := rfl

/-! ## `usedCores`: storage behind a standard command -/

@[simp] theorem usedCores_pending (j : Nat) (counts : List (Nat × Nat × Nat)) : (usedCores s j counts).pending = s.pending := rfl
@[simp] theorem usedCores_mem (j : Nat) (counts : List (Nat × Nat × Nat)) : (usedCores s j counts).mem = s.mem := rfl
@[simp] theorem usedCores_extent (j : Nat) (counts : List (Nat × Nat × Nat)) : (usedCores s j counts).extent = s.extent := rfl
@[simp] theorem usedCores_q (j : Nat) (counts : List (Nat × Nat × Nat)) : (usedCores s j counts).q = s.q := rfl
@[simp] theorem usedCores_conf (j : Nat) (counts : List (Nat × Nat × Nat)) : (usedCores s j counts).conf = s.conf := rfl
@[simp] theorem usedCores_rings (j : Nat) (counts : List (Nat × Nat × Nat)) : (usedCores s j counts).rings = s.rings := rfl
@[simp] theorem usedCores_tender (j : Nat) (counts : List (Nat × Nat × Nat)) : (usedCores s j counts).tender = s.tender := rfl
@[simp] theorem usedCores_turn (j : Nat) (counts : List (Nat × Nat × Nat)) : (usedCores s j counts).turn = s.turn := rfl
@[simp] theorem usedCores_hash (j : Nat) (counts : List (Nat × Nat × Nat)) : (usedCores s j counts).hash = s.hash := rfl
@[simp] theorem usedCores_red (j : Nat) (counts : List (Nat × Nat × Nat)) : (usedCores s j counts).red = s.red := rfl
@[simp] theorem usedCores_amax (j : Nat) (counts : List (Nat × Nat × Nat)) : (usedCores s j counts).amax = s.amax := rfl
@[simp] theorem usedCores_accts (j : Nat) (counts : List (Nat × Nat × Nat)) : (usedCores s j counts).accts = s.accts := rfl
@[simp] theorem usedCores_irq (j : Nat) (counts : List (Nat × Nat × Nat)) : (usedCores s j counts).irq = s.irq := rfl
@[simp] theorem usedCores_ill (j : Nat) (counts : List (Nat × Nat × Nat)) : (usedCores s j counts).ill = s.ill := rfl
@[simp] theorem usedCores_fw (j : Nat) (counts : List (Nat × Nat × Nat)) : (usedCores s j counts).fw = s.fw := rfl
@[simp] theorem usedCores_mail (j : Nat) (counts : List (Nat × Nat × Nat)) : (usedCores s j counts).mail = s.mail := rfl
@[simp] theorem usedCores_flt (j : Nat) (counts : List (Nat × Nat × Nat)) : (usedCores s j counts).flt = (usedWords s j).flt := rfl
@[simp] theorem usedCores_rb (j : Nat) (counts : List (Nat × Nat × Nat)) : (usedCores s j counts).rb = s.rb := rfl
@[simp] theorem usedCores_power (j : Nat) (counts : List (Nat × Nat × Nat)) : (usedCores s j counts).power = s.power := rfl
@[simp] theorem usedCores_boot (j : Nat) (counts : List (Nat × Nat × Nat)) : (usedCores s j counts).boot = s.boot := rfl
@[simp] theorem usedCores_tap (j : Nat) (counts : List (Nat × Nat × Nat)) : (usedCores s j counts).tap = s.tap := rfl
@[simp] theorem usedCores_fuses (j : Nat) (counts : List (Nat × Nat × Nat)) : (usedCores s j counts).fuses = s.fuses := rfl
@[simp] theorem usedCores_free (j : Nat) (counts : List (Nat × Nat × Nat)) : (usedCores s j counts).free = (usedWords s j).free := rfl

/-! ## `finishRun`: the effects of a run -/

@[simp] theorem finishRun_pending (c : Cmd) (r : RunRes) : (finishRun s c r).pending = s.pending := rfl
@[simp] theorem finishRun_extent (c : Cmd) (r : RunRes) : (finishRun s c r).extent = s.extent := rfl
@[simp] theorem finishRun_conf (c : Cmd) (r : RunRes) : (finishRun s c r).conf = s.conf := rfl
@[simp] theorem finishRun_rings (c : Cmd) (r : RunRes) : (finishRun s c r).rings = s.rings := rfl
@[simp] theorem finishRun_tender (c : Cmd) (r : RunRes) : (finishRun s c r).tender = (ranAhead s c).tender := rfl
@[simp] theorem finishRun_turn (c : Cmd) (r : RunRes) : (finishRun s c r).turn = s.turn := rfl
@[simp] theorem finishRun_hash (c : Cmd) (r : RunRes) : (finishRun s c r).hash = s.hash := rfl
@[simp] theorem finishRun_red (c : Cmd) (r : RunRes) : (finishRun s c r).red = s.red := rfl
@[simp] theorem finishRun_amax (c : Cmd) (r : RunRes) : (finishRun s c r).amax = s.amax := rfl
@[simp] theorem finishRun_accts (c : Cmd) (r : RunRes) : (finishRun s c r).accts = s.accts := rfl
@[simp] theorem finishRun_irq (c : Cmd) (r : RunRes) : (finishRun s c r).irq = (ranAhead s c).irq := rfl
@[simp] theorem finishRun_ill (c : Cmd) (r : RunRes) : (finishRun s c r).ill = s.ill := rfl
@[simp] theorem finishRun_fw (c : Cmd) (r : RunRes) : (finishRun s c r).fw = s.fw := rfl
@[simp] theorem finishRun_mail (c : Cmd) (r : RunRes) : (finishRun s c r).mail = s.mail := rfl
@[simp] theorem finishRun_flt (c : Cmd) (r : RunRes) : (finishRun s c r).flt = (if isCoreOp c.op then usedCores s c.job r.counts else s).flt := rfl
@[simp] theorem finishRun_rb (c : Cmd) (r : RunRes) : (finishRun s c r).rb = s.rb := rfl
@[simp] theorem finishRun_power (c : Cmd) (r : RunRes) : (finishRun s c r).power = s.power := rfl
@[simp] theorem finishRun_boot (c : Cmd) (r : RunRes) : (finishRun s c r).boot = s.boot := rfl
@[simp] theorem finishRun_tap (c : Cmd) (r : RunRes) : (finishRun s c r).tap = s.tap := rfl
@[simp] theorem finishRun_fuses (c : Cmd) (r : RunRes) : (finishRun s c r).fuses = s.fuses := rfl
@[simp] theorem finishRun_free (c : Cmd) (r : RunRes) : (finishRun s c r).free = (if isCoreOp c.op then usedCores s c.job r.counts else s).free + 1 := rfl

/-! ## `heldShort`: a queue short of credit -/

@[simp] theorem heldShort_pending (q : Nat) : (heldShort s q).pending = s.pending := rfl
@[simp] theorem heldShort_mem (q : Nat) : (heldShort s q).mem = s.mem := rfl
@[simp] theorem heldShort_extent (q : Nat) : (heldShort s q).extent = s.extent := rfl
@[simp] theorem heldShort_conf (q : Nat) : (heldShort s q).conf = s.conf.bumpShare 4 1 := rfl
@[simp] theorem heldShort_lcores (q : Nat) : (heldShort s q).lcores = s.lcores := rfl
@[simp] theorem heldShort_pcores (q : Nat) : (heldShort s q).pcores = s.pcores := rfl
@[simp] theorem heldShort_rings (q : Nat) : (heldShort s q).rings = s.rings := rfl
@[simp] theorem heldShort_cstore (q : Nat) : (heldShort s q).cstore = s.cstore := rfl
@[simp] theorem heldShort_tender (q : Nat) : (heldShort s q).tender = s.tender := rfl
@[simp] theorem heldShort_turn (q : Nat) : (heldShort s q).turn = s.turn := rfl
@[simp] theorem heldShort_hash (q : Nat) : (heldShort s q).hash = s.hash := rfl
@[simp] theorem heldShort_red (q : Nat) : (heldShort s q).red = s.red := rfl
@[simp] theorem heldShort_amax (q : Nat) : (heldShort s q).amax = s.amax := rfl
@[simp] theorem heldShort_accts (q : Nat) : (heldShort s q).accts = s.accts := rfl
@[simp] theorem heldShort_irq (q : Nat) : (heldShort s q).irq = s.irq := rfl
@[simp] theorem heldShort_ill (q : Nat) : (heldShort s q).ill = s.ill := rfl
@[simp] theorem heldShort_fw (q : Nat) : (heldShort s q).fw = s.fw := rfl
@[simp] theorem heldShort_mail (q : Nat) : (heldShort s q).mail = s.mail := rfl
@[simp] theorem heldShort_flt (q : Nat) : (heldShort s q).flt = s.flt := rfl
@[simp] theorem heldShort_rb (q : Nat) : (heldShort s q).rb = s.rb := rfl
@[simp] theorem heldShort_power (q : Nat) : (heldShort s q).power = s.power := rfl
@[simp] theorem heldShort_boot (q : Nat) : (heldShort s q).boot = s.boot := rfl
@[simp] theorem heldShort_tap (q : Nat) : (heldShort s q).tap = s.tap := rfl
@[simp] theorem heldShort_fuses (q : Nat) : (heldShort s q).fuses = s.fuses := rfl
@[simp] theorem heldShort_free (q : Nat) : (heldShort s q).free = s.free := rfl

/-! ## `sendOn`: segments sent on a reduction link -/

@[simp] theorem sendOn_pending (l : RedLink) (g : List Segment) : (sendOn s l g).pending = s.pending := rfl
@[simp] theorem sendOn_mem (l : RedLink) (g : List Segment) : (sendOn s l g).mem = s.mem := rfl
@[simp] theorem sendOn_extent (l : RedLink) (g : List Segment) : (sendOn s l g).extent = s.extent := rfl
@[simp] theorem sendOn_q (l : RedLink) (g : List Segment) : (sendOn s l g).q = s.q := rfl
@[simp] theorem sendOn_conf (l : RedLink) (g : List Segment) : (sendOn s l g).conf = s.conf := rfl
@[simp] theorem sendOn_lcores (l : RedLink) (g : List Segment) : (sendOn s l g).lcores = s.lcores := rfl
@[simp] theorem sendOn_pcores (l : RedLink) (g : List Segment) : (sendOn s l g).pcores = s.pcores := rfl
@[simp] theorem sendOn_rings (l : RedLink) (g : List Segment) : (sendOn s l g).rings = s.rings := rfl
@[simp] theorem sendOn_cstore (l : RedLink) (g : List Segment) : (sendOn s l g).cstore = s.cstore := rfl
@[simp] theorem sendOn_tender (l : RedLink) (g : List Segment) : (sendOn s l g).tender = s.tender := rfl
@[simp] theorem sendOn_turn (l : RedLink) (g : List Segment) : (sendOn s l g).turn = s.turn := rfl
@[simp] theorem sendOn_hash (l : RedLink) (g : List Segment) : (sendOn s l g).hash = s.hash := rfl
@[simp] theorem sendOn_red (l : RedLink) (g : List Segment) : (sendOn s l g).red = { s.red with sent := s.red.sent ++ g.map (fun x => (l, x)) } := rfl
@[simp] theorem sendOn_amax (l : RedLink) (g : List Segment) : (sendOn s l g).amax = s.amax := rfl
@[simp] theorem sendOn_accts (l : RedLink) (g : List Segment) : (sendOn s l g).accts = s.accts := rfl
@[simp] theorem sendOn_irq (l : RedLink) (g : List Segment) : (sendOn s l g).irq = s.irq := rfl
@[simp] theorem sendOn_ill (l : RedLink) (g : List Segment) : (sendOn s l g).ill = s.ill := rfl
@[simp] theorem sendOn_fw (l : RedLink) (g : List Segment) : (sendOn s l g).fw = s.fw := rfl
@[simp] theorem sendOn_mail (l : RedLink) (g : List Segment) : (sendOn s l g).mail = s.mail := rfl
@[simp] theorem sendOn_flt (l : RedLink) (g : List Segment) : (sendOn s l g).flt = s.flt := rfl
@[simp] theorem sendOn_rb (l : RedLink) (g : List Segment) : (sendOn s l g).rb = s.rb := rfl
@[simp] theorem sendOn_power (l : RedLink) (g : List Segment) : (sendOn s l g).power = s.power := rfl
@[simp] theorem sendOn_boot (l : RedLink) (g : List Segment) : (sendOn s l g).boot = s.boot := rfl
@[simp] theorem sendOn_tap (l : RedLink) (g : List Segment) : (sendOn s l g).tap = s.tap := rfl
@[simp] theorem sendOn_fuses (l : RedLink) (g : List Segment) : (sendOn s l g).fuses = s.fuses := rfl
@[simp] theorem sendOn_free (l : RedLink) (g : List Segment) : (sendOn s l g).free = s.free := rfl

/-! ## Records of illegal register accesses are `noteIll` -/

@[simp] theorem illQueue_eq (src q : Nat) (v : Word) : illQueue s src q v = noteIll s src (.queue q) (some q) v := rfl
@[simp] theorem noteIll_q_none (src : Nat) (id : IllId) (v : Word) : (noteIll s src id none v).q = s.q := rfl
@[simp] theorem noteIll_q_some (src : Nat) (id : IllId) (k : Nat) (v : Word) :
    (noteIll s src id (some k) v).q = s.q.updCtx k (fun c => c.noteIll src id v) := rfl

/-! ## What a read of the updated component gives -/

/-- A program after one was changed. -/
theorem prog_updProg (i j : Nat) (f : LCore → LCore) :
    (s.updProg i f).prog j = if i = j ∧ j < s.lcores.length then f (s.prog j) else s.prog j := by
  simp only [State.prog, State.updProg_lcores, List.getD_eq_getElem?_getD, List.getElem?_modify]
  by_cases hj : j < s.lcores.length <;> by_cases hi : i = j <;> simp [hj, hi]

/-- A physical core after one was changed. -/
theorem pcore_updCore (p k : Nat) (f : PCore → PCore) :
    (s.updCore p f).pcore k = if p = k ∧ k < s.pcores.length then f (s.pcore k) else s.pcore k := by
  simp only [State.pcore, State.updCore_pcores, List.getD_eq_getElem?_getD, List.getElem?_modify]
  by_cases hk : k < s.pcores.length <;> by_cases hp : p = k <;> simp [hk, hp]

/-- A channel after one was changed. -/
theorem chan_updChan (a b : Nat) (f : Chan → Chan) :
    State.chan (updChan s a f) b = if a = b ∧ b < s.mail.chans.length then f (s.chan b) else s.chan b := by
  simp only [State.chan, updChan_mail, List.getD_eq_getElem?_getD, List.getElem?_modify]
  by_cases hb : b < s.mail.chans.length <;> by_cases ha : a = b <;> simp [hb, ha]

/-- A switched domain after one was changed. -/
theorem dom_updDom (a b : Nat) (f : PwrDom → PwrDom) :
    (s.updDom a f).dom b = if a = b ∧ b < s.power.doms.length then f (s.dom b) else s.dom b := by
  simp only [State.dom, State.updDom_power, List.getD_eq_getElem?_getD, List.getElem?_modify]
  by_cases hb : b < s.power.doms.length <;> by_cases ha : a = b <;> simp [hb, ha]

end Sys2Proof.Machine
end

