-- ==== Sys2Proof/Laws/Operations.lean ====
section
/-!
SUPPORT. What each shared operation can do, once: the answers of the rows by the unit they name, the commands a row may start, the run of a
command, the answer of a core program's instruction, register accesses by master, fault records, and the storages' updates.
-/
namespace Sys2Proof.Machine

variable {s t u : State}

/-! ## Answers -/

/-- Each family of rows answers a next state exactly for the units that the engine has, and then the one given. -/
theorem onQueue_next {q : Nat} : onQueue q t = .next u ↔ q < Config.queueCount ∧ t = u := by
  simp only [onQueue, noUnit]; split <;> simp [*]
theorem onCore_next {l : Nat} : onCore l t = .next u ↔ l < 64 ∧ t = u := by
  simp only [onCore, noUnit]; split <;> simp [*]
theorem onDomain_next {d : Nat} : onDomain d t = .next u ↔ d < 40 ∧ t = u := by
  simp only [onDomain, noUnit]; split <;> simp [*]
theorem onTiming_next {d : Nat} : onTiming d t = .next u ↔ d < 75 ∧ t = u := by
  simp only [onTiming, noUnit]; split <;> simp [*]
theorem onChan_next {ch : Nat} : onChan ch t = .next u ↔ ch < 64 ∧ t = u := by
  simp only [onChan, noUnit]; split <;> simp [*]

/-! ## Commands -/

/-- What a row may start: an admitted command of its queue and opcode that the Keeper may start. -/
theorem startable_spec {q op : Nat} {c : Cmd} (h : startable s q op = some c) :
    c ∈ s.q.cmds ∧ c.qid = q ∧ c.op = op ∧ c.stage = .admitted ∧ mayStart s c = true := by
  simp only [startable, nextRun] at h
  split at h
  · rename_i d hd
    split at h
    · rename_i hm
      cases h
      have hp := List.find?_some hd
      simp only [Bool.and_eq_true, beq_iff_eq] at hp
      exact ⟨List.mem_of_find?_eq_some hd, hp.1.1, hp.1.2, hp.2, hm⟩
    · cases h
  · cases h

/-- A row without a command to start changes nothing; otherwise it starts that command with its own effect. -/
theorem startOp_cases (s : State) (q op : Nat) (f : State → Cmd → State) :
    (startable s q op = none ∧ startOp s q op f = s) ∨
    ∃ c, startable s q op = some c ∧ startOp s q op f = f (beginCmd s c) c := by
  cases h : startable s q op <;> simp [startOp, h]

/-- A row that runs its command in one step: nothing, or the effects of the run behind its start. -/
theorem runOp_cases (s : State) (q op : Nat) (tids : Cmd → List Nat) (f : State → Cmd → RunRes) :
    (startable s q op = none ∧ runOp s q op tids f = s) ∨
    ∃ c, startable s q op = some c ∧
      runOp s q op tids f = runEnd (takeScales (beginCmd s c) c (tids c)) (c.takeScales (takeScales (beginCmd s c) c (tids c)).amax (tids c))
        (f (takeScales (beginCmd s c) c (tids c)) (c.takeScales (takeScales (beginCmd s c) c (tids c)).amax (tids c))) := by
  cases h : startable s q op <;> simp [runOp, h]

/-- A run ends with its effects, or with `UNCORR` before them. -/
theorem runEnd_cases (s : State) (c : Cmd) (r : RunRes) :
    (metBy s c = [] ∧ runEnd s c r = finishRun s c r) ∨ (metBy s c ≠ [] ∧ runEnd s c r = failRun s c (metBy s c)) := by
  cases h : metBy s c <;> simp [runEnd, h]

/-- The run of a command keeps the canonical form of the die's memory. -/
theorem finishRun_mem_wf {c : Cmd} {r : RunRes} (h : s.mem.wf = true) : (finishRun s c r).mem.wf = true := by
  simp only [finishRun]
  refine Memory.dieStores_wf ?_ _ _
  have : ∀ (hs : List (Nat × Nat)) (m : Memory), m.wf = true → (hs.foldl (fun m h => m.dieHavoc s.extent s.free h.1 h.2) m).wf = true := by
    intro hs
    induction hs with
    | nil => exact fun _ hm => hm
    | cons x r ih => exact fun m hm => ih _ (Memory.dieHavoc_wf hm _ _ _ _)
  exact this r.havoc _ h

/-! ## Core programs -/

/-- An instruction's row leaves what one of the core's two programs left, a program's wait record included. -/
theorem afterInstr_cases {i w : Nat} {r : IRes} (h : afterInstr s i w r = some u) :
    (r = .illegal ∧ u = (badInstr s i w).updProg i (fun x => x.advance.settleReplay)) ∨
    (∃ t, (r = .go t ∨ r = .hold t) ∧ u = t.updProg i (fun x => x.advance.settleReplay)) ∨
    (∃ t pc, r = .jump t pc ∧ u = t.updProg i (fun x => (x.goto pc).settleReplay)) ∨
    (∃ t, r = .ovr t ∧ u = t) := by
  cases r with
  | illegal => exact .inl ⟨rfl, (Option.some.inj h).symm⟩
  | go t => exact .inr (.inl ⟨t, .inl rfl, (Option.some.inj h).symm⟩)
  | hold t => exact .inr (.inl ⟨t, .inr rfl, (Option.some.inj h).symm⟩)
  | jump t pc => exact .inr (.inr (.inl ⟨t, pc, rfl, (Option.some.inj h).symm⟩))
  | ovr t => exact .inr (.inr (.inr ⟨t, rfl, (Option.some.inj h).symm⟩))
  | wait k => cases h

/-- A program answers a row only where it may issue and stands at one of the row's opcodes. -/
theorem answer_spec {i w : Nat} {ok : Nat → Bool} {f : State → Nat → Cmd → Nat → IRes} {r : IRes} (h : answer s i ok f = some (w, r)) :
    progReady s i = true ∧ (s.prog i).regs.fin = false ∧ w = fetchWord s i ∧ ok (bf w 56 8) = true ∧
    ∃ c, progCmd s i = some c ∧ (r = f s i c w ∨ storeWaits s i w = true ∧ r = .wait 0) := by
  simp only [answer] at h
  split at h
  · rename_i hr
    split at h
    · rename_i c hc
      split at h
      · rename_i ho
        cases h
        simp only [Bool.and_eq_true, Bool.not_eq_true'] at hr
        refine ⟨hr.1, hr.2, rfl, ho, c, hc, ?_⟩
        split
        · exact .inr ⟨‹_›, rfl⟩
        · exact .inl rfl
      · cases h
    · cases h
  · cases h

/-- A wait record changes nothing but the program that waits. -/
theorem setWait_eq (s : State) (i k : Nat) : setWait s i k = { s with lcores := (setWait s i k).lcores } := by
  simp only [setWait]; split <;> rfl

/-- An instruction that waits in its unit takes effect as it would have at its issue, behind what was issued before it; otherwise nothing changes. -/
theorem unitStep_cases (s : State) (i : Nat) (ok : Nat → Bool) (f : State → Nat → Cmd → Nat → IRes) :
    unitStep s i ok f = (s, false) ∨
    ((unitStep s i ok f).2 = true ∧ ∃ c h u, progCmd s i = some c ∧ (s.prog i).held.find? (fun h => ok h.op) = some h ∧
      ((f (s.updProg i (fun y => y.asHeld h)) i c h.word = .go u ∧ (unitStep s i ok f).1 =
        (let v := u.updProg i (fun y => y.afterHeld (s.prog i) h); if (s.prog i).run = .halted then settleRunp v c else v)) ∨
       (f (s.updProg i (fun y => y.asHeld h)) i c h.word = .ovr u ∧ (unitStep s i ok f).1 = u))) := by
  simp only [unitStep]
  split
  · rename_i c h hc hh
    split
    · split
      · rename_i u hu
        split at hu
        · cases hu
        · exact .inr ⟨rfl, c, h, u, hc, hh, .inl ⟨hu, rfl⟩⟩
      · rename_i u hu
        split at hu
        · cases hu
        · exact .inr ⟨rfl, c, h, u, hc, hh, .inr ⟨hu, rfl⟩⟩
      · exact .inl rfl
    · exact .inl rfl
  · exact .inl rfl

/-- A program that did not go on leaves a wait record at most; otherwise an instruction that waited in its unit took effect, or the program ran its
next one. -/
theorem progStep_cases (s : State) (i : Nat) (ok : Nat → Bool) (f : State → Nat → Cmd → Nat → IRes) :
    ((progStep s i ok f).2 = false ∧ (progStep s i ok f).1 = { s with lcores := (progStep s i ok f).1.lcores }) ∨
    ((progStep s i ok f).2 = true ∧ ((unitStep s i ok f).2 = true ∧ (progStep s i ok f).1 = (unitStep s i ok f).1 ∨
      ∃ w r, answer s i ok f = some (w, r) ∧ afterInstr s i w r = some (progStep s i ok f).1)) := by
  rcases unitStep_cases s i ok f with h | ⟨h, -⟩
  · simp only [progStep, h, Bool.false_eq_true, if_false]
    split
    · exact .inl ⟨rfl, setWait_eq s i _⟩
    · rename_i w r hr ha
      refine .inr ⟨rfl, .inr ⟨w, r, ha, ?_⟩⟩
      cases r with
      | wait k => exact absurd rfl (hr k)
      | _ => rfl
    · exact .inl ⟨rfl, rfl⟩
  · exact .inr (by simp [progStep, h])

/-- What an instruction's row can do: nothing but wait records; or the effect of one instruction, waiting or next, of one of the two programs. -/
theorem instrStep_cases (s : State) (l : Nat) (ok : Nat → Bool) (f : State → Nat → Cmd → Nat → IRes) :
    instrStep s l ok f = { s with lcores := (instrStep s l ok f).lcores } ∨
    ∃ t i, (i = l ∨ i = 64 + l) ∧ t = { s with lcores := t.lcores } ∧
      ((unitStep t i ok f).2 = true ∧ instrStep s l ok f = (unitStep t i ok f).1 ∨
        ∃ w r, answer t i ok f = some (w, r) ∧ afterInstr t i w r = some (instrStep s l ok f)) := by
  simp only [instrStep]
  rcases progStep_cases s l ok f with ⟨h, hs⟩ | ⟨h, k⟩
  · simp only [h, Bool.false_eq_true, if_false]
    rcases progStep_cases (progStep s l ok f).1 (64 + l) ok f with ⟨_, ht⟩ | ⟨_, k⟩
    · left; rw [ht, hs]
    · exact .inr ⟨_, _, .inr rfl, hs, k⟩
  · simp only [h, if_true]
    exact .inr ⟨s, l, .inl rfl, rfl, k⟩

/-! ## Register accesses -/

/-- A write has its effect, or is an ignored illegal sequence (R409). -/
theorem writeBy_cases (s : State) (ok : Bool) (mid : Mid) (off : Nat) (t : State) :
    (ok = true ∧ writeBy s ok mid off t = t) ∨ (ok = false ∧ writeBy s ok mid off t = regIll s mid off true) := by
  cases ok <;> simp [writeBy]

/-- The same for the instrument network (R433). -/
theorem netWrite_cases (s : State) (mid : Mid) (off : Nat) (t : State) :
    (netOff s mid = false ∧ netWrite s mid off t = t) ∨ (netOff s mid = true ∧ netWrite s mid off t = regIll s mid off true) := by
  cases h : netOff s mid <;> simp [netWrite, h]

/-- A channel's actions are those of its own two masters (R321, R322). -/
theorem mbSend_cases (s : State) (mid : Mid) (ch reg : Nat) (v : Word) (f : State → State) :
    ((s.chan ch).isSender mid = true ∧ mbSend s mid ch reg v f = f s) ∨
    ((s.chan ch).isSender mid = false ∧ mbSend s mid ch reg v f = mbIll s mid ch reg v) := by
  cases h : (s.chan ch).isSender mid <;> simp [mbSend, h]
theorem mbReceive_cases (s : State) (mid : Mid) (ch reg : Nat) (v : Word) (f : State → State) :
    ((s.chan ch).isReceiver mid = true ∧ mbReceive s mid ch reg v f = f s) ∨
    ((s.chan ch).isReceiver mid = false ∧ mbReceive s mid ch reg v f = mbIll s mid ch reg v) := by
  cases h : (s.chan ch).isReceiver mid <;> simp [mbReceive, h]

/-- An ignored register access touches the illegal count and record and the ILL flag only. -/
theorem regIll_eq (s : State) (mid : Mid) (off : Nat) (wr : Bool) :
    regIll s mid off wr = { s with ill := (regIll s mid off wr).ill, irq := s.irq.raise irqIll } := rfl
theorem mbIll_eq (s : State) (mid : Mid) (ch reg : Nat) (v : Word) :
    mbIll s mid ch reg v = { s with ill := (mbIll s mid ch reg v).ill, irq := s.irq.raise irqIll } := rfl
theorem fwIll_eq (s : State) (v : Word) : fwIll s v = { s with ill := (fwIll s v).ill, irq := s.irq.raise irqIll } := rfl
theorem powerIll_eq (s : State) (d : Nat) (v : Word) : powerIll s d v = { s with ill := (powerIll s d v).ill, irq := s.irq.raise irqIll } := rfl

/-- The count of the ignored illegal sequences after one more (R296). -/
theorem noteIll_cnt (s : State) (src : Nat) (id : IllId) (k : Option Nat) (v : Word) :
    (noteIll s src id k v).ill.cnt = min (2 ^ 48 - 1) (s.ill.cnt + 1) := by
  simp only [noteIll_ill, Ill.note, satTo]; split <;> omega

/-! ## Fault records -/

/-- A record enters behind the others, or is counted as lost where the list is full (R359). -/
theorem Flt.push_cases (f : Flt) (r : FltRec) :
    (f.recs.length < 64 ∧ f.push r = { f with recs := f.recs ++ [r] }) ∨
    (64 ≤ f.recs.length ∧ f.push r = { f with ovf := min 65535 (f.ovf + 1) }) := by
  by_cases h : f.recs.length < 64
  · exact .inl ⟨h, by simp [Flt.push, Flt.room, h]⟩
  · refine .inr ⟨by omega, ?_⟩
    simp only [Flt.push, Flt.room, h, decide_false, Bool.false_eq_true, if_false, satTo]
    congr 1; split <;> omega

/-! ## Storage arrays -/

/-- A storage's memory replaced reads as the one given; the other arrays stay. -/
theorem storageMem_setStorage {st : Storage} {m : Memory} (h : ∀ p, storageCore st = some p → p < s.pcores.length) :
    storageMem (setStorage s st m) st = m := by
  cases st with
  | scratch p => simp [storageMem, setStorage, pcore_updCore, h p rfl]
  | acc p => simp [storageMem, setStorage, pcore_updCore, h p rfl]
  | central => rfl

/-- Replacing a storage's memory touches the physical cores and the central store only. -/
theorem setStorage_eq (s : State) (st : Storage) (m : Memory) :
    setStorage s st m = { s with pcores := (setStorage s st m).pcores, cstore := (setStorage s st m).cstore } := by
  cases st <;> rfl

/-- A storage read touches the counters of corrected errors and the words that await their write-back only. -/
theorem touchRead_eq (s : State) (st : Storage) (a n : Nat) :
    touchRead s st a n = { s with pcores := (touchRead s st a n).pcores, flt := (touchRead s st a n).flt } := by
  cases st <;> (simp only [touchRead, countCe]; split <;> rfl)

end Sys2Proof.Machine
end

