-- ==== Sys2Proof/Tests/Slice0.lean ====
section
/-!
SUPPORT. Tests of the model: ill-formed commands that the check refuses; states and operands that meet the hypotheses of the statements, clause by
clause; and single steps whose results were worked out from the rules of spec/ by hand. Each says which rule it rests on.
-/
namespace Sys2Proof.Tests
open Sys2Proof.Machine

-- One proof at a time: the threads of waiting proofs would fill the memory that a check has.
set_option Elab.async false

/-! ## Small states -/

/-- Whether a command ends in a next state with a property. -/
def ends (c : Instr) (s : State) (p : State → Bool) : Bool :=
  match exec c s with
  | .next t => p t
  | _ => false

/-- Whether a command leaves the state as it is, and whether it stops with the model's fault. -/
def keeps (c : Instr) (s : State) : Bool := ends c s (fun t => t == s)
def stops (c : Instr) (s : State) : Bool :=
  match exec c s with
  | .fault .noSuchUnit => true
  | _ => false

/-- A domain that is ON at its rail. -/
def upDom (d : PwrDom) : PwrDom := { d with state := .on, vgood := true }

/-- An engine that runs firmware: every domain ON, core k serving logical core k, one KiB of memory and more. -/
def base : State :=
  { State.reset with
    extent := 65536
    power := { State.reset.power with doms := State.reset.power.doms.map upDom }
    pcores := (List.range 68).map (fun p => if p < 64 then { PCore.reset with pstate := .active, lidA := some p } else PCore.reset)
    fw := { State.reset.fw with state := .run }
    boot := { State.reset.boot with phase := 5, booting := false } }

/-- The flag and count of an ignored illegal sequence, the first one. -/
def counted (t : State) : Bool := t.ill.cnt == 1 && t.irq.stat.getLsbD irqIll

/-! ## Ill-formed commands -/

theorem test_wf_queue : (Instr.gpair 4194304).wf = false ∧ stops (.gpair 4194304) base = true := by decide
theorem test_wf_queue_last : (Instr.gpair 4194303).wf = true := by decide
theorem test_wf_job : (Instr.admission 8).wf = false ∧ stops (.admission 8) base = true := by decide
theorem test_wf_core : (Instr.salu 64).wf = false ∧ stops (.salu 64) base = true := by decide
theorem test_wf_array : (Instr.sliceInject 0 4 false 0).wf = false ∧ stops (.sliceInject 0 4 false 0) base = true := by decide
theorem test_wf_cube : (Instr.cubeWave 0 0 8 0).wf = false ∧ stops (.cubeWave 0 0 8 0) base = true := by decide
theorem test_wf_pcore : (Instr.checkEvent 68 .residue 0 0 0 true).wf = false := by decide
theorem test_wf_word : (Instr.eccWriteback (.scratch 0) Config.scratchBytes).wf = false := by decide
theorem test_wf_link : (Instr.frameResendTimeout (.fabric 8)).wf = false ∧ stops (.frameResendTimeout (.fabric 8)) base = true := by decide
theorem test_wf_waiter : (Instr.waitWatchdog (.core 64) 0).wf = false := by decide
theorem test_wf_channel : (Instr.mbBell 1 64).wf = false ∧ (Instr.mbDataWrite 1 0 8 0).wf = false := by decide
theorem test_wf_domain : (Instr.heldTargetApply 40).wf = false ∧ (Instr.clockStop 75).wf = false := by decide
theorem test_wf_boot : (Instr.bootSelfTestDone ⟨[68], [], [], [], 0, 0⟩).wf = false := by decide

/-! ## The queue of commands, resets and boot -/

theorem test_front_command : (match step { base with pending := [.keeperHeartbeat, .keeperWatchdogExpiry] } with
    | .next t => t.pending == [.keeperWatchdogExpiry] && t.fw.state == .run
    | _ => false) = true := by decide
theorem test_idle : State.reset.pending = [] ∧ (match step State.reset with
    | .next t => t == State.reset
    | _ => false) = true := by decide
theorem test_canonical_meets : State.reset.Canonical := by unfold State.Canonical; decide +kernel
theorem test_extent_meets : base.mem.wf = true ∧ base.extent ≤ 65536 ∧ mayReset (.fabricExtentReport 5) = false ∧ State.reset.extent = 0 := by decide
/-- R423: the first report is held. -/
theorem test_extent_held : ends (.fabricExtentReport 77) State.reset (fun t => t.extent == 77) ∧ ends (.fabricExtentReport 77) base (fun t => t.extent == 65536) := by
  decide
/-- R401: 15 cycles are too short. -/
theorem test_reset_lines : keeps (.coldResetLine 15) base = true ∧ ends (.coldResetLine 16) base (fun t => t.boot.phase == 0 && t.extent == 0) ∧
    ends (.warmResetLine 16) base (fun t => (t.pcore 3).lidA == some 3 && !t.boot.cold) := by decide
theorem test_lock_meets : ends (.keeperHeartbeat) { base with mail := { base.mail with lock := true } } (fun t => t.mail.lock) ∧ mayReset .keeperHeartbeat = false ∧
    (0x1018#24).toNat ≠ 0x1008 := by decide
theorem test_irq_meets : ends .keeperHeartbeat { base with irq := ⟨4, 0, 0⟩ } (fun t => t.irq.stat.getLsbD 2) ∧ mayReset .keeperHeartbeat = false := by decide

/-- A boot that waits for its self-test. -/
def testing : State := { base with boot := { base.boot with phase := 3, booting := true } }
/-- R405: with nothing failed boot ends in PHASE 5, and the spares are free. -/
theorem test_boot_ends : testing.flt.ports ≠ 0 ∧ testing.flt.lost = false ∧ testing.pcores.length = 68 ∧ (∀ p, p < 68 → retiredBefore testing p = false) ∧
    ends (.bootSelfTestDone ⟨[], [], [], [], 0, 9⟩) testing (fun t => t.boot.phase == 5 && t.boot.btime == 9 && (t.pcore 63).lidA == some 63 &&
      (t.pcore 67).pstate == .spare && t.irq.stat.getLsbD irqBoot) := by decide +kernel
/-- R406: a failed unit stops it in PHASE 6. -/
theorem test_boot_fails : (⟨[], [], [], [], 3, 9⟩ : BootResult).wf = true ∧
    ends (.bootSelfTestDone ⟨[], [], [], [], 3, 9⟩) testing (fun t => t.boot.phase == 6 && t.boot.erru == 3 && t.irq.stat.getLsbD irqFatal) := by decide

/-! ## Mailboxes -/

/-- Channel 5 bound: sender 2, receiver 3, wake domain `d`, timeout 9; channel 6 bound the other way round and full. -/
def mailed (d : Nat) : State :=
  { base with
    mail := { base.mail with
      chans := (base.mail.chans.set 5 { Chan.reset with snd := 2, rcv := 3, wdom := d, tmo := 9, valid := true }).set 6
        { Chan.reset with snd := 3, rcv := 2, valid := true, full := true, timer := true } } }
/-- R323: a data word and a ring of an empty channel. -/
theorem test_mb_ring : netOff (mailed 63) 2 = false ∧ ((mailed 63).chan 5).isSender 2 = true ∧
    ends (.mbBell 2 5) (mailed 63) (fun t => (t.chan 5).full && (t.chan 5).timer && (t.chan 5).rings == 1 && !(t.chan 5).coll) ∧
    ends (.mbDataWrite 2 5 7 0xAB) (mailed 63) (fun t => (t.chan 5).data == [0, 0, 0, 0, 0, 0, 0, 0xAB]) := by decide
/-- R323: a data word and a ring of a full channel collide. -/
theorem test_mb_collides : ((mailed 63).chan 6).isSender 3 = true ∧
    ends (.mbBell 3 6) (mailed 63) (fun t => (t.chan 6).coll && (t.chan 6).colls == 1 && (t.chan 6).rings == 1) ∧
    ends (.mbDataWrite 3 6 0 1) (mailed 63) (fun t => (t.chan 6).coll && (t.chan 6).data.head? == some 1) := by decide
/-- R323: an empty of a full channel, and of an empty one. -/
theorem test_mb_empty : ((mailed 63).chan 6).isReceiver 2 = true ∧ ((mailed 63).chan 5).isReceiver 3 = true ∧ ((mailed 63).chan 6).full = true ∧
    ends (.mbEmpty 2 6) (mailed 63) (fun t => !(t.chan 6).full && (t.chan 6).emptied && !(t.chan 6).timer) ∧
    ends (.mbEmpty 3 5) (mailed 63) (fun t => counted t && t.mail == (mailed 63).mail) := by decide
theorem test_mb_fog : ((mailed 63).chan 6).timer = true ∧ ends (.mbFogTimeout 6) (mailed 63) (fun t => (t.chan 6).fog && !(t.chan 6).timer) := by decide
/-- R325: a Beacon with WDOM 0x3F, with a domain that is ON, and with one that goes down. -/
theorem test_beacon_bell : (mailed 63).mail.chans.length = 64 ∧ (mailed 63).power.doms.length = 40 ∧ ((mailed 63).chan 5).wdom = 63 ∧
    ends (.mbBeacon 2 5) (mailed 63) (fun t => (t.chan 5).lastBcn && (t.chan 5).full && !(t.chan 5).wakePend) := by decide
theorem test_beacon_on : ((mailed 39).chan 5).wdom < 40 ∧ domOn (mailed 39) 39 = true ∧
    ends (.mbBeacon 2 5) (mailed 39) (fun t => (t.chan 5).lastBcn && !(t.chan 5).wakePend && (t.dom 39).target == 2) := by decide
def going : State := (mailed 0).updDom 0 (fun x => { x with state := .down, target := 0 })
theorem test_beacon_wakes : domState going 0 = .down ∧ (going.dom 0).wantUp = false ∧
    ends (.mbBeacon 2 5) going (fun t => (t.chan 5).wakePend && domState t 0 == .pendingOn && (t.dom 0).target == 2) := by decide
/-- R320, Tables 13.3, 13.8. -/
theorem test_mb_ctl : ends (.mbCtlWrite 3 5 0xF) (mailed 63) (fun t => (t.chan 5).rie && (t.chan 5).cie && !(t.chan 5).eie) ∧
    ((mailed 63).chan 5).isReceiver 2 = false ∧ ends (.mbCtlWrite 2 5 0xF) (mailed 63) (fun t => (t.chan 5).eie && (t.chan 5).fie && !(t.chan 5).rie) := by decide
theorem test_mb_bind : (mailed 63).mail.lock = false ∧ bindLegal (BitVec.ofNat 64 (2 + 3 * 2 ^ 8 + 39 * 2 ^ 16 + 7 * 2 ^ 24 + 2 ^ 63)) = true ∧
    ends (.mbBind 1 9 (BitVec.ofNat 64 (2 + 3 * 2 ^ 8 + 39 * 2 ^ 16 + 7 * 2 ^ 24 + 2 ^ 63))) (mailed 63) (fun t =>
      t.chan 9 == { Chan.reset with snd := 2, rcv := 3, wdom := 39, tmo := 7, valid := true }) := by decide
theorem test_mb_lock : ends (.mbLock 1) (mailed 63) (fun t => t.mail.lock) ∧ ends (.mbBind 2 9 0) (mailed 63) counted ∧
    ends (.mbBind 1 9 (BitVec.ofNat 64 (2 + 3 * 2 ^ 8 + 2 ^ 63))) { mailed 63 with mail := { (mailed 63).mail with lock := true } } counted := by decide

/-! ## Registers and windows -/

theorem test_unassigned_meets : writerOf (.mbBell 0x29 5) = some 0x29 ∧ (Instr.mbBell 0x29 5).wf = true ∧ ends (.mbBell 0x29 5) base counted ∧
    writerOf (.registerWrite 0x3F true 0x1018 0) = some 0x3F ∧ roReg 0x1018 = false ∧ ends (.registerWrite 0x3F true 0x1018 0) base counted := by decide
/-- R407, R412: an access that is not aligned, a read-only register, and a flag that a 1 clears. -/
theorem test_register_write : ends (.registerWrite 1 false 0x1020 5) base (fun t => counted t && t.irq.en == 0) ∧
    roReg 0x1010 = true ∧ keeps (.registerWrite 1 true 0x1010 5) base = true ∧
    ends (.registerWrite 1 true 0x1018 1) { base with irq := ⟨3, 0, 0⟩ } (fun t => t.irq.stat == 2) ∧
    ends (.registerWrite 1 true 0x1048 2) { base with irq := ⟨0, 0, 3 <<< 64⟩ } (fun t => t.irq.pend == 1 <<< 64) := by decide
/-- R408, R411: the context table moves until it locks. -/
theorem test_qctx_base : base.q.baseLock = false ∧ ends (.registerWrite 1 true 0x1000 (BitVec.ofNat 64 (0x5000 + 2 ^ 63))) base (fun t =>
    t.q.base == 0x5000 && t.q.baseValid) ∧ ends (.registerWrite 1 true 0x1000 0x5000) { base with q := { base.q with baseLock := true } } counted := by decide
/-- R414. -/
theorem test_ill_latch : netOff base 0x28 = false ∧ ends (.illRecRead 0x28) { base with ill := ⟨1, 5, 6, 7⟩ } (fun t => t.ill.rec1 == 6 && t.rb.rdata == 5) := by
  decide
/-- R416: the account of client 65,536 is the last one. -/
def accounted : State := { base with accts := { base.accts with list := [(7, ⟨1, 2, 3, 4, 5, 6, 8, 9⟩)] } }
theorem test_account_latch : ((7#64).extractLsb' 0 17).toNat ≤ 65536 ∧ ends (.acctSelect 1 7) accounted (fun t => t.accts.sel == 7 &&
    t.accts.data == [1, 2, 3, 4, 5, 6, 8, 9]) ∧ ends (.acctSelect 1 65536) accounted (fun t => t.accts.data == List.replicate 8 0) ∧
    65536 < ((65537#64).extractLsb' 0 17).toNat ∧ ends (.acctSelect 1 65537) accounted counted := by decide
/-- R418, Table 17.10: entry 0 and EVALID of a slot that is stored. -/
def amaxed : State := { base with amax := { base.amax with sel := 3, data := [0x3F800000, 0, 0, 0, 0, 0, 0, 0, 0, 1] } }
theorem test_amax_store : amaxed.amax.busy = false ∧ amaxed.amax.data.length = 10 ∧
    (parseAmax (ofLe (amaxed.amax.data.flatMap (fun w => leBytes 8 w.toNat)))).storable = true ∧
    ends (.amaxStore 1) amaxed (fun t => (t.amax.slot 3).entries.head? == some 0x3F800000 && (t.amax.slot 3).evalid == 1) ∧
    ends (.amaxLoad 1) amaxed (fun t => t.amax.data.length == 10) := by decide +kernel
def amaxBad : State := { base with amax := { base.amax with data := [0, 0, 0, 0, 0, 0, 0, 0, 0x80 <<< 56, 0] } }
theorem test_amax_scale : (parseAmax (ofLe (amaxBad.amax.data.flatMap (fun w => leBytes 8 w.toNat)))).scale = 0x80#8 ∧ ends (.amaxStore 1) amaxBad counted := by
  decide +kernel
/-- Table 14.9: the word at byte 8 of core 1's scratchpad, and the address behind it. -/
def readBack (space index a : Nat) : State :=
  { base with
    rb := { base.rb with addr := BitVec.ofNat 64 (space + 2 ^ 6 + 2 ^ 7 + index * 2 ^ 8 + a * 2 ^ 24) }
    cstore := Memory.empty.writeLe 8 8 0x55
    pcores := base.pcores.modify 1 (fun x => { x with scratch := Memory.empty.writeLe 8 8 0x33, acc := Memory.empty.writeLe 8 8 0x44 }) }
theorem test_read_back : base.flt.single = [] ∧ base.flt.double = [] ∧ domOn base 0 = true ∧ domOn base 34 = true ∧
    ends (.rbRead 1) (readBack 0 1 8) (fun t => t.rb.rdata == 0x33 && (t.rb.addr >>> 24).toNat == 16) ∧
    ends (.rbRead 1) (readBack 1 1 8) (fun t => t.rb.rdata == 0x44) ∧ ends (.rbRead 1) (readBack 0x10 0 8) (fun t => t.rb.rdata == 0x55) := by decide

/-! ## Firmware -/

/-- An engine whose firmware stands in `st`, with SVN 2 and fuses at 1. -/
def inFw (st : FwState) : State := { base with fw := { base.fw with state := st, svn := 2 }, fuses := { base.fuses with arc := 1 } }
/-- Table 13.16. -/
theorem test_fw_control : ends (.fwLoad 1) (inFw .wait) (fun t => t.fw.state == .load && t.fw.tries == 1) ∧ ends (.fwAbort 1) (inFw .load) (fun t =>
    t.fw.state == .fail && t.fw.reason == 7) ∧ ends (.arcAdvance 1) (inFw .run) (fun t => t.fw.arcBusy) ∧ (inFw .run).fuses.arc < (inFw .run).fw.svn := by decide
theorem test_fw_ignored : ends (.fwLoad 1) (inFw .run) counted ∧ ends (.fwAbort 1) (inFw .run) counted ∧ ends (.arcAdvance 1) (inFw .wait) counted ∧
    (base.fw.svn ≤ base.fuses.arc ∧ keeps (.arcAdvance 1) base = true) := by decide
/-- R319. -/
theorem test_watchdog : base.fw.state = .run ∧ ends .keeperWatchdogExpiry base (fun t => t.fw.state == .hung && t.irq.stat.getLsbD irqFatal) := by decide
/-- R330: a header of zeros has no magic. -/
theorem test_fw_magic : (inFw .load).fw.state = .load ∧ (Memory.empty.writeBytes 0 (dieBytes (inFw .load).mem 65536 0 256)).le 0 4 ≠ 0x4B504D45 ∧
    ends (.firmwareVerify true) (inFw .load) (fun t => t.fw.state == .fail && t.fw.reason == 1) := by decide +kernel
/-- R334. -/
def burning : State := { inFw .run with fw := { (inFw .run).fw with arcBusy := true } }
theorem test_arc : burning.fw.arcBusy = true ∧ burning.fuses.arc ≤ burning.fw.svn ∧ ends (.arcAdvanceEnd none) burning (fun t => t.fuses.arc == 2 && !t.fw.arcBusy) ∧
    0 < burning.fw.svn - burning.fuses.arc ∧ ends (.arcAdvanceEnd (some 0)) burning (fun t => t.fuses.arc == 1 && t.fw.arcErr) := by decide

/-! ## Power, clocks, test port -/

/-- Domain 37 in a state, with target and goal. -/
def withDom (st : PwrState) (target goal : Nat) : State := base.updDom 37 (fun x => { x with state := st, target := target, goal := goal })
/-- R395, R398. -/
theorem test_targets : base.power.doms.length = 40 ∧ (base.dom 37).vreq ≤ 60 ∧ (∀ k, k < 40 → (base.dom k).wantUp = false) ∧ domIdle base 37 = true ∧
    ends (.powerTargetWrite 1 37 1) base (fun t => domState t 37 == .down && (t.dom 37).goal == 1 && !(t.dom 37).vgood) ∧
    ends (.powerTargetWrite 1 37 2) (withDom .down 0 0) (fun t => domState t 37 == .pendingOn) ∧
    ends (.vreqWrite 1 37 60) base (fun t => (t.dom 37).vreq == 60 && !(t.dom 37).vgood && (t.dom 37).req == some (60, 2)) := by decide
/-- Domain 34 is in use: the hash accumulator and the engine reserve keep domain 35 from idling (R298, R395). -/
theorem test_target_held : domState base 35 = .on ∧ domIdle base 35 = false ∧ ends (.powerTargetWrite 1 35 0) base (fun t => domState t 35 == .on && (t.dom 35).held) := by
  decide
def heldDom : State := base.updDom 37 (fun x => { x with held := true, target := 0 })
theorem test_held_applies : (heldDom.dom 37).held = true ∧ ends (.heldTargetApply 37) heldDom (fun t => domState t 37 == .down && !(t.dom 37).held) := by decide
/-- R393, R394, R397. -/
def rising : State := { base with pcores := base.pcores.modify 1 (fun x => { x with scratch := Memory.empty.writeLe 0 8 1 }) }.updDom 0 (fun x =>
  { x with state := .up, fromOff := true })
theorem test_transition_up : rising.boot.booting = false ∧ (rising.dom 0).target = 2 ∧ (rising.dom 0).fromOff = true ∧ (∀ k, k < 40 → (rising.dom k).wantUp = false) ∧
    ends (.powerTransitionDone 0 [] [] []) rising (fun t => domState t 0 == .on && (t.pcore 1).scratch == .empty) := by decide
theorem test_transition_down : ((withDom .down 1 1).dom 37).target = ((withDom .down 1 1).dom 37).goal ∧
    ends (.powerTransitionDone 37 [] [] []) (withDom .down 1 1) (fun t => domState t 37 == .retain) ∧
    ends (.powerTransitionDone 37 [] [] []) (withDom .down 0 0) (fun t => domState t 37 == .off) := by decide
theorem test_transition_pending : domState (withDom .pendingOn 2 0) 37 = .pendingOn ∧ (∀ k, k < 40 → domState (withDom .pendingOn 2 0) k ≠ .up) ∧
    ends (.powerTransitionDone 37 [] [] []) (withDom .pendingOn 2 0) (fun t => domState t 37 == .up) := by decide
/-- R431, R432. -/
def asked : State := base.updDom 3 (fun x => { x with vgood := false, req := some (40, 2) })
theorem test_regulator : (asked.dom 3).req = some (40, 2) ∧ ends (.regulatorAck 3 40) asked (fun t => (t.dom 3).vgood && (t.dom 3).vack == 40) ∧
    ends (.regulatorAck 3 41) asked (fun t => !(t.dom 3).vgood) := by decide
theorem test_sample : (base.accts.samples.map (·.1)).Pairwise (· < ·) ∧ ends (.currentSample 37 9) base (fun t => lookupD 0 t.accts.samples 37 == 9) := by decide
/-- R316: 3 x 10 mA at 700 mV for 1 us are 21 nJ. -/
def sampled : State := { base with accts := { base.accts with samples := [(37, 3)] } }
theorem test_energy : (sampled.accts.of 65536).energy + (sampled.accts.idleRest + 3 * 700) / 100 < 2 ^ 64 ∧ (sampled.accts.list.map (·.1)).Pairwise (· < ·) ∧
    ends (.energyInterval 70 700 []) sampled (fun t => (t.accts.of 65536).energy == 21 && t.accts.idleRest == 0 && t.accts.total == 21) := by decide
/-- R389, R392. -/
theorem test_holds : 67 ∉ base.power.uv ∧ ends (.undervoltageHold 67) base (fun t => domHeld t 67 && (t.dom 33).uvcnt == 1 && t.irq.stat.getLsbD irqPower) ∧
    67 ∉ base.power.th ∧ ends (.thermalHold 67 111) base (fun t => domHeld t 67 && (t.dom 33).thcnt == 1) ∧ ends (.clockStop 72) base (fun t => domHeld t 72) := by
  decide
def held3 : State := { base with power := { base.power with uv := [3], th := [3], stopped := [72] } }
theorem test_releases : ends (.undervoltageRelease 3) held3 (fun t => t.power.uv == []) ∧ ends (.thermalRelease 3 100) held3 (fun t => t.power.th == []) ∧
    keeps (.thermalRelease 3 101) held3 = true ∧ ends (.clockResume 72) held3 (fun t => t.power.stopped == []) := by decide
/-- R433: IEEE 1149.1. -/
def shifting : State := { base with tap := { base.tap with state := .drShift, dr := true } }
theorem test_tap : ends (.tapTckEdge true false false) shifting (fun t => !t.tap.dr && t.tap.state == .drShift) ∧ shifting.tap.instr = .bypass ∧
    ends (.tapTckEdge false false false) shifting (fun t => t.tap.tdo) ∧ ends (.tapTckEdge true true false) shifting (fun t => t.tap.state == .drExit1) := by decide

/-! ## Fault records, links, injection -/

/-- A record. -/
def rec7 : FltRec := ⟨7, false, 0, 0x7F, none, 7, 0, 0, 0⟩
/-- R359, R348. -/
theorem test_flt_pop : ends (.fltPop 1) { base with flt := { base.flt with recs := [rec7] } } (fun t => t.flt.recs == []) ∧ base.flt.recs = [] ∧
    ends (.fltPop 1) base counted ∧ ends (.retSeedWrite 1 true 0xF3) (inFw .wait) (fun t => t.flt.seed1 == 3) := by decide
/-- R340, R341. -/
def linked (n : Nat) : State := { base with flt := { base.flt with links := [⟨.fabric 2, 0, false, 5, n⟩] } }
theorem test_frames : linkWorks (linked 3) (.fabric 2) = true ∧ ends (.linkFrameReceive (.fabric 2) 5 true) (linked 3) (fun t =>
      linkOf t (.fabric 2) == ⟨.fabric 2, 0, false, 6, 0⟩) ∧ (linkOf (linked 3) (.fabric 2)).attempts < 15 ∧
    ends (.frameResendTimeout (.fabric 2)) (linked 3) (fun t => linkOf t (.fabric 2) == ⟨.fabric 2, 1, false, 5, 4⟩) := by decide
theorem test_link_fails : (linkOf (linked 15) (.fabric 2)).attempts = 15 ∧ (linked 15).flt.ports &&& ~~~(1#8 <<< 2) ≠ 0 ∧
    ends (.frameResendTimeout (.fabric 2)) (linked 15) (fun t => (linkOf t (.fabric 2)).failed && t.flt.ports == 0xFB && t.flt.recs.map (·.kind) == [7]) := by
  decide
/-- R360, Table 14.7. -/
theorem test_arm : domOn base 39 = true ∧ ((BitVec.ofNat 64 (6 * 2 + 3 * 2 ^ 16)).extractLsb' 1 3).toNat ∈ [1, 2, 3, 4, 5, 6] ∧
    ends (.fiArm 1 (BitVec.ofNat 64 (6 * 2 + 3 * 2 ^ 16))) base (fun t => t.flt.fiCtl == BitVec.ofNat 64 (1 + 6 * 2 + 3 * 2 ^ 16)) := by decide
def armed : State :=
  { base with flt := { base.flt with fiCtl := BitVec.ofNat 64 (1 + 5 * 2 + 2 ^ 16), fiTgt := BitVec.ofNat 64 (4 + 67 * 8), fiAddr := 16 } }
theorem test_injects : armed.flt.fiDone = 0 ∧ 16 < Config.scratchBytes := by decide
theorem test_injection : ends .injection armed (fun t => t.flt.fiDone == 1 && t.flt.flips == [(.scratch 67, 16, false)] && !t.flt.fiCtl.getLsbD 0 &&
    t.flt.recs.map (fun r => (r.inj, r.pcore)) == [(true, 67)]) := by decide

/-- An image with header and 16 bytes of zeros, signed with the private key 1 and the nonce 1: the public key is the base point. -/
def signedHeader : List Byte :=
  leBytes 4 0x4B504D45 ++ leBytes 4 1 ++ leBytes 4 2 ++ leBytes 4 16 ++ leBytes 4 0 ++ leBytes 4 9 ++ List.replicate 40 0 ++ (leBytes 48 ecG.1).reverse ++
    (leBytes 48 ecG.2).reverse ++ (leBytes 48 (ecG.1 % ecN)).reverse ++
    (leBytes 48 0xf6c00cc95e13b22d8a96ae80c1a977940975979eb01cd77bedb2dbc3d4db5926f07ff66cf17d485c0ddbb8f7670f1c5d).reverse
def keyHash : List Byte := (leBytes 48 0xa19d4db171b582eb8052b0cfe555e17894aa22d1c8a9770950697dd8f796d2fa4bf0a56ad80006b7ea08e1191f814b65).reverse
def verifying : State :=
  { base with
    fw := { base.fw with state := .verify, image := Memory.empty.writeBytes 0 signedHeader }
    boot := { base.boot with phase := 2 }
    fuses := { base.fuses with keyHash := keyHash, arc := 2 } }
/-- R329, R330: the image is verified, and boot goes on from PHASE 2. -/
theorem test_image : imageFault verifying = none := by decide +kernel
def copying : State := { base with mem := Memory.empty.writeBytes 4096 signedHeader, fw := { base.fw with state := .load, addr := 4096 } }
theorem test_copy : headerFault copying (Memory.empty.writeBytes 0 (dieBytes copying.mem copying.extent copying.fw.addr 256)) true = none ∧
    ends (.firmwareVerify true) copying (fun t => t.fw.state == .verify && t.fw.image.le 20 4 == 9) := by decide +kernel
/-- R329: another key than the fuses name. -/
theorem test_wrong_key : burning.fuses.keyHash ≠ sha384 ([] : List Byte) ∧ ends (.firmwareVerify true) (inFw .verify) (fun t => t.fw.state == .fail && t.fw.reason == 4) := by
  decide +kernel

/-! ## Queues and packets -/

/-- A command of queue 0 and job 0 with sequence number 1 at ring index 0. -/
def cmd (op : Nat) (st : Stage) (ps : List Word) : Cmd :=
  { qid := 0, job := 0, seq := 1, ring := 0, op := op, irq := false, gend := false, early := false, client := 1, step := 5, dtab := 0, wdecl := 0
    params := ps ++ List.replicate (11 - ps.length) 0, descs := [], loopd := none, binds := [], stage := st, refusal := none, conds := [], infF := false
    nanF := false, exc := none, amaxOut := [], colsMem := false, normLeaves := [], result := none, trip := 0, spillCs := 0, spillMem := 0, weak := false
    loopb := false, skip := false, iter := 0, lastBody := true, chain := 0, ring2 := 0, cseqAdd := 0, wt := false, units := 0, folded := 0, foldUnits := 0, retries := 0, runs := []
    staged := [], held := [], seed := 0, margins := [], scales := [], tags := [], leaves := [], rd := 0, wr := 0, energy := 0, owedR := 0, owedNs := 0, owedE := 0, adv := true, mute := false }
/-- A queue of job 0 that is ON: ring of 16 packets at 0x1000, replies at 0x3000. -/
def ctx0 : QCtx := { parseCtx 0 with
  rbase := 0x1000, rlog2 := 4, pkfmt := 1, pbase := 0x3000, plog2 := 4, nextSeq := 1, state := .on }
/-- An engine with queue 0 resident, job 0 on the first row of cores with 16 MiB, and some commands; contexts lie from 0x8000. -/
def queued (x : QCtx) (cs : List Cmd) : State :=
  { base with
    q := { base.q with base := 0x8000, baseValid := true, res := [QRes.fresh 0 0 x], cmds := cs }
    conf := { base.conf with jobs := base.conf.jobs.set 0 { Job.reset with mask := 1, psize := 16, enable := true, active := true, ctrs := [⟨5, 9, 0, [7]⟩] } } }

/-- R281: an index at the end of the ring, and one that PWR has reached. -/
theorem test_bells : admissionOpen (queued ctx0 []) = true ∧ hasContext (queued ctx0 []) 0 = true ∧
    ends (.qbellPackets 1 (BitVec.ofNat 64 (15 * 2 ^ 32))) (queued ctx0 []) (fun t => (t.q.find 0).map (·.ctx.tail) == some 15) ∧
    ends (.qbellReplies 1 (BitVec.ofNat 64 (3 * 2 ^ 32))) (queued { ctx0 with pwr := 3 } []) (fun t => (t.q.find 0).map (·.ctx.prd) == some 3) := by decide
theorem test_bell_outside : 2 ^ ctx0.rlog2 ≤ 16 ∧ ends (.qbellPackets 1 (BitVec.ofNat 64 (16 * 2 ^ 32))) (queued ctx0 []) (fun t =>
    counted t && (t.q.find 0).map (·.ctx.tail) == some 0) ∧ ends (.qbellReplies 1 (BitVec.ofNat 64 (16 * 2 ^ 32))) (queued ctx0 []) counted := by decide
/-- Table 11.9. -/
theorem test_enable : ({ ctx0 with state := .off } : QCtx).legal = true ∧
    ends (.queueEnable 1 0) (queued { ctx0 with state := .off } []) (fun t => (t.q.find 0).map (·.ctx.state) == some .on && t.q.baseLock) ∧
    ends (.queueEnable 1 0) (queued { ctx0 with state := .draining } []) (fun t => (t.q.find 0).map (·.ctx.state) == some .pendingOn) := by decide +kernel
theorem test_disable : ends (.queueDisable 1 0) (queued ctx0 []) (fun t => (t.q.find 0).map (·.ctx.state) == some .off) ∧
    ends (.queueDisable 1 0) (queued ctx0 [cmd 0x51 .admitted []]) (fun t => (t.q.find 0).map (·.ctx.state) == some .draining) := by decide
theorem test_bring_in : keeps (.queueBringIn 1 0) (queued ctx0 []) = true := by decide +kernel
theorem test_evict : inUse (queued ctx0 []).q (QRes.fresh 0 0 ctx0) = false ∧ (queued ctx0 []).q.pend = [] ∧
    ends (.queueEvict 1 0) (queued { ctx0 with pwr := 3 } []) (fun t => t.q.find 0 == none && !(t.mem == Memory.empty)) ∧
    inUse (queued ctx0 [cmd 0x51 .read []]).q (QRes.fresh 0 0 ctx0) = true ∧ ends (.queueEvict 1 0) (queued ctx0 [cmd 0x51 .read []]) counted := by decide +kernel
/-- R283: two packets posted, one command admitted. -/
def canceled : State := queued { ctx0 with head := 1, tail := 3, nextSeq := 2 } [cmd 0x51 .admitted []]
theorem test_cancel : (∀ c ∈ canceled.q.cmds, c.qid = 0 → c.loopb = false ∧ c.stage = .admitted ∧ c.op = 0x51) ∧
    ends (.queueCancel 1 0) canceled (fun t => t.q.cmds.map (fun c => (c.stage, c.seq)) == [(.ended, 1), (.refused, 2), (.refused, 3)] &&
      (t.q.find 0).map (fun y => (y.ctx.head, y.ctx.state)) == some (3, .draining)) := by decide
/-- R286: memory that reads 0 holds no legal packet; a NOP of sequence number 1 is one. -/
def posted : State := queued { ctx0 with tail := 1 } []
theorem test_packet_refused : nextEntry posted (QRes.fresh 0 0 { ctx0 with tail := 1 }) = some 0 ∧ ends (.packetRead 0) posted (fun t => counted t &&
    (t.q.find 0).map (·.ctx.head) == some 1 && t.q.cmds.map (fun c => (c.stage, c.refusal.map (·.code))) == [(.refused, some 0x7E)]) := by decide +kernel
def nopPacket : List Byte := [1, 0x7F, 0, 0, 1, 0, 0, 0] ++ List.replicate 52 0
def posted1 : State := { posted with mem := Memory.empty.writeBytes 0x1000 (nopPacket ++ leBytes 4 (crc32c nopPacket)) }
theorem test_packet_read : ends (.packetRead 0) posted1 (fun t => (t.q.find 0).map (fun y => (y.ctx.head, y.ctx.nextSeq)) == some (1, 2) &&
    t.q.cmds.map (fun c => (c.stage, c.op, c.seq)) == [(.read, 0x7F, 1)]) := by decide +kernel

/-- R285, R289: a NOP of a job without a placement, and a FENCE, which needs none. -/
def readCmd (op : Nat) : State := queued { ctx0 with head := 1, tail := 1, nextSeq := 2 } [cmd op .read []]
theorem test_admitted : (readCmd 0x51).flt.lost = false ∧ (nextQueue (readCmd 0x51) 0).isSome = true ∧
    (nextQueue (readCmd 0x51) 0).bind (readyIn (readCmd 0x51)) = some (cmd 0x51 .read []) ∧
    verdict (readCmd 0x51) (QRes.fresh 0 0 { ctx0 with head := 1, tail := 1, nextSeq := 2 }) (cmd 0x51 .read []) false = none ∧
    ((cmd 0x51 .read []).entries (readCmd 0x51) 0).length ≤ Config.ittEntries ∧ isCollective 0x51 = false ∧
    ends (.admission 0) (readCmd 0x51) (fun t => t.q.cmds.map (·.stage) == [.admitted]) := by decide
def unplaced (op : Nat) : State := { readCmd op with conf := { base.conf with jobs := base.conf.jobs.set 0 Job.reset } }
theorem test_refused : (nextQueue (unplaced 0x7F) 0).bind (readyIn (unplaced 0x7F)) = some (cmd 0x7F .read []) ∧
    (verdict (unplaced 0x7F) (QRes.fresh 0 0 { ctx0 with head := 1, tail := 1, nextSeq := 2 }) (cmd 0x7F .read []) false).isSome = true ∧
    ends (.admission 0) (unplaced 0x7F) (fun t => t.q.cmds.map (fun c => (c.stage, c.refusal.map (·.code))) == [(.refused, some 0x22)]) := by decide
/-- R277, R278, Table 11.5: the reply of a NOP that ended lies at PBASE with its SEQ and status 0. -/
def endedNop : State := queued ctx0 [{ cmd 0x7F .ended [] with irq := true }]
theorem test_completion : completable endedNop (QRes.fresh 0 0 ctx0) = some { cmd 0x7F .ended [] with irq := true } ∧ (endedNop.conf.job 0).slice = 0 ∧
    endedNop.q.pend = [] ∧ ctx0.halterr = false ∧
    ends (.commandCompletion 0 ⟨0, 0, 0, 0, 0, 0, 0⟩) endedNop (fun t => t.mem.le 0x3000 4 == 1 && t.mem.le 0x3004 1 == 0 && t.q.cmds.isEmpty &&
      (t.q.find 0).map (·.ctx.pwr) == some 1 && t.irq.pend == 1 && (t.accts.of 1).cmds == 1) := by decide +kernel
/-- Table 11.6: of OOB and UNCORR the reply names UNCORR. -/
theorem test_status : (statusOf { cmd 0x40 .ended [] with conds := [⟨0x10, 7, 1⟩, ⟨0x60, 5, 1⟩] }).code = 0x60 ∧
    (statusOf (cmd 0x7F .ended [])).code = 0 ∧ (statusOf { cmd 0x40 .refused [] with refusal := some ⟨0x22, 3, 0⟩ }).code = 0x22 := by decide
/-- R308, R310: job 1 follows job 0, whose save has completed. -/
def readyJob : Job := { Job.reset with mask := 1, psize := 1, enable := true }
def switching : State :=
  { base with conf := { base.conf with jobs := (base.conf.jobs.set 0 { readyJob with saving := true, incoming := some 1, saveClient := 4 }).set 1 readyJob } }
theorem test_restored : (switching.conf.job 0).saving = true ∧ (switching.conf.job 0).incoming = some 1 ∧ (switching.conf.job 1).image = none ∧
    (switching.conf.job 1).debt = 0 ∧ switching.conf.jobs.length = 8 ∧ (switching.conf.job 1).enabled = true ∧ (switching.conf.job 0).saveClient ≠ noClient ∧
    samePlacement (switching.conf.job 1) (switching.conf.job 0) = true ∧
    ends (.contextRestore 1 40 0) switching (fun t => (t.conf.job 1).active && !(t.conf.job 0).saving && (t.accts.of 4).xns == 40) := by decide

/-! ## The Keeper's commands -/

/-- An admitted command of queue 0. -/
def admitted (op : Nat) (ps : List Word) : State := queued ctx0 [cmd op .admitted ps]
theorem test_nop : Starts (admitted 0x7F []) 0 0x7F (cmd 0x7F .admitted []) ∧ ends (.nop 0) (admitted 0x7F []) (fun t => t.q.cmds.map (·.stage) == [.ended]) := by
  unfold Starts State.Alone; decide
theorem test_chain : Starts (admitted 0x59 []) 0 0x59 (cmd 0x59 .admitted []) ∧ ends (.chain 0) (admitted 0x59 []) (fun t => t.q.cmds.map (·.stage) == [.ended]) := by
  unfold Starts State.Alone; decide
theorem test_barrier : Starts (admitted 0x50 []) 0 0x50 (cmd 0x50 .admitted []) ∧ isFirst (admitted 0x50 []) (cmd 0x50 .admitted []) = true ∧
    ends (.barrier 0) (admitted 0x50 []) (fun t => t.q.cmds.map (·.stage) == [.ended]) := by unfold Starts State.Alone; decide
/-- R128, R291, R300: the barrier of the idle cores brings the staged HSIZE in. -/
def allCore : State := { admitted 0x50 [1] with conf := { (admitted 0x50 [1]).conf with drain := true, staged := [⟨1, 0, 3⟩] } }
theorem test_all_core : Starts allCore 0 0x50 (cmd 0x50 .admitted [1]) ∧ (cmd 0x50 .admitted [1]).pb 0 0 = true ∧ allIdle allCore = true ∧ allCore.q.pend = [] ∧
    ends (.barrier 0) allCore (fun t => t.q.cmds.map (·.stage) == [.ended] && !t.conf.drain && t.conf.hsize == 3) ∧
    ends .stagedConfigApply allCore (fun t => t.conf.hsize == 3 && t.conf.staged.isEmpty) := by unfold Starts State.Alone; decide
def coreBusy : State := { allCore with lcores := allCore.lcores.modify 9 (fun x => { x with run := .running }) }
theorem test_all_core_waits : Starts coreBusy 0 0x50 (cmd 0x50 .admitted [1]) ∧ coreBusy.lcores.any (fun x => x.run != .idle) = true ∧
    ends (.barrier 0) coreBusy (fun t => t.q.cmds.map (·.stage) == [.started]) := by unfold Starts State.Alone; decide
/-- R290: DONESEQ 3 has reached 3 and not 4; bit 22 of a parameter marks it valid. -/
def fenced (n : Nat) : State := queued { ctx0 with doneSeq := 3 } [cmd 0x51 .admitted [BitVec.ofNat 64 (2 ^ 22 + n * 2 ^ 32)]]
theorem test_fence : Starts (fenced 3) 0 0x51 (cmd 0x51 .admitted [BitVec.ofNat 64 (2 ^ 22 + 3 * 2 ^ 32)]) ∧ runningOp (fenced 3) 0 0x51 = none ∧
    (∀ k, k < 8 → (cmd 0x51 .admitted [BitVec.ofNat 64 (2 ^ 22 + 3 * 2 ^ 32)]).pb k 22 = true →
      ((ctxOf (fenced 3) ((cmd 0x51 .admitted [BitVec.ofNat 64 (2 ^ 22 + 3 * 2 ^ 32)]).pf k 0 22)).doneSeq -
        BitVec.ofNat 32 ((cmd 0x51 .admitted [BitVec.ofNat 64 (2 ^ 22 + 3 * 2 ^ 32)]).pf k 32 32)).toNat < 2 ^ 31) ∧
    ends (.fence 0) (fenced 3) (fun t => t.q.cmds.map (·.stage) == [.ended]) := by unfold Starts State.Alone; decide
theorem test_fence_waits : Starts (fenced 4) 0 0x51 (cmd 0x51 .admitted [BitVec.ofNat 64 (2 ^ 22 + 4 * 2 ^ 32)]) ∧
    (cmd 0x51 .admitted [BitVec.ofNat 64 (2 ^ 22 + 4 * 2 ^ 32)]).pb 0 22 = true ∧ 2 ^ 31 ≤ (3#32 - 4#32).toNat ∧
    ends (.fence 0) (fenced 4) (fun t => t.q.cmds.map (·.stage) == [.started]) := by unfold Starts State.Alone; decide
/-- R292: the word at 0x6000 is 9. -/
def polled (st : Stage) (v : Nat) (eq : Word) : State :=
  { queued ctx0 [cmd 0x53 st [0x6000, BitVec.ofNat 64 v, eq]] with mem := Memory.empty.writeLe 0x6000 8 9 }
theorem test_waitq : Starts (polled .admitted 9 1) 0 0x53 (cmd 0x53 .admitted [0x6000, 9, 1]) ∧
    ends (.waitq 0) (polled .admitted 9 1) (fun t => t.q.cmds.map (·.stage) == [.ended]) ∧
    ends (.waitq 0) (polled .admitted 10 0) (fun t => t.q.cmds.map (·.stage) == [.started]) ∧
    ends (.waitq 0) (polled .admitted 8 1) (fun t => t.q.cmds.map (·.stage) == [.started]) := by unfold Starts State.Alone; decide
theorem test_waitq_poll : runningOp (polled .started 8 0) 0 0x53 = some (cmd 0x53 .started [0x6000, 8, 0]) ∧
    ends (.waitqPoll 0) (polled .started 8 0) (fun t => t.q.cmds.map (·.stage) == [.ended]) ∧
    ends (.waitqPoll 0) (polled .started 10 0) (fun t => t.q.cmds.map (·.stage) == [.started]) := by decide
/-- R294: the trip word at 0x6000 is 9; TMAX 8 cuts it. -/
def looped : State :=
  { queued { ctx0 with head := 1 } [cmd 0x52 .admitted [BitVec.ofNat 64 (0x6000 + 2 * 2 ^ 48), 8]] with mem := Memory.empty.writeLe 0x6000 8 9 }
theorem test_loop : Starts looped 0 0x52 (cmd 0x52 .admitted [BitVec.ofNat 64 (0x6000 + 2 * 2 ^ 48), 8]) ∧ ends (.loop 0) looped (fun t =>
    t.q.cmds.map (fun c => (c.stage, c.trip, c.conds)) == [(.ended, 8, [⟨0x10, 9, 1⟩])] &&
    (t.q.find 0).map (fun y => (y.ctx.loopActive, y.ctx.loopT, y.ctx.loopBody, y.ctx.loopBodyM1)) == some (true, 8, 1, 2)) := by unfold Starts State.Alone; decide
/-- R275, Table 11.4: one item at 0x6000: the seed of client 6 is 77; and an item code that does not exist. -/
def configured (item : Nat) : State :=
  { queued ctx0 [cmd 0x70 .admitted [0x6000, 1]] with mem := ((Memory.empty.writeLe 0x6000 2 item).writeLe 0x6002 2 6).writeLe 0x6008 8 77 }
theorem test_cfg : Starts (configured 0x04) 0 0x70 (cmd 0x70 .admitted [0x6000, 1]) ∧ itemsFault (configured 0x04) (cmd 0x70 .admitted [0x6000, 1]) = none ∧
    cfgWhole (configured 0x04) (cfgItems (configured 0x04) (cmd 0x70 .admitted [0x6000, 1])) = true ∧
    (cfgItems (configured 0x04) (cmd 0x70 .admitted [0x6000, 1])).length = 1 ∧
    ends (.cfg 0) { configured 0x04 with lcores := coreBusy.lcores } (fun t => t.conf.seeds == [(6, 77)] && t.q.cmds.map (·.stage) == [.ended]) := by
  unfold Starts State.Alone; decide
theorem test_cfg_ignored : Starts (configured 0x7FFF) 0 0x70 (cmd 0x70 .admitted [0x6000, 1]) ∧
    (itemsFault (configured 0x7FFF) (cmd 0x70 .admitted [0x6000, 1])).isSome = true ∧
    ends (.cfg 0) (configured 0x7FFF) (fun t => t.q.cmds.map (fun c => (c.stage, c.refusal.map (·.code))) == [(.refused, some 0x7E)]) := by unfold Starts State.Alone; decide

/-! ## Core programs -/

/-- A `RUNP` of queue 0 runs the words `ws` on core 0, whose program is changed by `f`; parameter words `ps`. -/
def coreProg (ps : List Word) (ws : List Nat) (f : LCore → LCore) : State :=
  let s := queued ctx0 [cmd 0x58 .started ps]
  { s with
    lcores := s.lcores.set 0 (f { LCore.reset with run := .running, len := 10, half := 1, seq := 1 })
    pcores := s.pcores.modify 0 (fun p => { p with pmem := Memory.empty.writeBytes 0 (ws.flatMap (leBytes 8)) }) }
def running (w : Nat) (f : LCore → LCore) : State := coreProg [] [w] f
/-- The program's instruction 0 may issue. -/
def may (s : State) (w : Nat) : Bool :=
  progReady s 0 && !(s.prog 0).regs.fin && progCmd s 0 == some (s.q.cmds.headD (cmd 0 .read [])) && fetchWord s 0 == w
/-- `S1` to `S3` set; generator 1 at `a` of a space, generator 2 at `b` of another. -/
def regs3 (x y z : Word) (l : LCore) : LCore := { l with regs := { l.regs with sregs := [0, x, y, z] ++ List.replicate 28 0 } }
def genAt (sp a : Nat) : AddrGen := { AddrGen.reset with base := BitVec.ofNat 48 a, space := BitVec.ofNat 3 sp }
def gens (sp a sq b : Nat) (l : LCore) : LCore := { l with regs := { l.regs with ags := (l.regs.ags.set 1 (genAt sp a)).set 2 (genAt sq b) } }
def scratchHas (m : Memory) (s : State) : State := { s with pcores := s.pcores.modify 0 (fun p => { p with scratch := m }) }

/-- R115: bit 0 of a `NOP`, and opcode 0x07. -/
theorem test_illegal : rsvBits (wordOf 0x00 [(1, 0)]) [] = true ∧ bf (wordOf 0x07 []) 56 8 ∉ opcodes ∧ Issues (running (wordOf 0x07 []) id) 0 (cmd 0x58 .started []) (wordOf 0x07 []) ∧
    [wordOf 0x00 [(1, 0)], wordOf 0x07 []].all (fun w => ends (.nopInstruction 0) (running w id) (fun t => counted t &&
      ((t.prog 0).illCnt, (t.prog 0).illWord, (t.prog 0).illAddr, (t.prog 0).regs.pc) == (1, BitVec.ofNat 64 w, some 0, 1))) = true := by
  unfold Issues; decide
/-- Table 5.3: minus 8 shifted right by 1 keeps its sign; the word's bit of the immediate. -/
def sra : Nat := wordOf 0x01 [(3, 51), (1, 46), (2, 41), (0, 40), (7, 36), (0, 0)]
theorem test_salu : may (running sra (regs3 (-8) 1 0)) sra = true ∧ ends (.salu 0) (running sra (regs3 (-8) 65 0)) (fun t =>
    (t.prog 0).reg 3 == -4 && (t.prog 0).regs.pc == 1) ∧
    ends (.salu 0) (running (wordOf 0x01 [(3, 51), (1, 46), (0, 41), (1, 40), (0, 36), (0xFFFFFFFF, 0)]) (regs3 5 0 0)) (fun t => (t.prog 0).reg 3 == 4) ∧
    ends (.salu 0) (running (wordOf 0x01 [(0, 51), (1, 46), (0, 41), (1, 40), (0, 36), (7, 0)]) (regs3 5 0 0)) (fun t => (t.prog 0).reg 0 == 0) := by
  decide
theorem test_sli : ends (.sli 0) (running (wordOf 0x02 [(1, 51), (0, 50), (0x80000000, 0)]) id) (fun t => (t.prog 0).reg 1 == 0xFFFFFFFF80000000) ∧
    ends (.sli 0) (running (wordOf 0x02 [(1, 51), (1, 50), (7, 0)]) (regs3 0x500000009 0 0)) (fun t => (t.prog 0).reg 1 == 0x700000009) := by decide
/-- Table 5.4: ST0 from the low half of `S1`; a space that does not exist is illegal. -/
theorem test_ags : ends (.ags 0) (running (wordOf 0x05 [(2, 52), (2, 48), (1, 43)]) (regs3 0x1FFFFFFF0 0 0)) (fun t => ((t.prog 0).ag 2).st0 == 0xFFFFFFF0) ∧
    ends (.ags 0) (running (wordOf 0x05 [(2, 52), (1, 48), (1, 40), (4, 0)]) id) counted := by decide
/-- R116: extents 2 and 3, five uses: i0 = 1, i1 = 2. -/
def stepping (l : LCore) : LCore :=
  { l with regs := { l.regs with ags := l.regs.ags.set 4 { AddrGen.reset with base := 100, st0 := 10, ex0 := 2, st1 := -1, ex1 := 3 } } }
theorem test_aga : ends (.aga 0) (running (wordOf 0x06 [(4, 52), (1, 40), (5, 0)]) stepping) (fun t =>
    (((t.prog 0).ag 4).i0, ((t.prog 0).ag 4).i1, ((t.prog 0).ag 4).addr) == (1, 2, 108)) := by decide
theorem test_br : ends (.br 0) (running (wordOf 0x08 [(1, 51), (3, 48), (6, 0)]) (regs3 (-1) 0 0)) (fun t => (t.prog 0).regs.pc == 6) ∧
    ends (.br 0) (running (wordOf 0x08 [(1, 51), (1, 48), (6, 0)]) (regs3 (-1) 0 0)) (fun t => (t.prog 0).regs.pc == 1) := by decide
/-- Table 5.3: three iterations of the body at address 1; and none. -/
theorem test_loop_start : ends (.loopInstruction 0) (running (wordOf 0x09 [(2, 53), (1, 47), (1, 32), (3, 0)]) id) (fun t =>
    (t.prog 0).regs.stack == [2] && (t.prog 0).regs.lcs[2]? == some ⟨3, 1, 1, true⟩ && (t.prog 0).regs.pc == 1) ∧
    ends (.loopInstruction 0) (running (wordOf 0x09 [(2, 53), (1, 47), (4, 32), (0, 0)]) id) (fun t => (t.prog 0).regs.pc == 5 && (t.prog 0).regs.stack == []) := by
  decide
def looping (n : Nat) (l : LCore) : LCore := { l with regs := { l.regs with stack := [2], lcs := l.regs.lcs.set 2 ⟨BitVec.ofNat 32 n, 0, 0, true⟩ } }
theorem test_loop_end : ends (.nopInstruction 0) (running 0 (looping 2)) (fun t => (t.prog 0).regs.pc == 0 && (t.prog 0).regs.lcs[2]? == some ⟨1, 0, 0, true⟩) ∧
    ends (.nopInstruction 0) (running 0 (looping 1)) (fun t => (t.prog 0).regs.pc == 1 && (t.prog 0).regs.stack == [] &&
      (t.prog 0).regs.lcs[2]? == some ⟨0, 0, 0, false⟩) := by decide
/-- R114: the only program halts; it halts with a drain still to do; it runs off its image. -/
def waitingDrain (l : LCore) : LCore := { l with drains := [⟨0, 0, 0, 0, 0, false, true, 0, 0, [], 0, false, 0, false, 0, 0, [], 0, 0, 0, 0, 0, 0, [], [], []⟩] }
theorem test_halt : (0 ∈ ((running (wordOf 0x0F []) id).conf.job 0).cores) ∧ (∀ i ∈ progsOf (running (wordOf 0x0F []) id) (cmd 0x58 .started []), i = 0) ∧
    ends (.halt 0) (running (wordOf 0x0F []) id) (fun t => t.q.cmds.map (·.stage) == [.ended] && (t.prog 0).run == .idle) ∧
    ends (.halt 0) (running (wordOf 0x0F []) waitingDrain) (fun t => t.q.cmds.map (·.stage) == [.started] && (t.prog 0).run == .halted) := by decide
theorem test_program_end : ends (.programEnd 0) (running 0 (fun l => { l with regs := { l.regs with fin := true } })) (fun t =>
    counted t && t.q.cmds.map (·.stage) == [.ended]) ∧
    ends (.programEnd 0) (running 0 (fun l => { waitingDrain l with regs := { l.regs with fin := true } })) (fun t =>
    counted t && t.q.cmds.map (·.stage) == [.started] && (t.prog 0).run == .halted) := by decide

/-! ## Loads, stores and waves -/

def word (op d k : Nat) : Nat := wordOf op [(d, 51), (k, 47)]
/-- R116, R177: the last word of the scratchpad, one that leaves it, and a word of the partition. -/
theorem test_sld : (running (word 3 5 1) (gens 0 (Config.scratchBytes - 8) 0 0)).flt = State.reset.flt ∧
    ends (.sld 0) (scratchHas (Memory.empty.writeLe (Config.scratchBytes - 8) 8 0xABCD) (running (word 3 5 1) (gens 0 (Config.scratchBytes - 8) 0 0)))
      (fun t => (t.prog 0).reg 5 == 0xABCD && (t.prog 0).oob == none) ∧
    ends (.sld 0) (running (word 3 5 1) (gens 0 (Config.scratchBytes - 7) 0 0)) (fun t => (t.prog 0).reg 5 == 0 && (t.prog 0).oob == some (0, 1)) ∧
    ends (.sld 0) { running (word 3 5 1) (gens 2 16 0 0) with cstore := Memory.empty.writeLe 16 8 77 } (fun t => (t.prog 0).reg 5 == 77) := by decide
theorem test_sst : ends (.sst 0) (running (word 4 1 1) (fun l => gens 0 64 0 0 (regs3 0x1122 0 0 l))) (fun t => (t.pcore 0).scratch.le 64 8 == 0x1122) ∧
    ends (.sst 0) (running (word 4 1 1) (fun l => gens 2 64 0 0 (regs3 0x1122 0 0 l))) (fun t => t.cstore.le 64 8 == 0x1122 && t.pcores.map (·.scratch) == base.pcores.map (·.scratch)) := by
  decide
/-- R155: one line, from the partition, to the partition, and to memory. -/
def lines (op : Nat) : Nat := wordOf op [(1, 52), (2, 48), (1, 16)]
def aLine : List Byte := (List.range 128).map (fun k => BitVec.ofNat 8 (k + 1))
theorem test_tld : ends (.tld 0) { running (lines 0x10) (gens 0 256 2 128) with cstore := Memory.empty.writeBytes 128 aLine } (fun t =>
    (t.pcore 0).scratch.bytes 256 128 == aLine && (t.prog 0).regs.pc == 1) := by decide +kernel
theorem test_tst : ends (.tst 0) (scratchHas (Memory.empty.writeBytes 256 aLine) (running (lines 0x11) (gens 0 256 2 128))) (fun t =>
    t.cstore.bytes 128 128 == aLine) ∧
    ends (.tst 0) (scratchHas (Memory.empty.writeBytes 256 aLine) (running (lines 0x11) (gens 0 256 3 0x4000))) (fun t => t.mem == Memory.empty &&
    (t.tender.xfers ++ t.tender.outq).map (fun y => (y.write, y.core, y.addr, y.len)) == [(true, 0, 0x4000, 128)] &&
    ((t.tender.xfers ++ t.tender.outq).map (·.data)) == [aLine] && (t.prog 0).regs.pc == 1) := by decide +kernel
/-- R137, R149: the complete block 0 of stream 3, with one line. -/
def bound : Binding := (parseBinding 0)
def streamed : State :=
  let s := running (wordOf 0x10 [(1, 52), (1, 47), (3, 44), (1, 16)]) (gens 0 256 0 0)
  let b := { bound with cons := 1 }
  { s with
    q := { s.q with cmds := [{ cmd 0x58 .started [] with binds := List.replicate 4 b }] }
    tender := { s.tender with streams := [⟨0, 1, 3, b, 0, 1, 1, [⟨0, 1, Memory.empty.writeBytes 0 aLine, [], 128, [], [], false⟩], [(0, 0)], true, 0, [], 0, [], [], false⟩] } }
theorem test_tld_stream : streamed.tender.streams.find? (fun o => o.isOf (cmd 0x58 .started []) && o.num == 3) = streamed.tender.streams.head? ∧
    ends (.tld 0) streamed (fun t => (t.pcore 0).scratch.bytes 256 128 == aLine && (t.prog 0).log == [.take 1 3 0] &&
      t.tender.streams.map (fun o => (o.nextOf 0, o.blocks.map (·.takers))) == [(1, [[0]])]) := by decide +kernel
/-- R118, R59: one wave of BF16, shape 3, both panels K-inner at 0 and 16384, K positions from S3 = 5: the operands of array 2, row feeder 1 are
rows 68 to 71. -/
def block : Nat := wordOf 0x20 [(3, 53), (1, 52), (1, 51), (1, 47), (2, 43), (0, 39), (0, 35), (0, 34), (0, 33), (0, 27), (1, 26), (3, 21), (1, 0)]
def waving : State :=
  running block (fun l =>
    let y := gens 0 0 0 16384 (regs3 0 0 5 l)
    { y with regs := { y.regs with ags := y.regs.ags.map (fun g => { g with st0 := 8 }) } })
def waveOp : WbOp := ⟨3, 1, true, 1, 2, 0, 0, false, false, 1, 5⟩
theorem test_wb : wbOf (waving.prog 0) block = waveOp ∧ waveOp.illegal (waving.prog 0) = false ∧
    (waveOp.addrs (waving.prog 0)).zipIdx.all (fun e => !(waving.prog 0).locked (waveOp.spans (waving.prog 0) (waveOp.ko + e.2) e.1) []) = true ∧
    ends (.wb 0) (scratchHas (Memory.empty.writeLe (128 * 69) 8 0x3F80000000000000) waving) (fun t =>
      (t.prog 0).tileWaves == [0, 1] && (t.prog 0).regs.pc == 1 &&
      (((t.pcore 0).arrays.getD 2 ArrayState.reset).feeder false 1).backlog.map (fun z => (z.plane, z.tile, z.kpos, z.ballast, z.lanes.map List.length)) ==
        [(1, 2, 5, false, [4, 4, 4, 4])] &&
      (((t.pcore 0).arrays.getD 2 ArrayState.reset).feeder false 1).backlog.map (fun z => (z.lanes.getD 1 []).map (fun e => (e.1, e.2.isZero))) ==
        [[(0, true), (1, true), (2, true), (3, false)]]) := by decide +kernel
/-- R71, R72, R119. -/
def planeWord (op mode f : Nat) : Nat := wordOf op [(1, 55), (0, 54), (mode, 52), (5, 46), (2, 42), (f, 38)]
theorem test_pld : ends (.pld 0) (running (planeWord 0x30 1 0) id) (fun t => (t.prog 0).preloads.map (fun d => (d.plane, d.src, d.slot, d.ord)) == [(1, 1, 5, 1)] &&
      (t.prog 0).preSet == [false, true] && (t.pcore 0).arrays.map (·.planes) == List.replicate 4 [.empty, .loading]) ∧
    ends (.pld 0) (running (planeWord 0x30 2 0) (gens 0 0 2 64)) (fun t => (t.prog 0).preloads.map (fun d => (d.src, d.addrs.length, d.addrs.headD 0)) == [(2, 128, 64)]) := by
  decide +kernel
theorem test_pdr : ends (.pdr 0) (running (planeWord 0x31 0 0) (fun l => { l with tileIds := [2, 6], tileWaves := [1, 4] })) (fun t =>
      (t.prog 0).drains.map (fun d => (d.plane, d.tile, d.need, d.park, d.slot)) == [(1, 6, 4, true, 5)] && (t.prog 0).tileIds == [2, 0]) ∧
    ends (.pdr 0) (running (planeWord 0x31 1 8) (gens 0 0 2 64)) (fun t =>
      (t.prog 0).drains.map (fun d => (d.park, d.fmt, d.addrs.length, d.addrs.headD 0)) == [(false, 8, 128, 64)]) := by decide +kernel
/-- R82: every row's operand of the multiply is 2.0, the pair of row 3, column 4 of array 1 is (1.5, 0). -/
def pewWord : Nat := wordOf 0x32 [(0, 55), (2, 53), (1, 49)]
def multiplied : State :=
  let s := running pewWord (gens 0 64 0 0)
  { s with pcores := s.pcores.modify 0 (fun p => { p with
      scratch := Memory.empty.writeLe 64 4 0x40000000, planes := Memory.empty.writePair (cellAddr 1 0 3 4) ⟨0x3FC00000, 0⟩ }) }
theorem test_pew : (((multiplied.prog 0).ag 1).take 128).all (fun a => decide (0 ≤ a ∧ a.toNat + 4 ≤ Config.scratchBytes)) = true ∧
    (multiplied.prog 0).locked (pieceSpans 0 ((((multiplied.prog 0).ag 1).take 128).flatMap (fun a => contiguous a 4))) [] = false ∧
    (let m := pewRows 2 0 [(13, leBytes 4 0x40000000)] (multiplied.pcore 0).planes
     m.pair (cellAddr 1 0 3 4) = ⟨0x40400000, 0⟩ ∧ m.pair (cellAddr 1 1 3 4) = Pair.zero) := by decide +kernel
/-- Table 5.5: 1.0 + 2.0 and the maximum of -1.0 and 3.0, as FP32; 1 / 4.0. -/
def vec (op fn : Nat) : Nat := wordOf op [(fn, 50), (3, 46), (1, 42), (2, 38), (8, 30), (8, 26), (1, 20), (2, 0)]
def vectors : Memory := (Memory.empty.writeLe 0 8 0xBF8000003F800000).writeLe 64 8 0x4040000040000000
theorem test_vop : ends (.vop 0) (scratchHas vectors (running (vec 0x40 0) (gens 0 0 0 64))) (fun t => (t.pcore 0).scratch.le 0 8 == 0x4000000040400000) ∧
    ends (.vop 0) (scratchHas vectors (running (vec 0x40 4) (gens 0 0 0 64))) (fun t => (t.pcore 0).scratch.le 0 8 == 0x4040000040000000 && (t.prog 0).regs.pc == 1) := by
  decide
theorem test_vred : ends (.vred 0) (scratchHas vectors (running (wordOf 0x41 [(0, 50), (7, 45), (2, 41), (8, 26), (1, 20), (2, 0)]) (gens 0 0 0 64))) (fun t =>
    (t.prog 0).reg 7 == 0x40A00000) := by decide +kernel
theorem test_vsf : ends (.vsf 0) (scratchHas (Memory.empty.writeLe 64 4 0x40800000) (running (wordOf 0x42 [(2, 50), (1, 46), (2, 42), (8, 30), (8, 26), (1, 20), (1, 0)])
    (gens 0 0 0 64))) (fun t => (t.pcore 0).scratch.le 0 4 == 0x3E800000) := by decide +kernel

/-! ## Messages, claims, barriers, marks and chains -/

/-- R121 to R123: two lines with tag 9 to core 3; cores 1 to 7 for a row multicast. -/
def sendWord (mode : Nat) : Nat := wordOf 0x50 [(mode, 54), (3, 48), (9, 40), (1, 36), (2, 30)]
theorem test_send : ends (.send 0) (running (sendWord 0) (gens 0 512 0 0)) (fun t => (t.prog 0).sends == [⟨1, 0, 9, 2, 512, [3]⟩]) ∧
    ends (.send 0) (running (sendWord 1) (gens 0 512 0 0)) (fun t => (t.prog 0).sends.map (·.dests) == [[1, 2, 3, 4, 5, 6, 7]]) := by decide
theorem test_recv : ends (.recv 0) (running (wordOf 0x51 [(3, 48), (9, 40), (1, 36), (2, 30)]) (gens 0 512 0 0)) (fun t => (t.prog 0).recvs == [⟨1, 3, 9, 2, 512⟩]) := by
  decide
def posting (l : LCore) : LCore := { l with issue := 1, sends := [⟨1, 0, 9, 1, 512, [3]⟩] }
theorem test_mwait : ends (.mwait 0) (running (wordOf 0x52 [(8, 40)]) posting) (fun t => (t.prog 0).regs.pc == 1) ∧
    ends (.mwait 0) (running (wordOf 0x52 [(9, 40)]) posting) (fun t => (t.prog 0).regs.pc == 0 && (t.prog 0).wait == 1) := by decide
def meeting : State :=
  let s := scratchHas (Memory.empty.writeBytes 512 aLine) (running 0 posting)
  { s with lcores := s.lcores.set 3 { s.prog 0 with sends := [], recvs := [⟨1, 0, 9, 1, 1024⟩] } }
theorem test_transfer : (meeting.prog 0).sends.head?.map (msgReady meeting 0) = some true ∧ ends (.messageTransfer 0 0) meeting (fun t =>
    (t.pcore 3).scratch.bytes 1024 128 == aLine && (t.prog 0).sends == [] && (t.prog 3).recvs == []) := by decide +kernel
/-- R130, R131: counter 0 of job 0 holds 5 of 9 and has bit 7; a claim, and named claims of 7 and of 9. -/
def claimWord (named : Bool) : Nat := wordOf 0x60 [(0, 52), (b2n named, 51), (4, 46), (1, 41)]
def claiming (named : Bool) (v : Word) : State := coreProg [0, 0, 0, BitVec.ofNat 64 (1 * 2 ^ 48)] [claimWord named] (regs3 v 0 0)
def ctrOf (t : State) : Option (Nat × List Nat) := (t.conf.job 0).ctrs[0]?.map (fun z => (z.value, z.bits))
theorem test_claim : ends (.claim 0) (claiming false 0) (fun t => (t.prog 0).reg 4 == 5 && ctrOf t == some (6, [5, 7])) ∧
    ends (.claim 0) (claiming true 7) (fun t => (t.prog 0).reg 4 == 0x200000007 && ctrOf t == some (5, [7])) ∧
    ends (.claim 0) (claiming true 9) (fun t => (t.prog 0).reg 4 == 0x1000000009 && ctrOf t == some (5, [7])) := by decide
/-- R126: a row barrier, with one and with all eight cores of the row in it. -/
theorem test_bar : ends (.bar 0) (running (wordOf 0x70 [(1, 54), (2, 51)]) id) (fun t => (t.prog 0).barAt == some (1, 2) && (t.prog 0).regs.pc == 1) := by decide
def standing (n : Nat) : State :=
  let s := running 0 (fun l => { l with barAt := some (1, 2) })
  { s with lcores := List.replicate n (s.prog 0) ++ List.replicate (128 - n) LCore.reset }
theorem test_release : (standing 8).lcores.length = 128 ∧ ends (.barrierRelease 0 1 2) (standing 8) (fun t => t.lcores.all (fun x => x.barAt == none)) ∧
    progCmd (standing 7) 64 = none ∧ keeps (.barrierRelease 0 1 2) (standing 7) = true := by decide +kernel
/-- R127: the flag saturates. -/
def flagged (v : Nat) (l : LCore) : LCore := { l with regs := { l.regs with flags := l.regs.flags.set 5 (BitVec.ofNat 32 v) } }
theorem test_sig : ends (.sig 0) (running (wordOf 0x71 [(0, 48), (5, 45), (3, 0)]) (flagged 0xFFFFFFFE)) (fun t =>
    (t.prog 0).regs.flags[5]? == some 0xFFFFFFFF) ∧ ends (.sig 0) (running (wordOf 0x71 [(6, 48), (5, 45), (3, 0)]) id) (fun t => (t.prog 6).regs.flags[5]? == some 3) := by
  decide
theorem test_swait : ends (.swait 0) (running (wordOf 0x72 [(5, 45), (1, 39), (4, 0)]) (flagged 4)) (fun t => (t.prog 0).regs.pc == 1 && (t.prog 0).log == [.swait]) ∧
    ends (.swait 0) (running (wordOf 0x72 [(5, 45), (1, 39), (5, 0)]) (flagged 4)) (fun t => (t.prog 0).regs.pc == 0 && (t.prog 0).wait == 2) := by decide
/-- R135, R136: a mark; one while another is pending; one that would lose a preloaded plane. -/
theorem test_mark : ends (.mark 0) (running (wordOf 0x73 []) (regs3 7 0 0)) (fun t => (t.prog 0).markPend.map (fun m => (m.regs.pc, m.regs.sregs.getD 1 0, m.ord)) == some (1, 7, 1)) ∧
    keeps (.mark 0) (running (wordOf 0x73 []) (fun l => { l with markPend := some MarkRec.reset })) = true ∧
    ends (.mark 0) (running (wordOf 0x73 []) (fun l => { l with preSet := [true, false] })) counted := by decide +kernel
def marked : State := running 0 (fun l => { l with markPend := some { MarkRec.reset with logLen := 1, regs := { CoreRegs.reset with pc := 9 } }, log := [.sig, .bar], logBytes := 32 })
theorem test_mark_complete : (marked.prog 0).markPend.map (markReady marked 0 (cmd 0x58 .started [])) = some true ∧
    ends (.markComplete 0) marked (fun t => (t.prog 0).mark.regs.pc == 9 && (t.prog 0).log == [.bar] && (t.prog 0).logBytes == 16) := by decide
/-- R107, R133: a chain of two programs in one ring of core 0; slot 4096 is free, slot 8192 is full. -/
def chained (w chain : Nat) (held : List Nat) : State :=
  let s := running w (fun l => { l with taken := held })
  let c := cmd 0x58 .started []
  { s with
    rings := [(0, ⟨[4096], [8192], [], 0⟩)]
    q := { s.q with cmds := [{ c with chain := chain, ring := chain - 1 }, { c with chain := 3 - chain, ring := 2 - chain, seq := 2 }] } }
theorem test_chain_slots : ends (.chfree 0) (chained (wordOf 0x80 [(6, 46)]) 1 []) (fun t => (t.prog 0).reg 6 == 4096 && (ringOf t 0).free == [] && (t.prog 0).taken == [4096]) ∧
    ends (.chput 0) (chained (wordOf 0x81 []) 1 [0]) (fun t => (ringOf t 0).full == [8192, 0] && (t.prog 0).taken == []) ∧
    ends (.chget 0) (chained (wordOf 0x82 [(6, 46)]) 2 []) (fun t => (t.prog 0).reg 6 == 8192 && (ringOf t 0).full == []) ∧
    ends (.chrel 0) (chained (wordOf 0x83 []) 2 [0]) (fun t => (ringOf t 0).free == [4096, 0] && (t.prog 0).taken == []) := by decide
def drained (w chain : Nat) : State := { chained w chain [] with rings := [(0, ⟨[], [], [], 0⟩)] }
theorem test_chain_waits : ends (.chfree 0) (drained (wordOf 0x80 [(6, 46)]) 1) (fun t => (t.prog 0).wait == 4 && (t.prog 0).regs.pc == 0) ∧
    ends (.chget 0) (drained (wordOf 0x82 [(6, 46)]) 2) (fun t => (t.prog 0).wait == 5 && (t.prog 0).regs.pc == 0) := by decide

/-! ## Commands that run on the cores, in the Lens and in the Tender -/

/-- A tensor of FP32 elements in rows of 64 bytes. -/
def tens (base rows cols : Nat) : Desc :=
  ⟨base, 8, false, false, false, false, 0, rows, cols, 64, false, 0, 7, 0, 0, 0, 0, 0, 0, 0, rows, cols⟩
def hasDescs (op : Nat) (ps : List Word) (ds : List Desc) : Cmd := { cmd op .admitted ps with descs := ds }
def oneDesc (op : Nat) (ps : List Word) (ds : List Desc) (m : Memory) : State := { queued ctx0 [hasDescs op ps ds] with mem := m }
/-- An element at row 0, column 0 of each of three tensors: 2, 3 and what is found there. -/
def twoThree : Memory := (Memory.empty.writeLe 0x100 2 0x4000).writeLe 0x200 2 0x4040
def bf16 (base : Nat) : Desc := { tens base 1 1 with fmt := 0 }
def gemm (op : Nat) : State :=
  { queued ctx0 [{ hasDescs op [] [bf16 0x100, bf16 0x200, tens 0x300 1 1, tens 0x400 1 1, tens 0x500 1 1] with
      loopd := some ⟨0, 0, 0, false, 0, 0, 0, 0, 0, 0, 0, 1, 1⟩ }] with mem := twoThree }
/-- R106, Table 4.2: 2.0 x 3.0 of extents 1 is 6.0 in each of the three products. -/
theorem test_products : [(.dxp 0, 0x11), (.dwp 0, 0x12), (.matmul 0, 0x13)].all (fun x => startable (gemm x.2) 0 x.2 == (gemm x.2).q.cmds.head? &&
    ends x.1 (gemm x.2) (fun t => t.mem.le 0x300 4 == 0x40C00000 && t.q.cmds.map (fun c => (c.stage, c.conds)) == [(.ended, [])])) = true := by decide
/-- R240 to R243 and R193: with extents of nothing the other commands run to their end too. -/
theorem test_core_commands : [(.gpair 0, 0x10), (.nbwd 0, 0x20), (.sbwd 0, 0x21), (.abwd 0, 0x22), (.epi 0, 0x28), (.xgrad 0, 0x31)].all (fun x =>
    startable (admitted x.2 []) 0 x.2 == (admitted x.2 []).q.cmds.head? &&
    ends x.1 (admitted x.2 []) (fun t => t.q.cmds.map (·.stage) == [.ended] && t.mem == Memory.empty)) = true := by decide
/-- R246. -/
theorem test_zin : zinMismatch (cmd 0x10 .admitted []) [0, 1, 2] = false ∧ zinMismatch (cmd 0x13 .admitted [0, 0, 0, 0, 0, 0, 0, BitVec.ofNat 64 (64 + 2 * 2 ^ 48)]) [0, 1] = true := by
  decide
/-- R273: eight bytes to the extent's last four, from a source whose last four lie outside. -/
def copying3 (src dst : Nat) : State := { admitted 0x41 [BitVec.ofNat 64 src, BitVec.ofNat 64 dst, 8] with mem := Memory.empty.writeLe src 4 0x44332211, extent := 8192 }
theorem test_copy_bytes : Starts (copying3 4096 64) 0 0x41 (cmd 0x41 .admitted [4096, 64, 8]) ∧
    ends (.copy 0) (copying3 4096 64) (fun t => t.mem.le 64 8 == 0x44332211 && t.q.cmds.map (·.conds) == [[]]) ∧
    ends (.copy 0) (copying3 8188 64) (fun t => t.mem.le 64 8 == 0x44332211 && t.q.cmds.map (·.conds) == [[⟨0x10, 4, 4⟩]]) := by unfold Starts State.Alone; decide
/-- R274: two rows of one element; the second lies outside. -/
def filling : State := { oneDesc 0x42 [0x100000001] [{ tens 8188 2 1 with fill := 0x12345678 }] Memory.empty with extent := 8192 }
theorem test_fill : Starts filling 0 0x42 (hasDescs 0x42 [0x100000001] [{ tens 8188 2 1 with fill := 0x12345678 }]) ∧
    ends (.fill 0) filling (fun t => t.mem == Memory.empty.writeLe 8188 4 0x12345678 && t.q.cmds.map (fun c => (c.stage, c.conds, c.amaxOut)) ==
      [(.ended, [⟨0x10, 1, 1⟩], [])]) := by unfold Starts State.Alone; decide
/-- R187: one element of the identity gather, as one unit, with its last failure before it ends, and with the sixteenth. -/
def lensCmd (st : Stage) (fails : Nat) : Cmd := { hasDescs 0x40 [0, 0x100000001] [tens 0x100 1 1, tens 0x200 1 1] with stage := st, retries := fails }
def lensing (st : Stage) (fails : Nat) : State := { queued ctx0 [lensCmd st fails] with mem := Memory.empty.writeLe 0x100 4 0x3F800000 }
theorem test_lens : Starts (lensing .admitted 0) 0 0x40 (lensCmd .admitted 0) ∧ ends (.lens 0) (lensing .admitted 0) (fun t =>
    t.q.cmds.map (fun c => (c.stage, c.units)) == [(.started, 0)] && t.mem == (lensing .admitted 0).mem) := by unfold Starts State.Alone; decide
theorem test_lens_unit : centralUp (lensing .started 0) = true ∧ centralUser (lensing .started 0) = some (lensCmd .started 0) ∧ isFolder (lensCmd .started 0) = false ∧
    (lensing .started 0).cmd (lensCmd .started 0) = some (lensCmd .started 0) ∧
    ends (.lensUnit false) (lensing .started 0) (fun t => t.mem.le 0x200 4 == 0x3F800000 && t.q.cmds.map (fun c => (c.stage, c.units)) == [(.ended, 1)]) ∧
    ends (.lensUnit true) (lensing .started 14) (fun t => t.q.cmds.map (fun c => (c.stage, c.retries)) == [(.started, 15)]) ∧
    ends (.lensUnit true) (lensing .started 15) (fun t => t.q.cmds.map (fun c => (c.stage, c.conds)) == [(.ended, [⟨0x60, 0, 1⟩])] && t.flt.recs.map (·.kind) == [12]) := by
  decide
/-- R190: of the group 1.0, 3.0, 2.0, -4.0 the second and the last are kept: mask 10. -/
def pruneCmd (st : Stage) : Cmd := { hasDescs 0x38 [0x400, 1] [tens 0x100 1 4, tens 0x200 1 2] with stage := st }
def pruning (st : Stage) : State :=
  { queued ctx0 [pruneCmd st] with mem := (Memory.empty.writeLe 0x100 8 0x404000003F800000).writeLe 0x108 8 0xC080000040000000 }
theorem test_prune : Starts (pruning .admitted) 0 0x38 (pruneCmd .admitted) ∧
    ends (.prune 0) (pruning .admitted) (fun t => t.q.cmds.map (·.stage) == [.started] && t.mem == (pruning .admitted).mem) ∧
    ends (.lensUnit false) (pruning .started) (fun t => t.mem.le 0x200 8 == 0xC080000040400000 && t.mem.le 0x400 1 == 10 && t.q.cmds.map (·.stage) == [.ended]) := by
  unfold Starts State.Alone; decide
/-- R41, R174: two pairs staged for one element. -/
def foldCmd : Cmd :=
  { hasDescs 0x28 [0x100000001] [tens 0x100 1 1, tens 0x180 1 1, { tens 0x200 1 1 with ralias := true }] with
    stage := .started, staged := [(2, [⟨0, 0, 0, ⟨0x3F800000, 0⟩⟩, ⟨0, 0, 0, ⟨0x40000000, 0⟩⟩])] }
def folding : State := queued ctx0 [foldCmd]
theorem test_fold_pass : foldWaiting folding 0 = some foldCmd ∧ zoutOf foldCmd = (0, 2) ∧
    ends (.aliasFoldPass 0) folding (fun t => t.mem.le 0x200 4 == 0x40400000 && t.q.cmds.map (fun c => (c.stage, c.staged)) == [(.ended, [])]) := by decide
/-- R222, R227, R235: three list positions of rows 0, 2 and 0, values of one column; the phases of an `EMBG` with MDEFER. -/
def embgPs (mdefer : Bool) : List Word := [BitVec.ofNat 64 (3 + b2n mdefer * 2 ^ 32), 0x800, 0x10000, 0x8000]
def embgDescs : List Desc := [tens 0x200 4 1, tens 0x100 3 1]
def embgAt (mdefer : Bool) (st : Stage) (n : Nat) : State :=
  { queued ctx0 [{ hasDescs 0x30 (embgPs mdefer) embgDescs with stage := st, units := n }] with
    extent := 0x20000
    mem := ((Memory.empty.writeLe 0x804 4 2).writeLe 0x100 4 0x3F800000).writeLe 0x180 4 0x40000000
    hash := ⟨if st = .started then some (0, 1) else none, []⟩ }
theorem test_embg : startable (embgAt true .admitted 0) 0 0x30 = (embgAt true .admitted 0).q.cmds.head? ∧ (embgAt true .admitted 0).hash.holder = none ∧
    ((embgAt true .admitted 0).q.cmds.head?.map (hashFirst (embgAt true .admitted 0))) = some true ∧
    ends (.embg 0) (embgAt true .admitted 0) (fun t => t.hash == ⟨some (0, 1), []⟩ && t.q.cmds.map (·.stage) == [.started]) ∧
    ends (.embgPhase 0) (embgAt true .started 2) (fun t => t.hash == ⟨none, []⟩ && t.q.cmds.map (·.stage) == [.ended]) ∧
    ends (.embgPhase 0) (embgAt false .started 2) (fun t => t.hash == ⟨some (0, 1), []⟩ && t.q.cmds.map (·.stage) == [.started]) ∧
    ends (.embgPhase 0) (embgAt false .started 3) (fun t => t.hash == ⟨none, []⟩ && t.q.cmds.map (·.stage) == [.ended]) := by decide
theorem test_merge : Starts (admitted 0x32 [0, 0, 0x10000]) 0 0x32 (cmd 0x32 .admitted [0, 0, 0x10000]) ∧
    hashFirst (admitted 0x32 [0, 0, 0x10000]) (cmd 0x32 .admitted [0, 0, 0x10000]) = true ∧
    ends (.merge 0) (admitted 0x32 [0, 0, 0x10000]) (fun t => t.q.cmds.map (·.stage) == [.ended] && t.mem == Memory.empty) := by unfold Starts State.Alone; decide

/-! ## Jobs, Daymarks and collectives -/

/-- R311: `SAVE` of the job's only command, with the area of its parameters. -/
def savePs : List Word := [0x100000, 0x4000000]
theorem test_save : Starts (admitted 0x60 savePs) 0 0x60 (cmd 0x60 .admitted savePs) ∧ jobBusy (admitted 0x60 savePs) 0 (fun d => d.same (cmd 0x60 .admitted savePs)) = false ∧
    holdsCollective (admitted 0x60 savePs) 0 = false ∧ (saveArea (admitted 0x60 savePs) (cmd 0x60 .admitted savePs)).1 = 0x100000 ∧
    ends (.save 0) (admitted 0x60 savePs) (fun t => t.q.cmds.map (·.stage) == [.ended] && (t.conf.job 0).saving && !(t.conf.job 0).active) := by
  unfold Starts State.Alone; decide
/-- R364: an area at 0x2000 that lists queue 0 alone. -/
def dayPs : List Word := [0x2000, 0x6000]
def marking (st : Stage) : State := { queued ctx0 [{ cmd 0x62 st dayPs with held := [0] }] with mem := Memory.empty.writeLe (0x2000 + 256) 4 1 }
theorem test_daymark : Starts (marking .admitted) 0 0x62 { cmd 0x62 .admitted dayPs with held := [0] } ∧
    ends (.daymark 0) (marking .admitted) (fun t => t.q.cmds.map (fun c => (c.stage, c.held)) == [(.started, dmQueues (marking .admitted) (cmd 0x62 .admitted dayPs))]) ∧
    dmQueues (marking .admitted) (cmd 0x62 .admitted dayPs) = [0] := by unfold Starts State.Alone; decide
theorem test_capture : runningOp (marking .started) 0 0x62 = some { cmd 0x62 .started dayPs with held := [0] } ∧ captureBad (marking .started) = [] ∧
    atCut (marking .started) { cmd 0x62 .started dayPs with held := [0] } 0 = true ∧ 0x2000 + dmBytes (dmCounts (marking .started) 0x2000) ≤ 65536 ∧
    ends (.daymarkCapture 0) (marking .started) (fun t => t.q.cmds.map (·.stage) == [.ended] && t.q.dmseq == 1) := by decide
theorem test_restore : Starts { admitted 0x61 dayPs with mem := Memory.empty.writeLe (0x2000 + 20) 4 77 } 0 0x61 (cmd 0x61 .admitted dayPs) ∧
    ends (.restore 0) { admitted 0x61 dayPs with mem := Memory.empty.writeLe (0x2000 + 20) 4 77 } (fun t => t.q.cmds.map (·.stage) == [.ended] &&
      t.red.lastCseq == 77) := by unfold Starts State.Alone; decide
/-- R257: the one position of a tree; CSEQ 1 follows 0. -/
def alone (op : Nat) (ps : List Word) : State := { admitted op ps with conf := { (admitted op ps).conf with npos := 1 } }
def seqPs (op : Nat) : List Word := if op = 0x63 then [0x2000, 0] else [0x100000000, 0x100000001, 0x2000, 0x3000]
theorem test_collectives : [(Instr.reduce 0, 0x48), (.gnorm 0, 0x49), (.amax 0, 0x4A)].all (fun x => treeOf (alone x.2 (seqPs x.2)) == some (none, none, none) &&
    startable (alone x.2 (seqPs x.2)) 0 x.2 == (alone x.2 (seqPs x.2)).q.cmds.head? && cseqOf (alone x.2 (seqPs x.2)) (cmd x.2 .admitted (seqPs x.2)) == 1 &&
    ends x.1 (alone x.2 (seqPs x.2)) (fun t => t.q.cmds.map (·.stage) == [.ended] && t.red.lastCseq == 1 && t.red.colls.isEmpty)) = true := by decide
def sharing : State := { alone 0x63 [0x2000, 0] with mem := Memory.empty.writeLe 0x2000 4 1 }
theorem test_parity : treeOf sharing = some (none, none, none) ∧ startable sharing 0 0x63 = sharing.q.cmds.head? ∧ cseqOf sharing (cmd 0x63 .admitted [0x2000, 0]) = 1 ∧
    ends (.parity 0) sharing (fun t => t.q.cmds.map (·.stage) == [.ended] && t.red.lastCseq == 1) := by decide
/-- R254: position 7 of eight sends up. -/
def leaf : State := { admitted 0x4A [0x100020003] with fuses := { base.fuses with die := 7 } }
theorem test_amax_leaf : (treeOf leaf).map (fun x => (x.1, x.2.1, x.2.2.isSome)) = some (none, none, true) ∧ Starts leaf 0 0x4A (cmd 0x4A .admitted [0x100020003]) ∧
    linkUp leaf .up = true ∧ cseqOf leaf (cmd 0x4A .admitted [0x100020003]) = 1 ∧ ends (.amax 0) leaf (fun t => t.q.cmds.map (·.stage) == [.started] &&
      t.red.sent.map (fun g => (g.1, g.2.cseq, g.2.offset, g.2.elems, g.2.last)) == [(.up, 1, 0, [0, 0, 0], true)]) := by unfold Starts State.Alone; decide
/-- R254, R257, R259: a segment and an abort of a collective that is still to come here; an abort of one that is admitted. -/
def seg : Segment := ⟨1, 0, 4, [5], true, []⟩
def atLeaf : State := { base with fuses := { base.fuses with die := 7 } }
def mid : Coll := ⟨1, 0, 1, 0x4A, true, ⟨[], none, none⟩, [], [], [], [], [], false, false, 0, false, 3, 4, 0, []⟩
theorem test_segments : portUp atLeaf .up = true ∧ toCome atLeaf 1 = true ∧
    ends (.reductionSegment .up seg false) atLeaf (fun t => t.red.early == [(.up, seg)]) ∧
    ends (.reductionSegment .up seg true) { atLeaf with red := { base.red with colls := [mid] } } (fun t => t.red.colls.map (·.retries) == [4]) ∧
    ends (.collectiveAbort .up 1) atLeaf (fun t => t.red.aborted == [1] && t.red.sentAborts == []) ∧ admittedColl leaf 1 = some (cmd 0x4A .admitted [0x100020003]) ∧
    ends (.collectiveAbort .up 1) leaf (fun t => t.q.cmds.map (fun c => (c.stage, c.conds.map (·.code))) == [(.ended, [0x31])]) := by decide

/-! ## Program start and arrays -/

/-- R110 to R114: an image of two words at 0x4000, entry 1; an argument block of 8 bytes at 0x5000. -/
def launchPs : List Word := [0x4000, BitVec.ofNat 64 (2 + 1 * 2 ^ 16 + 8 * 2 ^ 32), 0x5000, 0, 0, 0, 1]
def launching : State := { admitted 0x58 launchPs with mem := (Memory.empty.writeLe 0x4008 8 (wordOf 0x0F [])).writeLe 0x5000 8 0x77 }
theorem test_runp : Starts launching 0 0x58 (cmd 0x58 .admitted launchPs) ∧ (launching.conf.job 0).cores[3]? = some 3 ∧
    ends (.runp 0) launching (fun t => t.q.cmds.map (·.stage) == [.started] && (t.prog 3).run == .running && (t.prog 3).regs.pc == 1 &&
      (t.prog 3).reg 1 == 3 && (t.prog 3).reg 2 == 8 && (t.prog 3).reg 3 == 3 && (t.prog 3).reg 5 == 5 && fetchWord t 3 == wordOf 0x0F []) := by
  unfold Starts State.Alone; decide

/-- A slice of plane 1 and tile 2 whose lanes hold 2.0 at K position 1. -/
def aSlice : Slice := ⟨1, 2, 1, 5, 16384, false, 0, none, false, List.replicate 4 [(1, .fin false 2 0)]⟩
def arrayed (A : ArrayState) : State := { base with pcores := base.pcores.modify 0 (fun p => { p with arrays := p.arrays.set 2 A }) }
def opened : ArrayState := { ArrayState.reset with rowF := ArrayState.reset.rowF.set 3 ⟨[aSlice], [], .opened⟩ }
/-- R61, R77: an open feeder's slice enters the first link of its row and goes on; and the closed slot 2 of the start ramp of column feeder 0. -/
theorem test_inject : coreUp (arrayed opened) 0 = true ∧ (∀ e ∈ opened.colL, nextFwd e = none) ∧ opened.rowL = List.replicate 64 [] ∧ opened.rowF[3]? = some ⟨[aSlice], [], .opened⟩ ∧
    (forwardLink (opened.pushLink false 3 aSlice).rowL 24 1).getD 25 [] = [⟨aSlice, false⟩] := by decide
def starting (n : Nat) : ArrayState := { ArrayState.reset with colF := ArrayState.reset.colF.set 0 ⟨[aSlice], [], .start n⟩ }
theorem test_inject_closed : startOpen 2 = false ∧ startOpen 46 = true ∧ ends (.sliceInject 0 2 true 0) (arrayed (starting 2)) (fun t =>
    let B := (t.pcore 0).arrays.getD 2 ArrayState.reset
    B.colF[0]? == some ⟨[aSlice], [], .start 3⟩ && B.cnt.getD 5 0 == 1 && B.rowL == ArrayState.reset.rowL) := by decide
/-- R60, R26: a cube in the middle of array 2 adds 4.0 to cell (0, 0) of its 16. -/
def waiting : ArrayState :=
  { ArrayState.reset with rowL := ArrayState.reset.rowL.set 27 [⟨aSlice, true⟩], colL := ArrayState.reset.colL.set 27 [⟨aSlice, true⟩] }
theorem test_cube : rowsReady ((arrayed waiting).prog 0) waiting aSlice 3 = true ∧ linkHead (waiting.rowL.getD (8 * 3 + 3) []) (3 == 7) = some aSlice ∧
    linkHead (waiting.colL.getD (8 * 3 + 3) []) (3 == 7) = some aSlice ∧ ends (.cubeWave 0 2 3 3) (arrayed waiting) (fun t =>
      (t.pcore 0).planes.pair (cellAddr 2 1 12 12) == ⟨0x40800000, 0⟩ && (t.pcore 0).planes.pair (cellAddr 2 0 12 12) == Pair.zero) := by decide +kernel
/-- R71, R74: row 0 of plane 0 is drained as FP32 to the partition, and parked. -/
def draining (park : Bool) : State :=
  let d : DrainJob := ⟨0, 0, 0, 1, 0, false, park, 5, 0, (List.range 128).map (fun k => ((128 * k : Nat) : Int)), 8, false, 0, false, 0, 0, [], 0, 0, 0, 0, 0, 0, [], [], []⟩
  let s := running 0 (fun l => { l with issue := 1, drains := [d] })
  { s with pcores := s.pcores.modify 0 (fun p => { p with planes := Memory.empty.writePair (cellAddr 1 0 0 3) ⟨0x40800000, 0⟩ }) }
theorem test_drain : (nextDrain (draining false) 0).map (fun d => (d.plane, d.next, d.park)) = some (0, 0, false) ∧ progCmd (draining false) 64 = none ∧
    (∀ e ∈ ((draining false).prog 0).drains, e.ord = 1) ∧ (nextDrain (draining true) 0).map (fun d => (d.eaddrs, d.shape)) = some ([], 0) := by decide
/-- R72: row 0 of plane 1 from accumulator-store slot 5. -/
def preloading : State :=
  let s := running 0 (fun l => { l with preloads := [⟨1, 1, false, 1, 5, [], 0, 0, 0⟩] })
  { s with pcores := s.pcores.modify 0 (fun p => { p with acc := Memory.empty.writePair (32768 * 5 + 8192 + 24) ⟨0x40800000, 1⟩ }) }
theorem test_preload : ((preloading.prog 0).preloads.find? (fun e => e.ready preloading 0)).map (fun d => (d.plane, d.next, d.src, d.slot)) = some (1, 0, 1, 5) := by decide

/-! ## Tender -/

/-- Stream 0 of the program with some blocks, and its list at 0x7000. -/
def streaming (blocks : List SBlock) (buf : List Byte) : State :=
  let s := running 0 id
  let b := { bound with list := 0x7000, slotLines := 4, cons := 1 }
  { s with
    q := { s.q with cmds := [{ cmd 0x58 .started [0, 0, 0, 0, 0, 0, 5] with binds := [b] }] }
    tender := { s.tender with streams := [⟨0, 1, 0, b, 0x7000, 0, blocks.length, blocks, [(0, 0)], false, 0x7000, buf, 0, [], [], false⟩], nextId := 9 } }
def listed (kind : Nat) : List Byte := leBytes 32 (kind * 2 ^ 48)
/-- R151, R155: the next read of a block; R144: the end entry; R142: the list is fetched. -/
theorem test_block_issue : (streaming [⟨0, 1, Memory.empty, [(0, 0x2000, 128)], 0, [], [], false⟩] []).tender.streams.all (fun o => !(Tender.halted State.reset.tender o)) = true ∧
    ends (.tenderBlockIssue 0 0) (streaming [⟨0, 1, Memory.empty, [(0, 0x2000, 128)], 0, [], [], false⟩] []) (fun t =>
      t.tender.xfers == [⟨9, 0, 1, 0, 0, 0, 0, 0, 0x2000, 128, false, [], 0, 0, 0, 128, false⟩]) ∧
    ends (.tenderBlockIssue 0 0) (streaming [] (listed 2)) (fun t => t.tender.streams.map (·.ended) == [true] && t.tender.xfers.isEmpty) ∧
    ends (.tenderBlockIssue 0 0) (streaming [] []) (fun t => t.tender.xfers == [⟨9, 0, 1, 0, 5, 0, 0, 0, 0x7000, 4096, false, [], 0, 1, 0, 4096, false⟩]) := by decide
/-- An input of a standard command: the two bytes of the first operand. -/
theorem test_input_issue : ends (.tenderBlockIssue 0 0) (gemm 0x13) (fun t => t.tender.xfers == [⟨0, 0, 1, 0, 0, 0, 0, 0, 0x100, 16, false, [], 0, 0, 0, 2, false⟩]) := by decide
/-- R424: a write; the read of a block; a translation fault; an uncorrectable read; an answer to nothing. -/
def inFlight (x : Xfer) : State :=
  let s := streaming [⟨0, 1, Memory.empty, [], 0, [], [], false⟩] []
  { s with tender := { s.tender with xfers := [x] }, mem := Memory.empty.writeLe 0x2000 8 0x99 }
def aRead : Xfer := ⟨4, 0, 1, 0, 0, 0, 0, 0, 0x2000, 128, false, [], 0, 0, 0, 128, false⟩
theorem test_fabric : ends (.fabricResponse (.transfer 4) .ok) (inFlight ⟨4, 0, 1, 0, 2, 0, 0, 0, 0x3000, 2, true, [1, 2], 0, 0, 0, 2, false⟩) (fun t => t.mem.le 0x3000 2 == 0x201) ∧
    ends (.fabricResponse (.transfer 4) .ok) (inFlight aRead) (fun t => t.tender.streams.flatMap (fun o => o.blocks.map (fun b => (b.data.le 0 8, b.got))) == [(0x99, 128)]) ∧
    ends (.fabricResponse (.transfer 4) .xlate) (inFlight aRead) (fun t => t.tender.recs.map (·.xfer) == [aRead] && t.tender.xfers.isEmpty) ∧
    ends (.fabricResponse (.transfer 4) .uncorr) (inFlight aRead) (fun t => t.q.cmds.map (fun c => (c.stage, c.conds.map (·.code))) == [(.ended, [0x60])]) ∧
    keeps (.fabricResponse (.transfer 5) .ok) (inFlight aRead) = true := by decide +kernel
/-- R166: all 64 records are taken. -/
def fullRecs : State := { inFlight aRead with tender := { (inFlight aRead).tender with recs := List.replicate 64 ⟨aRead, 0, none⟩ } }
theorem test_full_records : ends (.fabricResponse (.transfer 4) .xlate) fullRecs (fun t => t.tender.recs.length == 64 && t.tender.waiting == [⟨aRead, 0, none⟩]) := by decide +kernel
def faulted : State := { inFlight aRead with tender := { (inFlight aRead).tender with xfers := [], recs := [⟨aRead, 0, none⟩] } }
theorem test_page_faults : ends (.pfResume 1) base counted ∧ ends (.pfResume 1) faulted (fun t => t.tender.recs.isEmpty && t.tender.xfers == [aRead]) ∧
    ends (.pfAbort 1) faulted (fun t => t.tender.recs.isEmpty && t.q.cmds.map (fun c => (c.stage, c.conds.map (·.code))) == [(.ended, [0x30])]) ∧
    ends (.pfAbort 1) base counted := by decide
/-- R143: a translation fault on the read of a packet enters a record with SKIND 6 and halts the read; a resume lets it go on, an abort takes the queue
OFF; on the write of a reply it halts the completion, and an abort ends the queue without the reply in memory. -/
def ctlFaulted (a : CtlAccess) (s : State) : State := match exec (.fabricResponse (.control a) .xlate) s with
  | .next t => t
  | _ => s
theorem test_control_fault : (ctlSpan posted1 (.ring 0)).isSome = true ∧ keeps (.fabricResponse (.control (.ring 0)) .ok) posted1 = true ∧
    (ctlFaulted (.ring 0) posted1).tender.recs.map (fun r => (r.xfer.skind, r.xfer.addr, r.ctl)) = [(6, 0x1000, some (.ring 0))] ∧
    keeps (.packetRead 0) (ctlFaulted (.ring 0) posted1) = true ∧
    ends (.pfResume 1) (ctlFaulted (.ring 0) posted1) (fun t => t.tender.recs.isEmpty && ends (.packetRead 0) t (fun u => u.q.cmds.length == 1)) ∧
    ends (.pfAbort 1) (ctlFaulted (.ring 0) posted1) (fun t => t.q.cmds.isEmpty && (t.q.find 0).map (fun x => (x.ctx.head, x.ctx.state)) == some (0, .off)) := by
  decide +kernel
theorem test_reply_fault : keeps (.commandCompletion 0 ⟨0, 0, 0, 0, 0, 0, 0⟩) (ctlFaulted (.reply 0) endedNop) = true ∧
    ends (.pfAbort 1) (ctlFaulted (.reply 0) endedNop) (fun t => (t.q.find 0).map (·.ctx.state) == some .draining &&
      ends (.commandCompletion 0 ⟨0, 0, 0, 0, 0, 0, 0⟩) t (fun u => u.mem == endedNop.mem && u.q.cmds.isEmpty && (u.q.find 0).map (·.ctx.state) == some .off)) := by
  decide +kernel
theorem test_command_fault : ends (.waitqPoll 0) (ctlFaulted (.command 0) (polled .started 8 0)) (fun t => t.q.cmds.map (·.stage) == [.started]) = true ∧
    (ctlFaulted (.command 0) (polled .started 8 0)).tender.recs.map (·.ctl) = [some (.command 0)] ∧
    ends (.pfAbort 1) (ctlFaulted (.command 0) (polled .started 8 0)) (fun t => t.tender.recs.isEmpty &&
      t.q.cmds.map (fun c => (c.stage, c.conds.map (·.code))) == [(.ended, [0x30])]) := by decide +kernel
/-- R125, R164: the limit is 5 microseconds; both slots are taken and the partition has no free part. -/
def starved : State :=
  let s := streaming [⟨0, 1, Memory.empty, [], 0, [], [], false⟩, ⟨1, 1, Memory.empty, [], 0, [], [], false⟩] (listed 0)
  { s with conf := { s.conf with jobs := s.conf.jobs.modify 0 (fun b => { b with psize := 0 }) } }
theorem test_stream_watchdog : ends (.streamWatchdog 0 0 6) starved (fun t => t.tender.waitRec == [0, 0, 0, 0, 13, 2, 6] && t.irq.stat.getLsbD irqWdog) ∧
    keeps (.streamWatchdog 0 0 5) starved = true := by decide +kernel
def stuck : State := coreProg [0, 0, 0, 0, 0, 0, 5] [0] (fun l => { l with wait := 2 })
theorem test_core_watchdog : ((stuck.prog 0).waitKind = 2) ∧ ends (.waitWatchdog (.core 0) 6) stuck (fun t => (t.prog 0).waitUs == 6 && t.irq.stat.getLsbD irqWdog) ∧
    keeps (.waitWatchdog (.core 0) 5) stuck = true := by decide +kernel

/-! ## Check events, replay and check bits -/

/-- R342, R343: a transient event on the core of a program; and a third one inside the window, which retires the core for spare 64. -/
def stamped : State := { base with pcores := base.pcores.modify 5 (fun p => { p with stamp0 := some 100, stamp1 := some 200, life := 200 }) }
theorem test_check : canReport (running 0 id) 0 1 = true ∧ ((running 0 id).pcore 0).permanent 300 = false ∧
    ends (.checkEvent 0 .adderParity 1 7 300 true) (running 0 id) (fun t => (t.prog 0).run == .fenced && t.flt.replays.map (·.1) == [0] &&
      t.flt.recs.map (fun r => (r.kind, r.action, r.pcore, r.unit, r.stamp)) == [(2, 1, 0, 1, 300)] && (t.pcore 0).stamp1 == some 300) := by decide
theorem test_retire : (stamped.pcore 5).permanent 999999999 = true ∧ (stamped.pcore 5).permanent 1000000100 = false ∧ freeSpare stamped = some 64 ∧
    ends (.checkEvent 5 .residue 0 0 300 true) stamped (fun t => (t.pcore 5).pstate == .retired && (t.pcore 5).lidA == none && (t.pcore 64).pstate == .active &&
      (t.pcore 64).lidA == some 5) := by decide
/-- R138: back to the mark at address 9 with a log to consume; flags stay. -/
def fencedProg : State :=
  let s := running 0 (fun l => { flagged 3 l with run := .fenced, log := [.sig], mark := { MarkRec.reset with regs := { CoreRegs.reset with pc := 9 } } })
  { s with flt := { s.flt with replays := [(0, 68)] } }
theorem test_replay : ends (.replayStart 0) fencedProg (fun t => (t.prog 0).run == .replaying && (t.prog 0).regs.pc == 9 && (t.prog 0).prevLog == [.sig] &&
    (t.prog 0).regs.flags[5]? == some 3 && t.flt.replays.isEmpty) := by decide
/-- R338, R339. -/
def corrected : State := { base with flt := { base.flt with single := [(.central, 64), (.central, 72), (.scratch 3, 64)], wback := [(.central, 64)] } }
theorem test_writeback : ends (.eccWriteback .central 64) corrected (fun t => t.flt.single == [(.central, 72), (.scratch 3, 64)] && t.flt.wback == []) := by decide
theorem test_scrub : ends (.scrub .central) corrected (fun t => t.flt.single == [(.scratch 3, 64)] && t.flt.ceCentral == 2) ∧
    ends (.scrub (.scratch 3)) corrected (fun t => (t.pcore 3).ceScratch == 1) := by decide

/-! ## Check values -/

/-- R271, R311: the check values of CRC-32C and of CRC-64 over the nine digits. -/
theorem test_crc : crc32c ((List.range 9).map (fun k => BitVec.ofNat 8 (0x31 + k))) = 0xE3069283 ∧
    crc64 ((List.range 9).map (fun k => BitVec.ofNat 8 (0x31 + k))) = 0x6C40DF5F0B497347 := by decide +kernel

/-! ## Further conditions of the statements -/

theorem all_programs {s : State} {p : LCore → Prop} (h : ∀ x ∈ LCore.reset :: s.lcores, p x) (i : Nat) : p (s.prog i) := by
  unfold State.prog
  rw [List.getD_eq_getElem?_getD]
  cases hx : s.lcores[i]? with
  | none => exact h _ List.mem_cons_self
  | some x => exact h _ (List.mem_cons_of_mem _ (List.mem_of_getElem? hx))
theorem all_jobs {s : State} {p : Job → Prop} (h : ∀ x ∈ Job.reset :: s.conf.jobs, p x) (i : Nat) : p (s.conf.job i) := by
  unfold Conf.job
  rw [List.getD_eq_getElem?_getD]
  cases hx : s.conf.jobs[i]? with
  | none => exact h _ List.mem_cons_self
  | some x => exact h _ (List.mem_cons_of_mem _ (List.mem_of_getElem? hx))
theorem fetches_of {s : State} {q n : Nat} {c : Cmd} {x : QRes} (hq : q < Config.queueCount) (hc : issueCmd s q n = some c)
    (ha : actClear s c n (nextAct s c n) = true) (hx : s.q.find q = some x)
    (h : ∀ k ∈ actKey s c n (nextAct s c n), mayIssue s q = true ∧ hasTurn s x = true ∧ ∀ m ∈ readyKeys s q, k ≤ m) : Fetches s q n c :=
  ⟨hq, hc, ha, x, hx, fun k hk => h k hk⟩
/-- A queue with one command, and no error in the engine's reserve or in storage. -/
theorem test_one_command (x : QCtx) (c : Cmd) : (queued x [c]).Alone c ∧ (queued x [c]).ReserveOk ∧ (queued x [c]).CleanStorage ∧ (queued x [c]).conf.staged = [] ∧
    (queued x [c]).conf.drain = false ∧ (queued x [c]).red.aborted.contains (cseqOf (queued x [c]) c) = false := by
  refine ⟨fun d hd _ => by simpa [queued] using hd, fun e he => ?_, ⟨rfl, rfl, rfl, rfl⟩, rfl, rfl, rfl⟩
  cases he
theorem test_no_debt : (∀ j, (allCore.conf.job j).debt = 0) ∧ (∀ j, ((standing 8).conf.job j).debt = 0) :=
  ⟨all_jobs (p := fun b => b.debt = 0) (by decide), all_jobs (p := fun b => b.debt = 0) (by decide)⟩
/-- R333: a channel of the Keeper in ROM. -/
theorem test_mb_keeper : ((mailed 63).chan 5).rcv = 3 ∧ (let s := { inFw .rom with mail := { base.mail with
    chans := base.mail.chans.set 4 { Chan.reset with snd := 1, rcv := 0, valid := true, full := true } } }
    keeperRuns s = false ∧ (s.chan 4).isReceiver 0 = true ∧ keeps (.mbEmpty 0 4) s = true ∧
    ends (.mbEmpty 0 4) { s with fw := base.fw } (fun t => !(t.chan 4).full)) := by decide
theorem test_mb_ctl_same : ends (.mbCtlWrite 3 5 3) (mailed 63) (fun t => (t.chan 5).rie && (t.chan 5).cie && t.ill.cnt == 0) ∧
    ends (.mbCtlWrite 3 5 7) (mailed 63) counted := by decide
/-- R280: a `FENCE` over queue 5, which is not resident; its context is zeros. -/
def fence5 (n : Nat) : State := queued ctx0 [cmd 0x51 .admitted [BitVec.ofNat 64 (5 + 2 ^ 22 + n * 2 ^ 32)]]
theorem test_fence_brings_in : Starts (fence5 0) 0 0x51 (cmd 0x51 .admitted [BitVec.ofNat 64 (5 + 2 ^ 22)]) ∧
    fenceEntries (cmd 0x51 .admitted [BitVec.ofNat 64 (5 + 2 ^ 22)]) = [(5, 0)] ∧ (fence5 0).q.find 5 = none ∧ hasContext (fence5 0) 5 = true ∧
    (fence5 0).q.short.contains 5 = false ∧ creditFits (beginCmd (fence5 0) (cmd 0x51 .admitted [BitVec.ofNat 64 (5 + 2 ^ 22)])) 5 = true ∧
    freeSlot (fence5 0).q = some 1 ∧
    ends (.fence 0) (fence5 0) (fun t => (t.q.find 5).map (·.slot) == some 1 && t.q.cmds.map (·.stage) == [.ended]) ∧
    ends (.fence 0) (fence5 1) (fun t => (t.q.find 5).map (·.slot) == some 1 && t.q.cmds.map (·.stage) == [.started]) := by unfold Starts State.Alone; decide +kernel
/-- R357: no word that a save reads is uncorrectable. -/
theorem test_save_reads : (saveSpans (admitted 0x60 savePs) 0).flatMap (fun x => badWords (admitted 0x60 savePs) x.1 x.2.1 x.2.2) = [] := by decide +kernel
/-- R222, R227: the first two phases; R235: a pool that is open, and its fold. -/
theorem test_embg_phases : (∀ n ∈ [0, 1, 2, 3], hashRunning (embgAt false .started n) 0 0x30 = (embgAt false .started n).q.cmds.head?) ∧
    ends (.embgPhase 0) (embgAt true .started 0) (fun t => t.q.cmds.map (fun c => (c.stage, c.units)) == [(.started, 1)] && t.hash.holder == some (0, 1)) ∧
    ends (.embgPhase 0) (embgAt true .started 1) (fun t => t.q.cmds.map (fun c => (c.stage, c.units)) == [(.started, 2)] && t.hash.holder == some (0, 1)) := by
  decide +kernel
def mergeAt (st : Stage) : State :=
  { queued ctx0 [cmd 0x32 st [0, 0, 0x8000]] with
    mem := Memory.empty.writeLe 0x8040 8 1, hash := ⟨if st = .started then some (0, 1) else none, []⟩ }
theorem test_merge_open : Starts (mergeAt .admitted) 0 0x32 (cmd 0x32 .admitted [0, 0, 0x8000]) ∧ hashRunning (mergeAt .admitted) 0 0x32 = none ∧
    hashFirst (mergeAt .admitted) (cmd 0x32 .admitted [0, 0, 0x8000]) = true ∧
    ends (.merge 0) (mergeAt .admitted) (fun t => t.hash == ⟨some (0, 1), []⟩ && t.q.cmds.map (·.stage) == [.started]) ∧
    hashRunning (mergeAt .started) 0 0x32 = some (cmd 0x32 .started [0, 0, 0x8000]) ∧
    ends (.merge 0) (mergeAt .started) (fun t => t.hash == ⟨none, []⟩ && t.q.cmds.map (·.stage) == [.ended] && !(t.mem.le 0x8040 8).testBit 0) := by
  unfold Starts State.Alone; decide +kernel
/-- R254: the result of a GNORM comes from above; a segment comes from the left child of a node with a parent. -/
def collCmd1 (op : Nat) : Cmd := cmd op .started [0x100000000, 0x100000001, 0x2000, 0x3000]
def inColl (op die : Nat) (k : Coll) : State :=
  { queued ctx0 [collCmd1 op] with fuses := { base.fuses with die := die }, red := { base.red with colls := [k] } }
def result : Segment := ⟨1, 0, 4, [0x40000000, 0x3F800000, 1, 0], true, []⟩
theorem test_result_segment : (let s := inColl 0x49 7 { mid with op := 0x49, upDone := true, shaped := true }
    portUp s .up = true ∧ hasRoom s .up result = true ∧ (s.red.colls.find? (fun k => k.cseq == 1)).bind (collCmd s) = some (collCmd1 0x49) ∧
    headsMatch result.heads = true ∧ ends (.reductionSegment .up result false) s (fun t => t.q.cmds.map (·.stage) == [.ended] && t.red.colls.isEmpty &&
      t.mem.le 0x3000 4 == 0x40000000 && t.mem.le 0x3008 4 == 1)) := by decide +kernel
theorem test_child_segment : (let s := inColl 0x4A 1 { mid with retries := 0 }
    portUp s .cl = true ∧ hasRoom s .cl seg = true ∧ (treeOf s).any (fun x => x.1.isSome && x.2.2.isSome) = true ∧
    (s.red.colls.find? (fun k => k.cseq == 1)).bind (collCmd s) = some (collCmd1 0x4A) ∧ ends (.reductionSegment .cl seg false) s (fun t =>
      t.red.colls.map (fun x => (x.fromL, x.lDone)) == [([5], true)] && t.mem == Memory.empty)) := by decide +kernel
theorem test_segment_waits : hasRoom atLeaf .up seg = true ∧ atLeaf.red.aborted.contains 1 = false ∧ admittedColl atLeaf 1 = none := by decide
/-- R114, R117: no `TLD` waits, in any program. -/
theorem test_loaded (ps : List Word) (ws : List Nat) (i : Nat) : ((coreProg ps ws id).prog i).tlds = [] := by
  refine all_programs (p := fun x => x.tlds = []) (fun x hx => ?_) i
  simp only [coreProg, List.mem_cons] at hx
  rcases hx with rfl | hx
  · rfl
  · rcases List.mem_or_eq_of_mem_set hx with h | rfl
    · have : ∀ y ∈ base.lcores, y.tlds = [] := by decide +kernel
      exact this x h
    · rfl
/-- R117, R142: a `TLD` from memory leaves as a transfer; one whose block is not there yet is queued. -/
theorem test_tld_later : (let s := running (lines 0x10) (gens 0 256 3 0x4000)
    movesFull s 0 = false ∧ memLocked s 0 (cmd 0x58 .started []) false (linesAt (s.prog 0) 2 1) = false ∧ ends (.tld 0) s (fun t =>
      (t.tender.xfers ++ t.tender.outq).map (fun y => (y.write, y.stream, y.core, y.num, y.addr, y.len)) == [(false, 8, 0, 1, 0x4000, 128)] &&
      (t.prog 0).tlds.map (fun j => (j.ord, j.stream, j.lines)) == [(1, 8, 1)] && (t.prog 0).regs.pc == 1)) := by decide +kernel
def streamedLater : State := { streamed with tender := { streamed.tender with streams := streamed.tender.streams.map (fun o => { o with blocks := [], ended := false }) } }
theorem test_tld_waits : movesFull streamed 0 = false ∧ streamed.tender.streams.all (fun o => !o.dead && o.blocks.all (blockDone streamed.tender o)) = true ∧
    ends (.tld 0) streamedLater (fun t => (t.prog 0).tlds.map (fun j => (j.ord, j.stream, j.lines)) == [(1, 3, 1)] && (t.prog 0).regs.pc == 1 &&
      (t.pcore 0).scratch == Memory.empty) := by decide +kernel
theorem test_tst_may : memLocked (running (lines 0x11) (gens 0 256 3 0x4000)) 0 (cmd 0x58 .started []) true [(0x4000, 128)] = false := by decide +kernel
theorem test_not_zero_head : zeroHead (fun n => (arrayed opened).prog (64 * (n % 2))) opened = none ∧ aSlice.zero = false := by decide +kernel
/-- R157, R159: the streams of the tests above have the turn. -/
theorem test_fetches (blocks : List SBlock) (buf : List Byte)
    (h : (blocks, buf) ∈ [([⟨0, 1, Memory.empty, [(0, 0x2000, 128)], 0, [], [], false⟩], []), ([], listed 2), ([], [])]) :
    Fetches (streaming blocks buf) 0 0 ((streaming blocks buf).q.cmds.headD (cmd 0 .read [])) := by
  simp only [List.mem_cons, Prod.mk.injEq, List.not_mem_nil, or_false] at h
  rcases h with ⟨rfl, rfl⟩ | ⟨rfl, rfl⟩ | ⟨rfl, rfl⟩
  all_goals exact fetches_of (x := QRes.fresh 0 0 ctx0) (by decide) (by decide +kernel) (by decide +kernel) (by decide +kernel) (by decide +kernel)
theorem test_fetches_input : Fetches (gemm 0x13) 0 0 ((gemm 0x13).q.cmds.headD (cmd 0 .read [])) :=
  fetches_of (x := QRes.fresh 0 0 ctx0) (by decide) (by decide +kernel) (by decide +kernel) (by decide +kernel) (by decide +kernel)
theorem test_fabric_meets : (streaming [] []).tender.redo = [] ∧ hasOut faulted 0 = true ∧ aRead.drop = false ∧ aRead.skind = 0 ∧
    (inFlight aRead).tender.streams.find? (fun o => aRead.serves o) = (inFlight aRead).tender.streams.head? ∧
    xferCmd (inFlight aRead) aRead = (inFlight aRead).q.cmds.head? ∧ ((inFlight aRead).prog 0).run = .running := by decide +kernel
/-- R167: the limit of the queue is taken up by another transfer. -/
def fullOut : State := { faulted with tender := { faulted.tender with xfers := [{ aRead with id := 5 }] } }
theorem test_resume_waits : hasOut fullOut 0 = false ∧ ends (.pfResume 1) fullOut (fun t => t.tender.redo == [aRead] && t.tender.xfers == fullOut.tender.xfers) := by
  decide +kernel
/-- R164, R424: a slot wait, and a transfer without an answer; R293: a `WAITQ` behind its limit. -/
theorem test_stream_waits : starved.q.cmds.head?.map (fun c => (streamWaits starved c 0).1) = some true ∧
    ends (.streamWatchdog 0 0 1000) (inFlight aRead) (fun t => t.irq.stat.getLsbD irqWdog) := by decide +kernel
def barred : State := queued { ctx0 with wdog := 1 } [cmd 0x53 .admitted [0x6000, 9, 1]]
theorem test_queue_watchdog : (let c := cmd 0x53 .admitted [0x6000, 9, 1]
    cmdWait barred c = 11 ∧ wdogLimit barred c ≠ 0 ∧ wdogLimit barred c < 2000000 ∧ ends (.waitWatchdog (.queue 0) 2000000) barred (fun t =>
      t.tender.waitRec == [0, 0, 0, 0, 11, 0, 2000000] && t.irq.stat.getLsbD irqWdog)) := by decide +kernel
/-- Table 15.2, R383. -/
theorem test_restore_meets : let s := { admitted 0x61 dayPs with mem := Memory.empty.writeLe (0x2000 + 20) 4 77 }
    (s.amax.slots.map (·.1)).Pairwise (· < ·) ∧ (s.conf.seeds.map (·.1)).Pairwise (· < ·) := by decide
/-- R359: a retired port's record has the action of a retirement. -/
theorem test_port_record : ends (.frameResendTimeout (.fabric 2)) (linked 15) (fun t => t.flt.recs.map (fun r => (r.kind, r.action)) == [(7, 2)]) := by decide

/-! ## Further clauses: power and queues -/

/-- R397, R394: domain 37 is OFF, and no domain goes up, or domain 5 does. -/
def dark (st : PwrState) : State := withDom st 0 0
def crowded (st : PwrState) : State := (dark st).updDom 5 (fun x => { x with state := .up })
theorem test_power_up : (dark .off).power.doms.length = 40 ∧ ((dark .off).dom 37).vreq ≤ 60 ∧ (∀ k, k < 40 → ((dark .off).dom k).wantUp = false) ∧
    (dark .off).boot.booting = false ∧ (∀ k, k < 40 → domState (dark .off) k ≠ .up) ∧ domState (crowded .off) 5 = .up ∧
    (∀ k, k < 40 → ((crowded .off).dom k).wantUp = false) ∧
    ends (.powerTargetWrite 1 37 2) (dark .off) (fun t => domState t 37 == .up && (t.dom 37).req == some (((dark .off).dom 37).vreq, 2) && (t.dom 37).fromOff &&
      !(t.dom 37).vgood) ∧
    ends (.powerTargetWrite 1 37 2) (dark .retain) (fun t => domState t 37 == .up && !(t.dom 37).fromOff) ∧
    ends (.powerTargetWrite 1 37 2) (crowded .off) (fun t => domState t 37 == .off && (t.dom 37).wantUp) := by decide
/-- R394: from RETAIN not before VGOOD. R393: the pair of domain 0 goes OFF, with core 1's scratchpad. -/
def waking (good : Bool) : State := base.updDom 3 (fun x => { x with state := .up, fromOff := false, vgood := good })
def falling (goal : Nat) : State :=
  { base with pcores := base.pcores.modify 1 (fun x => { x with scratch := Memory.empty.writeLe 0 8 1 }) }.updDom 0 (fun x =>
    { x with state := .down, target := goal, goal := goal })
theorem test_power_ends : (∀ k, k < 40 → ((waking false).dom k).wantUp = false) ∧ ((waking true).dom 3).target = 2 ∧
    keeps (.powerTransitionDone 3 [] [] []) (waking false) = true ∧ ends (.powerTransitionDone 3 [] [] []) (waking true) (fun t => domState t 3 == .on) ∧
    (∀ k, k < 40 → ((falling 0).dom k).wantUp = false) ∧ (falling 0).pcores.length = 68 ∧
    ends (.powerTransitionDone 0 [] [] []) (falling 0) (fun t => domState t 0 == .off && (t.pcore 1).scratch == .empty) ∧
    ends (.powerTransitionDone 0 [] [] []) (falling 1) (fun t => domState t 0 == .retain && (t.pcore 1).scratch.le 0 8 == 1) := by decide
theorem test_release_meets : held3.red.heldAborts = [] ∧ held3.q.pend = [] ∧ 74 ∉ base.power.stopped := by decide
/-- R280: queue 5, which is not resident; its context is `x`. -/
def named5 (n : Nat) : Word := BitVec.ofNat 64 (5 + n * 2 ^ 32)
def absent (x : QCtx) : State := { queued ctx0 [] with mem := Memory.empty.writeBytes (0x8000 + 512 * 5) x.bytes }
theorem test_absent_meets : (absent ctx0).q.find ((named5 0).extractLsb' 0 22).toNat = none ∧ hasContext (absent ctx0) 5 = true ∧ 5 ∉ (absent ctx0).q.short ∧
    (absent ctx0).tender.ctlHeld (.context 5) = false ∧ fabricUp (absent ctx0) = true ∧ creditFits (absent ctx0) 5 = true ∧ freeSlot (absent ctx0).q = some 1 ∧
    (memCtx (absent ctx0) 5).state = .on ∧ (memCtx (absent { ctx0 with state := .off }) 5).state = .off ∧
    (memCtx (absent { ctx0 with state := .off }) 5).legal = true := by decide +kernel
theorem test_absent_actions : keeps (.queueEvict 1 (named5 0)) (absent ctx0) = true ∧
    ends (.queueBringIn 1 (named5 0)) (absent ctx0) (fun t => (t.q.find 5).map (fun y => (y.slot, y.ctx.rbase)) == some (1, 0x1000) && t.q.pend.isEmpty) ∧
    ends (.queueEnable 1 (named5 0)) (absent { ctx0 with state := .off }) (fun t => (t.q.find 5).map (fun y => (y.slot, y.ctx.state)) == some (1, .on) && t.q.baseLock) ∧
    ends (.queueDisable 1 (named5 0)) (absent ctx0) (fun t => (t.q.find 5).map (fun y => (y.slot, y.ctx.state)) == some (1, .off)) := by decide +kernel
/-- R280: every slot holds a queue that is in use. -/
def filled : State :=
  let s := absent ctx0
  { s with q := { s.q with res := (List.range 512).map (fun i => QRes.fresh i (100 + i) { ctx0 with loopActive := true }) } }
theorem test_no_slot : freeSlot filled.q = none ∧ evictable filled.tender filled.q = none ∧ creditFits filled 5 = true ∧ filled.q.find 5 = none ∧
    ends (.queueBringIn 1 (named5 0)) filled (fun t => t.q.pend == [5] && t.q.res.length == 512) := by decide +kernel
/-- R283: commands in every stage, two packets posted behind them. -/
def fiveCmds : List Cmd :=
  [{ cmd 0x7F .ended [] with seq := 1, ring := 0 }, { cmd 0x53 .started [] with seq := 2, ring := 1 }, { cmd 0x51 .admitted [] with seq := 3, ring := 2 },
   { cmd 0x13 .read [] with seq := 4, ring := 3 }, { cmd 0x40 .refused [] with seq := 5, ring := 4, refusal := some ⟨0x22, 0, 0⟩ }]
def manyStages (st : QState) : State := queued { ctx0 with head := 5, tail := 7, nextSeq := 6, state := st } fiveCmds
theorem test_cancel_meets (st : QState) : (∀ c ∈ queueCmds (manyStages st) 0, c.loopb = false ∧ (manyStages st).Alone c) ∧
    unread (QRes.fresh 0 0 { ctx0 with head := 5, tail := 7, nextSeq := 6, state := st }) = 2 ∧
    (trailing (queueCmds (manyStages st) 0)).map (·.seq) = [4, 5] := by
  unfold State.Alone; cases st <;> decide +kernel
theorem test_cancel_stages : [QState.on, .draining, .pendingOn].all (fun st => ends (.queueCancel 1 0) (manyStages st) (fun t =>
    t.q.cmds.map (fun c => (c.seq, c.ring, c.stage, (statusOf c).code)) ==
      [(1, 0, .ended, 0x31), (2, 1, .ended, 0x31), (3, 2, .ended, 0x31), (4, 3, .refused, 0x31), (5, 4, .refused, 0x31), (6, 5, .refused, 0x31),
       (7, 6, .refused, 0x31)] && (t.q.find 0).map (fun y => (y.ctx.head, y.ctx.nextSeq, y.ctx.state)) == some (7, 8, .draining))) = true ∧
    keeps (.queueCancel 1 0) (manyStages .off) = true := by decide +kernel

/-! ## Further clauses: restore, folds and collectives -/

/-- R310: job 1 has an image at address 0 with the CRC-64 `k`. -/
def restoring (k : Nat) : State :=
  { switching with conf := { switching.conf with jobs := switching.conf.jobs.set 1 { readyJob with image := some ⟨0, 0x4000000, k, [], 0, 0⟩ } } }
theorem restoring_area (k : Nat) : dieBytes (restoring k).mem (restoring k).extent 0 (saveBytes ((restoring k).conf.job 1)) =
    dieBytes switching.mem switching.extent 0 (saveBytes readyJob) := by
  have h : saveBytes ((restoring k).conf.job 1) = saveBytes readyJob := by rfl
  rw [h]; rfl
theorem test_image_meets (k : Nat) : ((restoring k).conf.job 0).incoming = some 1 ∧ ((restoring k).conf.job 1).enabled = true ∧
    samePlacement ((restoring k).conf.job 1) ((restoring k).conf.job 0) = true ∧ ((restoring k).conf.job 0).debt = 0 ∧ (restoring k).q.pend = [] ∧
    (restoring k).flt.flips = [] ∧ (((restoring k).conf.job 1).cores.map (storageOf (restoring k).pcores)).Nodup ∧
    (restoring k).tender.ctlHeld (.save 0) = false ∧ (restoring k).tender.ctlHeld (.restore 1) = false := by
  refine ⟨rfl, rfl, ?_, rfl, rfl, rfl, ?_, rfl, rfl⟩
  · have h : ((restoring k).conf.job 1).mask = 1 ∧ ((restoring k).conf.job 0).mask = 1 := ⟨rfl, rfl⟩
    rw [samePlacement, h.1, h.2]; decide
  have h : (restoring k).pcores = base.pcores ∧ ((restoring k).conf.job 1).mask = 1 := ⟨rfl, rfl⟩
  rw [Job.cores, h.1, h.2]; decide
theorem test_image_canonical (k : Nat) : (restoring k).Canonical := by
  have h : ∀ p ∈ base.pcores, p.scratch.wf = true ∧ p.acc.wf = true ∧ p.planes.wf = true ∧ p.pmem.wf = true := by decide +kernel
  have g : ∀ x ∈ base.lcores, ∀ j ∈ x.tlds, j.data.wf = true := by decide +kernel
  exact ⟨rfl, rfl, rfl, rfl, h, fun _ ho => absurd ho List.not_mem_nil, g⟩
theorem test_image_matches : (∃ k, crc64 (dieBytes (restoring k).mem (restoring k).extent 0 (saveBytes ((restoring k).conf.job 1))) = k) ∧
    ∃ k, crc64 (dieBytes (restoring k).mem (restoring k).extent 0 (saveBytes ((restoring k).conf.job 1))) ≠ k := by
  refine ⟨⟨crc64 (dieBytes switching.mem switching.extent 0 (saveBytes readyJob)), ?_⟩, crc64 (dieBytes switching.mem switching.extent 0 (saveBytes readyJob)) + 1, ?_⟩
  · rw [restoring_area]
  · rw [restoring_area]; omega
theorem test_barrier_jobs : (∀ j, (allCore.conf.job j).debt = 0 ∧ (allCore.conf.job j).expiredBy = none) ∧
    ∀ j, (coreBusy.conf.job j).debt = 0 ∧ (coreBusy.conf.job j).expiredBy = none :=
  ⟨all_jobs (p := fun b => b.debt = 0 ∧ b.expiredBy = none) (by decide), all_jobs (p := fun b => b.debt = 0 ∧ b.expiredBy = none) (by decide)⟩
/-- R174, R186, R356: the fold of two units, each in a turn of its own, and a unit with an error. -/
def foldCmd2 (done fails : Nat) : Cmd :=
  { foldCmd with
    descs := [tens 0x100 40 1, tens 0x180 40 1, { tens 0x2000 40 1 with ralias := true }], folded := done, retries := fails
    staged := [(2, [⟨0, 0, 0, ⟨0x3F800000, 0⟩⟩, ⟨0, 33, 0, ⟨0x40000000, 0⟩⟩])] }
def folding2 (done fails : Nat) : State := queued ctx0 [foldCmd2 done fails]
theorem test_fold_units : foldWaiting (folding2 0 0) 0 = some (foldCmd2 0 0) ∧ (folding2 0 0).cmd (foldCmd2 0 0) = some (foldCmd2 0 0) ∧
    unitCount ((foldCmd2 0 0).d 2) (batchOf (foldCmd2 0 0)).2 = 2 ∧ zoutOf (foldCmd2 0 0) = (0, 2) ∧
    ends (.aliasFoldPass 0) (folding2 0 0) (fun t => t.mem == Memory.empty.writeLe 0x2000 4 0x3F800000 &&
      t.q.cmds.map (fun c => (c.stage, c.folded, c.staged.length)) == [(.started, 1, 1)]) ∧
    ends (.aliasFoldPass 0) (folding2 1 0) (fun t => t.mem == Memory.empty.writeLe (0x2000 + 33 * 64) 4 0x40000000 &&
      t.q.cmds.map (fun c => (c.stage, c.folded, c.staged)) == [(.ended, 0, [])]) ∧
    ends (.lensUnit true) (folding2 0 3) (fun t => t.q.cmds.map (fun c => (c.stage, c.folded, c.retries)) == [(.started, 0, 4)]) ∧
    ends (.lensUnit true) (folding2 0 15) (fun t => t.q.cmds.map (fun c => (c.stage, c.conds.map (·.code))) == [(.ended, [0x60])]) := by decide +kernel
theorem test_lens_not_parity : (lensCmd .started 0).op ≠ 0x63 ∧ (pruneCmd .started).op ≠ 0x63 := by decide
/-- R186, R375: a table at 0x2000 whose one entry has a shard of 8 KiB here: two units. -/
def shardCmd (st : Stage) (done : Nat) : Cmd := { cmd 0x63 st [0x2000, 1] with folded := done, foldUnits := if st = .started then 2 else 0 }
def sharded (st : Stage) (done : Nat) : State :=
  let s := queued ctx0 [shardCmd st done]
  { s with
    conf := { s.conf with npos := 1 }
    mem := (((Memory.empty.writeLe 0x2000 4 1).writeLe 0x2040 8 0x00100101).writeLe 0x2048 8 0x4000).writeLe 0x2060 6 0x2000 }
theorem test_parity_waits : treeOf (sharded .admitted 0) = some (none, none, none) ∧ Starts (sharded .admitted 0) 0 0x63 (shardCmd .admitted 0) ∧
    cseqOf (sharded .admitted 0) (shardCmd .admitted 0) = 1 ∧ shardBytes (sharded .admitted 0) (shardCmd .admitted 0) 0 = 8192 ∧
    ends (.parity 0) (sharded .admitted 0) (fun t => t.q.cmds.map (fun c => (c.stage, c.foldUnits)) == [(.started, 2)] && t.red.colls.isEmpty) := by
  unfold Starts State.Alone; decide +kernel
theorem test_parity_units : centralUp (sharded .started 0) = true ∧ centralUser (sharded .started 0) = some (shardCmd .started 0) ∧
    (sharded .started 0).cmd (shardCmd .started 0) = some (shardCmd .started 0) ∧ (sharded .started 1).red.colls = [] ∧
    ends (.lensUnit false) (sharded .started 0) (fun t => t.q.cmds.map (fun c => (c.stage, c.folded)) == [(.started, 1)]) := by decide +kernel
theorem test_parity_last : centralUser (sharded .started 1) = some (shardCmd .started 1) ∧ (sharded .started 1).flt.double = [] ∧
    (sharded .started 1).red.early = [] ∧ (sharded .started 1).red.doneAhead = [] ∧ (shardCmd .started 1).folded + 1 = (shardCmd .started 1).foldUnits ∧
    cseqOf (sharded .started 1) (shardCmd .started 1) = 1 ∧ (sharded .started 1).red.lastCseq = 0 := by decide +kernel

/-- R254: position 2 of eight has the children 1 and 3 and a parent; position 4 is the root. -/
def hd : SegHead := ⟨[], none, none⟩
def rightSeg (v : Nat) (w : Nat) : Segment := ⟨1, 0, w, [v], true, [hd]⟩
def half (op own left w : Nat) : Coll := ⟨1, 0, 1, op, true, hd, [hd], [], [own], [left], [], true, false, 0, false, 0, w, 0, []⟩
theorem test_right_child : (let s := inColl 0x4A 2 { half 0x4A 0x3F800000 0x40000000 4 with lDone := false }
    portUp s .cr = true ∧ hasRoom s .cr (rightSeg 0x40400000 4) = true ∧
    (treeOf s).map (fun x => (x.1.isSome, x.2.1.isSome, x.2.2.isSome)) = some (true, true, true) ∧
    ends (.reductionSegment .cr (rightSeg 0x40400000 4) false) s (fun t => t.red.colls.map (fun x => (x.fromR, x.rDone)) == [([0x40400000], true)] && t.mem == Memory.empty)) := by
  decide +kernel
/-- max(2.0, 1.0, 3.0) goes up from position 2, and from the root to both children. -/
theorem test_combines : (let s := inColl 0x4A 2 (half 0x4A 0x3F800000 0x40000000 4)
    s.cmd (collCmd1 0x4A) = some (collCmd1 0x4A) ∧ (collCmd1 0x4A).rop = 2 ∧
    ends (.reductionSegment .cr (rightSeg 0x40400000 4) false) s (fun t => t.red.sent.map (fun e => (e.1, e.2.elems, e.2.last)) == [(.up, [0x40400000], true)] &&
      t.q.cmds.map (·.stage) == [.started])) := by decide +kernel
theorem test_root : (let s := inColl 0x4A 4 (half 0x4A 0x3F800000 0x40000000 4)
    (treeOf s).map (fun x => (x.1.isSome, x.2.1.isSome, x.2.2.isSome)) = some (true, true, false) ∧ headsMatch (hd :: ([hd] ++ [hd])) = true ∧
    ends (.reductionSegment .cr (rightSeg 0x40400000 4) false) s (fun t => t.q.cmds.map (fun c => (c.stage, c.amaxOut)) == [(.ended, [(0, 0x40400000)])] &&
      t.red.sent.map (fun e => (e.1, e.2.elems, e.2.last)) == [(.cl, [0x40400000], true), (.cr, [0x40400000], true)] && t.red.colls.isEmpty)) := by decide +kernel
/-- R263: 4.0 + 3.0 + 2.0 of squares is 9.0; the norm is 3.0, the coefficient min(1, 0 / 3.0) = 0. -/
theorem test_root_norm : (let s := inColl 0x49 4 (half 0x49 0x40400000 0x40800000 8)
    ends (.reductionSegment .cr (rightSeg 0x40000000 8) false) s (fun t => t.q.cmds.map (·.stage) == [.ended])) := by decide +kernel
/-- R255: the result of a sum, in FP32, to the element at 0x200. -/
def reduceCmd : Cmd := { hasDescs 0x48 [0x50, 0x100000001] [tens 0x200 1 1] with stage := .started }
def reducing : State :=
  { inColl 0x48 7 { mid with op := 0x48, upDone := true, shaped := true } with q := (queued ctx0 [reduceCmd]).q }
theorem test_reduce_result : portUp reducing .up = true ∧ hasRoom reducing .up seg = true ∧ (reducing.red.colls.find? (fun k => k.cseq == 1)).bind (collCmd reducing) = some reduceCmd ∧
    reduceCmd.pf 0 4 2 = 1 ∧ reduceCmd.role .dst = some (tens 0x200 1 1) ∧
    ends (.reductionSegment .up { seg with elems := [0x3F800000] } false) reducing (fun t => t.mem == Memory.empty.writeLe 0x200 4 0x3F800000 &&
      t.q.cmds.map (·.stage) == [.ended]) := by decide +kernel
/-- R373, R377: the rebuilt shard of position 7: its byte 0. -/
def rebuildCmd : Cmd := cmd 0x63 .started [0x2000, 1]
def rebuilding : State :=
  { inColl 0x63 7 { mid with op := 0x63, upDone := true, shaped := true, wire := 1 } with
    q := (queued ctx0 [rebuildCmd]).q
    mem := (((Memory.empty.writeLe 0x2000 4 1).writeLe 0x2040 8 0x00108105).writeLe 0x2044 1 1).writeLe 0x2060 8 (0x10 + 0x5000 * 2 ^ 48) |>.writeLe 0x2066 6 0x5000 }
theorem test_parity_result : (seriesAt (seriesOf rebuilding rebuildCmd) 0).map (fun x => (x.1.dest, x.1.g.rebuild, x.2)) = some ((7, 0x5000), true, 0) ∧
    position rebuilding = some 7 ∧ ends (.reductionSegment .up { seg with elems := [0x77] } false) rebuilding (fun t => t.mem.le 0x5000 1 == 0x77 &&
      t.q.cmds.map (·.stage) == [.ended]) := by decide +kernel

/-! ## Further clauses: what the runs store -/

/-- R26, Table 4.2: 2.0 x 3.0, of the products with extents 1; the sum is one wave. -/
def gemmCmd (op : Nat) : Cmd := (gemm op).q.cmds.headD (cmd 0 .read [])
theorem test_element_meets : ((gemm 0x13).conf.job 0).cores ≠ [] ∧ [0x11, 0x12, 0x13].all (fun op => let c := gemmCmd op
    c.op == op && c.chain == 0 && c.lp.shape != 4 && c.lp.piece == 0 && c.lp.nb1 * c.lp.nb2 == 1 && (prodOf c).m == 1 && (prodOf c).n == 1 && (prodOf c).k == 1 &&
    c.pf 7 0 48 == 0 && c.pf 0 5 2 == 0 && !c.pb 0 9 && !c.pb 0 10 && !(c.d 2).ralias && !(c.d 2).oob (gemm op).extent c.lp.nb2 0 0 0 &&
    !frozen (gemm op) (gemm op).mem c (c.d 2) 0 0) = true := by decide
theorem test_element_value : prodElem (gemm 0x13) (gemm 0x13).mem (gemmCmd 0x13) (prodOf (gemmCmd 0x13)) 0 0 0 = ⟨0x40C00000, 0⟩ ∧
    (Memory.empty.dieStores 65536 (productRun (gemm 0x13) (gemmCmd 0x13)).stores).le 0x300 4 = 0x40C00000 := by decide +kernel
/-- Table 8.6, R214: dY = 2.0, Y = 0.25 and 3.0. -/
def layerCmd (op p1 : Nat) : Cmd := hasDescs op [0x100000001, BitVec.ofNat 64 p1] [tens 0x100 1 1, tens 0x180 1 1, tens 0x200 1 1]
def layered (op p1 y : Nat) : State :=
  { queued ctx0 [layerCmd op p1] with mem := (Memory.empty.writeLe 0x100 4 0x40000000).writeLe 0x180 4 y }
theorem test_layer_meets : (layerCmd 0x22 0).items = 1 ∧ (layerCmd 0x22 0).epi = 0 ∧ (layerCmd 0x22 0).pb 1 8 = false ∧ (layerCmd 0x22 0).pf 1 4 4 = 0 ∧
    (layerCmd 0x22 0x20).pf 1 4 4 = 2 ∧ (layerCmd 0x28 0x10000).pf 1 16 2 = 1 ∧ (layerCmd 0x28 0x30000).pf 1 16 2 = 3 ∧
    [0, 1, 2].all (fun k => !((layerCmd 0x22 0).d k).ralias && !((layerCmd 0x22 0).d k).oob 65536 (layerCmd 0x22 0).nb2 0 0 0) = true := by decide
theorem test_layer_values : ends (.abwd 0) (layered 0x22 0 0x40400000) (fun t => t.mem.le 0x200 4 == 0x40000000) ∧
    ends (.abwd 0) (layered 0x22 0 0xBF800000) (fun t => t.mem.le 0x200 4 == 0) ∧
    ends (.abwd 0) (layered 0x22 0x20 0x3E800000) (fun t => t.mem.le 0x200 4 == 0x3EC00000) ∧
    ends (.epi 0) (layered 0x28 0 0x40400000) (fun t => t.mem.le 0x200 4 == 0x40A00000) ∧
    ends (.epi 0) (layered 0x28 0x10000 0x40400000) (fun t => t.mem.le 0x200 4 == 0x40C00000) ∧
    ends (.epi 0) (layered 0x28 0x30000 0x40400000) (fun t => t.mem.le 0x180 4 == 0x40A00000) := by decide +kernel

/-! ## Further clauses: programs -/

/-- R115: reserved bits of `CHPUT` and `CHREL`; and in a replay, whose flags, queue and records stay. -/
theorem test_illegal_chain : [(Instr.chput 0, 0x81), (.chrel 0, 0x83)].all (fun e =>
    rsvBits (wordOf e.2 [(1, 0)]) [] && bf (wordOf e.2 [(1, 0)]) 56 8 == e.2 && may (running (wordOf e.2 [(1, 0)]) id) (wordOf e.2 [(1, 0)]) &&
    ends e.1 (running (wordOf e.2 [(1, 0)]) id) (fun t => counted t && (t.prog 0).regs.pc == 1)) = true := by decide
def replaying (w : Nat) : State := running w (fun l => { l with run := .replaying, prevLog := [.sig] })
theorem test_illegal_replay : Issues (replaying (wordOf 0x07 [])) 0 (cmd 0x58 .started []) (wordOf 0x07 []) ∧
    ends (.nopInstruction 0) (replaying (wordOf 0x07 [])) (fun t => counted t && (t.prog 0).illCnt == 1 && (t.prog 0).regs.pc == 1) := by unfold Issues; decide
theorem test_halt_last : ((running (wordOf 0x0F []) id).prog 0).held = [] ∧ ((running (wordOf 0x0F []) id).prog 0).drains = [] ∧
    (running (wordOf 0x0F []) id).tender.writesOf (cmd 0x58 .started []) = [] ∧ ((running (wordOf 0x71 []) id).prog 0).holds [0x11] = false := by decide
/-- R117: nothing that waits holds the accesses of the tests above back. -/
theorem test_not_locked : ((running (word 3 5 1) (gens 0 (Config.scratchBytes - 8) 0 0)).prog 0).locked [(0, 1572856, 1572864)] [] = false ∧
    ((running (word 4 1 1) (gens 2 64 0 0)).prog 0).locked [] [(2, 64, 72)] = false ∧
    ((running (lines 0x10) (gens 0 256 2 128)).prog 0).locked [(2, 128, 256)] [(0, 256, 384)] = false ∧
    ((running (lines 0x11) (gens 0 256 3 0x4000)).prog 0).locked [(0, 256, 384)] [(3, 0x4000, 0x4080)] = false := by decide
/-- R117: an instruction that waits in its unit for a drain of what it reads. -/
theorem test_locked : ((running (word 3 5 1) (fun l => { waitingDrain l with drains := (waitingDrain l).drains.map (fun d =>
    { d with park := false, addrs := List.replicate 128 64, fmt := 8 }) })).prog 0).locked [(2, 64, 72)] [] = true := by decide +kernel
/-- R71, R74: row 31 of plane 0 is the last. -/
def lastRow (park : Bool) : State :=
  let held := (List.range 31).flatMap (fun n => (positions 4 32).map (fun e => (8192 * e.1 + 256 * n + 8 * e.2, (⟨BitVec.ofNat 32 n, 0⟩ : Pair))))
  let d : DrainJob := ⟨0, 0, 0, 1, 0, false, park, 5, 0, (List.range 128).map (fun k => ((128 * k : Nat) : Int)), 8, false, 0, false, 0, 0, [], 0, 0, 0, 0, 0, 31, if park then held else [], [], []⟩
  let s := running 0 (fun l => { l with issue := 1, drains := [d] })
  { s with pcores := s.pcores.modify 0 (fun p => { p with planes := Memory.empty.writePair (cellAddr 1 0 31 3) ⟨0x40800000, 0⟩ }) }
theorem test_last_row_meets : (nextDrain (lastRow true) 0).map (fun d => (d.plane, d.next, d.park, d.slot, d.eaddrs.length, d.shape)) = some (0, 31, true, 5, 0, 0) ∧
    (nextDrain (lastRow false) 0).map (fun d => (d.epi, d.sr, d.fmt)) = some (0, false, 8) ∧ ((lastRow true).prog 0).run = .running ∧
    0 ∈ ((lastRow true).conf.job 0).cores ∧ progCmd (lastRow true) 64 = none ∧ ((lastRow true).prog 64).drains = [] ∧ (lastRow true).lcores.length = 128 ∧
    coreUp (lastRow true) 0 = true ∧ ((lastRow true).pcore 0).planes.wf = true ∧ ((lastRow true).pcore 0).acc.wf = true ∧ (lastRow true).cstore.wf = true ∧
    ((lastRow true).prog 0).logBytes = 0 := by decide +kernel
theorem test_last_row_drain : ends (.drainRow 0) (lastRow false) (fun t => t.cstore.le (128 * 125 + 12) 4 == 0x40800000 && (t.prog 0).drains.isEmpty &&
    (t.pcore 0).planes == .empty) := by decide +kernel
/-- R33: row 0 of plane 1 from elements of FP32 at 128 times the row's number in the partition. -/
def preloading2 : State :=
  let s := running 0 (fun l => { l with preloads := [⟨1, 1, false, 2, 0, (List.range 128).map (fun k => ((128 * k : Nat) : Int)), 8, 0, 0⟩] })
  { s with cstore := Memory.empty.writeLe (128 + 12) 4 0x40800000 }
theorem test_preload_store : ((preloading2.prog 0).preloads.find? (fun e => e.ready preloading2 0)).map (fun d => (d.plane, d.next, d.src)) = some (1, 0, 2) ∧
    preloadFmt 8 = true ∧ ends (.preloadRow 0) preloading2 (fun t => (t.pcore 0).planes.pair (cellAddr 1 1 0 3) == ⟨0x40800000, 0⟩ &&
      (t.pcore 0).planes.pair (cellAddr 1 0 0 3) == Pair.zero && (t.prog 0).preloads.map (·.next) == [1]) := by decide +kernel
theorem test_mark_storage : (marked.flt.single.isEmpty && marked.flt.double.isEmpty && marked.flt.wback.isEmpty && marked.flt.flips.isEmpty) = true ∧
    ends (.markComplete 0) marked (fun t => (t.prog 0).markPend == none) := by decide
theorem test_replay_meets : domHeld fencedProg 68 = false ∧ fencedProg.flt.flips = [] ∧ (fencedProg.prog 0).overflowed = false ∧ progCmd fencedProg 64 = none ∧
    fencedProg.lcores.length = 128 ∧ fencedProg.pcores.length = 68 := by decide +kernel
/-- R389: with the boundary's clock stopped no answer arrives. R423: a ring beyond the extent. -/
theorem test_fabric_held : (let s := { inFlight aRead with power := { base.power with stopped := [72] } }
    fabricUp s = false ∧ keeps (.fabricResponse (.transfer 4) .ok) s = true) := by decide +kernel
def farRing : State := queued { ctx0 with rbase := 0x10000, tail := 1 } []
theorem test_beyond_extent : (ctlSpan farRing (.ring 0)).map (·.1) = some 0x10000 ∧ farRing.extent = 0x10000 ∧
    keeps (.fabricResponse (.control (.ring 0)) .xlate) farRing = true := by decide +kernel
theorem test_queue_waits : barred.q.cmds.filter (fun d => d.qid == 0 && (d.stage == .admitted || d.stage == .started) && cmdWait barred d != 0) =
    [cmd 0x53 .admitted [0x6000, 9, 1]] ∧ (barred.q.find 0).map (·.ctx.wdog) = some 1 := by decide +kernel
theorem test_stream_limit : starved.q.cmds.head?.map (fun c => (wdogLimit starved c, (streamWaits starved c 0).1)) = some (5, true) ∧
    (inFlight aRead).tender.xfers.any (fun y => y.ofStream 0) = true ∧ (streamKind 0).2.1 ≠ 6 := by decide +kernel
/-- R357: a product that meets an uncorrectable word of its cores' scratchpads. -/
def tainted : State := { gemm 0x13 with flt := { base.flt with double := [(.scratch 0, 64)] } }
theorem test_met : metBy (gemm 0x13) (gemmCmd 0x13) = [] ∧ (let t := failRun tainted (gemmCmd 0x13) [(.scratch 0, 64)]
    t.mem == tainted.mem && t.q.cmds.map (fun c => (c.stage, c.conds.map (·.code))) == [(.ended, [0x60])]) = true := by decide +kernel
theorem test_norm_leaves : leafQueues (cmd 0x49 .admitted (seqPs 0x49)) = [] ∨
    ∀ k ∈ leafQueues (cmd 0x49 .admitted (seqPs 0x49)), ((alone 0x49 (seqPs 0x49)).q.find k).isSome = true := by decide

end Sys2Proof.Tests
end

section
namespace Sys2Proof.Machine

/-! ## Bytes that a write does not reach

The canonical form of a memory is not needed for what a write leaves alone: `cellsWrite` inserts, replaces or removes a cell of its own address only.
-/

/-- A write at another address, in any cell list. -/
theorem cellsRead_write_ne (l : List Host.Cell) {a b : Nat} (v : Byte) (h : b ≠ a) : cellsRead (cellsWrite l a v) b = cellsRead l b := by
  induction l with
  | nil => rw [cellsWrite]; split <;> simp [cellsRead, h.symm]
  | cons x r ih =>
    obtain ⟨k, c⟩ := x
    rw [cellsWrite]
    split
    · split <;> simp [cellsRead, h.symm]
    · split
      · rename_i hk
        subst hk
        split <;> simp [cellsRead, h.symm]
      · simp [cellsRead, ih]

/-- The first of two cell lists does not matter at an address that it does not list. -/
theorem cellsRead_append {l r : List Host.Cell} {b : Nat} (h : ∀ c ∈ l, c.1 ≠ b) : cellsRead (l ++ r) b = cellsRead r b := by
  induction l with
  | nil => rfl
  | cons x l ih =>
    obtain ⟨k, c⟩ := x
    rw [List.cons_append, cellsRead, if_neg (h (k, c) (List.mem_cons_self ..))]
    exact ih (fun c hc => h c (List.mem_cons_of_mem _ hc))

/-- And neither does the second. -/
theorem cellsRead_append_left {l r : List Host.Cell} {b : Nat} (h : ∀ c ∈ r, c.1 ≠ b) : cellsRead (l ++ r) b = cellsRead l b := by
  induction l with
  | nil => rw [List.nil_append, ← List.append_nil r, cellsRead_append h]
  | cons x l ih => obtain ⟨k, c⟩ := x; simp only [List.cons_append, cellsRead, ih]

theorem Memory.read_write_ne (m : Memory) {a b : Nat} (v : Byte) (h : b ≠ a) : (m.write a v).read b = m.read b := cellsRead_write_ne _ v h

theorem Memory.read_writeBytes_beyond (bs : List Byte) (m : Memory) {a b : Nat} (h : a + bs.length ≤ b) : (m.writeBytes a bs).read b = m.read b := by
  induction bs generalizing m a with
  | nil => rfl
  | cons x r ih =>
    rw [List.length_cons] at h
    rw [Memory.writeBytes, ih _ (by omega), Memory.read_write_ne _ _ (by omega)]

theorem Memory.read_havoc_beyond (n : Nat) (m : Memory) {ctr a b : Nat} (h : a + n ≤ b) : (m.havoc ctr a n).read b = m.read b := by
  induction n generalizing m a with
  | zero => rfl
  | succ n ih => rw [Memory.havoc, ih _ (by omega), Memory.read_write_ne _ _ (by omega)]

/-- One store, cut to the die's memory. -/
theorem Memory.read_store_clip (m : Memory) (w : Store) {ext b : Nat} (h : ext ≤ b) : (m.store (w.clip ext)).read b = m.read b := by
  cases w with
  | bytes a bs =>
    rw [Store.clip, Memory.store]
    rcases Nat.le_total ext a with ha | ha
    · rw [Nat.sub_eq_zero_of_le ha]; rfl
    · exact Memory.read_writeBytes_beyond _ m (by rw [List.length_take]; omega)
  | nibble a hi v =>
    rw [Store.clip]
    split
    · exact Memory.read_write_ne m _ (by omega)
    · rfl

/-- Stores on the die's memory reach no byte at or beyond the extent (R14). -/
theorem Memory.read_dieStores_beyond (ws : List Store) (m : Memory) {ext b : Nat} (h : ext ≤ b) : (m.dieStores ext ws).read b = m.read b := by
  induction ws generalizing m with
  | nil => rfl
  | cons w r ih => exact (ih (m.store (w.clip ext))).trans (Memory.read_store_clip m w h)

/-- Free values on the die's memory reach no byte at or beyond the extent. -/
theorem Memory.read_dieHavoc_beyond (m : Memory) (ctr a n : Nat) {ext b : Nat} (h : ext ≤ b) : (m.dieHavoc ext ctr a n).read b = m.read b := by
  rw [Memory.dieHavoc]
  rcases Nat.le_total ext a with ha | ha
  · have : (if a + n ≤ ext then n else ext - a) = 0 := by split <;> omega
    rw [this]; rfl
  · exact Memory.read_havoc_beyond _ m (by split <;> omega)

/-- A copy between memories leaves every byte outside its destination alone. -/
theorem Memory.read_copyFrom_outside (m src : Memory) (a : Nat) {dst n b : Nat} (h : b < dst ∨ dst + n ≤ b) : (m.copyFrom src a dst n).read b = m.read b := by
  have hw := cellsWindow_mem a n dst src.cells
  have hlow : ∀ c ∈ m.cells.filter (fun c => decide (c.1 < dst)), c.1 < dst := fun c hc => by simpa using (List.mem_filter.mp hc).2
  have hhigh : ∀ c ∈ m.cells.filter (fun c => decide (dst + n ≤ c.1)), dst + n ≤ c.1 := fun c hc => by simpa using (List.mem_filter.mp hc).2
  rw [Memory.read, Memory.copyFrom, Memory.read]
  rcases h with h | h
  · rw [cellsRead_append_left (fun c hc => by have := hhigh c hc; omega), cellsRead_append_left (fun c hc => by have := hw c hc; omega),
      cellsRead_filter (fun k => decide (k < dst)), if_pos (by simpa using h)]
  · have hbelow : ∀ c ∈ m.cells.filter (fun c => decide (c.1 < dst)) ++ cellsWindow a n dst src.cells, c.1 ≠ b := by
      intro c hc
      rcases List.mem_append.mp hc with hc | hc
      · have := hlow c hc; omega
      · have := hw c hc; omega
    rw [cellsRead_append hbelow, cellsRead_filter (fun k => decide (dst + n ≤ k)), if_pos (by simpa using h)]

/-- A copy into the die's memory reaches no byte at or beyond the extent. -/
theorem Memory.read_dieCopyFrom_beyond (m src : Memory) (a dst n : Nat) {ext b : Nat} (h : ext ≤ b) :
    (m.dieCopyFrom ext src a dst n).read b = m.read b := by
  have hn : Nat.min n (ext - dst) ≤ ext - dst := Nat.min_le_right ..
  exact Memory.read_copyFrom_outside m src a (by omega)

end Sys2Proof.Machine
end

section
namespace Sys2Proof.Machine

/-! ## A memory and an extent that agree with a state's at and beyond its extent -/

/-- The memory `m` under the extent `e` agrees with the state's: the same extent, and at and beyond it the same bytes. -/
def State.Beyond (s : State) (m : Memory) (e : Nat) : Prop := e = s.extent ∧ ∀ a, s.extent ≤ a → m.read a = s.mem.read a

/-- `t` has the extent of `s` and, at and beyond it, the bytes of `s`: what a step may do that is neither a reset nor the report of the extent. -/
def State.Inside (s t : State) : Prop := s.Beyond t.mem t.extent

variable {s t u : State} {m m' : Memory} {e : Nat}

theorem State.Inside.refl (s : State) : s.Inside s := ⟨rfl, fun _ _ => rfl⟩

theorem State.Inside.symm (h : s.Inside t) : t.Inside s := by
  obtain ⟨he, hm⟩ := h
  exact ⟨he.symm, fun a ha => (hm a (he ▸ ha)).symm⟩

theorem State.Inside.trans (h : s.Inside t) (k : t.Inside u) : s.Inside u := by
  obtain ⟨he, hm⟩ := h
  obtain ⟨ke, km⟩ := k
  exact ⟨ke.trans he, fun a ha => (km a (he ▸ ha)).trans (hm a ha)⟩

/-- The relation is an equivalence, so what an operation does is said as a rule that takes the operation off: the rules of this file are of this form,
and with them `simp` takes one operation after the other off a state. -/
theorem State.Inside.iff (h : t.Inside u) : s.Inside u ↔ s.Inside t := ⟨fun k => k.trans h.symm, fun k => k.trans h⟩

@[simp] theorem State.inside_refl (s : State) : s.Inside s := .refl s

/-- Of a state as it is written only the memory and the extent count. -/
@[simp ↓] theorem State.inside_mk (p q conf lc pc rings cs ten turn hash red amax accts irq ill fw mail flt rb pow boot tap fus free) :
    s.Inside ⟨p, m, e, q, conf, lc, pc, rings, cs, ten, turn, hash, red, amax, accts, irq, ill, fw, mail, flt, rb, pow, boot, tap, fus, free⟩ ↔ s.Beyond m e :=
  Iff.rfl

@[simp ↓] theorem State.beyond_self : s.Beyond t.mem t.extent ↔ s.Inside t := Iff.rfl

@[simp ↓] theorem State.beyond_dieStores (ws : List Store) : s.Beyond (m.dieStores e ws) e ↔ s.Beyond m e := by
  refine and_congr_right fun he => forall₂_congr fun a ha => ?_
  rw [Memory.read_dieStores_beyond ws m (he ▸ ha)]

@[simp ↓] theorem State.beyond_dieHavoc (ctr a n : Nat) : s.Beyond (m.dieHavoc e ctr a n) e ↔ s.Beyond m e := by
  refine and_congr_right fun he => forall₂_congr fun b hb => ?_
  rw [Memory.read_dieHavoc_beyond m ctr a n (he ▸ hb)]

@[simp ↓] theorem State.beyond_dieCopyFrom (src : Memory) (a dst n : Nat) : s.Beyond (m.dieCopyFrom e src a dst n) e ↔ s.Beyond m e := by
  refine and_congr_right fun he => forall₂_congr fun b hb => ?_
  rw [Memory.read_dieCopyFrom_beyond m src a dst n (he ▸ hb)]

@[simp ↓] theorem State.beyond_ite (p : Prop) [Decidable p] : s.Beyond (if p then m else m') e ↔ if p then s.Beyond m e else s.Beyond m' e := by
  split <;> rfl

@[simp ↓] theorem State.inside_ite (p : Prop) [Decidable p] : s.Inside (if p then t else u) ↔ if p then s.Inside t else s.Inside u := by
  split <;> rfl

@[simp ↓] theorem State.inside_ite_fst {β : Type} (p : Prop) [Decidable p] (x y : State × β) :
    s.Inside (if p then x else y).1 ↔ if p then s.Inside x.1 else s.Inside y.1 := by
  split <;> rfl

@[simp ↓] theorem State.inside_foldl {α : Type} {f : State → α → State} (h : ∀ t x, State.Inside t (f t x)) (l : List α) :
    s.Inside (l.foldl f t) ↔ s.Inside t := by
  induction l generalizing t with
  | nil => rfl
  | cons x r ih => exact ih.trans (h t x).iff

@[simp ↓] theorem State.inside_foldr {α : Type} {f : α → State → State} (h : ∀ x t, State.Inside t (f x t)) (l : List α) :
    s.Inside (l.foldr f t) ↔ s.Inside t := by
  induction l with
  | nil => rfl
  | cons x r ih => exact (h x _).iff.trans ih

/-! ## Named updates that keep memory and extent -/

@[simp ↓] theorem State.inside_updProg (i : Nat) (f : LCore → LCore) : s.Inside (t.updProg i f) ↔ s.Inside t := Iff.rfl
@[simp ↓] theorem State.inside_updCore (p : Nat) (f : PCore → PCore) : s.Inside (t.updCore p f) ↔ s.Inside t := Iff.rfl
@[simp ↓] theorem State.inside_updDom (d : Nat) (f : PwrDom → PwrDom) : s.Inside (t.updDom d f) ↔ s.Inside t := Iff.rfl
@[simp ↓] theorem State.inside_updCmd (c : Cmd) (f : Cmd → Cmd) : s.Inside (t.updCmd c f) ↔ s.Inside t := Iff.rfl
@[simp ↓] theorem updChan_inside (ch : Nat) (f : Chan → Chan) : s.Inside (updChan t ch f) ↔ s.Inside t := Iff.rfl
@[simp ↓] theorem updRing_inside (l : Nat) (f : ChainRing → ChainRing) : s.Inside (updRing t l f) ↔ s.Inside t := Iff.rfl
@[simp ↓] theorem setLink_inside (x : LinkSt) : s.Inside (setLink t x) ↔ s.Inside t := Iff.rfl
@[simp ↓] theorem setTender_inside (x : Tender) : s.Inside (setTender t x) ↔ s.Inside t := Iff.rfl
@[simp ↓] theorem noteIll_inside (src : Nat) (id : IllId) (k : Option Nat) (v : Word) : s.Inside (noteIll t src id k v) ↔ s.Inside t := Iff.rfl
@[simp ↓] theorem noteFault_inside (r : FltRec) : s.Inside (noteFault t r) ↔ s.Inside t := Iff.rfl
@[simp ↓] theorem engineFault_inside (kind action unit loc : Nat) : s.Inside (engineFault t kind action unit loc) ↔ s.Inside t := Iff.rfl
@[simp ↓] theorem storageFault_inside (kind action : Nat) (inj : Bool) (st : Storage) (a : Nat) :
    s.Inside (storageFault t kind action inj st a) ↔ s.Inside t := Iff.rfl
@[simp ↓] theorem beginCmd_inside (c : Cmd) : s.Inside (beginCmd t c) ↔ s.Inside t := Iff.rfl
@[simp ↓] theorem takeScales_inside (c : Cmd) (tids : List Nat) : s.Inside (takeScales t c tids) ↔ s.Inside t := Iff.rfl
@[simp ↓] theorem usedCores_inside (j : Nat) (counts : List (Nat × Nat × Nat)) : s.Inside (usedCores t j counts) ↔ s.Inside t := Iff.rfl

/-! ## Storage arrays (R337-R339, R357) -/

@[simp ↓] theorem countCe_inside (st : Storage) (n : Nat) : s.Inside (countCe t st n) ↔ s.Inside t := by cases st <;> rfl

@[simp ↓] theorem setStorage_inside (st : Storage) (m : Memory) : s.Inside (setStorage t st m) ↔ s.Inside t := by cases st <;> rfl

@[simp ↓] theorem touchRead_inside (st : Storage) (a n : Nat) : s.Inside (touchRead t st a n) ↔ s.Inside t := by
  simp only [touchRead]; simp

@[simp ↓] theorem applyFlips_inside (st : Storage) (a n : Nat) : s.Inside (applyFlips t st a n) ↔ s.Inside t := by
  simp only [applyFlips]; simp

@[simp ↓] theorem refreshed_inside (st : Storage) (a n : Nat) : s.Inside (refreshed t st a n) ↔ s.Inside t := by
  simp only [refreshed]; simp

@[simp ↓] theorem storageWrite_inside (st : Storage) (a : Nat) (bs : List Byte) : s.Inside (storageWrite t st a bs) ↔ s.Inside t := by
  simp only [storageWrite]; simp

@[simp ↓] theorem writeFree_inside (st : Storage) (tag a n : Nat) : s.Inside (writeFree t st tag a n) ↔ s.Inside t := by
  simp only [writeFree]; simp

@[simp ↓] theorem usedWords_inside (j : Nat) : s.Inside (usedWords t j) ↔ s.Inside t := by
  simp only [usedWords]; simp

@[simp ↓] theorem readThrough_inside (st : Storage) (a n : Nat) : s.Inside (readThrough t st a n) ↔ s.Inside t := by
  simp only [readThrough]; simp

/-! ## Runs of commands -/

@[simp ↓] theorem dropAhead_inside (c : Cmd) : s.Inside (dropAhead t c) ↔ s.Inside t := by
  simp only [dropAhead]; simp

@[simp ↓] theorem finishRun_inside (c : Cmd) (r : RunRes) : s.Inside (finishRun t c r) ↔ s.Inside t := by
  have havoc : ∀ (l : List (Nat × Nat)) (m : Memory), s.Beyond (l.foldl (fun m h => m.dieHavoc t.extent t.free h.1 h.2) m) t.extent ↔ s.Beyond m t.extent := by
    intro l
    induction l with
    | nil => exact fun _ => Iff.rfl
    | cons h r ih => exact fun m => (ih _).trans (State.beyond_dieHavoc ..)
  exact (State.beyond_dieStores _).trans (havoc _ _)

@[simp ↓] theorem failRun_inside (c : Cmd) (ws : List (Storage × Nat)) : s.Inside (failRun t c ws) ↔ s.Inside t := by
  simp only [failRun]; simp

@[simp ↓] theorem runEnd_inside (c : Cmd) (r : RunRes) : s.Inside (runEnd t c r) ↔ s.Inside t := by
  simp only [runEnd]; simp

@[simp ↓] theorem runOp_inside (q op : Nat) (tids : Cmd → List Nat) (f : State → Cmd → RunRes) : s.Inside (runOp t q op tids f) ↔ s.Inside t := by
  simp only [runOp]; split <;> simp

@[simp ↓] theorem zinIll_inside (c : Cmd) (ops : List Nat) : s.Inside (zinIll t c ops) ↔ s.Inside t := by
  simp only [zinIll]; simp

@[simp ↓] theorem runProduct_inside (q op : Nat) (ops : List Nat) (tids : Cmd → List Nat) (f : State → Cmd → RunRes) :
    s.Inside (runProduct t q op ops tids f) ↔ s.Inside t := by
  simp only [runProduct]; split <;> simp

end Sys2Proof.Machine
end

section
namespace Sys2Proof.Machine
variable {s t u : State} {m m' : Memory} {e : Nat}

/-! ## The hash accumulator and its pools (R222-R237) -/

@[simp ↓] theorem State.beyond_foldl {α β : Type} {g : β → Memory} {f : β → α → β} (h : ∀ b x, s.Beyond (g (f b x)) e ↔ s.Beyond (g b) e) (l : List α) (b : β) :
    s.Beyond (g (l.foldl f b)) e ↔ s.Beyond (g b) e := by
  induction l generalizing b with
  | nil => rfl
  | cons x r ih => exact (ih _).trans (h b x)

@[simp ↓] theorem mergeRecord_beyond (tab : Desc) (a : Nat × Nat) (st : MergeSt) : s.Beyond (mergeRecord e tab a st).mem e ↔ s.Beyond st.mem e := by
  simp only [mergeRecord]
  split
  · rfl
  · split <;> simp

@[simp ↓] theorem mergeOwner_beyond (pool : Nat) (tab : Desc) (alloc : Nat) (upto : Nat → Nat → Nat) (st : MergeSt) (o : Nat) :
    s.Beyond (mergeOwner e pool tab alloc upto st o).mem e ↔ s.Beyond st.mem e := by
  simp only [mergeOwner]
  rw [State.beyond_dieStores, State.beyond_foldl (g := MergeSt.mem) (fun st a => mergeRecord_beyond tab a st)]

@[simp ↓] theorem mergeLists_beyond (pool : Nat) (upto : Nat → Nat → Nat) : s.Beyond (mergeLists m e pool upto).mem e ↔ s.Beyond m e :=
  State.beyond_foldl (g := MergeSt.mem) (fun st o => mergeOwner_beyond _ _ _ _ st o) _ _

@[simp ↓] theorem mergePool_beyond (pool : Nat) : s.Beyond (mergePool m e pool).mem e ↔ s.Beyond m e := by
  simp only [mergePool]; split <;> simp

@[simp ↓] theorem mergePart_beyond (pool : Nat) : s.Beyond (mergePart t pool).mem t.extent ↔ s.Inside t := mergeLists_beyond ..

theorem appendRecord_beyond (pool o row g head len : Nat) (ps : List Pair) (a : AccSt) :
    s.Beyond (appendRecord e pool o row g head len ps a).mem e ↔ s.Beyond a.mem e := by
  simp only [appendRecord]; simp

theorem contribute_beyond (c : Cmd) (cc o : Nat) (r : Run) (g : Nat) (a : AccSt) :
    s.Beyond (contribute t c cc o r g a).mem t.extent ↔ s.Beyond a.mem t.extent := by
  simp only [contribute]
  split
  · rfl
  · split
    · rfl
    · exact appendRecord_beyond ..

theorem accumulate_beyond (c : Cmd) (cc n : Nat) (work : List (Nat × List (Run × Nat))) (a : AccSt) :
    s.Beyond (accumulate t c cc n work a).mem t.extent ↔ s.Beyond a.mem t.extent := by
  induction n generalizing work a with
  | zero => rfl
  | succ n ih =>
    simp only [accumulate]
    split
    · exact (ih _ _).trans (contribute_beyond ..)
    · rfl

@[simp ↓] theorem mergeStart_inside (c : Cmd) : s.Inside (mergeStart t c) ↔ s.Inside t := by
  simp only [mergeStart]; simp

@[simp ↓] theorem mergeFold_inside (c : Cmd) : s.Inside (mergeFold t c) ↔ s.Inside t := by
  simp only [mergeFold]
  split
  · simp
  · exact mergePool_beyond _

@[simp ↓] theorem mergeStep_inside (q : Nat) : s.Inside (mergeStep t q) ↔ s.Inside t := by
  simp only [mergeStep]
  split
  · simp
  · split <;> simp

@[simp ↓] theorem embgStart_inside (q : Nat) : s.Inside (embgStart t q) ↔ s.Inside t := by
  simp only [embgStart]; split <;> simp

@[simp ↓] theorem embgSort_inside (c : Cmd) (cc : Nat) : s.Inside (embgSort t c cc) ↔ s.Inside t := by
  simp only [embgSort]; simp

@[simp ↓] theorem embgAccumulate_inside (c : Cmd) (cc : Nat) : s.Inside (embgAccumulate t c cc) ↔ s.Inside t := by
  simp only [embgAccumulate]
  split
  · simp
  · exact accumulate_beyond ..

@[simp ↓] theorem embgFlush_inside (c : Cmd) (cc : Nat) : s.Inside (embgFlush t c cc) ↔ s.Inside t := by
  simp only [embgFlush]; simp

@[simp ↓] theorem embgMerge_inside (c : Cmd) : s.Inside (embgMerge t c) ↔ s.Inside t := by
  simp only [embgMerge]; simp

@[simp ↓] theorem embgPhaseStep_inside (q : Nat) : s.Inside (embgPhaseStep t q) ↔ s.Inside t := by
  simp only [embgPhaseStep]
  split
  · split <;> simp
  · rfl

/-! ## The Lens's start, contexts in and out (R279-R281) -/

@[simp ↓] theorem lensStart_inside (q op : Nat) : s.Inside (lensStart t q op) ↔ s.Inside t := by
  simp only [lensStart]
  split
  · rfl
  · simp

@[simp ↓] theorem evict_inside (r : QRes) : s.Inside (evict t r) ↔ s.Inside t := by
  simp only [evict]; simp

@[simp ↓] theorem place_inside (q k : Nat) : s.Inside (place t q k) ↔ s.Inside t := by
  simp only [place]; simp

theorem onOut_inside (q : Nat) {f : State → State} (h : ∀ t, State.Inside t (f t)) : s.Inside (onOut t q f) ↔ s.Inside t := by
  simp only [onOut]
  split
  · exact (h t).iff
  · have hf := State.Inside.iff (s := s) (h { t with q := { t.q with res := t.q.res ++ [outQueue t q] } })
    split
    · exact hf
    · simp only [State.inside_mk, State.beyond_dieStores, State.beyond_self]
      exact hf

@[simp ↓] theorem heldShort_inside (q : Nat) : s.Inside (heldShort t q) ↔ s.Inside t := by
  simp only [heldShort]; simp

@[simp ↓] theorem bringIn_inside (q : Nat) : s.Inside (bringIn t q) ↔ s.Inside t := by
  simp only [bringIn]
  split
  · simp
  · split
    · simp
    · split
      · simp
      · split
        · simp
        · split <;> simp

@[simp ↓] theorem servePending_inside : s.Inside (servePending t) ↔ s.Inside t := by
  refine State.inside_foldl (fun t q => ?_) _
  split
  · simp
  · split <;> simp

@[simp ↓] theorem flushAborts_inside : s.Inside (flushAborts t) ↔ s.Inside t := by
  simp only [flushAborts]; simp

@[simp ↓] theorem refuseCollective_inside (c : Cmd) : s.Inside (refuseCollective t c) ↔ s.Inside t := by
  simp only [refuseCollective]; simp

/-! ## Reading and admission (R284-R289) -/

@[simp ↓] theorem pushCmd_inside (x : QRes) (c : Cmd) (k : Option Cond) : s.Inside (pushCmd t x c k) ↔ s.Inside t := by
  simp only [pushCmd]; simp

@[simp ↓] theorem illQueue_inside (src q : Nat) (v : Word) : s.Inside (illQueue t src q v) ↔ s.Inside t := Iff.rfl

@[simp ↓] theorem takePacket_inside (x : QRes) (ring : Nat) : s.Inside (takePacket t x ring) ↔ s.Inside t := by
  simp only [takePacket]
  generalize (x.ctx.loopActive && x.ctx.loopIter != 0) = again
  generalize judge t x ring _ = j
  cases again with
  | false =>
    simp only [Bool.false_eq_true, if_false]
    split
    · simp
    · split <;> simp
  | true =>
    simp only [if_true]
    split
    · simp
    · split <;> simp

@[simp ↓] theorem packetReadStep_inside (q : Nat) : s.Inside (packetReadStep t q) ↔ s.Inside t := by
  simp only [packetReadStep]
  split
  · rfl
  · split
    · rfl
    · split <;> simp

@[simp ↓] theorem refuse_inside (x : QRes) (c : Cmd) (k : Cond) : s.Inside (refuse t x c k) ↔ s.Inside t := by
  simp only [refuse]; simp

@[simp ↓] theorem acceptCmd_inside (x : QRes) (c : Cmd) : s.Inside (acceptCmd t x c) ↔ s.Inside t := by
  simp only [acceptCmd]; simp

@[simp ↓] theorem admitOne_inside (x : QRes) (c : Cmd) : s.Inside (admitOne t x c) ↔ s.Inside t := by
  simp only [admitOne]; split <;> simp

@[simp ↓] theorem admitPair_inside (x : QRes) (p c : Cmd) : s.Inside (admitPair t x p c) ↔ s.Inside t := by
  simp only [admitPair]; split <;> simp

@[simp ↓] theorem admissionStep_inside (j : Nat) : s.Inside (admissionStep t j) ↔ s.Inside t := by
  simp only [admissionStep]
  split
  · rfl
  · split
    · rfl
    · split
      · rfl
      · split
        · split <;> simp
        · simp

/-! ## Slices, saves and restores of jobs (R306-R315) -/

@[simp ↓] theorem charge_inside (client : Nat) (d : Account) : s.Inside (charge t client d) ↔ s.Inside t := Iff.rfl

@[simp ↓] theorem setOverrun_inside (q v : Nat) : s.Inside (setOverrun t q v) ↔ s.Inside t := by
  simp only [setOverrun]; split <;> simp

@[simp ↓] theorem repay_inside (qs : List Nat) (d : Nat) : s.Inside (repay qs t d) ↔ s.Inside t := by
  induction qs generalizing t d with
  | nil => rfl
  | cons q r ih =>
    simp only [repay]
    split
    · rfl
    · exact (ih _).trans (setOverrun_inside ..)

@[simp ↓] theorem sliceStart_inside (j : Nat) : s.Inside (sliceStart t j) ↔ s.Inside t := by
  simp only [sliceStart]; simp

@[simp ↓] theorem evictJob_inside (j : Nat) : s.Inside (evictJob t j) ↔ s.Inside t := by
  simp only [evictJob]; simp

@[simp ↓] theorem chargeSave_inside (client : Nat) (d : Account) : s.Inside (chargeSave t client d) ↔ s.Inside t := by
  simp only [chargeSave]; simp

@[simp ↓] theorem saveCores_beyond (addr : Nat) (l : List (Nat × Nat)) : s.Beyond (saveCores t addr l m) t.extent ↔ s.Beyond m t.extent := by
  induction l generalizing m with
  | nil => rfl
  | cons x r ih =>
    simp only [saveCores]
    rw [ih]
    simp

@[simp ↓] theorem writeArea_beyond (j addr : Nat) : s.Beyond (writeArea t j addr) t.extent ↔ s.Inside t := by
  simp only [writeArea]; simp

@[simp ↓] theorem saveJob_inside (j : Nat) (k : Option Nat) (addr size : Nat) (counts : Nat × Nat) :
    s.Inside (saveJob t j k addr size counts) ↔ s.Inside t := by
  simp only [saveJob]; simp

@[simp ↓] theorem bookOverrun_inside (j : Nat) : s.Inside (bookOverrun t j) ↔ s.Inside t := by
  simp only [bookOverrun]; split <;> simp

@[simp ↓] theorem switchJob_inside (j k : Nat) (forced : Bool) : s.Inside (switchJob t j k forced) ↔ s.Inside t := by
  simp only [switchJob]; simp

@[simp ↓] theorem jobSwitch_inside (j : Nat) : s.Inside (jobSwitch t j) ↔ s.Inside t := by
  simp only [jobSwitch]
  split
  · split <;> simp
  · rfl

@[simp ↓] theorem switchJobs_inside : s.Inside (switchJobs t) ↔ s.Inside t := by
  simp only [switchJobs]; simp

@[simp ↓] theorem activateJob_inside (j : Nat) : s.Inside (activateJob t j) ↔ s.Inside t := by
  simp only [activateJob]; simp

@[simp ↓] theorem switchOver_inside (o saveNs restoreNs : Nat) : s.Inside (switchOver t o saveNs restoreNs) ↔ s.Inside t := by
  simp only [switchOver]; simp

@[simp ↓] theorem refuseRestore_inside (o : Nat) : s.Inside (refuseRestore t o) ↔ s.Inside t := by
  simp only [refuseRestore]; simp

@[simp ↓] theorem restoreStep_inside (j saveNs restoreNs : Nat) : s.Inside (restoreStep t j saveNs restoreNs) ↔ s.Inside t := by
  simp only [restoreStep]
  split
  · rfl
  · split
    · simp
    · split <;> simp

@[simp ↓] theorem allCoreBarrier_inside : s.Inside (allCoreBarrier t) ↔ s.Inside t := by
  simp only [allCoreBarrier]; simp

@[simp ↓] theorem applyIfIdle_inside : s.Inside (applyIfIdle t) ↔ s.Inside t := by
  simp only [applyIfIdle]; simp

/-! ## Replies (R282) -/

@[simp ↓] theorem haltQueue_inside (q : Nat) : s.Inside (haltQueue t q) ↔ s.Inside t := by
  simp only [haltQueue]; split <;> simp

@[simp ↓] theorem settleQueue_inside (q : Nat) : s.Inside (settleQueue t q) ↔ s.Inside t := Iff.rfl

@[simp ↓] theorem serveIdle_inside : s.Inside (serveIdle t) ↔ s.Inside t := by
  simp only [serveIdle]; simp

@[simp ↓] theorem leave_inside (x : QRes) (c : Cmd) (k : Meas) : s.Inside (leave t x c k) ↔ s.Inside t := by
  simp only [leave]; simp

@[simp ↓] theorem replyOut_inside (x : QRes) (c : Cmd) (k : Meas) : s.Inside (replyOut t x c k) ↔ s.Inside t := by
  simp only [replyOut]; simp

/-! ## Commands that are stopped (R283, R357) -/

@[simp ↓] theorem stopPrograms_inside (c : Cmd) : s.Inside (stopPrograms t c) ↔ s.Inside t := by
  simp only [stopPrograms]; simp

@[simp ↓] theorem stopCollective_inside (c : Cmd) : s.Inside (stopCollective t c) ↔ s.Inside t := by
  simp only [stopCollective]; simp

@[simp ↓] theorem cutMerge_inside (c : Cmd) : s.Inside (cutMerge t c) ↔ s.Inside t := by
  simp only [cutMerge]; simp

@[simp ↓] theorem cutFlush_inside (c : Cmd) : s.Inside (cutFlush t c) ↔ s.Inside t := by
  simp only [cutFlush]; simp

@[simp ↓] theorem stopHash_inside (c : Cmd) (cancel : Bool) : s.Inside (stopHash t c cancel) ↔ s.Inside t := by
  simp only [stopHash]; simp

@[simp ↓] theorem endCommand_inside (c : Cmd) (k : Cond) : s.Inside (endCommand t c k) ↔ s.Inside t := by
  simp only [endCommand]; simp

@[simp ↓] theorem endUncorr_inside (c : Cmd) (n : Nat) : s.Inside (endUncorr t c n) ↔ s.Inside t := endCommand_inside ..

@[simp ↓] theorem killQueue_inside (q : Nat) : s.Inside (killQueue t q) ↔ s.Inside t := by
  simp only [killQueue]; simp

@[simp ↓] theorem reserveWord_inside (w : Storage × Nat) : s.Inside (reserveWord t w) ↔ s.Inside t := by
  simp only [reserveWord]
  split
  · simp
  · simp
  · split <;> simp
  · simp

@[simp ↓] theorem reserveTouch_inside : s.Inside (reserveTouch t) ↔ s.Inside t := by
  simp only [reserveTouch]; split <;> simp

@[simp ↓] theorem consume_inside (c : Cmd) (st : Storage) (a n : Nat) : s.Inside (consume t c st a n).1 ↔ s.Inside t := by
  simp only [consume]; simp

end Sys2Proof.Machine
end

section
namespace Sys2Proof.Machine
variable {s t u : State}

/-! ## Transfers of the Tender -/

@[simp ↓] theorem reassign_inside : s.Inside (reassign t) ↔ s.Inside t := Iff.rfl

@[simp ↓] theorem sendXfer_inside (x : Xfer) : s.Inside (sendXfer t x) ↔ s.Inside t := Iff.rfl

@[simp ↓] theorem issueXfer_inside (x : Xfer) : s.Inside (issueXfer t x) ↔ s.Inside t := Iff.rfl

/-! ## Core programs: lines, logs, the end of a program -/

@[simp ↓] theorem readPieces_inside (i : Nat) (c : Cmd) (sp : Nat) (ps : List (Int × Nat)) : s.Inside (readPieces i c sp ps t).st ↔ s.Inside t := by
  induction ps generalizing t with
  | nil => rfl
  | cons x r ih =>
    simp only [readPieces]
    split
    · split
      · split
        · exact (ih ..).trans (consume_inside ..)
        · exact consume_inside ..
      · exact ih ..
    · exact ih ..

@[simp ↓] theorem writePieces_inside (i : Nat) (c : Cmd) (sp : Nat) (ps : List (Int × List Byte)) : s.Inside (writePieces i c sp ps t) ↔ s.Inside t := by
  induction ps generalizing t with
  | nil => rfl
  | cons x r ih =>
    simp only [writePieces]
    split
    · split
      · exact (ih ..).trans (storageWrite_inside ..)
      · exact (ih ..).trans (State.beyond_dieStores _)
    · exact ih ..

@[simp ↓] theorem noteOob_inside (i n : Nat) : s.Inside (noteOob t i n) ↔ s.Inside t := by
  simp only [noteOob]; simp

@[simp ↓] theorem badInstr_inside (i w : Nat) : s.Inside (badInstr t i w) ↔ s.Inside t := Iff.rfl

@[simp ↓] theorem setWait_inside (i k : Nat) : s.Inside (setWait t i k) ↔ s.Inside t := by
  simp only [setWait]; simp

@[simp ↓] theorem logBytesAt_inside (i : Nat) (c : Cmd) (at_ n : Nat) : s.Inside (logBytesAt t i c at_ n) ↔ s.Inside t := by
  have hfree := writeFree_inside (s := s) (t := t) .central 201 (partBase t c + (t.prog i).logAt + at_) (Nat.min n (65536 - at_))
  have he : (writeFree t .central 201 (partBase t c + (t.prog i).logAt + at_) (Nat.min n (65536 - at_))).extent = t.extent :=
    ((writeFree_inside (s := t) ..).mpr (.refl t)).1
  simp only [logBytesAt, State.inside_mk, he]
  simp

@[simp ↓] theorem logAction_inside (i : Nat) (c : Cmd) (e : LogEntry) : s.Inside (logAction t i c e) ↔ s.Inside t := by
  simp only [logAction]; simp

@[simp ↓] theorem countTnd_inside (q i n : Nat) : s.Inside (countTnd t q i n) ↔ s.Inside t := Iff.rfl

theorem takeBlock_inside {i : Nat} {c : Cmd} {b : Binding} {j : TldJob} (h : takeBlock t i c b j = some u) : t.Inside u := by
  simp only [takeBlock] at h
  split at h
  · cases h
  · split at h
    · cases h
    · cases h; simp
    · cases h
      split <;> simp

theorem takeRead_inside {i : Nat} {c : Cmd} {j : TldJob} (h : takeRead t i c j = some u) : t.Inside u := by
  simp only [takeRead] at h
  split at h
  · cases h
  · cases h; simp

@[simp ↓] theorem settleTldList_inside (i : Nat) (c : Cmd) (js : List TldJob) (held : List Nat) : s.Inside (settleTldList i c js held t) ↔ s.Inside t := by
  induction js generalizing held t with
  | nil => rfl
  | cons j r ih =>
    simp only [settleTldList]
    split
    · rename_i v hv
      have hin : t.Inside v := by
        split at hv
        · cases hv
        · split at hv
          · exact takeRead_inside hv
          · obtain ⟨b, -, hb⟩ := Option.bind_eq_some_iff.mp hv
            exact takeBlock_inside hb
      rw [ih, State.inside_updProg]
      exact hin.iff
    · exact ih ..

@[simp ↓] theorem settleTlds_inside (i : Nat) : s.Inside (settleTlds t i) ↔ s.Inside t := by
  simp only [settleTlds]; split <;> simp

@[simp ↓] theorem settleTldsOf_inside (c : Cmd) : s.Inside (settleTldsOf t c) ↔ s.Inside t := by
  simp only [settleTldsOf]; simp

@[simp ↓] theorem settleRunp_inside (c : Cmd) : s.Inside (settleRunp t c) ↔ s.Inside t := by
  simp only [settleRunp]; simp

@[simp ↓] theorem noteStretch_inside (i : Nat) : s.Inside (noteStretch t i) ↔ s.Inside t := Iff.rfl

@[simp ↓] theorem haltProg_inside (i : Nat) (c : Cmd) : s.Inside (haltProg t i c) ↔ s.Inside t := by
  simp only [haltProg]; simp

@[simp ↓] theorem programEndStep_inside (l : Nat) : s.Inside (programEndStep t l) ↔ s.Inside t := by
  simp only [programEndStep]
  split
  · split <;> simp
  · rfl

/-! ## Answers of instructions -/

/-- Every state that an instruction's answer holds stays inside. -/
def IRes.Inside (s : State) : IRes → Prop
  | .illegal | .wait _ => True
  | .go t | .hold t | .jump t _ | .ovr t => s.Inside t

@[simp ↓] theorem IRes.inside_illegal : IRes.illegal.Inside s := trivial
@[simp ↓] theorem IRes.inside_wait (k : Nat) : (IRes.wait k).Inside s := trivial
@[simp ↓] theorem IRes.inside_go : (IRes.go t).Inside s ↔ s.Inside t := Iff.rfl
@[simp ↓] theorem IRes.inside_hold : (IRes.hold t).Inside s ↔ s.Inside t := Iff.rfl
@[simp ↓] theorem IRes.inside_jump (pc : Nat) : (IRes.jump t pc).Inside s ↔ s.Inside t := Iff.rfl
@[simp ↓] theorem IRes.inside_ovr : (IRes.ovr t).Inside s ↔ s.Inside t := Iff.rfl
@[simp ↓] theorem IRes.inside_ite (p : Prop) [Decidable p] (r r' : IRes) : (if p then r else r').Inside s ↔ if p then r.Inside s else r'.Inside s := by
  split <;> rfl
@[simp ↓] theorem holdInstr_inside (i w : Nat) (reads writes : List Span) (book : LCore → LCore) :
    (holdInstr t i w reads writes book).Inside s ↔ s.Inside t := Iff.rfl

/-- A row whose instruction's answers stay inside does so too. -/
theorem afterInstr_inside {i w : Nat} {r : IRes} (hr : r.Inside t) (h : afterInstr t i w r = some u) : t.Inside u := by
  rcases afterInstr_cases h with ⟨-, rfl⟩ | ⟨v, rfl | rfl, rfl⟩ | ⟨v, pc, rfl, rfl⟩ | ⟨v, rfl, rfl⟩
  · simp
  all_goals exact hr

theorem unitStep_inside (i : Nat) (ok : Nat → Bool) {f : State → Nat → Cmd → Nat → IRes} (hf : ∀ t i c w, (f t i c w).Inside t) :
    t.Inside (unitStep t i ok f).1 := by
  rcases unitStep_cases t i ok f with h | ⟨-, c, h, v, -, -, ⟨hv, hr⟩ | ⟨hv, hr⟩⟩
  · rw [h]; exact .refl t
  all_goals
    have hin := hf (t.updProg i (fun y => y.asHeld h)) i c h.word
    rw [hv] at hin
    rw [hr]
  · dsimp only
    split
    · exact (settleRunp_inside c).mpr hin
    · exact hin
  · exact hin

theorem answer_inside {i w : Nat} {ok : Nat → Bool} {f : State → Nat → Cmd → Nat → IRes} {r : IRes} (hf : ∀ t i c w, (f t i c w).Inside t)
    (h : answer t i ok f = some (w, r)) : r.Inside t := by
  obtain ⟨-, -, -, -, c, -, rfl | ⟨-, rfl⟩⟩ := answer_spec h
  · exact hf ..
  · trivial

theorem instrStep_inside (l : Nat) (ok : Nat → Bool) {f : State → Nat → Cmd → Nat → IRes} (hf : ∀ t i c w, (f t i c w).Inside t) :
    t.Inside (instrStep t l ok f) := by
  rcases instrStep_cases t l ok f with h | ⟨v, i, -, hv, ⟨-, h⟩ | ⟨w, r, ha, h⟩⟩
  · rw [h]; simp
  all_goals have hin : t.Inside v := by rw [hv]; simp
  · rw [h]
    exact hin.trans (unitStep_inside i ok hf)
  · exact hin.trans (afterInstr_inside (answer_inside hf ha) h)

/-! ## Scalar, generator and control instructions (Tables 5.3, 5.4) -/

theorem nopInstr_inside (t : State) (i : Nat) (c : Cmd) (w : Nat) : (nopInstr t i c w).Inside t := by
  simp only [nopInstr]; simp

theorem saluInstr_inside (t : State) (i : Nat) (c : Cmd) (w : Nat) : (saluInstr t i c w).Inside t := by
  simp only [saluInstr]
  split
  · trivial
  · split <;> simp

theorem sliInstr_inside (t : State) (i : Nat) (c : Cmd) (w : Nat) : (sliInstr t i c w).Inside t := by
  simp only [sliInstr]; simp

theorem sldInstr_inside (t : State) (i : Nat) (c : Cmd) (w : Nat) : (sldInstr t i c w).Inside t := by
  simp only [sldInstr]; simp

theorem sstInstr_inside (t : State) (i : Nat) (c : Cmd) (w : Nat) : (sstInstr t i c w).Inside t := by
  simp only [sstInstr]; simp

theorem agsInstr_inside (t : State) (i : Nat) (c : Cmd) (w : Nat) : (agsInstr t i c w).Inside t := by
  simp only [agsInstr]
  split
  · trivial
  · split <;> simp

theorem agaInstr_inside (t : State) (i : Nat) (c : Cmd) (w : Nat) : (agaInstr t i c w).Inside t := by
  simp only [agaInstr]; simp

theorem brInstr_inside (t : State) (i : Nat) (c : Cmd) (w : Nat) : (brInstr t i c w).Inside t := by
  simp only [brInstr]
  split
  · trivial
  · split <;> simp

theorem loopInstr_inside (t : State) (i : Nat) (c : Cmd) (w : Nat) : (loopInstr t i c w).Inside t := by
  simp only [loopInstr]; simp

theorem haltInstr_inside (t : State) (i : Nat) (c : Cmd) (w : Nat) : (haltInstr t i c w).Inside t := by
  simp only [haltInstr]; simp

/-! ## Waves, planes and drains -/

@[simp ↓] theorem noteGroupOver_inside (c : Cmd) (ovr : Option Nat × Nat) : s.Inside (noteGroupOver t c ovr) ↔ s.Inside t := by
  simp only [noteGroupOver]; simp

@[simp ↓] theorem readDense_inside (i : Nat) (c : Cmd) (f lanes kk : Nat) (st0 a : Int) (inner bs : Bool) (p : Nat) :
    s.Inside (readDense t i c f lanes kk st0 a inner bs p).st ↔ s.Inside t := by
  simp only [readDense]
  split <;> simp

@[simp ↓] theorem readCompressed_inside (i : Nat) (c : Cmd) (f lanes : Nat) (a : Int) : s.Inside (readCompressed t i c f lanes a).st ↔ s.Inside t := by
  simp only [readCompressed]
  split <;> simp

@[simp ↓] theorem wbWaves_inside (i : Nat) (c : Cmd) (o : WbOp) (x : LCore) (plane tile ord : Nat) (l : List (Int × Int)) (p oob : Nat) (ovr : Option Nat × Nat) :
    s.Inside (wbWaves i c o x plane tile ord l p t oob ovr).1 ↔ s.Inside t := by
  induction l generalizing p t oob ovr with
  | nil => rfl
  | cons y r ih =>
    simp only [wbWaves]
    split
    · cases o.cmp
      all_goals
        simp only [Bool.false_eq_true, if_false, if_true]
        split
        · rw [ih]
          split <;> simp
        · simp
    · simp

theorem wbInstr_inside (t : State) (i : Nat) (c : Cmd) (w : Nat) : (wbInstr t i c w).Inside t := by
  simp only [wbInstr]; simp

@[simp ↓] theorem updArrays_inside (i : Nat) (f : ArrayState → ArrayState) : s.Inside (updArrays t i f) ↔ s.Inside t := by
  simp only [updArrays]; split <;> simp

theorem pldInstr_inside (t : State) (i : Nat) (c : Cmd) (w : Nat) : (pldInstr t i c w).Inside t := by
  simp only [pldInstr]; simp

@[simp ↓] theorem settlePlanes_inside (i : Nat) : s.Inside (settlePlanes t i) ↔ s.Inside t := by
  simp only [settlePlanes]; simp

theorem pdrInstr_inside (t : State) (i : Nat) (c : Cmd) (w : Nat) : (pdrInstr t i c w).Inside t := by
  simp only [pdrInstr]; simp

theorem pewInstr_inside (t : State) (i : Nat) (c : Cmd) (w : Nat) : (pewInstr t i c w).Inside t := by
  simp only [pewInstr]
  generalize (if bf w 53 2 = 2 then 4 else 128) = n
  split
  · trivial
  · split
    · simp
    · split
      · split <;> simp
      · simp

@[simp ↓] theorem skipStep_inside (p l arr : Nat) (y : Slice) : s.Inside (skipStep t p l arr y) ↔ s.Inside t := by
  simp only [skipStep]; simp

@[simp ↓] theorem sliceStep_inside (l arr : Nat) (col : Bool) (f : Nat) : s.Inside (sliceStep t l arr col f) ↔ s.Inside t := by
  simp only [sliceStep]
  split
  · rfl
  · split
    · split <;> simp
    · rfl

@[simp ↓] theorem cubeStep_inside (l arr r c : Nat) : s.Inside (cubeStep t l arr r c) ↔ s.Inside t := by
  simp only [cubeStep]
  split
  · rfl
  · split <;> simp

@[simp ↓] theorem drainOne_inside (i : Nat) (c : Cmd) (d : DrainJob) (a : Nat) (row : List Pair) (opnd : List Byte) :
    s.Inside (drainOne i c d a row opnd t) ↔ s.Inside t := by
  simp only [drainOne]; simp

@[simp ↓] theorem clearRow_inside (i : Nat) (d : DrainJob) : s.Inside (clearRow t i d) ↔ s.Inside t := by
  simp only [clearRow]; split <;> simp

@[simp ↓] theorem finishRow_inside (i : Nat) (c : Cmd) (d : DrainJob) : s.Inside (finishRow t i c d) ↔ s.Inside t := by
  simp only [finishRow]; simp

@[simp ↓] theorem parkRow_inside (i : Nat) (c : Cmd) (d : DrainJob) (p : Nat) : s.Inside (parkRow t i c d p) ↔ s.Inside t := by
  simp only [parkRow]; simp

@[simp ↓] theorem drainRowOf_inside (i : Nat) (c : Cmd) (d : DrainJob) : s.Inside (drainRowOf t i c d) ↔ s.Inside t := by
  simp only [drainRowOf]; split <;> simp

@[simp ↓] theorem drainStep_inside (l : Nat) : s.Inside (drainStep t l) ↔ s.Inside t := by
  simp only [drainStep]
  split
  · split <;> simp
  · rfl

@[simp ↓] theorem preloadRowOf_inside (i : Nat) (c : Cmd) (d : PreJob) : s.Inside (preloadRowOf t i c d) ↔ s.Inside t := by
  simp only [preloadRowOf]
  split
  · simp
  · split <;> simp

@[simp ↓] theorem preloadStep_inside (l : Nat) : s.Inside (preloadStep t l) ↔ s.Inside t := by
  simp only [preloadStep]
  split
  · split <;> simp
  · rfl

end Sys2Proof.Machine
end

section
namespace Sys2Proof.Machine
variable {s t u : State}

/-! ## Register accesses by right (R409) -/

@[simp ↓] theorem regIll_inside (mid : Mid) (off : Nat) (wr : Bool) : s.Inside (regIll t mid off wr) ↔ s.Inside t := Iff.rfl
@[simp ↓] theorem fwIll_inside (v : Word) : s.Inside (fwIll t v) ↔ s.Inside t := Iff.rfl
@[simp ↓] theorem powerIll_inside (d : Nat) (v : Word) : s.Inside (powerIll t d v) ↔ s.Inside t := Iff.rfl
@[simp ↓] theorem mbIll_inside (mid : Mid) (ch reg : Nat) (v : Word) : s.Inside (mbIll t mid ch reg v) ↔ s.Inside t := Iff.rfl

@[simp] theorem netWrite_inside (mid : Mid) (off : Nat) : s.Inside (netWrite t mid off u) ↔ if netOff t mid then s.Inside t else s.Inside u := by
  simp only [netWrite]; simp

@[simp ↓] theorem writeBy_inside (ok : Bool) (mid : Mid) (off : Nat) : s.Inside (writeBy t ok mid off u) ↔ if ok then s.Inside u else s.Inside t := by
  simp only [writeBy]; simp

/-! ## Queue control (R280-R284) -/

@[simp ↓] theorem putCtx_inside (q : Nat) (f : QCtx → QCtx) (off n : Nat) : s.Inside (putCtx t q f off n) ↔ s.Inside t := by
  simp only [putCtx]; split <;> simp

@[simp ↓] theorem illCtx_inside (src q : Nat) (v : Word) : s.Inside (illCtx t src q v) ↔ s.Inside t := by
  simp only [illCtx]; split <;> simp

@[simp ↓] theorem packetBell_inside (q : Nat) (v : Word) : s.Inside (packetBell t q v) ↔ s.Inside t := by
  simp only [packetBell]; simp

@[simp ↓] theorem replyBell_inside (q : Nat) (v : Word) : s.Inside (replyBell t q v) ↔ s.Inside t := by
  simp only [replyBell]; simp

@[simp ↓] theorem bellWrite_inside (mid : Mid) (v : Word) : s.Inside (bellWrite t mid v) ↔ s.Inside t := by
  simp only [bellWrite]; simp

@[simp ↓] theorem putState_inside (q : Nat) (st : QState) : s.Inside (putState t q st) ↔ s.Inside t := putCtx_inside ..

@[simp ↓] theorem enableQueue_inside (q : Nat) (v : Word) : s.Inside (enableQueue t q v) ↔ s.Inside t := by
  simp only [enableQueue]; split <;> simp

@[simp ↓] theorem disableQueue_inside (q : Nat) : s.Inside (disableQueue t q) ↔ s.Inside t := by
  simp only [disableQueue]
  split
  · split <;> simp
  · split <;> simp
  · rfl

@[simp ↓] theorem cancelCmd_inside (late : Bool) (c : Cmd) : s.Inside (cancelCmd late t c) ↔ s.Inside t := by
  simp only [cancelCmd]; split <;> simp

@[simp ↓] theorem cancelIn_inside (q : Nat) : s.Inside (cancelIn t q) ↔ s.Inside t := by
  simp only [cancelIn]; split <;> simp

@[simp ↓] theorem cancelQueue_inside (q : Nat) : s.Inside (cancelQueue t q) ↔ s.Inside t :=
  onOut_inside q (fun t => (cancelIn_inside q).mpr (.refl t))

@[simp ↓] theorem evictQueue_inside (q : Nat) (v : Word) : s.Inside (evictQueue t q v) ↔ s.Inside t := by
  simp only [evictQueue]; split <;> simp

@[simp ↓] theorem qctlWrite_inside (mid : Mid) (v : Word) : s.Inside (qctlWrite t mid v) ↔ s.Inside t := by
  simp only [qctlWrite]
  generalize bf v.toNat 24 3 = act
  split
  · simp
  · split
    · simp
    · split
      · simp
      · generalize hb : (if act = 4 then reserveTouch t else bringIn (reserveTouch t) (qidOf v)) = b
        have hb' : s.Inside b ↔ s.Inside t := by rw [← hb]; simp
        split <;> simp [hb']

/-! ## Commands that the Keeper runs (R276, R290-R294, R300) -/

theorem startOp_inside (q op : Nat) {f : State → Cmd → State} (hf : ∀ t c, State.Inside t (f t c)) : s.Inside (startOp t q op f) ↔ s.Inside t := by
  rcases startOp_cases t q op f with ⟨-, h⟩ | ⟨c, -, h⟩
  · rw [h]
  · rw [h]
    exact (hf _ c).iff.trans (beginCmd_inside c)

@[simp ↓] theorem endWith_inside (c : Cmd) (ks : List Cond) : s.Inside (endWith t c ks) ↔ s.Inside t := Iff.rfl
@[simp ↓] theorem waitStarted_inside (c : Cmd) : s.Inside (waitStarted t c) ↔ s.Inside t := Iff.rfl

@[simp ↓] theorem barrierOp_inside (q : Nat) : s.Inside (barrierOp t q) ↔ s.Inside t := by
  simp only [barrierOp]; split <;> simp

@[simp ↓] theorem fenceStart_inside (c : Cmd) : s.Inside (fenceStart t c) ↔ s.Inside t := by
  simp only [fenceStart]; simp

@[simp ↓] theorem fenceCheck_inside (c : Cmd) : s.Inside (fenceCheck t c) ↔ s.Inside t := by
  simp only [fenceCheck]; simp

@[simp ↓] theorem fenceOp_inside (q : Nat) : s.Inside (fenceOp t q) ↔ s.Inside t := by
  simp only [fenceOp]
  split
  · simp
  · exact startOp_inside q 0x51 (fun t c => by simp)

@[simp ↓] theorem waitqCheck_inside (c : Cmd) : s.Inside (waitqCheck t c) ↔ s.Inside t := by
  simp only [waitqCheck]; simp

@[simp ↓] theorem waitqPollStep_inside (q : Nat) : s.Inside (waitqPollStep t q) ↔ s.Inside t := by
  simp only [waitqPollStep]; split <;> simp

@[simp ↓] theorem loopOp_inside (c : Cmd) : s.Inside (loopOp t c) ↔ s.Inside t := by
  simp only [loopOp]; split <;> simp

@[simp ↓] theorem applyQueueItem_inside (c : Cmd) (x : CfgItem) : s.Inside (applyQueueItem t c x) ↔ s.Inside t := by
  simp only [applyQueueItem]; simp

@[simp ↓] theorem applyCfgItem_inside (c : Cmd) (x : CfgItem) : s.Inside (applyCfgItem t c x) ↔ s.Inside t := by
  simp only [applyCfgItem]
  split
  · simp
  · split
    · simp
    · split <;> simp

@[simp ↓] theorem cfgOp_inside (q : Nat) : s.Inside (cfgOp t q) ↔ s.Inside t := by
  simp only [cfgOp]
  split
  · split <;> simp
  · rfl

/-! ## Collectives (R253-R264, R373-R378) -/

@[simp ↓] theorem bringAll_inside (qs : List Nat) : s.Inside (bringAll qs t).1 ↔ s.Inside t := by
  induction qs generalizing t with
  | nil => rfl
  | cons q r ih =>
    simp only [bringAll]
    split
    · exact (ih ..).trans (bringIn_inside q)
    · simp

@[simp ↓] theorem setNorm_inside (q g : Nat) (p : Pair) : s.Inside (setNorm t q g p) ↔ s.Inside t := Iff.rfl

@[simp ↓] theorem leafPair_inside (c : Cmd) (w : Nat) : s.Inside (leafPair c t w).1 ↔ s.Inside t := by
  simp only [leafPair]
  split
  · split <;> simp
  · rfl

@[simp ↓] theorem leafPairs_inside (c : Cmd) (ws : List Nat) : s.Inside (leafPairs c ws t).1 ↔ s.Inside t := by
  induction ws generalizing t with
  | nil => rfl
  | cons w r ih => exact (ih ..).trans (leafPair_inside c w)

@[simp ↓] theorem restoreNorms_inside (l : List (Nat × Nat × Pair)) : s.Inside (restoreNorms t l) ↔ s.Inside t := by
  simp only [restoreNorms]; simp

@[simp ↓] theorem sendOn_inside (l : RedLink) (segs : List Segment) : s.Inside (sendOn t l segs) ↔ s.Inside t := Iff.rfl
@[simp ↓] theorem countRed_inside (c : Cmd) (l : List (Nat × Nat)) : s.Inside (countRed t c l) ↔ s.Inside t := Iff.rfl

@[simp ↓] theorem applyReduce_inside (c : Cmd) (d : Desc) (es : List (Nat × Nat)) : s.Inside (applyReduce t c d es) ↔ s.Inside t := by
  simp only [applyReduce]; simp

@[simp ↓] theorem applyParity_inside (c : Cmd) (e : Nat × Nat) : s.Inside (applyParity t c e) ↔ s.Inside t := by
  simp only [applyParity]; split <;> simp

@[simp ↓] theorem applyResult_inside (c : Cmd) (es : List (Nat × Nat)) : s.Inside (applyResult t c es) ↔ s.Inside t := by
  simp only [applyResult]
  split
  · rfl
  · split
    · split <;> simp
    all_goals simp

@[simp ↓] theorem collDone_inside (c : Cmd) (p cseq : Nat) : s.Inside (collDone t c p cseq) ↔ s.Inside t := Iff.rfl

@[simp ↓] theorem collMismatch_inside (c : Cmd) (cseq : Nat) : s.Inside (collMismatch t c cseq) ↔ s.Inside t := by
  simp only [collMismatch]; simp

@[simp ↓] theorem sendDown_inside (c : Cmd) (p cseq bytes : Nat) (es : List (Nat × Nat)) (fin : Bool) (heads : List SegHead) :
    s.Inside (sendDown t c p cseq bytes es fin heads) ↔ s.Inside t := by
  simp only [sendDown]; simp

@[simp ↓] theorem pumpColl_inside (c : Cmd) (k : Coll) : s.Inside (pumpColl t c k) ↔ s.Inside t := by
  simp only [pumpColl]
  split
  · split
    · rfl
    · split
      · simp
      · split
        · rfl
        · split <;> simp
  · rfl

@[simp ↓] theorem fromChild_inside (c : Cmd) (k : Coll) (l : RedLink) (g : Segment) : s.Inside (fromChild t c k l g) ↔ s.Inside t := by
  simp only [fromChild]; simp

@[simp ↓] theorem fromParent_inside (c : Cmd) (k : Coll) (g : Segment) : s.Inside (fromParent t c k g) ↔ s.Inside t := by
  simp only [fromParent]; split <;> simp

@[simp ↓] theorem takeSegment_inside (l : RedLink) (g : Segment) : s.Inside (takeSegment t l g) ↔ s.Inside t := by
  simp only [takeSegment]
  split
  · rfl
  · split <;> simp

@[simp ↓] theorem collOf_inside (c : Cmd) : s.Inside (collOf t c).1 ↔ s.Inside t := by
  simp only [collOf]; split <;> simp

@[simp ↓] theorem countTaps_inside (c : Cmd) : s.Inside (countTaps t c) ↔ s.Inside t := Iff.rfl

@[simp ↓] theorem takeEarly_inside (cseq : Nat) : s.Inside (takeEarly t cseq) ↔ s.Inside t := by
  simp only [takeEarly]; simp

@[simp ↓] theorem collEnter_inside (c : Cmd) : s.Inside (collEnter t c) ↔ s.Inside t := by
  simp only [collEnter]; simp

@[simp ↓] theorem collBegin_inside (c : Cmd) : s.Inside (collBegin t c) ↔ s.Inside t := by
  simp only [collBegin]; simp

@[simp ↓] theorem collStart_inside (q op : Nat) : s.Inside (collStart t q op) ↔ s.Inside t := by
  simp only [collStart]; split <;> simp

@[simp ↓] theorem segmentError_inside (k : Coll) : s.Inside (segmentError t k) ↔ s.Inside t := by
  simp only [segmentError]
  split
  · split <;> simp
  · simp

@[simp ↓] theorem segmentStep_inside (l : RedLink) (g : Segment) (err : Bool) : s.Inside (segmentStep t l g err) ↔ s.Inside t := by
  simp only [segmentStep]
  split
  · rfl
  · split <;> simp

@[simp ↓] theorem abortStep_inside (l : RedLink) (cseq : Nat) : s.Inside (abortStep t l cseq) ↔ s.Inside t := by
  simp only [abortStep]
  split
  · rfl
  · split <;> simp

/-! ## Switched domains (R393-R400) -/

@[simp ↓] theorem startUps_inside : s.Inside (startUps t) ↔ s.Inside t := by
  simp only [startUps]
  split
  · rfl
  · split <;> simp

@[simp ↓] theorem requestOn_inside (d : Nat) : s.Inside (requestOn t d) ↔ s.Inside t := by
  simp only [requestOn]; simp

@[simp ↓] theorem setTarget_inside (d g : Nat) : s.Inside (setTarget t d g) ↔ s.Inside t := by
  simp only [setTarget]; simp

/-! ## The Tender (R141-R168) -/

@[simp ↓] theorem addCond_inside (c : Cmd) (k : Cond) : s.Inside (addCond t c k) ↔ s.Inside t := Iff.rfl

@[simp ↓] theorem askSlot_inside (x : Xfer) : s.Inside (askSlot t x) ↔ s.Inside t := by
  simp only [askSlot]; split <;> simp

@[simp ↓] theorem noLongerAsks_inside (x : Xfer) : s.Inside (noLongerAsks t x) ↔ s.Inside t := by
  simp only [noLongerAsks]; simp

@[simp ↓] theorem redoOut_inside (q : Nat) (xs : List Xfer) : s.Inside (redoOut q xs t).2 ↔ s.Inside t := by
  induction xs generalizing t with
  | nil => rfl
  | cons x r ih =>
    simp only [redoOut]
    split
    · exact (ih ..).trans (sendXfer_inside x)
    · exact ih ..

@[simp ↓] theorem pumpOut_inside (q : Nat) (xs left : List Xfer) : s.Inside (pumpOut q xs left t).2 ↔ s.Inside t := by
  induction xs generalizing t left with
  | nil => rfl
  | cons x r ih =>
    simp only [pumpOut]
    split
    · rw [ih]; simp
    · simp only [ih]; simp

@[simp ↓] theorem pump_inside (q : Nat) : s.Inside (pump t q) ↔ s.Inside t := by
  simp only [pump]; simp

@[simp ↓] theorem issueRead_inside (o : OStream) (b : SBlock) : s.Inside (issueRead t o b) ↔ s.Inside t := by
  simp only [issueRead]; split <;> simp

@[simp ↓] theorem endStream_inside (o : OStream) (bad : Bool) : s.Inside (endStream t o bad) ↔ s.Inside t := by
  simp only [endStream]; simp

@[simp ↓] theorem placeBlock_inside (c : Cmd) (o : OStream) (e : BlockEntry) (zero bor : Bool) : s.Inside (placeBlock t c o e zero bor) ↔ s.Inside t := by
  simp only [placeBlock]; simp

@[simp ↓] theorem perform_inside (c : Cmd) (o : OStream) (a : StreamAct) : s.Inside (perform t c o a) ↔ s.Inside t := by
  cases a <;> simp only [perform] <;> simp

@[simp ↓] theorem tenderIssue_inside (q n : Nat) : s.Inside (tenderIssue t q n) ↔ s.Inside t := by
  simp only [tenderIssue]
  split
  · split
    all_goals
      split
      · rfl
      · split <;> simp
  · simp

@[simp ↓] theorem settleCmd_inside (c : Cmd) : s.Inside (settleCmd t c) ↔ s.Inside t := by
  simp only [settleCmd]; simp

@[simp ↓] theorem tldArrives_inside (c : Cmd) (x : Xfer) (bs : List Byte) : s.Inside (tldArrives t c x bs) ↔ s.Inside t := by
  simp only [tldArrives]; simp

end Sys2Proof.Machine
end

section
namespace Sys2Proof.Machine
variable {s t u : State}

/-! ## Answers of the fabric (R138, R142-R144, R424) -/

@[simp ↓] theorem readDone_inside (x : Xfer) : s.Inside (readDone t x) ↔ s.Inside t := by
  unfold readDone
  extract_lets bs a b d td own u
  have hb : s.Inside b ↔ s.Inside t := Iff.rfl
  have hu : s.Inside u ↔ s.Inside b := by
    simp only [u]
    split
    · split <;> simp
    · split
      · rfl
      · split
        · rfl
        · split
          · rfl
          · split <;> simp
  clear_value u b
  split
  · exact hb
  · split <;> simp only [settleCmd_inside, hu, hb]

@[simp ↓] theorem writeDone_inside (x : Xfer) : s.Inside (writeDone t x) ↔ s.Inside t := by
  simp only [writeDone]; split <;> simp

@[simp ↓] theorem pageFault_inside (x : Xfer) : s.Inside (pageFault t x) ↔ s.Inside t := by
  simp only [pageFault]; simp

@[simp ↓] theorem fabricStep_inside (id : Nat) (code : FabricCode) : s.Inside (fabricStep t id code) ↔ s.Inside t := by
  simp only [fabricStep]
  split
  · rfl
  · cases code with
    | ok => simp
    | xlate => simp
    | uncorr =>
      dsimp only
      split
      · rfl
      · split
        · simp
        · split <;> simp

@[simp ↓] theorem noteWait_inside (l : List Nat) : s.Inside (noteWait t l) ↔ s.Inside t := Iff.rfl

@[simp ↓] theorem streamWdog_inside (q n us : Nat) : s.Inside (streamWdog t q n us) ↔ s.Inside t := by
  simp only [streamWdog]; split <;> simp

@[simp ↓] theorem waitWdog_inside (w : Waiter) (us : Nat) : s.Inside (waitWdog t w us) ↔ s.Inside t := by
  simp only [waitWdog]
  split
  · split <;> simp
  · split <;> simp

/-! ## TLD and TST (R120, Table 5.6) -/

@[simp ↓] theorem queueXfers_inside (c : Cmd) (xs : List Xfer) : s.Inside (queueXfers t c xs) ↔ s.Inside t := by
  simp only [queueXfers]; simp

@[simp ↓] theorem postTld_inside (i kd : Nat) (j : TldJob) : s.Inside (postTld t i kd j) ↔ s.Inside t := by
  simp only [postTld]; simp

@[simp] theorem tldStream_inside (i : Nat) (c : Cmd) (kd n str : Nat) : (tldStream t i c kd n str).Inside t := by
  simp only [tldStream]; split <;> simp

@[simp ↓] theorem tldMemory_inside (i : Nat) (c : Cmd) (kd ks n : Nat) : s.Inside (tldMemory t i c kd ks n) ↔ s.Inside t := by
  simp only [tldMemory]; simp

theorem tldInstr_inside (t : State) (i : Nat) (c : Cmd) (w : Nat) : (tldInstr t i c w).Inside t := by
  simp only [tldInstr]; simp

@[simp ↓] theorem queueLines_inside (i : Nat) (c : Cmd) (l : List (Int × List Byte)) : s.Inside (queueLines t i c l) ↔ s.Inside t := by
  simp only [queueLines]; simp

theorem tstInstr_inside (t : State) (i : Nat) (c : Cmd) (w : Nat) : (tstInstr t i c w).Inside t := by
  simp only [tstInstr]; simp

/-! ## Marks and chains (R107, R133-R137) -/

theorem markInstr_inside (t : State) (i : Nat) (c : Cmd) (w : Nat) : (markInstr t i c w).Inside t := by
  simp only [markInstr]; simp

@[simp ↓] theorem markStep_inside (l : Nat) : s.Inside (markStep t l) ↔ s.Inside t := by
  simp only [markStep]; split <;> simp

@[simp ↓] theorem fillSlot_inside (p c : Cmd) (off : Nat) (x : Nat × Nat × Nat) : s.Inside (fillSlot t p c off x) ↔ s.Inside t := by
  simp only [fillSlot]; simp

@[simp ↓] theorem refillRing_inside (p c : Cmd) (l n : Nat) : s.Inside (refillRing p c l n t) ↔ s.Inside t := by
  induction n generalizing t with
  | zero => rfl
  | succ n ih =>
    simp only [refillRing]
    split
    · split
      · rw [ih]; simp
      · rfl
    · rfl

@[simp ↓] theorem publish_inside (i : Nat) (p : Cmd) (off : Nat) : s.Inside (publish t i p off) ↔ s.Inside t := by
  simp only [publish]
  split
  · split
    · simp
    · simp
  · simp

theorem chfreeInstr_inside (t : State) (i : Nat) (c : Cmd) (w : Nat) : (chfreeInstr t i c w).Inside t := by
  simp only [chfreeInstr]
  split
  · trivial
  · split
    · simp
    · split <;> simp

theorem chputInstr_inside (t : State) (i : Nat) (c : Cmd) (w : Nat) : (chputInstr t i c w).Inside t := by
  simp only [chputInstr]
  split
  · trivial
  · split
    · trivial
    · split <;> simp

theorem chgetInstr_inside (t : State) (i : Nat) (c : Cmd) (w : Nat) : (chgetInstr t i c w).Inside t := by
  simp only [chgetInstr]
  split
  · trivial
  · split
    · simp
    · split <;> simp

theorem chrelInstr_inside (t : State) (i : Nat) (c : Cmd) (w : Nat) : (chrelInstr t i c w).Inside t := by
  simp only [chrelInstr]
  split
  · trivial
  · split
    · trivial
    · split
      · simp
      · split
        · simp
        · rw [IRes.inside_go]
          split <;> simp

/-! ## RUNP (R110-R114) -/

@[simp ↓] theorem launchCore_inside (c : Cmd) (cc arg off log mk : Nat) (x : Nat × Nat) : s.Inside (launchCore c cc arg off log mk t x) ↔ s.Inside t := by
  simp only [launchCore]; simp

@[simp ↓] theorem setRings_inside (c : Cmd) : s.Inside (setRings t c) ↔ s.Inside t := by
  simp only [setRings]
  split
  · simp
  · split
    · split <;> simp
    · rfl

@[simp ↓] theorem runpStart_inside (c : Cmd) : s.Inside (runpStart t c) ↔ s.Inside t := by
  simp only [runpStart]; simp

/-! ## Retirement, faults and replay (R342-R357) -/

@[simp ↓] theorem coreFault_inside (kind action p : Nat) (l : Option Nat) : s.Inside (coreFault t kind action p l) ↔ s.Inside t := Iff.rfl

@[simp ↓] theorem fenceId_inside (l : Nat) : s.Inside (fenceId t l) ↔ s.Inside t := by
  simp only [fenceId]; simp

@[simp ↓] theorem oweReplay_inside (l src : Nat) : s.Inside (oweReplay t l src) ↔ s.Inside t := by
  simp only [oweReplay]; simp

@[simp ↓] theorem noteRecovery_inside (code l : Nat) : s.Inside (noteRecovery t code l) ↔ s.Inside t := Iff.rfl

@[simp ↓] theorem loseId_inside (p l : Nat) : s.Inside (loseId t p l) ↔ s.Inside t := by
  simp only [loseId]; simp

@[simp ↓] theorem passId_inside (p l : Nat) (ok : Bool) : s.Inside (passId t p l ok) ↔ s.Inside t := by
  simp only [passId]
  split
  · simp
  · split <;> simp

@[simp ↓] theorem retireCore_inside (p : Nat) (ok : Bool) : s.Inside (retireCore t p ok) ↔ s.Inside t := by
  simp only [retireCore]
  split
  · split <;> simp
  · split <;> simp
  · simp
  · simp

@[simp ↓] theorem reloadImage_inside (l : Nat) : s.Inside (reloadImage t l) ↔ s.Inside t := by
  simp only [reloadImage]; simp

@[simp ↓] theorem coreEvent_inside (p kind unit : Nat) (loc : Word) (life : Nat) (ok inj count : Bool) :
    s.Inside (coreEvent t p kind unit loc life ok inj count) ↔ s.Inside t := by
  simp only [coreEvent]; simp

@[simp ↓] theorem checkStep_inside (p : Nat) (kind : CheckKind) (unit : Nat) (loc : Word) (life : Nat) (ok : Bool) :
    s.Inside (checkStep t p kind unit loc life ok) ↔ s.Inside t := by
  simp only [checkStep]; simp

@[simp ↓] theorem resumeProg_inside (i : Nat) : s.Inside (resumeProg t i) ↔ s.Inside t := by
  simp only [resumeProg]; split <;> simp

@[simp ↓] theorem copyCore_inside (src p : Nat) : s.Inside (copyCore t src p) ↔ s.Inside t := by
  simp only [copyCore]; simp

@[simp ↓] theorem readMark_inside (i : Nat) (c : Cmd) : s.Inside (readMark t i c).1 ↔ s.Inside t := by
  simp only [readMark]
  split <;> simp

@[simp ↓] theorem resumeAll_inside (l : Nat) : s.Inside (resumeAll t l) ↔ s.Inside t := by
  refine State.inside_foldl (fun t i => ?_) _
  split <;> simp

@[simp ↓] theorem replayStep_inside (l : Nat) : s.Inside (replayStep t l) ↔ s.Inside t := by
  simp only [replayStep]; split <;> simp

@[simp ↓] theorem writebackStep_inside (st : Storage) (addr : Nat) : s.Inside (writebackStep t st addr) ↔ s.Inside t := Iff.rfl

@[simp ↓] theorem scrubStep_inside (st : Storage) : s.Inside (scrubStep t st) ↔ s.Inside t := by
  simp only [scrubStep]; simp

/-! ## Links (R340-R346, R354) -/

@[simp ↓] theorem linkFault_inside (kind action : Nat) (inj : Bool) (k : FrameLink) : s.Inside (linkFault t kind action inj k) ↔ s.Inside t := by
  cases k <;> rfl

@[simp ↓] theorem setLost_inside : s.Inside (setLost t) ↔ s.Inside t := Iff.rfl

@[simp ↓] theorem retirePort_inside (k : Nat) : s.Inside (retirePort t k) ↔ s.Inside t := by
  simp only [retirePort]; simp

@[simp ↓] theorem failRedLink_inside (l : Nat) : s.Inside (failRedLink t l) ↔ s.Inside t := by
  simp only [failRedLink]; simp

@[simp ↓] theorem failLink_inside (k : FrameLink) : s.Inside (failLink t k) ↔ s.Inside t := by
  cases k <;> simp only [failLink] <;> simp

@[simp ↓] theorem failedAttempt_inside (k : FrameLink) (count : Bool) : s.Inside (failedAttempt t k count) ↔ s.Inside t := by
  simp only [failedAttempt]; simp

@[simp ↓] theorem countFrame_inside (k : FrameLink) : s.Inside (countFrame t k) ↔ s.Inside t := by
  simp only [countFrame]; simp

@[simp ↓] theorem frameStep_inside (k : FrameLink) (seqno : Nat) (ok : Bool) : s.Inside (frameStep t k seqno ok) ↔ s.Inside t := by
  simp only [frameStep]; simp

@[simp ↓] theorem fltCtlWrite_inside (mid : Mid) (v : Word) : s.Inside (fltCtlWrite t mid v) ↔ s.Inside t := by
  simp only [fltCtlWrite]; split <;> simp

@[simp ↓] theorem retSeed_inside (mid : Mid) (hi : Bool) (v : Word) : s.Inside (retSeed t mid hi v) ↔ s.Inside t := by
  simp only [retSeed]; simp

@[simp ↓] theorem fiCtlWrite_inside (mid : Mid) (v : Word) : s.Inside (fiCtlWrite t mid v) ↔ s.Inside t := by
  simp only [fiCtlWrite]; simp

@[simp ↓] theorem fiCount_inside : s.Inside (fiCount t) ↔ s.Inside t := Iff.rfl

@[simp ↓] theorem injectStep_inside : s.Inside (injectStep t) ↔ s.Inside t := by
  simp only [injectStep]
  split
  · rfl
  · split
    · simp
    · split <;> split <;> simp

end Sys2Proof.Machine
end

section
namespace Sys2Proof.Machine
variable {s t u : State}

/-! ## Mailboxes (R320-R328) -/

theorem mbSend_inside (mid : Mid) (ch reg : Nat) (v : Word) {f : State → State} (hf : ∀ t, State.Inside t (f t)) :
    s.Inside (mbSend t mid ch reg v f) ↔ s.Inside t := by
  rcases mbSend_cases t mid ch reg v f with ⟨-, h⟩ | ⟨-, h⟩ <;> rw [h]
  · exact (hf t).iff
  · exact mbIll_inside ..

theorem mbReceive_inside (mid : Mid) (ch reg : Nat) (v : Word) {f : State → State} (hf : ∀ t, State.Inside t (f t)) :
    s.Inside (mbReceive t mid ch reg v f) ↔ s.Inside t := by
  rcases mbReceive_cases t mid ch reg v f with ⟨-, h⟩ | ⟨-, h⟩ <;> rw [h]
  · exact (hf t).iff
  · exact mbIll_inside ..

@[simp ↓] theorem mbData_inside (mid : Mid) (ch w : Nat) (v : Word) : s.Inside (mbData t mid ch w v) ↔ s.Inside t :=
  mbSend_inside _ _ _ _ (fun t => .refl t)

@[simp ↓] theorem mbRing_inside (mid : Mid) (ch : Nat) (v : Word) : s.Inside (mbRing t mid ch v) ↔ s.Inside t :=
  mbSend_inside _ _ _ _ (fun t => by simp)

@[simp ↓] theorem mbAck_inside (mid : Mid) (ch : Nat) (v : Word) : s.Inside (mbAck t mid ch v) ↔ s.Inside t :=
  mbReceive_inside _ _ _ _ (fun t => by simp)

@[simp ↓] theorem fogStep_inside (ch : Nat) : s.Inside (fogStep t ch) ↔ s.Inside t := by
  simp only [fogStep]; simp

@[simp ↓] theorem mbForeign_inside (mid : Mid) (ch reg : Nat) (v : Word) (foreign : Bool) : s.Inside (mbForeign t mid ch reg v foreign) ↔ s.Inside t := by
  simp only [mbForeign]; simp

@[simp ↓] theorem mbCtl_inside (mid : Mid) (ch : Nat) (v : Word) : s.Inside (mbCtl t mid ch v) ↔ s.Inside t := by
  simp only [mbCtl]; simp

@[simp ↓] theorem mbStat_inside (mid : Mid) (ch : Nat) (v : Word) : s.Inside (mbStat t mid ch v) ↔ s.Inside t := by
  simp only [mbStat]; simp

@[simp ↓] theorem mbBindWrite_inside (mid : Mid) (ch : Nat) (v : Word) : s.Inside (mbBindWrite t mid ch v) ↔ s.Inside t := by
  simp only [mbBindWrite]; simp

@[simp ↓] theorem mbLockWrite_inside (mid : Mid) (v : Word) : s.Inside (mbLockWrite t mid v) ↔ s.Inside t := by
  simp only [mbLockWrite]; simp

/-! ## Power (R389-R400, R431, R432) -/

@[simp ↓] theorem pwrDomWrite_inside (mid : Mid) (d : Nat) (v : Word) : s.Inside (pwrDomWrite t mid d v) ↔ s.Inside t := by
  simp only [pwrDomWrite]; simp

@[simp ↓] theorem heldStep_inside (d : Nat) : s.Inside (heldStep t d) ↔ s.Inside t := by
  simp only [heldStep]; simp

@[simp ↓] theorem clearDomain_inside (d : Nat) : s.Inside (clearDomain t d) ↔ s.Inside t := Iff.rfl

@[simp ↓] theorem loseDomain_inside (d : Nat) : s.Inside (loseDomain t d) ↔ s.Inside t := by
  simp only [loseDomain]; split <;> simp

@[simp ↓] theorem retireFailed_inside (ps bad : List Nat) : s.Inside (retireFailed t ps bad) ↔ s.Inside t := by
  simp only [retireFailed]; simp

@[simp ↓] theorem failTraining_inside (ls : List Nat) : s.Inside (failTraining t ls) ↔ s.Inside t := by
  simp only [failTraining]; simp

@[simp ↓] theorem wakeChannels_inside (d : Nat) : s.Inside (wakeChannels t d) ↔ s.Inside t := Iff.rfl

@[simp ↓] theorem bootPowered_inside : s.Inside (bootPowered t) ↔ s.Inside t := by
  simp only [bootPowered]; simp

@[simp ↓] theorem poweredUp_inside (d : Nat) (cores bad links : List Nat) : s.Inside (poweredUp t d cores bad links) ↔ s.Inside t := by
  simp only [poweredUp]; simp

@[simp ↓] theorem poweredDown_inside (d : Nat) : s.Inside (poweredDown t d) ↔ s.Inside t := by
  simp only [poweredDown]; simp

@[simp ↓] theorem readFuses_inside : s.Inside (readFuses t) ↔ s.Inside t := by
  simp only [readFuses]; simp

@[simp ↓] theorem transitionStep_inside (d : Nat) (cores bad links : List Nat) : s.Inside (transitionStep t d cores bad links) ↔ s.Inside t := by
  simp only [transitionStep]
  generalize ht : (if t.boot.booting = true ∧ t.boot.phase = 0 ∧ d = 0 then readFuses t else t) = v
  have hv : s.Inside v ↔ s.Inside t := by rw [← ht]; simp
  split <;> simp [hv]

@[simp ↓] theorem ackStep_inside (d code : Nat) : s.Inside (ackStep t d code) ↔ s.Inside t := by
  simp only [ackStep]; split <;> simp

@[simp ↓] theorem chargeIdle_inside (n : Nat) : s.Inside (chargeIdle t n) ↔ s.Inside t := Iff.rfl

@[simp ↓] theorem giveShare_inside (x : EnergyTo × Rat) : s.Inside (giveShare t x) ↔ s.Inside t := by
  simp only [giveShare]; split <;> simp

@[simp ↓] theorem energyStep_inside (dom mv : Nat) (shares : List (EnergyTo × Nat)) : s.Inside (energyStep t dom mv shares) ↔ s.Inside t := by
  simp only [energyStep]; simp

@[simp ↓] theorem countHold_inside (dom : Nat) (f : PwrDom → PwrDom) : s.Inside (countHold t dom f) ↔ s.Inside t := by
  simp only [countHold]; simp

@[simp ↓] theorem uvHold_inside (dom : Nat) : s.Inside (uvHold t dom) ↔ s.Inside t := by
  simp only [uvHold]; simp

@[simp ↓] theorem released_inside : s.Inside (released t) ↔ s.Inside t := by
  simp only [released]; simp

@[simp ↓] theorem uvRelease_inside (dom : Nat) : s.Inside (uvRelease t dom) ↔ s.Inside t := by
  simp only [uvRelease]; simp

@[simp ↓] theorem thHold_inside (dom c : Nat) : s.Inside (thHold t dom c) ↔ s.Inside t := by
  simp only [thHold]; simp

@[simp ↓] theorem thRelease_inside (dom c : Nat) : s.Inside (thRelease t dom c) ↔ s.Inside t := by
  simp only [thRelease]; simp

@[simp ↓] theorem stopClock_inside (dom : Nat) : s.Inside (stopClock t dom) ↔ s.Inside t := by
  simp only [stopClock]; simp

@[simp ↓] theorem resumeClock_inside (dom : Nat) : s.Inside (resumeClock t dom) ↔ s.Inside t := by
  simp only [resumeClock]; simp

/-! ## The boot self-test (R405, R406) -/

@[simp ↓] theorem mapIds_inside (bad : List Nat) : s.Inside (mapIds t bad) ↔ s.Inside t := by
  simp only [mapIds]; simp

@[simp ↓] theorem bootError_inside (n : Nat) : s.Inside (bootError t n) ↔ s.Inside t := Iff.rfl

@[simp ↓] theorem selfTested_inside (r : BootResult) : s.Inside (selfTested t r) ↔ s.Inside t := by
  simp only [selfTested]; simp

@[simp ↓] theorem selfTestStep_inside (r : BootResult) : s.Inside (selfTestStep t r) ↔ s.Inside t := by
  simp only [selfTestStep]; simp

/-! ## Units of the Lens, saves and Daymarks (R174, R186, R308, R364-R383) -/

@[simp ↓] theorem unitError_inside (c : Cmd) : s.Inside (unitError t c) ↔ s.Inside t := by
  simp only [unitError]; simp

@[simp ↓] theorem parityUnit_inside (c : Cmd) : s.Inside (parityUnit t c) ↔ s.Inside t := by
  simp only [parityUnit]; simp

@[simp ↓] theorem lensUnitStep_inside (err : Bool) : s.Inside (lensUnitStep t err) ↔ s.Inside t := by
  simp only [lensUnitStep]
  split
  · split <;> simp
  · rfl

@[simp ↓] theorem foldStep_inside (q : Nat) : s.Inside (foldStep t q) ↔ s.Inside t := by
  simp only [foldStep]
  split
  · rfl
  · split
    · rfl
    · exact State.beyond_dieStores _

@[simp ↓] theorem saveOp_inside (q : Nat) : s.Inside (saveOp t q) ↔ s.Inside t := by
  simp only [saveOp]; split <;> simp

@[simp ↓] theorem daymarkOp_inside (c : Cmd) : s.Inside (daymarkOp t c) ↔ s.Inside t := Iff.rfl

@[simp ↓] theorem exportCopies_inside (area : Nat) (l : List Nat) (o : Nat × Option Nat) : s.Inside (exportCopies area l t o).1 ↔ s.Inside t := by
  induction l generalizing t o with
  | nil => rfl
  | cons x r ih => exact (ih ..).trans (State.beyond_dieStores _)

@[simp ↓] theorem capture_inside (c : Cmd) : s.Inside (capture t c) ↔ s.Inside t := by
  simp only [capture]; simp

@[simp ↓] theorem captureStep_inside (q : Nat) : s.Inside (captureStep t q) ↔ s.Inside t := by
  simp only [captureStep]
  split
  · rfl
  · split <;> simp

@[simp ↓] theorem restoreOp_inside (c : Cmd) : s.Inside (restoreOp t c) ↔ s.Inside t := by
  simp only [restoreOp]; simp

/-! ## Control accesses of the Tender and page faults (R142, R143) -/

@[simp ↓] theorem ctlFault_inside (a : CtlAccess) (sp : Nat × Nat × Bool) : s.Inside (ctlFault t a sp) ↔ s.Inside t := by
  cases a <;> rfl

@[simp ↓] theorem tablesLost_inside (q : Nat) (k : Cond) : s.Inside (tablesLost t q k) ↔ s.Inside t := by
  simp only [tablesLost]; split <;> simp

@[simp ↓] theorem dropQueue_inside (q : Nat) : s.Inside (dropQueue t q) ↔ s.Inside t := by
  simp only [dropQueue]; split <;> simp

@[simp ↓] theorem undoSave_inside (j : Nat) : s.Inside (undoSave t j) ↔ s.Inside t := by
  simp only [undoSave]; simp

@[simp ↓] theorem ctlAbort_inside (a : CtlAccess) (r : PfRec) : s.Inside (ctlAbort t a r) ↔ s.Inside t := by
  cases a <;> simp only [ctlAbort]
  case reply => split <;> simp
  case command => split <;> simp
  case restore => split <;> simp
  all_goals simp

@[simp ↓] theorem ctlStep_inside (a : CtlAccess) (code : FabricCode) : s.Inside (ctlStep t a code) ↔ s.Inside t := by
  simp only [ctlStep]
  split
  · rfl
  · split
    · rfl
    · simp
    · split
      · simp
      · split <;> simp
      · rfl

@[simp ↓] theorem pfResumeHead_inside (v : Nat) : s.Inside (pfResumeHead t v) ↔ s.Inside t := by
  simp only [pfResumeHead]
  split
  · simp
  · split <;> simp

@[simp ↓] theorem pfAbortHead_inside (v : Nat) : s.Inside (pfAbortHead t v) ↔ s.Inside t := by
  simp only [pfAbortHead]
  split
  · simp
  · split
    · simp
    · split <;> simp

/-! ## Firmware (R316-R319, R329-R334) -/

@[simp ↓] theorem fwStart_inside : s.Inside (fwStart t) ↔ s.Inside t := Iff.rfl
@[simp ↓] theorem fwFail_inside (n : Nat) : s.Inside (fwFail t n) ↔ s.Inside t := Iff.rfl

@[simp ↓] theorem arcStart_inside : s.Inside (arcStart t) ↔ s.Inside t := by
  simp only [arcStart]; simp

@[simp ↓] theorem fwCtlWrite_inside (mid : Mid) (v : Word) : s.Inside (fwCtlWrite t mid v) ↔ s.Inside t := by
  simp only [fwCtlWrite]
  split
  · simp
  · split <;> simp

@[simp ↓] theorem fwAddrWrite_inside (mid : Mid) (v : Word) : s.Inside (fwAddrWrite t mid v) ↔ s.Inside t := by
  simp only [fwAddrWrite]; simp

@[simp ↓] theorem fwStatWrite_inside (mid : Mid) (v : Word) : s.Inside (fwStatWrite t mid v) ↔ s.Inside t := by
  simp only [fwStatWrite]; simp

@[simp ↓] theorem fwCopied_inside (ok : Bool) : s.Inside (fwCopied t ok) ↔ s.Inside t := by
  delta fwCopied
  extract_lets h
  clear_value h
  cases headerFault t h ok with
  | none => exact Iff.rfl
  | some k => exact fwFail_inside k

@[simp ↓] theorem fwDecided_inside : s.Inside (fwDecided t) ↔ s.Inside t := by
  rw [fwDecided]
  split <;> rfl

@[simp ↓] theorem fwStep_inside (ok : Bool) : s.Inside (fwStep t ok) ↔ s.Inside t := by
  rw [fwStep]
  split
  · exact fwCopied_inside ok
  · exact fwDecided_inside
  · rfl

@[simp ↓] theorem arcEnd_inside (n : Option Nat) : s.Inside (arcEnd t n) ↔ s.Inside t := by
  simp only [arcEnd]; simp

@[simp ↓] theorem watchdogStep_inside : s.Inside (watchdogStep t) ↔ s.Inside t := by
  simp only [watchdogStep]; simp

@[simp ↓] theorem heartbeatStep_inside : s.Inside (heartbeatStep t) ↔ s.Inside t := by
  simp only [heartbeatStep]; simp

/-! ## Messages, barriers and signals (R121-R132) -/

theorem sendInstr_inside (t : State) (i : Nat) (c : Cmd) (w : Nat) : (sendInstr t i c w).Inside t := by
  simp only [sendInstr]; simp

theorem recvInstr_inside (t : State) (i : Nat) (c : Cmd) (w : Nat) : (recvInstr t i c w).Inside t := by
  simp only [recvInstr]
  split
  · trivial
  · split <;> simp

theorem mwaitInstr_inside (t : State) (i : Nat) (c : Cmd) (w : Nat) : (mwaitInstr t i c w).Inside t := by
  simp only [mwaitInstr]; simp

@[simp ↓] theorem deliver_inside (i : Nat) (c : Cmd) (k : Msg) (data : List Byte) (d : Nat) : s.Inside (deliver t i c k data d) ↔ s.Inside t := by
  simp only [deliver]; split <;> simp

@[simp ↓] theorem moveMessage_inside (i : Nat) (c : Cmd) (k : Msg) : s.Inside (moveMessage t i c k) ↔ s.Inside t := by
  simp only [moveMessage]; simp

@[simp ↓] theorem messageStep_inside (l idx : Nat) : s.Inside (messageStep t l idx) ↔ s.Inside t := by
  simp only [messageStep]
  generalize (if idx < (t.prog l).sends.length then l else 64 + l) = i
  generalize (if idx < (t.prog l).sends.length then idx else idx - (t.prog l).sends.length) = k
  split <;> simp

theorem claimInstr_inside (t : State) (i : Nat) (c : Cmd) (w : Nat) : (claimInstr t i c w).Inside t := by
  simp only [claimInstr]
  split
  · trivial
  · split <;> simp

theorem barInstr_inside (t : State) (i : Nat) (c : Cmd) (w : Nat) : (barInstr t i c w).Inside t := by
  simp only [barInstr]
  split
  · trivial
  · split <;> simp

theorem releaseOf_inside {i : Nat} {b : Nat × Nat} (h : releaseOf t i b = some u) : t.Inside u := by
  simp only [releaseOf] at h
  split at h
  · cases h
  · split at h
    · cases h; simp
    · cases h

theorem barrierStep_inside (t : State) (l scope id : Nat) : t.Inside (barrierStep t l scope id) := by
  rw [barrierStep]
  cases h : (releaseOf t l (scope, id)).or (releaseOf t (64 + l) (scope, id)) with
  | none => simp
  | some u =>
    rcases Option.or_eq_some_iff.mp h with h | ⟨-, h⟩
    all_goals exact releaseOf_inside h

theorem sigInstr_inside (t : State) (i : Nat) (c : Cmd) (w : Nat) : (sigInstr t i c w).Inside t := by
  simp only [sigInstr]
  split
  · trivial
  · split <;> simp

theorem swaitInstr_inside (t : State) (i : Nat) (c : Cmd) (w : Nat) : (swaitInstr t i c w).Inside t := by
  simp only [swaitInstr]
  generalize (if bit w 39 = true then bf w 0 32 else bf ((t.prog i).reg (bf w 40 5)).toNat 0 32) = v
  split
  · trivial
  · split <;> simp

/-! ## Vector instructions (Table 5.5) -/

@[simp ↓] theorem readOperands_inside (i : Nat) (c : Cmd) (l : List (List (Int × Nat))) : s.Inside (readOperands i c l t).1 ↔ s.Inside t := by
  induction l generalizing t with
  | nil => rfl
  | cons ps r ih =>
    simp only [readOperands]
    split
    · exact (ih ..).trans (readPieces_inside ..)
    · simp

@[simp ↓] theorem countVec_inside (c : Cmd) (k n : Nat) : s.Inside (countVec t c k n) ↔ s.Inside t := Iff.rfl

theorem vopInstr_inside (t : State) (i : Nat) (c : Cmd) (w : Nat) : (vopInstr t i c w).Inside t := by
  simp only [vopInstr]; simp

theorem vredInstr_inside (t : State) (i : Nat) (c : Cmd) (w : Nat) : (vredInstr t i c w).Inside t := by
  simp only [vredInstr]; simp

theorem vsfInstr_inside (t : State) (i : Nat) (c : Cmd) (w : Nat) : (vsfInstr t i c w).Inside t := by
  simp only [vsfInstr]; simp

/-! ## Windows and registers (R361, R362, R409-R418, R433) -/

@[simp ↓] theorem linkWord_inside (off : Nat) : s.Inside (linkWord t off).1 ↔ s.Inside t := by
  simp only [linkWord]; split <;> simp

@[simp ↓] theorem rbStorage_inside (st : Storage) (off : Nat) : s.Inside (rbStorage t st off).1 ↔ s.Inside t := by
  simp only [rbStorage]; simp

@[simp ↓] theorem rbCore_inside (space index : Nat) (phys : Bool) (off : Nat) : s.Inside (rbCore t space index phys off).1 ↔ s.Inside t := by
  rw [rbCore]
  split
  · rfl
  next u p _ =>
    generalize (if space < 4 then p / 2 else u / 2) = d
    dsimp only
    split
    · rfl
    · split <;> simp

@[simp ↓] theorem rbQueue_inside (space index off : Nat) : s.Inside (rbQueue t space index off).1 ↔ s.Inside t := by
  simp only [rbQueue]
  split
  · rfl
  · split <;> rfl

@[simp ↓] theorem rbEngine_inside (space off : Nat) : s.Inside (rbEngine t space off).1 ↔ s.Inside t := by
  simp only [rbEngine]; split <;> simp

@[simp ↓] theorem rbFetch_inside (mid : Mid) (space index : Nat) (phys : Bool) (off : Nat) : s.Inside (rbFetch t mid space index phys off).1 ↔ s.Inside t := by
  simp only [rbFetch]; split <;> simp

@[simp ↓] theorem rbStep_inside (mid : Mid) : s.Inside (rbStep t mid) ↔ s.Inside t := by
  simp only [rbStep]; simp

@[simp ↓] theorem illRecStep_inside (mid : Mid) : s.Inside (illRecStep t mid) ↔ s.Inside t := by
  simp only [illRecStep]; simp

@[simp ↓] theorem acctSelWrite_inside (mid : Mid) (v : Word) : s.Inside (acctSelWrite t mid v) ↔ s.Inside t := by
  simp only [acctSelWrite]; simp

@[simp ↓] theorem amaxCmdWrite_inside (mid : Mid) (v : Word) : s.Inside (amaxCmdWrite t mid v) ↔ s.Inside t := by
  simp only [amaxCmdWrite]; simp

@[simp ↓] theorem pfCtlWrite_inside (mid : Mid) (v : Word) : s.Inside (pfCtlWrite t mid v) ↔ s.Inside t := by
  simp only [pfCtlWrite]; split <;> simp

end Sys2Proof.Machine
end

section
namespace Sys2Proof.Machine
variable {s t u : State}

/-! ## Registers without a row of their own (Table 17.2) -/

@[simp ↓] theorem qctxBaseWrite_inside (mid : Mid) (v : Word) : s.Inside (qctxBaseWrite t mid v) ↔ s.Inside t := by
  simp only [qctxBaseWrite]; simp

@[simp ↓] theorem irqStatWrite_inside (mid : Mid) (v : Word) : s.Inside (irqStatWrite t mid v) ↔ s.Inside t := by
  simp only [irqStatWrite]; simp

@[simp ↓] theorem irqEnWrite_inside (mid : Mid) (v : Word) : s.Inside (irqEnWrite t mid v) ↔ s.Inside t := by
  simp only [irqEnWrite]; simp

@[simp ↓] theorem cirqWrite_inside (mid : Mid) (k : Nat) (v : Word) : s.Inside (cirqWrite t mid k v) ↔ s.Inside t := by
  simp only [cirqWrite]; simp

@[simp ↓] theorem fiTgtWrite_inside (mid : Mid) (v : Word) : s.Inside (fiTgtWrite t mid v) ↔ s.Inside t := by
  simp only [fiTgtWrite]; simp

@[simp ↓] theorem fiAddrWrite_inside (mid : Mid) (v : Word) : s.Inside (fiAddrWrite t mid v) ↔ s.Inside t := by
  simp only [fiAddrWrite]; simp

@[simp ↓] theorem amaxSelWrite_inside (mid : Mid) (v : Word) : s.Inside (amaxSelWrite t mid v) ↔ s.Inside t := by
  simp only [amaxSelWrite]; simp

@[simp ↓] theorem amaxDataWrite_inside (mid : Mid) (i : Nat) (v : Word) : s.Inside (amaxDataWrite t mid i v) ↔ s.Inside t := by
  simp only [amaxDataWrite]; simp

@[simp ↓] theorem rbAddrWrite_inside (mid : Mid) (v : Word) : s.Inside (rbAddrWrite t mid v) ↔ s.Inside t := by
  simp only [rbAddrWrite]; simp

@[simp ↓] theorem rbStatWrite_inside (mid : Mid) (v : Word) : s.Inside (rbStatWrite t mid v) ↔ s.Inside t := by
  simp only [rbStatWrite]; simp

/-- Of the registers that stand alone only GX_RST resets. -/
theorem loneWrite_inside {mid : Mid} {off : Nat} {v : Word} (ho : off ≠ 0x1008) (h : loneWrite s mid off v = some t) : s.Inside t := by
  simp only [loneWrite] at h
  split at h
  case h_2 => exact absurd rfl ho
  case h_23 => cases h
  all_goals
    obtain rfl := Option.some.inj h
    simp

theorem mbWrite_inside {mid : Mid} {ch k : Nat} {v : Word} (h : mbWrite s mid ch k v = some t) : s.Inside t := by
  simp only [mbWrite] at h
  split at h
  · obtain rfl := Option.some.inj h
    simp
  · split at h
    case h_6 => cases h
    all_goals
      obtain rfl := Option.some.inj h
      simp

theorem rowWrite_inside {mid : Mid} {off : Nat} {v : Word} (h : rowWrite s mid off v = some t) : s.Inside t := by
  simp only [rowWrite] at h
  split at h
  · obtain rfl := Option.some.inj h
    simp
  split at h
  · obtain rfl := Option.some.inj h
    simp
  split at h
  · obtain rfl := Option.some.inj h
    simp
  split at h
  · exact mbWrite_inside h
  · cases h

theorem regEffect_inside {mid : Mid} {off : Nat} {v : Word} (ho : off ≠ 0x1008) (h : regEffect s mid off v = some t) : s.Inside t := by
  rcases Option.or_eq_some_iff.mp h with h | ⟨-, h⟩
  · exact loneWrite_inside ho h
  · exact rowWrite_inside h

/-- A register write is refused, has no effect, or has the effect of its register. -/
theorem regWrite_cases (s : State) (mid : Mid) (aligned : Bool) (off : Nat) (v : Word) :
    regWrite s mid aligned off v = regIll s mid off true ∨ regWrite s mid aligned off v = s ∨
    regEffect s mid off v = some (regWrite s mid aligned off v) := by
  simp only [regWrite]
  split
  · exact .inl rfl
  · split
    · exact .inr (.inl rfl)
    · cases regEffect s mid off v with
      | none => exact .inl rfl
      | some t => exact .inr (.inr rfl)

theorem regWrite_inside (mid : Mid) (aligned : Bool) {off : Nat} (v : Word) (ho : off ≠ 0x1008) : s.Inside (regWrite s mid aligned off v) := by
  rcases regWrite_cases s mid aligned off v with h | h | h
  · rw [h]; simp
  · rw [h]; simp
  · exact regEffect_inside ho h

/-! ## Completion, test port, injection -/

@[simp ↓] theorem completeStep_inside (q : Nat) (k : Meas) : s.Inside (completeStep t q k) ↔ s.Inside t := by
  simp only [completeStep]
  split
  · rfl
  · split
    · simp
    · simp [onOut_inside]

@[simp ↓] theorem tapStep_inside (rising tms tdi : Bool) : s.Inside (tapStep t rising tms tdi) ↔ s.Inside t := by
  simp only [tapStep]; simp

@[simp ↓] theorem injected_inside : s.Inside (injected u t) ↔ s.Inside t := Iff.rfl

/-! ## Resets and the report of the extent (R401, R402, R423) -/

/-- A reset completes the writes in flight, which are writes inside the extent. -/
theorem read_memAtReset (s : State) {a : Nat} (ha : s.extent ≤ a) : (memAtReset s).read a = s.mem.read a :=
  Memory.read_dieStores_beyond _ _ ha

theorem read_coldReset (s : State) {a : Nat} (ha : s.extent ≤ a) : (coldReset s).mem.read a = s.mem.read a := read_memAtReset s ha

theorem read_warmReset (s : State) {a : Nat} (ha : s.extent ≤ a) : (warmReset s).mem.read a = s.mem.read a := read_memAtReset s ha

theorem read_rstWrite (s : State) (mid : Mid) (v : Word) {a : Nat} (ha : s.extent ≤ a) : (rstWrite s mid v).mem.read a = s.mem.read a := by
  simp only [rstWrite]
  split
  · rfl
  · split
    · exact read_warmReset s ha
    · exact read_coldReset s ha
    · rfl

theorem read_netWrite_rst (s : State) (mid : Mid) (v : Word) {a : Nat} (ha : s.extent ≤ a) :
    (netWrite s mid rstOff (rstWrite s mid v)).mem.read a = s.mem.read a := by
  simp only [netWrite]
  split
  · rfl
  · exact read_rstWrite s mid v ha

theorem read_regWrite (s : State) (mid : Mid) (aligned : Bool) (off : Nat) (v : Word) {a : Nat} (ha : s.extent ≤ a) :
    (regWrite s mid aligned off v).mem.read a = s.mem.read a := by
  by_cases ho : off = 0x1008
  · subst ho
    rcases regWrite_cases s mid aligned 0x1008 v with h | h | h
    · rw [h]; rfl
    · rw [h]
    · rw [← Option.some.inj (show some (rstWrite s mid v) = _ from h)]
      exact read_rstWrite s mid v ha
  · obtain ⟨-, hm⟩ := regWrite_inside mid aligned v ho (s := s)
    exact hm a ha

theorem extentStep_mem (s : State) (n : Nat) : (extentStep s n).mem = s.mem := by
  simp only [extentStep]; split <;> rfl

theorem extentStep_extent (s : State) (n : Nat) : (extentStep s n).extent = if s.extent = 0 then n else s.extent := by
  simp only [extentStep]; split <;> rfl

/-! ## Commands -/

/-- Whatever state a command answers is inside. -/
def State.NextInside (s : State) (o : Host.Outcome State Fault Refusal) : Prop := ∀ t, o = .next t → s.Inside t

theorem State.NextInside.next (h : s.Inside t) : s.NextInside (.next t) := fun _ hu => Host.Outcome.next.inj hu ▸ h

theorem State.NextInside.noUnit : s.NextInside noUnit := fun _ hu => nomatch hu

theorem State.NextInside.guard {p : Prop} [Decidable p] (h : s.Inside t) : s.NextInside (if p then .next t else Machine.noUnit) := by
  split
  · exact .next h
  · exact .noUnit

theorem State.NextInside.netWrite (mid : Mid) (off : Nat) (h : s.Inside t) : s.NextInside (.next (netWrite s mid off t)) :=
  .next (by simp [h])

theorem execFabricResponse_inside (x : Answered) (code : FabricCode) : s.NextInside (execFabricResponse x code s) := by
  cases x with
  | transfer id => exact .next (by simp)
  | control a => exact .next (by simp)

theorem execWaitWatchdog_inside (w : Waiter) (us : Nat) : s.NextInside (execWaitWatchdog w us s) := by
  cases w with
  | core l => exact .guard (by simp)
  | queue q => exact .guard (by simp)

theorem execEccWriteback_inside (st : Storage) (addr : Nat) : s.NextInside (execEccWriteback st addr s) := by
  cases st with
  | scratch p => exact .guard (by simp)
  | acc p => exact .guard (by simp)
  | central => exact .guard (by simp)

theorem execScrub_inside (st : Storage) : s.NextInside (execScrub st s) := by
  cases st with
  | scratch p => exact .guard (by simp)
  | acc p => exact .guard (by simp)
  | central => exact .next (by simp)

theorem execDaymark_inside (q : Nat) : s.NextInside (execDaymark q s) := by
  refine .guard ?_
  cases startable s q 0x62 with
  | none => exact .refl s
  | some c => simp

theorem execMbDataWrite_inside (mid : Mid) (ch w : Nat) (v : Word) : s.NextInside (execMbDataWrite mid ch w v s) := by
  simp only [execMbDataWrite]
  split
  · exact .guard (by simp)
  · exact .noUnit

/-- An instruction of a core program: what it does to each program is inside, so the step of the core is. -/
theorem onCore_instrStep_inside (l : Nat) (ok : Nat → Bool) {f : State → Nat → Cmd → Nat → IRes} (hf : ∀ t i c w, (f t i c w).Inside t) :
    s.NextInside (onCore l (instrStep s l ok f)) :=
  .guard (instrStep_inside l ok hf)

/-- Every command but a reset, a register write and the report of the extent leaves the extent, and memory at and beyond it. -/
theorem exec_inside (c : Instr) (hc : mayReset c = false) (hx : ∀ n, c ≠ .fabricExtentReport n) : s.NextInside (exec c s) := by
  cases c with
  -- resets, the register write and the report of the extent
  | coldResetLine | warmResetLine | rstCold | rstWarm | keeperDomainPowerUp | registerWrite => cases hc
  | fabricExtentReport n => exact absurd rfl (hx n)
  -- commands that run as a whole
  | gpair | dxp | dwp | matmul | nbwd | sbwd | abwd | epi | xgrad | copy | fill => exact .guard (by simp)
  -- commands with phases or units
  | embg | embgPhase | merge | prune | lens | aliasFoldPass => exact .guard (by simp)
  | lensUnit => exact .next (by simp)
  -- collectives
  | reduce | gnorm | amax | parity => exact .guard (by simp)
  | reductionSegment | collectiveAbort => exact .next (by simp)
  -- commands that the Keeper performs
  | barrier | fence | waitqPoll | save | daymarkCapture | cfg => exact .guard (by simp)
  | nop | chain => exact .guard (by simp [startOp_inside])
  | loop | waitq | runp | restore => exact .guard (by simp [startOp_inside])
  | daymark q => exact execDaymark_inside q
  -- packets, admission, replies, contexts
  | packetRead | admission | commandCompletion | contextRestore => exact .guard (by simp)
  | stagedConfigApply => exact .next (by simp)
  | qbellPackets | qbellReplies | queueEnable | queueDisable | queueCancel | queueEvict | queueBringIn => exact .netWrite _ _ (by simp)
  -- waves, drains and streams
  | sliceInject | cubeWave | drainRow | preloadRow | tenderBlockIssue | streamWatchdog => exact .guard (by simp)
  | fabricResponse x code => exact execFabricResponse_inside x code
  | waitWatchdog w us => exact execWaitWatchdog_inside w us
  | pfResume | pfAbort => exact .next (by simp)
  -- instructions of core programs
  | nopInstruction => exact onCore_instrStep_inside _ _ nopInstr_inside
  | salu => exact onCore_instrStep_inside _ _ saluInstr_inside
  | sli => exact onCore_instrStep_inside _ _ sliInstr_inside
  | sld => exact onCore_instrStep_inside _ _ sldInstr_inside
  | sst => exact onCore_instrStep_inside _ _ sstInstr_inside
  | ags => exact onCore_instrStep_inside _ _ agsInstr_inside
  | aga => exact onCore_instrStep_inside _ _ agaInstr_inside
  | br => exact onCore_instrStep_inside _ _ brInstr_inside
  | loopInstruction => exact onCore_instrStep_inside _ _ loopInstr_inside
  | halt => exact onCore_instrStep_inside _ _ haltInstr_inside
  | tld => exact onCore_instrStep_inside _ _ tldInstr_inside
  | tst => exact onCore_instrStep_inside _ _ tstInstr_inside
  | wb => exact onCore_instrStep_inside _ _ wbInstr_inside
  | pld => exact onCore_instrStep_inside _ _ pldInstr_inside
  | pdr => exact onCore_instrStep_inside _ _ pdrInstr_inside
  | pew => exact onCore_instrStep_inside _ _ pewInstr_inside
  | vop => exact onCore_instrStep_inside _ _ vopInstr_inside
  | vred => exact onCore_instrStep_inside _ _ vredInstr_inside
  | vsf => exact onCore_instrStep_inside _ _ vsfInstr_inside
  | send => exact onCore_instrStep_inside _ _ sendInstr_inside
  | recv => exact onCore_instrStep_inside _ _ recvInstr_inside
  | mwait => exact onCore_instrStep_inside _ _ mwaitInstr_inside
  | claim => exact onCore_instrStep_inside _ _ claimInstr_inside
  | bar => exact onCore_instrStep_inside _ _ barInstr_inside
  | sig => exact onCore_instrStep_inside _ _ sigInstr_inside
  | swait => exact onCore_instrStep_inside _ _ swaitInstr_inside
  | mark => exact onCore_instrStep_inside _ _ markInstr_inside
  | chfree => exact onCore_instrStep_inside _ _ chfreeInstr_inside
  | chput => exact onCore_instrStep_inside _ _ chputInstr_inside
  | chget => exact onCore_instrStep_inside _ _ chgetInstr_inside
  | chrel => exact onCore_instrStep_inside _ _ chrelInstr_inside
  | programEnd | messageTransfer | markComplete | replayStart => exact .guard (by simp)
  | barrierRelease l scope id => exact .guard (barrierStep_inside s l scope id)
  -- events, storage and links
  | checkEvent | linkFrameReceive | frameResendTimeout => exact .guard (by simp)
  | eccWriteback st addr => exact execEccWriteback_inside st addr
  | scrub st => exact execScrub_inside st
  | injection => exact .next (by simp)
  -- registers that have a row of their own
  | fltPop | fiArm | rbRead | illRecRead | acctSelect | amaxLoad | amaxStore => exact .next (by simp)
  | retSeedWrite => exact .netWrite _ _ (by simp)
  -- mailboxes
  | mbDataWrite mid ch w v => exact execMbDataWrite_inside mid ch w v
  | mbBell | mbBeacon | mbEmpty | mbFogTimeout | mbCtlWrite | mbBind => exact .guard (by simp)
  | mbLock => exact .netWrite _ _ (by simp)
  -- firmware
  | fwLoad | fwAbort | arcAdvance => exact .netWrite _ _ (by simp)
  | firmwareVerify | arcAdvanceEnd | keeperWatchdogExpiry | keeperHeartbeat => exact .next (by simp)
  -- power, boot and the test port
  | powerTargetWrite | vreqWrite | heldTargetApply | powerTransitionDone | regulatorAck | currentSample | energyInterval => exact .guard (by simp)
  | undervoltageHold | undervoltageRelease | thermalHold | thermalRelease | clockStop | clockResume => exact .guard (by simp)
  | bootSelfTestDone | tapTckEdge => exact .next (by simp)

/-- No command changes memory at or beyond the extent. -/
theorem read_exec_beyond {c : Instr} (h : exec c s = .next t) {a : Nat} (ha : s.extent ≤ a) : t.mem.read a = s.mem.read a := by
  by_cases hx : ∃ n, c = .fabricExtentReport n
  · obtain ⟨n, rfl⟩ := hx
    rw [← Host.Outcome.next.inj h, extentStep_mem]
  cases hc : mayReset c with
  | false =>
    obtain ⟨-, hm⟩ := exec_inside c hc (fun n hn => hx ⟨n, hn⟩) t h
    exact hm a ha
  | true =>
    cases c with
    | coldResetLine n =>
      rw [← Host.Outcome.next.inj h]
      split
      · exact read_coldReset s ha
      · rfl
    | warmResetLine n =>
      rw [← Host.Outcome.next.inj h]
      split
      · exact read_warmReset s ha
      · rfl
    | rstCold mid => exact Host.Outcome.next.inj h ▸ read_netWrite_rst s mid 2 ha
    | rstWarm mid => exact Host.Outcome.next.inj h ▸ read_netWrite_rst s mid 1 ha
    | keeperDomainPowerUp => exact Host.Outcome.next.inj h ▸ read_coldReset s ha
    | registerWrite mid aligned off v => exact Host.Outcome.next.inj h ▸ read_regWrite s mid aligned off.toNat v ha
    | _ => cases hc

/-- Settles O6. Every command but a reset and the report of the extent is taken apart into the model's operations, each of which writes memory only
through the stores of the die, and those reach no byte at or beyond the extent. -/
theorem stepStaysInsideTheExtent : Obligations.StepStaysInsideTheExtent := by
  intro c s t h
  refine ⟨fun _ a ha => read_exec_beyond h ha, fun hc he => ?_⟩
  by_cases hx : ∃ n, c = .fabricExtentReport n
  · obtain ⟨n, rfl⟩ := hx
    rw [← Host.Outcome.next.inj h, extentStep_extent] at he ⊢
    split at he
    next h0 => exact ⟨h0, n, rfl, if_pos h0⟩
    · exact absurd rfl he
  · suffices s.Inside t from absurd this.1 he
    rcases hc with hc | ⟨m, a, o, v, rfl, ho⟩
    · exact exec_inside c hc (fun n hn => hx ⟨n, hn⟩) t h
    · exact Host.Outcome.next.inj h ▸ regWrite_inside m a v ho

end Sys2Proof.Machine
end

section
namespace Sys2Proof.Machine
variable {s t : State}

/-! ## The record of a command under the updates of its run

A command is found by its queue, sequence number, ring index and iteration; no step of its run changes one of these.
-/

/-- The first element that satisfies `p`, after it is changed by an `f` that keeps it one. -/
theorem find?_modifyFirst {α : Type} {p : α → Bool} {f : α → α} (hf : ∀ x, p x = true → p (f x) = true) (l : List α) :
    (modifyFirst p f l).find? p = (l.find? p).map f := by
  induction l with
  | nil => rfl
  | cons x r ih =>
    cases hx : p x with
    | true => simp [modifyFirst, hx, hf x hx]
    | false => simp [modifyFirst, hx, ih]

/-- The record of `c` after a change that keeps it a record of `c`. -/
theorem find?_updCmd {c : Cmd} {f : Cmd → Cmd} (hf : ∀ d, d.same c = true → (f d).same c = true) (Q : Queues) :
    (Q.updCmd (fun d => d.same c) f).cmds.find? (fun d => d.same c) = (Q.cmds.find? (fun d => d.same c)).map f :=
  find?_modifyFirst hf Q.cmds

/-- A command is a record of its own run. -/
theorem Cmd.same_self (c : Cmd) : c.same c = true := by simp [Cmd.same]

/-- A command that is the only record of its run is found as it is. -/
theorem State.Alone.cmd_eq {c : Cmd} (h : s.Alone c) (hc : c ∈ s.q.cmds) : s.cmd c = some c := by
  cases hd : s.cmd c with
  | none => exact absurd c.same_self (List.find?_eq_none.mp hd c hc)
  | some d => rw [h d (List.mem_of_find?_eq_some hd) (by simpa using List.find?_some hd)]

/-! ## Runs outside the cores -/

/-- The record of a command that has begun and taken its scales: nothing of it changes that its reply shows. -/
theorem cmd_startRun {c : Cmd} (h : s.cmd c = some c) (tids : List Nat) :
    ∃ d, (s.startRun c tids).cmd c = some d ∧ d.chain = c.chain ∧ d.op = c.op ∧ d.conds = c.conds := by
  have hb := find?_updCmd (c := c) (f := fun d => { d with
    owedR := d.owedR + (s.conf.job c.job).oweBytes, owedNs := d.owedNs + (s.conf.job c.job).oweNs
    owedE := d.owedE + (s.conf.job c.job).oweEnergy }) (fun _ hd => hd)
    (s.q.upd c.qid (fun x => { x.begin.pair c with expand := expandKey c (s.conf.job c.job).cores.length }))
  have ht := find?_updCmd (c := c) (f := fun d => d.takeScales (s.startRun c tids).amax tids) (fun _ hd => hd) (beginCmd s c).q
  refine ⟨_, ht.trans (congrArg _ (hb.trans (congrArg _ h))), rfl, rfl, rfl⟩

/-- A run that is none of the cores' and no consumer's touches memory, the queues and the counter of the free values only. -/
theorem finishRun_eq {c : Cmd} (r : RunRes) (hop : isCoreOp c.op = false) (hc : c.chain ≠ 2) :
    finishRun s c r = { s with mem := (finishRun s c r).mem, q := (finishRun s c r).q, free := s.free + 1 } := by
  have hf : chainFailed s c = false := by simp [chainFailed, hc]
  simp [finishRun, ranAhead, hop, hf]

/-- The record of a command after its run, which has written `n` bytes. -/
def Cmd.finished (d : Cmd) (r : RunRes) (n : Nat) : Cmd := { d.ran false r with wr := d.wr + n }

theorem cmd_finishRun {c : Cmd} (r : RunRes) (hc : c.chain ≠ 2) :
    (finishRun s c r).cmd c = (s.cmd c).map (fun d => d.finished r (runWrites s.extent c r)) := by
  have hf : chainFailed s c = false := by simp [chainFailed, hc]
  have hu : ranAhead s c = s := by simp [ranAhead, hf]
  simp only [State.cmd, finishRun, hu, hf]
  exact find?_updCmd (f := fun d => d.finished r (runWrites s.extent c r)) (fun _ hd => hd) s.q

/-- What a command outside the cores leaves that runs in one step with the effects `r`, without free regions, staged pairs or a chained output: it
touches what OnlyRun names, memory takes the stores in order, and its record has ended with the conditions of the run. -/
structure RanOnce (s t : State) (c : Cmd) (r : RunRes) : Prop where
  only : OnlyRun s t
  mem : t.mem = s.mem.dieStores s.extent r.stores
  stage : (t.cmd c).map (·.stage) = some .ended
  conds : (t.cmd c).map (·.conds) = (s.cmd c).map (fun e => e.conds ++ r.conds)
  amax : (t.cmd c).map (·.amaxOut) = some (if c.op = 0x42 then [] else r.outs.map (fun o => (o.1, o.2.amax)))

theorem runOp_ranOnce {q op : Nat} {c : Cmd} {tids : Cmd → List Nat} {f : State → Cmd → RunRes} {r : RunRes}
    (hs : Starts s q op c) (hop : isCoreOp op = false) (hc : c.chain = 0)
    (hr : f (s.startRun c (tids c)) (c.takeScales (s.startRun c (tids c)).amax (tids c)) = r)
    (hv : r.havoc = []) (hg : r.staged = []) (hd : r.chained = []) : RanOnce s (runOp s q op tids f) c r := by
  obtain ⟨-, hst, ha⟩ := hs
  obtain ⟨hm, -, rfl, -, -⟩ := startable_spec hst
  have hcmd := ha.cmd_eq hm
  obtain ⟨e, he, hec, heo, hek⟩ := cmd_startRun hcmd (tids c)
  have hrun : runOp s q c.op tids f = finishRun (s.startRun c (tids c)) (c.takeScales (s.startRun c (tids c)).amax (tids c)) r := by
    rw [← hr]
    simp only [runOp, hst, runEnd, metBy]
    exact if_pos (by simp [Cmd.takeScales, hop])
  generalize hu : s.startRun c (tids c) = u at *
  have hchain : (c.takeScales u.amax (tids c)).chain ≠ 2 := fun h => absurd (hc.symm.trans h) (by decide)
  have hfin : (finishRun u (c.takeScales u.amax (tids c)) r).cmd c = some (e.finished r _) := (cmd_finishRun r hchain).trans (congrArg _ he)
  rw [hrun]
  refine ⟨?_, ?_, ?_, ?_, ?_⟩
  · rw [finishRun_eq (c := c.takeScales u.amax (tids c)) r hop hchain, ← hu]
    rfl
  · subst hu
    simp [finishRun, hv, hd, State.startRun]
  · rw [hfin]
    simp [Cmd.finished, Cmd.ran, hg]
  · rw [hfin, hcmd]
    simp [Cmd.finished, Cmd.ran, hec, hc, hek]
  · rw [hfin]
    simp [Cmd.finished, Cmd.ran, heo]

/-! ## COPY (R273) -/

/-- The bytes that COPY stores, one by one. -/
theorem getElem_dieBytes (m : Memory) (ext a n k : Nat) (hk : k < (dieBytes m ext a n).length) :
    (dieBytes m ext a n)[k] = if a + k < ext then m.read (a + k) else 0#8 := by
  simp [dieBytes, dieByte]

theorem length_dieBytes (m : Memory) (ext a n : Nat) : (dieBytes m ext a n).length = n := by simp [dieBytes]

/-- A store of bytes, read inside it and inside the die's memory. -/
theorem Memory.read_dieStores_bytes {m : Memory} (h : m.wf = true) {ext a k : Nat} {bs : List Byte} (hk : k < bs.length) (ha : a + k < ext) :
    (m.dieStores ext [.bytes a bs]).read (a + k) = bs[k] := by
  have hc : k < (bs.take (ext - a)).length := by rw [List.length_take]; omega
  have hw : (m.dieStores ext [.bytes a bs]).read (a + k) = (bs.take (ext - a))[k] := Memory.read_writeBytes_inside _ h a k hc
  rw [hw, List.getElem_take]

theorem outsideBytes_inside {ext a n : Nat} (h : a + n ≤ ext) : outsideBytes ext a n = (0, none) := by simp [outsideBytes, h]

theorem outsideBytes_across {ext a n : Nat} (ha : a ≤ ext) (h : ext < a + n) : outsideBytes ext a n = (a + n - ext, some (ext - a)) := by
  have hn : ext - a < n := by omega
  have hl : n - (ext - a) = a + n - ext := by omega
  simp [outsideBytes, Nat.not_le.mpr h, hn, hl]

theorem copy_ranOnce {q : Nat} {c : Cmd} (hs : Starts s q 0x41 c) (hc : c.chain = 0) :
    ∃ t, exec (.copy q) s = .next t ∧ RanOnce s t c (copyRun s c) :=
  ⟨_, onQueue_next.mpr ⟨hs.1, rfl⟩, runOp_ranOnce hs rfl hc rfl rfl rfl rfl⟩

theorem copyRun_stores (s : State) (c : Cmd) :
    (copyRun s c).stores = [.bytes (c.pf 1 0 48) (dieBytes s.mem s.extent (c.pf 0 0 48) (c.pf 2 0 48))] := rfl

theorem copyRun_conds_inside {c : Cmd} (hsrc : c.pf 0 0 48 + c.pf 2 0 48 ≤ s.extent) (hdst : c.pf 1 0 48 + c.pf 2 0 48 ≤ s.extent) :
    (copyRun s c).conds = [] := by
  simp [copyRun, outsideBytes_inside hsrc, outsideBytes_inside hdst, oobCond, minOpt]

theorem copyRun_conds_across {c : Cmd} (hdst : c.pf 1 0 48 + c.pf 2 0 48 ≤ s.extent) (hsrc : c.pf 0 0 48 ≤ s.extent)
    (h : s.extent < c.pf 0 0 48 + c.pf 2 0 48) :
    (copyRun s c).conds = [⟨0x10, s.extent - c.pf 0 0 48, c.pf 0 0 48 + c.pf 2 0 48 - s.extent⟩] := by
  simp [copyRun, outsideBytes_across hsrc h, outsideBytes_inside hdst, oobCond, minOpt]

theorem RanOnce.endedWith {c : Cmd} {r : RunRes} {ks : List Cond} (h : RanOnce s t c r) (hk : r.conds = ks) : EndedWith s t c ks :=
  ⟨h.stage, hk ▸ h.conds⟩

/-! ## FILL (R274) -/

/-- The elements of the items of FILL's output that lie in the die's memory, in the order of their stores. -/
def fillElems (s : State) (c : Cmd) : List (Nat × Nat × Nat) :=
  ((List.range c.items).flatMap (fun i => (List.range (c.d 0).rows).flatMap (fun r => (List.range (c.d 0).cols).map (fun k => (i, r, k))))).filter
    (fun e => !(c.d 0).oob s.extent c.nb2 e.1 e.2.1 e.2.2)

theorem fillRun_stores (s : State) (c : Cmd) :
    (fillRun s c).stores = (fillElems s c).map (fun e => (c.d 0).store c.nb2 e.1 e.2.1 e.2.2 (c.d 0).fill) := by
  simp [fillRun, fillElems, positions, List.map_flatMap, Function.comp_def]

/-- FILL runs under the exponents that it takes at its start; its stores do not depend on them. -/
theorem fill_ranOnce {q : Nat} {c : Cmd} (hs : Starts s q 0x42 c) (hc : c.chain = 0) :
    ∃ t r, exec (.fill q) s = .next t ∧ r.stores = (fillRun s c).stores ∧ RanOnce s t c r := by
  let u := s.startRun c (slotTids [c.d 0])
  let r := fillRun u (c.takeScales u.amax (slotTids [c.d 0]))
  exact ⟨_, r, onQueue_next.mpr ⟨hs.1, rfl⟩, rfl, runOp_ranOnce hs rfl hc rfl rfl rfl rfl⟩

/-- Settles O38. Both commands run in one step outside the cores, so memory takes the stores of their runs and nothing else: COPY one store of the
source bytes, FILL one store for each element. -/
theorem copyAndFillMoveBytes : Obligations.CopyAndFillMoveBytes := by
  refine ⟨fun s q c hwf hs hc => ?copy, fun s q c hwf hs hc => ?fill⟩
  case copy =>
    obtain ⟨t, ht, hr⟩ := copy_ranOnce hs hc
    have hmem := hr.mem
    rw [copyRun_stores] at hmem
    refine ⟨t, ht, hr.only, fun k hk hb => ?_, fun b hb => ?_, fun hsrc hdst => hr.endedWith (copyRun_conds_inside hsrc hdst),
      fun hdst hsrc hacross => hr.endedWith (copyRun_conds_across hdst hsrc hacross)⟩
    · rw [hmem, Memory.read_dieStores_bytes hwf (by rwa [length_dieBytes]) hb, getElem_dieBytes]
    · rw [hmem]
      refine Memory.read_dieStores hwf ?_
      by_cases hext : s.extent ≤ b
      · exact .inl hext
      · refine .inr fun w hw => ?_
        obtain rfl := List.mem_singleton.mp hw
        simp only [Store.covers, length_dieBytes]
        omega
  case fill =>
    obtain ⟨t, r, ht, hst, hr⟩ := fill_ranOnce hs hc
    obtain ⟨-, -, hop, -, -⟩ := startable_spec hs.2.1
    have hmem := hr.mem
    rw [hst, fillRun_stores] at hmem
    refine ⟨t, ht, hr.only, hr.stage, hr.amax.trans (by rw [if_pos hop]), hmem, fun b hb => ?_⟩
    rw [hmem]
    refine Memory.read_dieStores hwf (.inr fun w hw => ?_)
    obtain ⟨e, he, rfl⟩ := List.mem_map.mp hw
    exact hb e he

end Sys2Proof.Machine
end

section
namespace Sys2Proof.Machine

/-! ## A mark in the unit of a core's second program (R117, R135)

A row of core instructions first lets an instruction of its opcode that waits in its unit take effect, of the core's first program and then of its
second one, whether or not that program may issue. `MarksAndChainHandoff` says that a `MARK` which waits behind a pending one leaves the state as it is
where the second program may not issue; it does not ask that no `MARK` waits in that program's unit.
-/

/-- The word of a `MARK`. -/
def markWord : Nat := wordOf 0x73 []

/-- The producer (`n` = 0) and the consumer (`n` = 1) of a `CHAIN` of two `RUNP` of queue 0 that have started. -/
def chainRunp (n : Nat) : Cmd :=
  { cmdOf State.reset (QRes.fresh 0 0 (parseCtx 0)) n 0 with seq := BitVec.ofNat 32 n, op := 0x58, stage := .started, chain := n + 1 }

/-- A program of that command, at address 0 of an image in the lower half. -/
def chainProgram (n : Nat) : LCore := { LCore.reset with run := .running, len := 10, half := 1, seq := BitVec.ofNat 32 n }

/-- The producer's program on core 0 stands at a `MARK` while an earlier one is pending. The consumer's stands in a barrier and so may issue nothing,
while a `MARK` of it waits in its unit. -/
def heldMark : State :=
  { State.reset with
    power := { State.reset.power with doms := State.reset.power.doms.modify 0 (fun d => { d with state := .on }) }
    pcores := State.reset.pcores.modify 0 (fun p => { p with pstate := .active, lidA := some 0, pmem := Memory.empty.writeLe 0 8 markWord })
    lcores := (State.reset.lcores.set 0 { chainProgram 0 with markPend := some MarkRec.reset }).set 64
      { chainProgram 1 with barAt := some (0, 0), held := [⟨1, markWord, CoreRegs.reset, 0, none, [0, 0], [0, 0], [], [], []⟩] }
    q := { State.reset.q with cmds := [chainRunp 0, chainRunp 1] } }

theorem heldMark_issues : Issues heldMark 0 (chainRunp 0) markWord := by
  unfold Issues
  decide

theorem heldMark_waits : (heldMark.prog 0).run = .running ∧ (heldMark.prog 0).losesPlane 0 = false ∧ (heldMark.prog 0).losesPlane 1 = false ∧
    (heldMark.prog 0).markPend.isSome = true := by decide

theorem heldMark_second_notReady : progReady heldMark (64 + 0) = false := by decide

/-- The consumer's `MARK` takes effect and leaves its unit. -/
theorem exec_mark_heldMark : ∃ t, exec (.mark 0) heldMark = .next t ∧ (t.prog 64).held = [] := ⟨_, rfl, by decide⟩

/-- Refutes O53: in `heldMark` the first program's `MARK` waits and the second program may not issue, yet the state changes, because the second program's
`MARK` leaves its unit. -/
theorem not_marksAndChainHandoff : ¬ Obligations.MarksAndChainHandoff := by
  unfold Obligations.MarksAndChainHandoff
  rintro ⟨hmark, -⟩
  obtain ⟨hissue, -⟩ := hmark heldMark 0 (chainRunp 0)
  obtain ⟨hrun, hplane0, hplane1, hpend⟩ := heldMark_waits
  obtain ⟨-, hkeeps⟩ := hissue heldMark_issues hrun hplane0 hplane1
  have hkept : exec (.mark 0) heldMark = .next heldMark := hkeeps hpend heldMark_second_notReady
  obtain ⟨t, ht, hleft⟩ := exec_mark_heldMark
  obtain rfl : heldMark = t := Host.Outcome.next.inj (hkept.symm.trans ht)
  exact absurd hleft (by decide)

end Sys2Proof.Machine
end

section
namespace Sys2Proof.Machine

/-! ## A resident queue after a change of one -/

theorem Queues.find_upd {f : QRes → QRes} (hf : ∀ x, (f x).qid = x.qid) (Q : Queues) (q k : Nat) :
    (Q.upd q f).find k = (Q.find k).map (fun x => if x.qid = q then f x else x) := by
  have hp : (fun r : QRes => r.qid == k) ∘ (fun x => if x.qid = q then f x else x) = fun r => r.qid == k := by
    funext x
    by_cases hx : x.qid = q <;> simp [hx, hf]
  simp only [Queues.find, Queues.upd, List.find?_map, hp]

/-- What a change leaves of every queue, it leaves of the one that is found. -/
theorem Queues.any_find_upd {f : QRes → QRes} {p : QRes → Bool} (hf : ∀ x, (f x).qid = x.qid) (hp : ∀ x, p (f x) = p x) (Q : Queues) (q k : Nat) :
    ((Q.upd q f).find k).any p = (Q.find k).any p := by
  rw [Queues.find_upd hf, Option.any_map]
  congr 1
  funext x
  by_cases hx : x.qid = q <;> simp [hx, hp]

/-! ## The state in which the run of a command computes (R51, R288) -/

/-- Of its job's configuration only what is owed for a restore changes (R315). -/
theorem startRun_job (s : State) (c : Cmd) (tids : List Nat) (j : Nat) :
    (s.startRun c tids).conf.job j = { s.conf.job j with
      oweBytes := ((s.startRun c tids).conf.job j).oweBytes
      oweNs := ((s.startRun c tids).conf.job j).oweNs
      oweEnergy := ((s.startRun c tids).conf.job j).oweEnergy } := by
  simp only [State.startRun, takeScales_conf, beginCmd_conf, Conf.job, Conf.updJob, List.getD_eq_getElem?_getD, List.getElem?_modify]
  cases s.conf.jobs[j]? with
  | none => rfl
  | some b => by_cases hj : c.job = j <;> simp [hj]

theorem startRun_cores (s : State) (c : Cmd) (tids : List Nat) (j : Nat) : ((s.startRun c tids).conf.job j).cores = (s.conf.job j).cores := by
  rw [startRun_job]; rfl
theorem startRun_pbase (s : State) (c : Cmd) (tids : List Nat) (j : Nat) : ((s.startRun c tids).conf.job j).pbase = (s.conf.job j).pbase := by
  rw [startRun_job]
theorem startRun_psize (s : State) (c : Cmd) (tids : List Nat) (j : Nat) : ((s.startRun c tids).conf.job j).psize = (s.conf.job j).psize := by
  rw [startRun_job]

/-- The command meets the same words when it has begun. -/
theorem metBy_startRun (s : State) (c : Cmd) (tids : List Nat) : metBy (s.startRun c tids) c = metBy s c := by
  have hjob : ∀ e, jobWord (s.startRun c tids) c.job e = jobWord s c.job e := fun e => by
    simp only [jobWord, startRun_cores, startRun_pbase, startRun_psize]
    rfl
  simp only [metBy, metWords, hjob]
  rfl

/-- A consumer's producer has failed or not, whether the consumer has begun or not. -/
theorem chainFailed_startRun (s : State) (c : Cmd) (tids : List Nat) : chainFailed (s.startRun c tids) c = chainFailed s c := by
  by_cases hc : c.chain = 2
  · have hpair : ∀ x : QRes, x.begin.pair c = x.begin := fun x => by simp [QRes.pair, hc]
    have hfind := Queues.any_find_upd (p := (·.chainBad))
      (f := fun x => { x.begin.pair c with expand := expandKey c (s.conf.job c.job).cores.length })
      (fun x => by rw [hpair]; rfl) (fun x => by rw [hpair]; rfl) s.q c.qid c.qid
    simp only [chainFailed]
    exact congrArg (c.chain == 2 && ·) hfind
  · simp [chainFailed, beq_eq_false_iff_ne.mpr hc]

end Sys2Proof.Machine
end

section
namespace Sys2Proof.Machine
variable {s : State}

/-! ## Check bits behind a standard command (R338, R339, R360) -/

/-- An access of one storage array touches no physical core but the array's own. -/
theorem countCe_pcores {st : Storage} {p : Nat} (hp : storageCore st ≠ some p) (n : Nat) : (countCe s st n).pcores[p]? = s.pcores[p]? := by
  cases st with
  | scratch k | acc k =>
    have hk : k ≠ p := fun h => hp (congrArg some h)
    exact List.getElem?_modify_ne _ _ hk
  | central => rfl

theorem setStorage_pcores {st : Storage} {p : Nat} (hp : storageCore st ≠ some p) (m : Memory) : (setStorage s st m).pcores[p]? = s.pcores[p]? := by
  cases st with
  | scratch k | acc k =>
    have hk : k ≠ p := fun h => hp (congrArg some h)
    exact List.getElem?_modify_ne _ _ hk
  | central => rfl

theorem touchRead_pcores {st : Storage} {p : Nat} (hp : storageCore st ≠ some p) (a n : Nat) : (touchRead s st a n).pcores[p]? = s.pcores[p]? := by
  simp only [touchRead]
  split
  · rfl
  · exact countCe_pcores hp _

theorem applyFlips_pcores {st : Storage} {p : Nat} (hp : storageCore st ≠ some p) (a n : Nat) : (applyFlips s st a n).pcores[p]? = s.pcores[p]? := by
  simp only [applyFlips]
  refine List.foldlRecOn (motive := fun t : State => t.pcores[p]? = s.pcores[p]?) _ _ rfl fun t ht f _ => ?_
  split
  · exact (setStorage_pcores hp _).trans ht
  · exact ht

theorem refreshed_pcores {st : Storage} {p : Nat} (hp : storageCore st ≠ some p) (a n : Nat) : (refreshed s st a n).pcores[p]? = s.pcores[p]? :=
  applyFlips_pcores hp a n

/-- With no injection waiting a write only takes errors of its words away. -/
theorem applyFlips_none (h : s.flt.flips = []) (st : Storage) (a n : Nat) : applyFlips s st a n = s := by
  simp [applyFlips, h]

/-- No injection waits, and the central store is `m`. -/
def State.StoreIs (s : State) (m : Memory) : Prop := s.cstore = m ∧ s.flt.flips = []

theorem State.StoreIs.touchRead {m : Memory} (h : s.StoreIs m) (st : Storage) (a n : Nat) : (touchRead s st a n).StoreIs m := by
  simp only [Machine.touchRead]
  split
  · exact h
  · cases st <;> exact h

theorem State.StoreIs.refreshed {m : Memory} (h : s.StoreIs m) (st : Storage) (a n : Nat) : (refreshed s st a n).StoreIs m := by
  obtain ⟨hm, hf⟩ := h
  simp only [Machine.refreshed]
  rw [applyFlips_none (by exact hf)]
  exact ⟨hm, hf⟩

/-! ## `usedWords` -/

/-- The words that `usedWords` goes through are the job's. -/
theorem usedWords_induct {P : State → Prop} (j : Nat) (h0 : P s)
    (hread : ∀ t st a n, jobWord s j (st, a) = true → P t → P (touchRead t st a n))
    (hwrite : ∀ t st a n, jobWord s j (st, a) = true → P t → P (refreshed t st a n)) : P (usedWords s j) := by
  refine List.foldlRecOn (motive := P) _ _ h0 fun t ht e he => ?_
  have hj : jobWord s j e = true := (List.mem_filter.mp he).2
  have hread' : P (if bit (usedBits s e) 0 then touchRead t e.1 e.2 8 else t) := by
    split
    · exact hread t e.1 e.2 8 hj ht
    · exact ht
  dsimp only
  split
  · exact hwrite _ e.1 e.2 8 hj hread'
  · exact hread'

/-- The storage of a core that serves none of the job's is not touched. -/
theorem usedWords_pcores {j p : Nat} (hp : p ∉ (s.conf.job j).cores.filterMap (storageOf s.pcores)) : (usedWords s j).pcores[p]? = s.pcores[p]? := by
  have hne : ∀ st a, jobWord s j (st, a) = true → storageCore st ≠ some p := by
    intro st a hj hst
    cases st with
    | scratch k | acc k =>
      cases hst
      exact hp (List.contains_iff_mem.mp hj)
    | central => cases hst
  exact usedWords_induct (P := fun t => t.pcores[p]? = s.pcores[p]?) j rfl
    (fun t st a n hj ht => (touchRead_pcores (hne st a hj) a n).trans ht)
    (fun t st a n hj ht => (refreshed_pcores (hne st a hj) a n).trans ht)

theorem usedWords_cstore (h : s.flt.flips = []) (j : Nat) : (usedWords s j).cstore = s.cstore := by
  have hs : (usedWords s j).StoreIs s.cstore := usedWords_induct (P := fun t => t.StoreIs s.cstore) j ⟨rfl, h⟩
    (fun _ st a n _ ht => ht.touchRead st a n) (fun _ st a n _ ht => ht.refreshed st a n)
  exact hs.1

theorem usedWords_clean (h : s.CleanStorage) (j : Nat) : usedWords s j = s := by
  obtain ⟨hone, htwo, -, hflip⟩ := h
  simp [usedWords, hone, htwo, hflip]

/-! ## `usedCores` (log 76) -/

theorem usedCores_prog (j : Nat) (counts : List (Nat × Nat × Nat)) (l : Nat) :
    (usedCores s j counts).prog l = { s.prog l with markGap := ((usedCores s j counts).prog l).markGap } := by
  simp only [State.prog, usedCores, List.getD_eq_getElem?_getD, List.getElem?_map, List.getElem?_zipIdx]
  cases s.lcores[l]? with
  | none => rfl
  | some x => simp only [Option.map_some, Option.getD_some]; split <;> rfl

theorem usedCores_prog_other {j l : Nat} (hl : l ∉ (s.conf.job j).cores) (counts : List (Nat × Nat × Nat)) :
    (usedCores s j counts).prog l = s.prog l := by
  simp only [State.prog, usedCores, List.getD_eq_getElem?_getD, List.getElem?_map, List.getElem?_zipIdx]
  cases s.lcores[l]? with
  | none => rfl
  | some x => simp [hl]

theorem usedCores_pcores {j p : Nat} (hp : p ∉ (s.conf.job j).cores.filterMap (storageOf s.pcores)) (counts : List (Nat × Nat × Nat)) :
    (usedCores s j counts).pcores[p]? = s.pcores[p]? := by
  rw [← usedWords_pcores hp]
  simp only [usedCores, List.getElem?_map, List.getElem?_zipIdx]
  cases (usedWords s j).pcores[p]? with
  | none => rfl
  | some x => simp only [Option.map_some, Nat.zero_add, List.contains_iff_mem, if_neg hp]

theorem usedCores_cstore (hwf : s.cstore.wf = true) (hf : s.flt.flips = []) {j a : Nat} (counts : List (Nat × Nat × Nat))
    (ha : a < (s.conf.job j).pbase * 1048576 ∨ ((s.conf.job j).pbase + (s.conf.job j).psize) * 1048576 ≤ a) :
    (usedCores s j counts).cstore.read a = s.cstore.read a := by
  rw [Nat.add_mul] at ha
  simp only [usedCores, usedWords_cstore hf]
  exact Memory.read_scramble _ hwf ha

end Sys2Proof.Machine
end

section
namespace Sys2Proof.Machine
variable {s : State}

/-! ## Runs that end with their effects (R107, R109) -/

/-- What is discarded behind a cancelled consumer is no command's record. -/
theorem dropAhead_cmds (s : State) (c : Cmd) : (dropAhead s c).q.cmds = s.q.cmds := by
  simp only [dropAhead]
  exact List.foldlRecOn (motive := fun t : State => t.q.cmds = s.q.cmds) _ _ rfl fun t ht d _ => ht

theorem ranAhead_cmds (s : State) (c : Cmd) : (ranAhead s c).q.cmds = s.q.cmds := by
  simp only [ranAhead]
  split
  · exact dropAhead_cmds s c
  · rfl

/-- A run replaces the record of its own command. -/
theorem finishRun_cmd (s : State) (c : Cmd) (r : RunRes) :
    (finishRun s c r).cmd c = (s.cmd c).map (fun d => { d.ran (chainFailed s c) r with wr := d.wr + runWrites s.extent c r }) := by
  have hq := find?_updCmd (c := c) (f := fun d => { d.ran (chainFailed s c) r with wr := d.wr + runWrites s.extent c r }) (fun _ hd => hd) (ranAhead s c).q
  rw [ranAhead_cmds] at hq
  exact hq

/-- Of the storage behind the cores a run leaves what `usedCores` says. -/
theorem finishRun_of_core {c : Cmd} (hop : isCoreOp c.op = true) (r : RunRes) :
    finishRun s c r = { s with
      mem := (finishRun s c r).mem
      q := (finishRun s c r).q
      tender := (ranAhead s c).tender
      irq := (ranAhead s c).irq
      lcores := (usedCores s c.job r.counts).lcores
      pcores := (usedCores s c.job r.counts).pcores
      cstore := (usedCores s c.job r.counts).cstore
      flt := (usedCores s c.job r.counts).flt
      free := (usedCores s c.job r.counts).free + 1 } := by
  simp only [finishRun, hop, if_true]

/-- A byte outside the stores and the free regions of a run reads as before. -/
theorem read_finishRun_mem (h : s.mem.wf = true) {c : Cmd} {r : RunRes} {a : Nat} (hst : ∀ w ∈ r.stores ++ r.chained, ¬ w.covers a)
    (hhv : ∀ x ∈ r.havoc, a < x.1 ∨ x.1 + x.2 ≤ a) : (finishRun s c r).mem.read a = s.mem.read a := by
  obtain ⟨hwf, hread⟩ : (r.havoc.foldl (fun m x => m.dieHavoc s.extent s.free x.1 x.2) s.mem).wf = true ∧
      (r.havoc.foldl (fun m x => m.dieHavoc s.extent s.free x.1 x.2) s.mem).read a = s.mem.read a :=
    List.foldlRecOn (motive := fun m : Memory => m.wf = true ∧ m.read a = s.mem.read a) _ _ ⟨h, rfl⟩ fun m hm x hx =>
      ⟨Memory.dieHavoc_wf hm.1 .., (Memory.read_dieHavoc hm.1 (.inr (hhv x hx))).trans hm.2⟩
  refine (Memory.read_dieStores hwf (.inr fun w hw => hst w ?_)).trans hread
  split at hw
  · exact List.mem_append_left _ (by simpa using hw)
  · exact hw

/-! ## Runs that meet a word that cannot be corrected (R357) -/

/-- Fault records touch the record list, its flag and the counter of the free values. -/
theorem storageFaults_eq (ws : List (Storage × Nat)) (s : State) :
    ws.foldl (fun t w => storageFault t 4 3 false w.1 w.2) s =
      { s with
        flt := (ws.foldl (fun t w => storageFault t 4 3 false w.1 w.2) s).flt
        irq := (ws.foldl (fun t w => storageFault t 4 3 false w.1 w.2) s).irq
        free := (ws.foldl (fun t w => storageFault t 4 3 false w.1 w.2) s).free } :=
  List.foldlRecOn (motive := fun t : State => t = { s with flt := t.flt, irq := t.irq, free := t.free }) _ _ rfl fun t ht w _ => by
    rw [ht]
    rfl

theorem failRun_eq (s : State) (c : Cmd) (ws : List (Storage × Nat)) :
    failRun s c ws = { s with
      mem := (failRun s c ws).mem, q := (failRun s c ws).q, flt := (failRun s c ws).flt, irq := (failRun s c ws).irq, free := (failRun s c ws).free } := by
  simp only [failRun]
  rw [storageFaults_eq ws s]

/-- Only an `XGRAD` has written anything: its statistics (R242). -/
theorem failRun_mem {c : Cmd} (hop : c.op ≠ 0x31) (ws : List (Storage × Nat)) : (failRun s c ws).mem = s.mem := by
  simp only [failRun, xstatStores, hop, false_and, if_false, Memory.dieStores_nil]
  rw [storageFaults_eq ws s]

/-- The index that such a run reports: of its first output's first element. -/
def Cmd.uncorrFirst (c : Cmd) : Nat := (((c.roles.find? (writesRole c.op)).bind c.role).map (fun d => d.index 0 0 0)).getD noIndex

/-- The record of a command that met `n` such words. -/
def Cmd.failed (d : Cmd) (first n : Nat) : Cmd := { d with stage := .ended, conds := d.conds ++ [⟨0x60, first, n⟩] }

theorem failRun_cmd (s : State) (c : Cmd) (ws : List (Storage × Nat)) :
    (failRun s c ws).cmd c = (s.cmd c).map (fun d => d.failed c.uncorrFirst ws.length) := by
  refine Eq.trans ?_ (find?_updCmd (c := c) (f := fun d => d.failed c.uncorrFirst ws.length) (fun _ hd => hd) s.q)
  simp only [State.cmd, failRun, Cmd.uncorrFirst]
  rw [storageFaults_eq ws s]
  cases (c.roles.find? (writesRole c.op)).bind c.role <;> rfl

end Sys2Proof.Machine
end

section
namespace Sys2Proof.Machine
variable {s : State}

/-! ## A command of the cores runs in one step (R106, R193, logs 39, 76) -/

/-- The command that runs: `c` with the exponents that it takes at its start (R52). -/
def State.runCmd (s : State) (c : Cmd) (tids : List Nat) : Cmd := c.takeScales (s.startRun c tids).amax tids

/-- The record of a command that has begun has taken the exponents of the command that runs. -/
theorem startRun_cmd_scales {c d : Cmd} {tids : List Nat} (h : s.cmd c = some c) (hd : (s.startRun c tids).cmd c = some d) :
    d.scales = (s.runCmd c tids).scales := by
  have hb := find?_updCmd (c := c) (f := fun d => { d with
    owedR := d.owedR + (s.conf.job c.job).oweBytes, owedNs := d.owedNs + (s.conf.job c.job).oweNs
    owedE := d.owedE + (s.conf.job c.job).oweEnergy }) (fun _ hd => hd)
    (s.q.upd c.qid (fun x => { x.begin.pair c with expand := expandKey c (s.conf.job c.job).cores.length }))
  have ht := find?_updCmd (c := c) (f := fun d => d.takeScales (s.startRun c tids).amax tids) (fun _ hd => hd) (beginCmd s c).q
  obtain rfl := Option.some.inj (hd.symm.trans (ht.trans (congrArg _ (hb.trans (congrArg _ h)))))
  rfl

/-- A run that meets a word which cannot be corrected (R357). -/
theorem failRun_ranWith {c : Cmd} {tids : List Nat} {f : State → Cmd → RunRes} (h : s.cmd c = some c) (hbad : metBy s c ≠ []) :
    RanWith s (failRun (s.startRun c tids) (s.runCmd c tids) (metBy s c)) c tids f := by
  obtain ⟨d, hd, -, -, hconds⟩ := cmd_startRun h tids
  have hcmd := (failRun_cmd (s.startRun c tids) (s.runCmd c tids) (metBy s c)).trans (congrArg _ hd)
  have hended : EndedWith s (failRun (s.startRun c tids) (s.runCmd c tids) (metBy s c)) c [⟨0x60, (s.runCmd c tids).uncorrFirst, (metBy s c).length⟩] := by
    refine ⟨congrArg _ hcmd, (congrArg _ hcmd).trans ?_⟩
    simp [h, Cmd.failed, hconds]
  refine ⟨?_, ?_, fun _ => ⟨⟨_, hended⟩, fun hop => failRun_mem (by exact hop) _, ?_, ?_, ?_⟩, fun hok => absurd hok hbad⟩
  all_goals rw [failRun_eq]; rfl

/-- A run that meets none. -/
theorem finishRun_ranWith {c : Cmd} {tids : List Nat} {f : State → Cmd → RunRes} (h : s.cmd c = some c) (hop : isCoreOp c.op = true) (hok : metBy s c = []) :
    RanWith s (finishRun (s.startRun c tids) (s.runCmd c tids) (f (s.startRun c tids) (s.runCmd c tids))) c tids f := by
  obtain ⟨d, hd, -⟩ := cmd_startRun h tids
  have hscales : d.scales = (s.runCmd c tids).scales := startRun_cmd_scales h hd
  have hcmd := (finishRun_cmd (s.startRun c tids) (s.runCmd c tids) (f (s.startRun c tids) (s.runCmd c tids))).trans (congrArg _ hd)
  have heq := finishRun_of_core (s := s.startRun c tids) (c := s.runCmd c tids) hop (f (s.startRun c tids) (s.runCmd c tids))
  generalize (f (s.startRun c tids) (s.runCmd c tids)).counts = counts at heq
  have hcores := startRun_cores s c tids c.job
  refine ⟨?only, ?amax, fun hbad => absurd hok hbad, fun _ => ⟨rfl, ?stage, ?scales, fun l => ?prog, fun l hl => ?other, fun p hp => ?pcores,
    fun hwf hflips a ha => ?cstore, fun hclean => ?flt, fun hchain => ?tender, fun hwf a hst hhv => ?mem⟩⟩
  case stage => exact (congrArg _ hcmd).trans (by simp [Cmd.ran, List.isEmpty_iff, State.runCmd])
  case scales => exact (congrArg _ hcmd).trans (congrArg some hscales)
  case mem => exact read_finishRun_mem (s := s.startRun c tids) hwf hst hhv
  all_goals rw [heq]
  case only => rfl
  case amax => rfl
  case prog => exact usedCores_prog (s := s.startRun c tids) c.job counts l
  case other =>
    rw [← hcores] at hl
    exact usedCores_prog_other hl counts
  case pcores =>
    rw [← hcores] at hp
    exact usedCores_pcores (s := s.startRun c tids) hp counts
  case cstore =>
    rw [← startRun_pbase s c tids, ← startRun_psize s c tids] at ha
    exact usedCores_cstore (s := s.startRun c tids) hwf hflips counts ha
  case flt =>
    have hwords : usedWords (s.startRun c tids) c.job = s.startRun c tids := usedWords_clean (by exact hclean) c.job
    change (usedWords (s.startRun c tids) c.job).flt = s.flt
    rw [hwords]
    rfl
  case tender =>
    have hchain' : chainFailed (s.startRun c tids) (s.runCmd c tids) = false := (chainFailed_startRun s c tids).trans hchain
    have hahead : ranAhead (s.startRun c tids) (s.runCmd c tids) = s.startRun c tids := by simp [ranAhead, hchain']
    rw [hahead]
    exact ⟨rfl, rfl⟩

/-- A command of the cores runs in one step and leaves what its run says. -/
theorem runOp_ranWith {q op : Nat} {c : Cmd} (hs : Starts s q op c) (hop : isCoreOp op = true) (tids : Cmd → List Nat) (f : State → Cmd → RunRes) :
    RanWith s (runOp s q op tids f) c (tids c) f := by
  obtain ⟨-, hst, halone⟩ := hs
  obtain ⟨hmem, -, rfl, -, -⟩ := startable_spec hst
  have hcmd := halone.cmd_eq hmem
  have hmet : metBy (s.startRun c (tids c)) (s.runCmd c (tids c)) = metBy s c := metBy_startRun s c (tids c)
  have hrun : runOp s q c.op tids f =
      runEnd (s.startRun c (tids c)) (s.runCmd c (tids c)) (f (s.startRun c (tids c)) (s.runCmd c (tids c))) := by
    simp only [runOp, hst]
    rfl
  rw [hrun]
  rcases runEnd_cases (s.startRun c (tids c)) (s.runCmd c (tids c)) (f (s.startRun c (tids c)) (s.runCmd c (tids c))) with
    ⟨hok, h⟩ | ⟨hbad, h⟩ <;> rw [h]
  · exact finishRun_ranWith hcmd hop (hmet ▸ hok)
  · rw [hmet] at hbad ⊢
    exact failRun_ranWith hcmd hbad

/-! ## A zero map that fits none of a product's operands (R246) -/

/-- The record of such a zero map leaves whether a command may start. -/
theorem mayStart_zinIll (s : State) (c d : Cmd) (ops : List Nat) : mayStart (zinIll s c ops) d = mayStart s d := by
  simp only [zinIll]
  split
  next =>
    have hgroup : ∀ k, ((s.q.updCtx c.qid (fun x => x.noteIll 0x0A (.queue c.qid) (BitVec.ofNat 64 (c.pf 7 48 4)))).find k).any (·.groupOpen) =
        (s.q.find k).any (·.groupOpen) := fun k =>
      Queues.any_find_upd (f := fun r => { r with ctx := r.ctx.noteIll 0x0A (.queue c.qid) (BitVec.ofNat 64 (c.pf 7 48 4)) }) (fun _ => rfl) (fun _ => rfl) ..
    have hslice : sliceAllows (illQueue s 0x0A c.qid (BitVec.ofNat 64 (c.pf 7 48 4))) d = sliceAllows s d :=
      congrArg (fun b => !sliceExpired s d.job || leadsCollective s d || chainHalf s d ||
        (b && decide ((s.conf.job d.job).clock - (s.conf.job d.job).slice ≤ (s.conf.job d.job).glim))) (hgroup d.qid)
    simp only [mayStart, hslice]
    rfl
  next => rfl

theorem Starts.zinIll {q op : Nat} {c : Cmd} (h : Starts s q op c) (ops : List Nat) : Starts (zinIll s c ops) q op c := by
  obtain ⟨hq, hst, halone⟩ := h
  have hcmds : (Machine.zinIll s c ops).q.cmds = s.q.cmds := by
    simp only [Machine.zinIll]
    split <;> rfl
  refine ⟨hq, ?_, fun d hd => halone d (hcmds ▸ hd)⟩
  rw [← hst]
  simp only [startable, nextRun, hcmds, mayStart_zinIll]

/-- A product runs on the state in which its zero map has been judged. -/
theorem runProduct_ranWith {q op : Nat} {c : Cmd} (hs : Starts s q op c) (hop : isCoreOp op = true) (ops : List Nat) (tids : Cmd → List Nat)
    (f : State → Cmd → RunRes) : RanWith (zinIll s c ops) (runProduct s q op ops tids f) c (tids c) f := by
  have hst : startable s q op = some c := hs.2.1
  simp only [runProduct, hst]
  exact runOp_ranWith (hs.zinIll ops) hop tids f

theorem zinIll_of_match {c : Cmd} {ops : List Nat} (h : zinMismatch c ops = false) : zinIll s c ops = s := by
  simp [zinIll, h]

/-- Settles O36. Each of the commands is one `runOp`, which ends with the effects of its run or before them; a product is judged by its zero map first. -/
theorem coreCommandsRun : Obligations.CoreCommandsRun := by
  unfold Obligations.CoreCommandsRun
  refine ⟨fun s q c => ⟨fun hs => ?gpair, fun i op hi hs => ?product, fun l => zinIll_of_match⟩,
    fun s q c => ⟨fun hs => ?nbwd, fun hs => ?sbwd, fun hs => ?abwd, fun hs => ?epi, fun hs => ?xgrad⟩⟩
  case gpair => exact ⟨_, onQueue_next.mpr ⟨hs.1, rfl⟩, runProduct_ranWith hs rfl ..⟩
  case product =>
    rcases hi with ⟨rfl, rfl⟩ | ⟨rfl, rfl⟩ | ⟨rfl, rfl⟩
    all_goals exact ⟨_, onQueue_next.mpr ⟨hs.1, rfl⟩, runProduct_ranWith hs rfl ..⟩
  all_goals exact ⟨_, onQueue_next.mpr ⟨hs.1, rfl⟩, runOp_ranWith hs rfl ..⟩

end Sys2Proof.Machine
end

section
namespace Sys2Proof.Machine
variable {s t : State}

/-- The record of `c` in a state whose command records differ by one change of it. -/
theorem State.cmd_of_modified {c : Cmd} {f : Cmd → Cmd} (ht : t.q.cmds = (s.q.updCmd (fun d => d.same c) f).cmds)
    (hf : ∀ d, d.same c = true → (f d).same c = true := by exact fun _ hd => hd) : t.cmd c = (s.cmd c).map f := by
  rw [State.cmd, ht]
  exact find?_updCmd hf s.q

/-! ## Commands that are stopped before their end (R356, R357) -/

/-- Stopping a command's collective touches the reduction state and the queues' counters only. -/
theorem stopCollective_eq (s : State) (c : Cmd) :
    stopCollective s c = { s with red := (stopCollective s c).red, q := { s.q with res := (stopCollective s c).q.res } } := by
  by_cases hop : isCollective c.op = true ∨ c.op = 0x63
  · simp only [stopCollective, if_pos hop]
    split
    · rfl
    · split <;> rfl
  · simp only [stopCollective, if_neg hop]

/-- Stopping a command without a cancel leaves of the accumulator's work nothing but its release. -/
theorem stopHash_eq (s : State) (c : Cmd) : stopHash s c false = { s with hash := (stopHash s c false).hash } := by
  simp only [stopHash, Bool.false_eq_true, false_and, if_false]
  split <;> rfl

/-- The state in which the units of a command have stopped without a cancel. -/
def stopUnits (s : State) (c : Cmd) : State := stopHash (stopCollective (stopPrograms s c) c) c false

@[simp] theorem stopUnits_cmds (s : State) (c : Cmd) : (stopUnits s c).q.cmds = s.q.cmds := by
  rw [stopUnits, stopHash_eq, stopCollective_eq]; rfl
@[simp] theorem stopUnits_mem (s : State) (c : Cmd) : (stopUnits s c).mem = s.mem := by
  rw [stopUnits, stopHash_eq, stopCollective_eq]; rfl
@[simp] theorem stopUnits_flt (s : State) (c : Cmd) : (stopUnits s c).flt = s.flt := by
  rw [stopUnits, stopHash_eq, stopCollective_eq]; rfl

/-- A command that ends with `UNCORR` and is no `XGRAD` before its fold pass stores nothing any more. -/
theorem endUncorr_mem {c : Cmd} (h : c.op ≠ 0x31 ∨ c.staged ≠ []) (n : Nat) : (endUncorr s c n).mem = s.mem := by
  have hx : xstatStores s c 0x60 = [] := if_neg fun hx => h.elim (absurd hx.1) (absurd hx.2.2.2)
  calc (endUncorr s c n).mem = (stopUnits s c).mem.dieStores (stopUnits s c).extent (xstatStores s c 0x60) := rfl
    _ = s.mem := by rw [hx, Memory.dieStores_nil, stopUnits_mem]

theorem endUncorr_flt (s : State) (c : Cmd) (n : Nat) : (endUncorr s c n).flt = s.flt := stopUnits_flt s c

/-- The record of a command that ends with `UNCORR`; only a `RUNP` has figures of its programs to take over. -/
theorem endUncorr_cmd {c : Cmd} (h : s.cmd c = some c) (hop : c.op ≠ 0x58) (n : Nat) :
    (endUncorr s c n).cmd c = some { c with stage := .ended, staged := [], conds := mergeOob (c.conds ++ [⟨0x60, unwritten s c, n⟩]) } := by
  have hcmd : (stopUnits s c).cmd c = some c := by rw [State.cmd, stopUnits_cmds]; exact h
  rw [State.cmd_of_modified (s := stopUnits s c) (t := endUncorr s c n) (c := c) rfl fun d hd => by split <;> exact hd, hcmd]
  simp [hop]

theorem endUncorr_stoppedWith {c : Cmd} (h : s.cmd c = some c) (hop : c.op ≠ 0x58) (n : Nat) :
    StoppedWith s (endUncorr s c n) c ⟨0x60, unwritten s c, n⟩ := by
  simp [StoppedWith, endUncorr_cmd h hop, h]

/-! ## Turns of the central stage (R186, R356) -/

/-- One more failure of a unit, below the sixteenth in a row. -/
theorem unitError_again {c : Cmd} (h : s.cmd c = some c) (hr : c.retries < 15) :
    (unitError s c).mem = s.mem ∧ (unitError s c).cmd c = some { c with retries := c.retries + 1 } := by
  rw [unitError, if_neg (Nat.ne_of_lt hr)]
  exact ⟨rfl, (State.cmd_of_modified (s := s) rfl).trans (congrArg _ h)⟩

/-- The sixteenth failure in a row ends the command and writes a record of kind 12. -/
theorem unitError_last {c : Cmd} (h : s.cmd c = some c) (hr : c.retries = 15) (hop : c.op ≠ 0x58) (hx : c.op ≠ 0x31 ∨ c.staged ≠ []) :
    (unitError s c).mem = s.mem ∧ StoppedWith s (unitError s c) c ⟨0x60, unwritten s c, 1⟩ ∧
      (s.flt.recs.length < 64 → ∃ r, (unitError s c).flt.recs = s.flt.recs ++ [r] ∧ r.kind = 12) := by
  rw [unitError, if_pos hr]
  refine ⟨endUncorr_mem hx 1, endUncorr_stoppedWith h hop 1, fun hroom => ?_⟩
  have hflt : ∀ r : FltRec, ((endUncorr s c 1).flt.push r).recs = s.flt.recs ++ [r] := fun r => by
    rcases Flt.push_cases s.flt r with ⟨-, hpush⟩ | ⟨hfull, -⟩
    · rw [endUncorr_flt, hpush]
    · omega
  exact ⟨_, hflt _, rfl⟩

theorem mem_of_mem_insertBy {α : Type} {le : α → α → Bool} {x y : α} {l : List α} (h : y ∈ insertBy le x l) : y = x ∨ y ∈ l := by
  induction l with
  | nil => exact .inl (List.mem_singleton.mp h)
  | cons z r ih =>
    simp only [insertBy] at h
    split at h
    · exact List.mem_cons.mp h
    · rcases List.mem_cons.mp h with rfl | hr
      · exact .inr (List.mem_cons_self ..)
      · exact (ih hr).imp_right (List.mem_cons_of_mem _)

theorem mem_of_mem_sortBy {α : Type} {le : α → α → Bool} {y : α} {l : List α} (h : y ∈ sortBy le l) : y ∈ l := by
  induction l with
  | nil => exact h
  | cons x r ih =>
    rcases mem_of_mem_insertBy h with rfl | hr
    · exact List.mem_cons_self ..
    · exact List.mem_cons_of_mem _ (ih hr)

/-- Whoever has the next turn of the central stage is one of its users. -/
theorem centralUser_spec {c : Cmd} (h : centralUser s = some c) : isLensUser c = true ∨ isFolder c = true ∨ isParityUser c = true := by
  have hbest : ∀ {p : Cmd → Bool} {l : List Cmd},
      c ∈ sortBy (fun a b => decide (a.qid ≤ b.qid)) ((l.filter fun d => isLensUser d || isFolder d || isParityUser d).filter p) →
        isLensUser c = true ∨ isFolder c = true ∨ isParityUser c = true := fun hc => by
    have huser := (List.mem_filter.mp (List.mem_filter.mp (mem_of_mem_sortBy hc)).1).2
    simpa only [Bool.or_eq_true, or_assoc] using huser
  simp only [centralUser] at h
  split at h
  next hfind => exact hbest (List.mem_of_find?_eq_some (Option.some.inj h ▸ hfind))
  next => exact hbest (List.mem_of_head? h)

/-- A user that folds neither pairs nor shards is a `LENS` or a `PRUNE` that has started. -/
theorem lensUser_of_turn {c : Cmd} (h : centralUser s = some c) (hf : isFolder c = false) (hop : c.op ≠ 0x63) :
    c.stage = .started ∧ (c.op = 0x40 ∨ c.op = 0x38) := by
  rcases centralUser_spec h with hl | hl | hl
  · simp only [isLensUser, Bool.and_eq_true, Bool.or_eq_true, beq_iff_eq] at hl
    exact hl.1
  · exact absurd (hf.symm.trans hl) Bool.false_ne_true
  · simp only [isParityUser, Bool.and_eq_true, beq_iff_eq] at hl
    exact absurd hl.1.2 hop

/-- A turn in which the stage detects an error is a failure of the unit's user. -/
theorem exec_lensUnit_error {c : Cmd} (hup : centralUp s = true) (hu : centralUser s = some c) :
    exec (.lensUnit true) s = .next (unitError s c) := by
  refine congrArg Host.Outcome.next ?_
  simp [lensUnitStep, hup, hu]

/-- A unit of a `LENS` or `PRUNE`: memory takes its stores, and the command is one unit on. -/
theorem lensUnitStep_unit {c : Cmd} (hup : centralUp s = true) (hu : centralUser s = some c) (hf : isFolder c = false) (hop : c.op ≠ 0x63)
    (h : s.cmd c = some c) :
    (lensUnitStep s false).mem = s.mem.dieStores s.extent (if c.op = 0x40 then (lensUnit s c).1 else pruneUnit s c).stores ∧
      ∃ wrs staged n, (lensUnitStep s false).cmd c = some { c.unitDone wrs staged with wr := n } := by
  simp only [lensUnitStep, hup, hu, hf, hop, if_true, if_false, Bool.false_eq_true]
  exact ⟨by split <;> rfl, _, _, _, (State.cmd_of_modified (s := s) rfl).trans (congrArg _ h)⟩

/-- A command that stages nothing ends with its last unit. -/
theorem unitDone_stage {c : Cmd} (h : (c.d 1).ralias = false) (wrs : List Wr) (staged : List Res) :
    (c.unitDone wrs staged).stage = if c.units + 1 = lensUnits c then .ended else .started := by
  simp [Cmd.unitDone, h]

/-! ## Starting a LENS or PRUNE (R187, R190) -/

theorem Starts.cmd_eq {q op : Nat} {c : Cmd} (h : Starts s q op c) : s.cmd c = some c :=
  h.2.2.cmd_eq (startable_spec h.2.1).1

/-- It has started with no unit done, and memory changes only where its staged pairs leave a region free. -/
theorem lensStart_started {q op : Nat} {c : Cmd} (h : Starts s q op c) :
    OnlyRun s (lensStart s q op) ∧ Waits (lensStart s q op) c ∧ ((lensStart s q op).cmd c).map (·.units) = some 0 ∧
      (¬ (op = 0x40 ∧ (c.d 1).ralias = true) → (lensStart s q op).mem = s.mem) := by
  obtain ⟨d, hd, -⟩ := cmd_startRun h.cmd_eq (slotTids [c.d 1])
  have hst : startable s q op = some c := h.2.1
  simp only [Waits, lensStart, hst]
  rw [State.cmd_of_modified (s := s.startRun c (slotTids [c.d 1])) (c := c) rfl, hd]
  exact ⟨rfl, rfl, rfl, fun hn => if_neg hn⟩

/-! ## The fold pass (R174) -/

theorem foldWaiting_spec {q : Nat} {c : Cmd} (h : foldWaiting s q = some c) :
    centralUp s = true ∧ centralUser s = some c ∧ isFolder c = true := by
  simp only [foldWaiting] at h
  split at h
  next hup =>
    obtain ⟨hu, hp⟩ := Option.filter_eq_some_iff.mp h
    exact ⟨hup, hu, (Bool.and_eq_true .. ▸ hp).1⟩
  next => cases h

/-- A unit of the fold pass of a command without a zero map outside a `CHAIN`: memory takes its stores, and with its last unit the descriptor is done. -/
theorem foldStep_unit {q pos : Nat} {c : Cmd} {rs : List Res} {rest : List (Nat × List Res)} (hw : foldWaiting s q = some c) (h : s.cmd c = some c)
    (hst : c.staged = (pos, rs) :: rest) (hch : c.chain = 0) (hz : (zoutOf c).1 = 0) :
    foldStep s q = { s with mem := (foldStep s q).mem, q := (foldStep s q).q, turn := c.qid } ∧
      (foldStep s q).mem = s.mem.dieStores s.extent (foldUnit s c pos rs c.folded).1 ∧
      ((foldStep s q).cmd c).map (fun d => (d.staged, d.stage, d.folded, d.retries)) =
        some (if unitCount (c.d pos) (batchOf c).2 ≤ c.folded + 1 then (rest, if rest = [] then .ended else .started, 0, 0)
          else (c.staged, c.stage, c.folded + 1, 0)) := by
  simp only [foldStep, hw, hst]
  refine ⟨trivial, ?_, ?_⟩
  · simp [hch, hz, zeroMapStore]
  · rw [State.cmd_of_modified (s := s) (c := c) rfl fun d hd => by split <;> exact hd, h]
    by_cases hlast : unitCount (c.d pos) (batchOf c).2 ≤ c.folded + 1 <;> simp [hlast, hst]

/-- Settles O39. A turn of the central stage is a unit of its user or a failure of one; each case is the lemma about that turn. -/
theorem lensUnitsAndFoldPass : Obligations.LensUnitsAndFoldPass := by
  refine ⟨fun s q c => ⟨fun hs => ?lens, fun hs => ?prune, fun hup hu hf hop hc => ⟨?unit, fun hr => ?again, fun hr => ?last⟩⟩,
    fun s q pos c rs rest hq hw hc hst hch hz => ⟨?fold, fun hr => ?foldAgain, fun hr hop => ?foldLast⟩⟩
  case lens =>
    obtain ⟨honly, hwaits, hunits, hmem⟩ := lensStart_started hs
    exact ⟨_, onQueue_next.mpr ⟨hs.1, rfl⟩, honly, hwaits, hunits, fun hr => hmem (by simp [hr])⟩
  case prune =>
    obtain ⟨honly, hwaits, hunits, hmem⟩ := lensStart_started hs
    exact ⟨_, onQueue_next.mpr ⟨hs.1, rfl⟩, honly, hwaits, hunits, hmem fun hx => absurd hx.1 (by decide)⟩
  case unit =>
    obtain ⟨hmem, wrs, staged, n, hcmd⟩ := lensUnitStep_unit hup hu hf hop hc
    exact ⟨_, rfl, by rw [hcmd]; rfl, hmem, fun hr => by rw [hcmd]; exact congrArg some (unitDone_stage hr wrs staged)⟩
  case again =>
    obtain ⟨hmem, hcmd⟩ := unitError_again hc hr
    exact ⟨_, exec_lensUnit_error hup hu, hmem, by rw [hcmd]; rfl⟩
  case last =>
    obtain ⟨hstage, hlens⟩ := lensUser_of_turn hu hf hop
    obtain ⟨hmem, hstop, hrec⟩ := unitError_last hc hr (by omega) (.inl (by omega))
    have hfirst : unwritten s c = if c.staged = [] then firstUnwritten c else firstFold c := by
      simp [unwritten, hstage, hlens]
    exact ⟨_, exec_lensUnit_error hup hu, hmem, hfirst ▸ hstop, hrec⟩
  case fold =>
    obtain ⟨honly, hmem, hcmd⟩ := foldStep_unit hw hc hst hch hz
    exact ⟨_, onQueue_next.mpr ⟨hq, rfl⟩, honly, hmem, hcmd⟩
  case foldAgain =>
    obtain ⟨hup, hu, -⟩ := foldWaiting_spec hw
    obtain ⟨hmem, hcmd⟩ := unitError_again hc hr
    exact ⟨_, exec_lensUnit_error hup hu, hmem, by rw [hcmd]; rfl⟩
  case foldLast =>
    obtain ⟨hup, hu, hf⟩ := foldWaiting_spec hw
    have hstaged : c.staged ≠ [] := by simp [hst]
    obtain ⟨hmem, hstop, -⟩ := unitError_last hc hr hop (.inr hstaged)
    have hstage : c.stage = .started := by
      simp only [isFolder, Bool.and_eq_true, beq_iff_eq] at hf
      exact hf.1.1
    have hfirst : unwritten s c = firstFold c := by
      simp [unwritten, hstage, hstaged]
    exact ⟨_, exec_lensUnit_error hup hu, hmem, hfirst ▸ hstop⟩

end Sys2Proof.Machine
end

section
namespace Sys2Proof.Machine

/-! ## A PARITY with staged pairs (R174, R186)

A turn of the central stage in which a command's staged pairs wait for a fold pass is `ALIAS_FOLD_PASS`'s, and `LENS_UNIT` then leaves the state as it is.
`CollectivesStart` says that a `LENS_UNIT` whose turn is a `PARITY`'s folds a unit of its shards; it does not ask, as `LensUnitsAndFoldPass` does, that
the command is no folder, that is, that it has staged no pairs. No row stages pairs for a `PARITY`, so the state below shows a missing hypothesis.
-/

/-- A `PARITY` of queue 0 that has started, with two units of its shards to fold and with a descriptor whose pairs are staged. -/
def stagedParity : Cmd :=
  { cmdOf State.reset (QRes.fresh 0 0 (parseCtx 0)) 0 0 with op := 0x63, stage := .started, foldUnits := 2, staged := [(1, [])] }

/-- The one position of its tree, with the Lens domain `ON` and that command in its queues. -/
def stagedParityState : State :=
  { State.reset with
    conf := { State.reset.conf with npos := 1 }
    power := { State.reset.power with doms := State.reset.power.doms.modify 37 (fun d => { d with state := .on }) }
    q := { State.reset.q with cmds := [stagedParity] } }

theorem stagedParityState_root : treeOf stagedParityState = some (none, none, none) ∧ stagedParityState.red.colls = [] ∧
    stagedParityState.red.early = [] ∧ stagedParityState.red.doneAhead = [] ∧ stagedParityState.flt.double = [] := by decide

theorem stagedParityState_turn : centralUp stagedParityState = true ∧ centralUser stagedParityState = some stagedParity ∧
    stagedParityState.cmd stagedParity = some stagedParity := by decide

/-- The turn is the fold pass's, so no unit of the shards is folded. -/
theorem exec_lensUnit_stagedParityState : exec (.lensUnit false) stagedParityState = .next stagedParityState := by rfl

/-- Refutes O41: in `stagedParityState` the turn is the `PARITY`'s, yet a `LENS_UNIT` does not advance its count of folded units. -/
theorem not_collectivesStart : ¬ Obligations.CollectivesStart := by
  rintro ⟨hroot, -⟩
  obtain ⟨htree, hcolls, hearly, hahead, hdouble⟩ := stagedParityState_root
  obtain ⟨hup, huser, hcmd⟩ := stagedParityState_turn
  obtain ⟨-, -, hunit⟩ := hroot stagedParityState 0 stagedParity htree hcolls hearly hahead hdouble
  obtain ⟨hmore, -⟩ := hunit hup huser rfl hcmd
  obtain ⟨t, ht, -, -, hfolded⟩ := hmore (by decide)
  obtain rfl : stagedParityState = t := Host.Outcome.next.inj (exec_lensUnit_stagedParityState.symm.trans ht)
  rw [hcmd] at hfolded
  exact absurd hfolded (by decide)

end Sys2Proof.Machine
end

section
namespace Sys2Proof.Machine
variable {s t : State} {c : Cmd} {q : Nat}

/-! ## Taking the hash accumulator (R222) -/

/-- The record of a command that has begun: only what is owed for a restore changes (R315). -/
theorem beginCmd_cmd (h : s.cmd c = some c) :
    ∃ d, (beginCmd s c).cmd c = some d ∧ d.conds = c.conds :=
  ⟨_, (State.cmd_of_modified (s := s) (t := beginCmd s c) rfl).trans (congrArg _ h), rfl⟩

/-- The command begins, and the accumulator is its own. -/
def State.takeHash (s : State) (c : Cmd) : State :=
  { beginCmd s c with
    hash := ⟨some (c.qid, c.seq), []⟩
    q := (beginCmd s c).q.updCmd (fun d => d.same c) (fun d => { d with stage := .started, units := 0 }) }

theorem State.takeHash_eq (s : State) (c : Cmd) :
    s.takeHash c = { s with hash := ⟨some (c.qid, c.seq), []⟩, q := (s.takeHash c).q, conf := (s.takeHash c).conf } := rfl

theorem State.takeHash_started (h : s.cmd c = some c) : ((s.takeHash c).cmd c).map (fun d => (d.stage, d.units)) = some (.started, 0) := by
  obtain ⟨d, hd, -⟩ := beginCmd_cmd h
  rw [State.cmd_of_modified (s := beginCmd s c) (t := s.takeHash c) rfl, hd]
  rfl

theorem hashStartable_of_first {op : Nat} (hs : Starts s q op c) (hfree : s.hash.holder = none) (hfirst : hashFirst s c = true) :
    hashStartable s q op = some c := by
  obtain ⟨-, hst, -⟩ := hs
  simp [hashStartable, hfree, hst, hfirst]

theorem embgStart_takes (h : hashStartable s q 0x30 = some c) : embgStart s q = s.takeHash c := by
  simp only [embgStart, h]
  rfl

/-- A `MERGE` of an open pool. -/
theorem mergeStart_open (h : (dieLe s.mem s.extent (c.pf 2 0 48 + 64) 8).testBit 0 = true) : mergeStart s c = s.takeHash c := by
  have hbit : bit (dieLe s.mem s.extent (c.pf 2 0 48 + 64) 8) 0 = true := by simpa [bit, Nat.testBit_zero] using h
  simp only [mergeStart, beginCmd_mem, beginCmd_extent, hbit]
  rfl

/-- A `MERGE` of a pool whose flag is clear. -/
theorem mergeStart_closed (hcmd : s.cmd c = some c) (h : (dieLe s.mem s.extent (c.pf 2 0 48 + 64) 8).testBit 0 = false) :
    OnlyQueues s (mergeStart s c) ∧ EndedWith s (mergeStart s c) c [] := by
  have hbit : bit (dieLe s.mem s.extent (c.pf 2 0 48 + 64) 8) 0 = false := by simpa [bit, Nat.testBit_zero] using h
  obtain ⟨d, hd, hconds⟩ := beginCmd_cmd hcmd
  have hended : (mergeStart s c).cmd c = some { d with stage := .ended } := by
    simp only [mergeStart, beginCmd_mem, beginCmd_extent, hbit]
    exact (State.cmd_of_modified (s := beginCmd s c) rfl).trans (congrArg _ hd)
  refine ⟨?_, by rw [hended]; rfl, by rw [hended, hcmd]; simp [hconds]⟩
  simp only [OnlyQueues, mergeStart, beginCmd_mem, beginCmd_extent, hbit]
  rfl

/-! ## The phases of an EMBG and the fold of a MERGE (R227, R235) -/

theorem hashRunning_spec {op : Nat} (h : hashRunning s q op = some c) :
    s.fw.state ≠ .hung ∧ c ∈ s.q.cmds ∧ c.qid = q ∧ c.op = op ∧ c.stage = .started ∧ powered s c = true := by
  simp only [hashRunning] at h
  split at h
  next => cases h
  next hfw =>
    have hp := List.find?_some h
    simp only [Bool.and_eq_true, beq_iff_eq] at hp
    obtain ⟨⟨⟨hq, hop⟩, hst⟩, hpow⟩ := hp
    exact ⟨hfw, List.mem_of_find?_eq_some h, hq, hop, hst, hpow⟩

theorem embgSort_cmd (h : s.cmd c = some c) (cc : Nat) :
    ∃ d, (embgSort s c cc).cmd c = some d ∧ d.stage = c.stage ∧ d.units = 1 :=
  ⟨_, (State.cmd_of_modified (s := s) rfl).trans (congrArg _ h), rfl, rfl⟩

/-- An accumulate phase that meets no word which cannot be corrected. -/
theorem embgAccumulate_spec (h : s.cmd c = some c) (hmet : metWords s c.job = []) (cc : Nat) :
    (embgAccumulate s c cc).cmd c = some { c with units := 2 } ∧ (embgAccumulate s c cc).hash.holder = s.hash.holder := by
  simp only [embgAccumulate, hmet, List.isEmpty_nil, Bool.not_true, Bool.false_eq_true, if_false]
  exact ⟨(State.cmd_of_modified (s := s) rfl).trans (congrArg _ h), trivial⟩

/-- One that meets such words ends the command (R357). -/
theorem embgAccumulate_uncorr (h : s.cmd c = some c) (hmet : metWords s c.job ≠ []) (cc : Nat) :
    ((embgAccumulate s c cc).cmd c).map (·.stage) = some .ended := by
  have hfail : (embgAccumulate s c cc).cmd c = (failRun s c (metWords s c.job)).cmd c := by
    have hbad : (!(metWords s c.job).isEmpty) = true := by simpa using hmet
    simp only [embgAccumulate, if_pos hbad]
    rfl
  rw [hfail, failRun_cmd, h]
  rfl

theorem embgPhaseStep_accumulates (hrun : hashRunning s q 0x30 = some c) (hphase : c.units = 1) :
    embgPhaseStep s q = embgAccumulate s c (s.conf.job c.job).cores.length := by
  simp only [embgPhaseStep, hrun, hphase]

theorem embgFlush_cmd (h : s.cmd c = some c) (cc : Nat) :
    ((embgFlush s c cc).cmd c).map (·.stage) = some (if c.pb 0 32 then .ended else .started) := by
  rw [State.cmd_of_modified (s := s) (t := embgFlush s c cc) (c := c) rfl, h]
  rfl

theorem embgMerge_cmd (h : s.cmd c = some c) : ((embgMerge s c).cmd c).map (·.stage) = some .ended := by
  rw [State.cmd_of_modified (s := s) (t := embgMerge s c) (c := c) rfl, h]
  rfl

/-- A fold that meets no word which cannot be corrected. -/
theorem mergeFold_spec (hc : c ∈ s.q.cmds) (hmet : metWords s c.job = []) :
    ((mergeFold s c).cmd c).map (·.stage) = some .ended ∧ (mergeFold s c).hash = ⟨none, []⟩ ∧
      (mergeFold s c).mem = (mergePool s.mem s.extent (c.pf 2 0 48)).mem := by
  obtain ⟨d, hd⟩ : ∃ d, s.cmd c = some d :=
    Option.isSome_iff_exists.mp (List.find?_isSome.mpr ⟨c, hc, c.same_self⟩)
  simp only [mergeFold, hmet, List.isEmpty_nil, Bool.not_true, Bool.false_eq_true, if_false]
  refine ⟨?_, trivial, trivial⟩
  rw [State.cmd_of_modified (s := s) (c := c) rfl, hd]
  rfl

/-! ## What EmbgAndMerge turns on (R357, log 76)

A running `EMBG` in its accumulate phase, and the fold of a `MERGE`, end with `UNCORR` where they consume a word that cannot be corrected.
`EmbgAndMerge` has no case for that and no hypothesis that excludes it. Which words of its job's storage a standard command consumes is a free value,
`Config.sampled`, which has no body: the statement holds if that value never names such a word and fails if it names one, so neither it nor its
negation follows from the model. The two theorems at the end say so; the lemmas above give every case of it that asks that no such word is met.
-/

/-- No running `EMBG` or `MERGE` consumes a word that cannot be corrected, in any state. -/
def HashNeverUncorr : Prop :=
  ∀ (s : State) (q : Nat) (c : Cmd), q < Config.queueCount → hashRunning s q 0x30 = some c ∨ hashRunning s q 0x32 = some c → metWords s c.job = []

theorem embgAndMerge_of_hashNeverUncorr (hnever : HashNeverUncorr) : Obligations.EmbgAndMerge := by
  intro s q c
  refine ⟨fun hs hfree hfirst => ?embg, fun hq hrun halone => ⟨fun hphase => ?early, fun hphase => ?flush, fun hphase => ?merge⟩,
    fun hs hfree hrun hfirst => ⟨fun hflag => ?closed, fun hflag => ?opened⟩, fun hq hrun => ?fold⟩
  case embg =>
    have hstep : embgStart s q = s.takeHash c := embgStart_takes (hashStartable_of_first hs hfree hfirst)
    exact ⟨_, onQueue_next.mpr ⟨hs.1, hstep⟩, s.takeHash_eq c, State.takeHash_started hs.cmd_eq⟩
  case closed =>
    have hstep : mergeStep s q = mergeStart s c := by simp only [mergeStep, hrun, hashStartable_of_first hs hfree hfirst]
    obtain ⟨honly, hended⟩ := mergeStart_closed hs.cmd_eq hflag
    exact ⟨_, onQueue_next.mpr ⟨hs.1, hstep⟩, honly, hended⟩
  case opened =>
    have hstep : mergeStep s q = s.takeHash c := by simp only [mergeStep, hrun, hashStartable_of_first hs hfree hfirst, mergeStart_open hflag]
    have hstage := congrArg (Option.map Prod.fst) (State.takeHash_started hs.cmd_eq)
    exact ⟨_, onQueue_next.mpr ⟨hs.1, hstep⟩, s.takeHash_eq c, by simpa [Waits, Function.comp_def] using hstage⟩
  case fold =>
    obtain ⟨-, hmem, -⟩ := hashRunning_spec hrun
    have hstep : mergeStep s q = mergeFold s c := by simp only [mergeStep, hrun]
    exact ⟨_, onQueue_next.mpr ⟨hq, hstep⟩, mergeFold_spec hmem (hnever s q c hq (.inr hrun))⟩
  all_goals
    obtain ⟨-, hmem, -, -, hstage, -⟩ := hashRunning_spec hrun
    have hcmd := halone.cmd_eq hmem
    refine ⟨_, onQueue_next.mpr ⟨hq, rfl⟩, ?_⟩
    simp only [embgPhaseStep, hrun]
  case early =>
    obtain h0 | h1 : c.units = 0 ∨ c.units = 1 := by omega
    · obtain ⟨d, hd, hdstage, hunits⟩ := embgSort_cmd hcmd (s.conf.job c.job).cores.length
      simp only [h0, hd]
      exact ⟨by simp [hdstage, hstage, hunits], rfl⟩
    · obtain ⟨hd, hholder⟩ := embgAccumulate_spec hcmd (hnever s q c hq (.inl hrun)) (s.conf.job c.job).cores.length
      simp only [h1, hd]
      exact ⟨by simp [hstage], hholder⟩
  case flush =>
    simp only [hphase]
    exact ⟨rfl, embgFlush_cmd hcmd _⟩
  case merge =>
    simp only [hphase]
    exact ⟨rfl, embgMerge_cmd hcmd, rfl⟩

/-- It holds if the free value names no word. -/
theorem embgAndMerge_of_sampled_even (hfree : ∀ n k, bit (Config.sampled n k).toNat 0 = false) : Obligations.EmbgAndMerge :=
  embgAndMerge_of_hashNeverUncorr fun s _ c _ _ => by simp [metWords, usedBits, hfree]

/-- An `EMBG` of queue 0 and job 0 that has started and sorted its indices. -/
def sortedEmbg : Cmd :=
  { cmdOf State.reset (QRes.fresh 0 0 (parseCtx 0)) 0 0 with op := 0x30, stage := .started, units := 1 }

/-- That command holds the accumulator. Its job has the eight cores of row 0 and the first 16 MiB of the central store, every domain is `ON`, and the
first word of the partition has an error of two bits. -/
def uncorrEmbgState : State :=
  { State.reset with
    conf := { State.reset.conf with jobs := State.reset.conf.jobs.set 0 { Job.reset with mask := 1, psize := 16, enable := true, active := true } }
    pcores := State.reset.pcores.zipIdx.map (fun e => if e.2 < 8 then { e.1 with pstate := .active, lidA := some e.2 } else e.1)
    power := { State.reset.power with doms := State.reset.power.doms.map (fun d => { d with state := .on }) }
    hash := ⟨some (sortedEmbg.qid, sortedEmbg.seq), []⟩
    flt := { State.reset.flt with double := [(.central, 0)] }
    q := { State.reset.q with cmds := [sortedEmbg] } }

theorem uncorrEmbgState_running : hashRunning uncorrEmbgState 0 0x30 = some sortedEmbg ∧ uncorrEmbgState.Alone sortedEmbg ∧
    uncorrEmbgState.cmd sortedEmbg = some sortedEmbg := by
  unfold State.Alone
  decide

/-- What the free value says of that word. -/
def uncorrEmbgDraw : Nat := (Config.sampled 0 (2 ^ 60 + 2 ^ 48 * 200)).toNat

theorem uncorrEmbgState_meets (hdraw : bit uncorrEmbgDraw 0 = true) : metWords uncorrEmbgState sortedEmbg.job = [(.central, 0)] := by
  have hjob : jobWord uncorrEmbgState sortedEmbg.job (.central, 0) = true := by decide
  have hused : bit (usedBits uncorrEmbgState (.central, 0)) 0 = true := hdraw
  have hkeep : (jobWord uncorrEmbgState sortedEmbg.job (.central, 0) && bit (usedBits uncorrEmbgState (.central, 0)) 0) = true := by
    rw [hjob, hused]
    rfl
  exact List.filter_cons_of_pos hkeep

/-- It fails if the free value names that word: in `uncorrEmbgState` the accumulate phase ends the command. -/
theorem not_embgAndMerge_of_sampled_odd (hdraw : bit uncorrEmbgDraw 0 = true) : ¬ Obligations.EmbgAndMerge := by
  intro h
  obtain ⟨hrun, halone, hcmd⟩ := uncorrEmbgState_running
  obtain ⟨-, hphases, -⟩ := h uncorrEmbgState 0 sortedEmbg
  obtain ⟨hearly, -⟩ := hphases (by decide) hrun halone
  obtain ⟨t, ht, hgoes, -⟩ := hearly (by decide)
  have ht' : onQueue 0 (embgPhaseStep uncorrEmbgState 0) = .next t := ht
  obtain ⟨-, rfl⟩ := onQueue_next.mp ht'
  rw [embgPhaseStep_accumulates hrun rfl] at hgoes
  have hmet : metWords uncorrEmbgState sortedEmbg.job ≠ [] := by simp [uncorrEmbgState_meets hdraw]
  have hends := embgAccumulate_uncorr hcmd hmet (uncorrEmbgState.conf.job sortedEmbg.job).cores.length
  have hstarted := congrArg (Option.map Prod.fst) hgoes
  rw [Option.map_map] at hstarted
  exact absurd (hends.symm.trans hstarted) (by decide)

end Sys2Proof.Machine
end
